-- ==== Sys2Proof/Word.lean ====
section
/-! DEFINITION. Sys2Proof/Word.lean: the word and byte types and the type of an array (00_scope.md R8, R9;
10_state.md R22). -/

namespace Sys2Proof

/-- A register of the host interface (10_state.md R22: "All registers are 32 bits wide"). -/
abbrev Word := BitVec 32

/-- A byte of the input buffer (20_memory.md R60). -/
abbrev Byte := BitVec 8

/-- An array held sparsely: (index, value) pairs with rising indexes and no value equal to what an unlisted
index reads as (log 8). `Machine/Table.lean` reads and writes it. -/
abbrev Table (α : Type) := List (Nat × α)

end Sys2Proof
end

