-- ==== Sys2Proof/Config.lean ====
section
/-! DEFINITION. Sys2Proof/Config.lean: the implementation parameters of 00_scope.md R7. The fixed ones are
constants; the OPEN ones (92_eei_decisions.md D17, D25) are the fields of `Params`, which State holds and no
step writes, so that a statement about every state is a statement about every value of them (log 3). The one free
value, a value that no rule states, is a constant without a body. -/

namespace Sys2Proof.Config

/-- `ADDR_W` = 32: the input buffer has 2^32 bytes (R7, R60). -/
abbrev bufferBytes : Nat := 4294967296

/-- `SPS_SLOTS` (R7). -/
abbrev spsSlots : Nat := 32

/-- `PPS_SLOTS` (R7). -/
abbrev ppsSlots : Nat := 256

/-- `UE_MAX_LZ`: leading zeros of a ue(v) (R7, R110). -/
abbrev ueMaxLz : Nat := 31

/-- `RPLM_CAP` (R7, R280). -/
abbrev rplmCap : Nat := 32

/-- `MMCO_CAP` (R7, R290). -/
abbrev mmcoCap : Nat := 10

/-- `POC_CYCLE_CAP` (R7, R186). -/
abbrev pocCycleCap : Nat := 255

/-- FREE VALUE: `BR_EPB` while `p` lies past the end of the logical stream, which only a host write of the buffer under
the reader can bring about. 10_state.md R25 makes it a function of `BR_BASE`, `BR_SIZE`, `p` and the window's bytes;
40_bitreader.md R103 states no value there (DESIGN CHOICE, log 5). -/
opaque epbPastEnd (base size : Word) (p : Nat) (window : List Byte) : Word

end Sys2Proof.Config

namespace Sys2Proof

/-- The OPEN parameters. A value of 2^32 stands for "no limit": no count of the spec reaches it
(DESIGN CHOICE, log 3). -/
structure Params where
  /-- `SGID_CAP` ≥ 1: entries of `slice_group_id` (43_pps.md R243, D17). -/
  sgidCap : Nat := 4294967296
  /-- `SEI_CAP` ≥ 1: messages of one SEI NAL unit (45_sei.md R330, D25). -/
  seiCap : Nat := 4294967296
deriving DecidableEq, Repr

end Sys2Proof
end

