-- ==== Sys2Proof/Syntax.lean ====
section
/-! DEFINITION. Sys2Proof/Syntax.lean: the commands, one constructor per row of spec/opcode_table.json
(30_encoding.md R82). An operand is the command word's `imm8` field, or the one bit of it the row uses. -/

namespace Sys2Proof

/-- A command of the core (30_encoding.md R80, R82). -/
inductive Instr where
  /-- `BR_INIT`, 0x01 (40_bitreader.md R120). -/
  | brInit
  /-- `BR_READ n`, 0x02 (R121). -/
  | brRead (n : BitVec 8)
  /-- `BR_PEEK n`, 0x03 (R122). -/
  | brPeek (n : BitVec 8)
  /-- `BR_SKIP n`, 0x04 (R123). -/
  | brSkip (n : BitVec 8)
  /-- `BR_SKIP_LONG`, 0x05 (R124). -/
  | brSkipLong
  /-- `BR_READ_UE`, 0x06 (R125). -/
  | brReadUe
  /-- `BR_READ_SE`, 0x07 (R126). -/
  | brReadSe
  /-- `BR_BYTE_ALIGNED`, 0x08 (R127). -/
  | brByteAligned
  /-- `BR_MORE_RBSP_DATA`, 0x09 (R128). -/
  | brMoreRbspData
  /-- `SCAN_START_CODE`, 0x10 (41_nal_locator.md R160). -/
  | scanStartCode
  /-- `IDENTIFY_ANNEXB`, 0x11 (R161). -/
  | identifyAnnexb
  /-- `IDENTIFY_AVC m`, 0x12 (R162). -/
  | identifyAvc (m : BitVec 8)
  /-- `PARSE_SPS`, 0x20, with `imm8[0]` = parse_vui (42_sps.md R230). -/
  | parseSps (parseVui : Bool)
  /-- `PARSE_SUBSET_SPS`, 0x21 (R231). -/
  | parseSubsetSps
  /-- `PARSE_PPS`, 0x22 (43_pps.md R260). -/
  | parsePps
  /-- `PARSE_SLICE_HDR`, 0x23 (44_slice.md R320). -/
  | parseSliceHdr
  /-- `PARSE_SEI`, 0x24 (45_sei.md R360). -/
  | parseSei
deriving DecidableEq, Repr

end Sys2Proof
end

