-- ==== Sys2Proof/WellFormed.lean ====
section
/-! DEFINITION. Sys2Proof/WellFormed.lean: the operand ranges of 30_encoding.md R82 and R85. A command whose
operand is outside its range has an encoding, and running it ends with `ILLEGAL` (log 9). -/

namespace Sys2Proof

/-- A bit count of `BR_READ`, `BR_PEEK`, `BR_SKIP` lies in 1..32 (R85). -/
abbrev bitCountOk (n : BitVec 8) : Bool := 1 ≤ n.toNat && n.toNat ≤ 32

/-- The length-prefix size of `IDENTIFY_AVC` lies in 1..4 (R85). -/
abbrev lengthSizeOk (m : BitVec 8) : Bool := 1 ≤ m.toNat && m.toNat ≤ 4

/-- The operand of a command is in the range R82 gives it. -/
def Instr.wf : Instr → Bool
  | .brInit => true
  | .brRead n => bitCountOk n
  | .brPeek n => bitCountOk n
  | .brSkip n => bitCountOk n
  | .brSkipLong => true
  | .brReadUe => true
  | .brReadSe => true
  | .brByteAligned => true
  | .brMoreRbspData => true
  | .scanStartCode => true
  | .identifyAnnexb => true
  | .identifyAvc m => lengthSizeOk m
  | .parseSps _ => true
  | .parseSubsetSps => true
  | .parsePps => true
  | .parseSliceHdr => true
  | .parseSei => true

end Sys2Proof
end

