-- ==== Sys2Proof/Decode.lean ====
section
/-! DEFINITION. Sys2Proof/Decode.lean: the command word CMD32 (30_encoding.md R80 to R82) and its inverse.
`decode` accepts exactly the words of spec/opcode_table.json's rows (match under mask) and rejects every other
word by name; the operand ranges of R85 are checked where the command runs (log 9). -/

namespace Sys2Proof

/-- Why a command word is no command of R82. Each ends with `ILLEGAL` (R85). -/
inductive DecodeError where
  /-- `CMD[31:16]` is not 0. -/
  | zeroFieldSet
  /-- `imm8` has a bit set that R82 does not use. -/
  | unusedImm8Set
  /-- The opcode is not in R82. -/
  | unknownOpcode
deriving DecidableEq, Repr

/-- `CMD[7:0]` (R80). -/
def opcodeField (w : Word) : BitVec 8 := w.extractLsb' 0 8

/-- `CMD[15:8]` (R80). -/
def imm8Field (w : Word) : BitVec 8 := w.extractLsb' 8 8

/-- `CMD[31:16]` (R80). -/
def zeroField (w : Word) : BitVec 16 := w.extractLsb' 16 16

/-- A command that does not use `imm8`: its bits must be 0 (R80, R85). -/
def withoutImm8 (imm8 : BitVec 8) (i : Instr) : Except DecodeError Instr :=
  if imm8 = 0 then .ok i else .error .unusedImm8Set

/-- The command with an opcode and an `imm8` (R82). -/
def decodeFields (opcode imm8 : BitVec 8) : Except DecodeError Instr :=
  match opcode.toNat with
  | 0x01 => withoutImm8 imm8 .brInit
  | 0x02 => .ok (.brRead imm8)
  | 0x03 => .ok (.brPeek imm8)
  | 0x04 => .ok (.brSkip imm8)
  | 0x05 => withoutImm8 imm8 .brSkipLong
  | 0x06 => withoutImm8 imm8 .brReadUe
  | 0x07 => withoutImm8 imm8 .brReadSe
  | 0x08 => withoutImm8 imm8 .brByteAligned
  | 0x09 => withoutImm8 imm8 .brMoreRbspData
  | 0x10 => withoutImm8 imm8 .scanStartCode
  | 0x11 => withoutImm8 imm8 .identifyAnnexb
  | 0x12 => .ok (.identifyAvc imm8)
  | 0x20 => if imm8.toNat ≤ 1 then .ok (.parseSps (imm8 = 1)) else .error .unusedImm8Set
  | 0x21 => withoutImm8 imm8 .parseSubsetSps
  | 0x22 => withoutImm8 imm8 .parsePps
  | 0x23 => withoutImm8 imm8 .parseSliceHdr
  | 0x24 => withoutImm8 imm8 .parseSei
  | _ => .error .unknownOpcode

/-- The command a word stands for (R80, R82, R85). -/
def decode (w : Word) : Except DecodeError Instr :=
  if zeroField w = 0 then decodeFields (opcodeField w) (imm8Field w) else .error .zeroFieldSet

/-- The opcode of a command (R82). -/
def opcodeOf : Instr → BitVec 8
  | .brInit => 0x01
  | .brRead _ => 0x02
  | .brPeek _ => 0x03
  | .brSkip _ => 0x04
  | .brSkipLong => 0x05
  | .brReadUe => 0x06
  | .brReadSe => 0x07
  | .brByteAligned => 0x08
  | .brMoreRbspData => 0x09
  | .scanStartCode => 0x10
  | .identifyAnnexb => 0x11
  | .identifyAvc _ => 0x12
  | .parseSps _ => 0x20
  | .parseSubsetSps => 0x21
  | .parsePps => 0x22
  | .parseSliceHdr => 0x23
  | .parseSei => 0x24

/-- The `imm8` of a command (R82): its operand, or 0. -/
def imm8Of : Instr → BitVec 8
  | .brRead n => n
  | .brPeek n => n
  | .brSkip n => n
  | .identifyAvc m => m
  | .parseSps v => if v then 1 else 0
  | .brInit => 0
  | .brSkipLong => 0
  | .brReadUe => 0
  | .brReadSe => 0
  | .brByteAligned => 0
  | .brMoreRbspData => 0
  | .scanStartCode => 0
  | .identifyAnnexb => 0
  | .parseSubsetSps => 0
  | .parsePps => 0
  | .parseSliceHdr => 0
  | .parseSei => 0

/-- The word of a command: `zero ++ imm8 ++ opcode` (R80). -/
def encode (i : Instr) : Word := (0 : BitVec 16) ++ imm8Of i ++ opcodeOf i

/-- The command the decoder reads from a word given by its bits, bit 0 the least significant; bits from `nbits`
up are 0. A command is one 32-bit register write, so there is no byte order to lay it out in (R80, R63). -/
def decodeTableWord (nbits w : Nat) : Option Instr :=
  match decode (BitVec.ofNat 32 (w % 2 ^ nbits)) with
  | .ok i => some i
  | .error _ => none

end Sys2Proof
end

