-- ==== Sys2Proof/Machine/State.lean ====
section
/-! DEFINITION. Sys2Proof/Machine/State.lean: everything the spec gives the machine (10_state.md), as plain data.
Fields carry the spec's own names. A 1-bit field is a `Bool`; a wider one a bit vector of its storage width,
signed ones in two's complement; an array is a `Table` whose unlisted entries read as 0 (log 8). Every default is
the reset value of 70_reset_and_hazards.md R430. -/

namespace Sys2Proof.Machine

/-- The status code (10_state.md R24). Codes 8..15 are reserved and never written. -/
inductive Code where
  /-- 0 `OK`. -/
  | ok
  /-- 1 `BROKEN_LINK`: a referenced parameter set is absent. -/
  | brokenLink
  /-- 2 `BROKEN_DATA`: NAL header or payload inconsistent. -/
  | brokenData
  /-- 3 `NO_NAL`: no start code found. -/
  | noNal
  /-- 4 `NO_NAL_END`: start found but incomplete. -/
  | noNalEnd
  /-- 5 `ERROR`: generic parse failure. -/
  | error
  /-- 6 `INSUFFICIENT_DATA`: a host bit-reader command ran past the end. -/
  | insufficientData
  /-- 7 `ILLEGAL`: not a legal command word or operands. -/
  | illegal
deriving DecidableEq, Repr

/-- The `STATUS` register: the code of bits 3:0 and `WARN`, bit 8; the other bits are 0 (R22, R23). -/
structure Status where
  code : Code := .ok
  warn : Bool := false
deriving DecidableEq, Repr

/-- `NALU.extension_type` (R30): 0 `NONE`, 1 `SVC`, 2 `MVC`. -/
inductive NaluExt where
  | none
  | svc
  | mvc
deriving DecidableEq, Repr

/-- `extension_type` of an SPS (R42): 0 `NONE`, 1 `MVC`, 2 `OTHER`. -/
inductive SpsExt where
  | none
  | mvc
  | other
deriving DecidableEq, Repr

/-- `kind` of an SEI message (R48): 0 to 4 the five structured payloads, 7 skipped. -/
inductive SeiKind where
  | bufferingPeriod
  | picTiming
  | recoveryPoint
  | stereoVideo
  | framePacking
  | skipped
deriving DecidableEq, Repr

/-- The MVC fields of a 4-byte NAL header (R30, R90). -/
structure NaluMvc where
  non_idr_flag : Bool := false
  priority_id : BitVec 6 := 0
  view_id : BitVec 10 := 0
  temporal_id : BitVec 3 := 0
  anchor_pic_flag : Bool := false
  inter_view_flag : Bool := false
deriving DecidableEq, Repr

/-- The NALU record (R30), written by the locator commands and read by the parse commands. -/
structure Nalu where
  valid : Bool := false
  base : BitVec 32 := 0
  sc_offset : BitVec 32 := 0
  offset : BitVec 32 := 0
  size : BitVec 32 := 0
  type : BitVec 5 := 0
  ref_idc : BitVec 2 := 0
  idr_pic_flag : Bool := false
  header_bytes : BitVec 3 := 0
  extension_type : NaluExt := .none
  svc_extension_flag : Bool := false
  mvc : NaluMvc := {}
deriving DecidableEq, Repr

/-- An HRD record (R44). -/
structure Hrd where
  cpb_cnt_minus1 : BitVec 5 := 0
  bit_rate_scale : BitVec 4 := 0
  cpb_size_scale : BitVec 4 := 0
  bit_rate_value_minus1 : Table (BitVec 32) := []   -- [32]
  cpb_size_value_minus1 : Table (BitVec 32) := []   -- [32]
  cbr_flag : Table Bool := []   -- [32]
  initial_cpb_removal_delay_length_minus1 : BitVec 5 := 0
  cpb_removal_delay_length_minus1 : BitVec 5 := 0
  dpb_output_delay_length_minus1 : BitVec 5 := 0
  time_offset_length : BitVec 5 := 0
deriving DecidableEq, Repr

/-- The VUI record (R43). -/
structure Vui where
  aspect_ratio_info_present_flag : Bool := false
  aspect_ratio_idc : BitVec 8 := 0
  sar_width : BitVec 16 := 0
  sar_height : BitVec 16 := 0
  overscan_info_present_flag : Bool := false
  overscan_appropriate_flag : Bool := false
  video_signal_type_present_flag : Bool := false
  video_format : BitVec 3 := 0
  video_full_range_flag : Bool := false
  colour_description_present_flag : Bool := false
  colour_primaries : BitVec 8 := 0
  transfer_characteristics : BitVec 8 := 0
  matrix_coefficients : BitVec 8 := 0
  chroma_loc_info_present_flag : Bool := false
  chroma_sample_loc_type_top_field : BitVec 3 := 0
  chroma_sample_loc_type_bottom_field : BitVec 3 := 0
  timing_info_present_flag : Bool := false
  num_units_in_tick : BitVec 32 := 0
  time_scale : BitVec 32 := 0
  fixed_frame_rate_flag : Bool := false
  nal_hrd_parameters_present_flag : Bool := false
  nal_hrd : Hrd := {}
  vcl_hrd_parameters_present_flag : Bool := false
  vcl_hrd : Hrd := {}
  low_delay_hrd_flag : Bool := false
  pic_struct_present_flag : Bool := false
  bitstream_restriction_flag : Bool := false
  motion_vectors_over_pic_boundaries_flag : Bool := false
  max_bytes_per_pic_denom : BitVec 5 := 0
  max_bits_per_mb_denom : BitVec 5 := 0
  log2_max_mv_length_horizontal : BitVec 5 := 0
  log2_max_mv_length_vertical : BitVec 5 := 0
  max_num_reorder_frames : BitVec 32 := 0
  max_dec_frame_buffering : BitVec 32 := 0
deriving DecidableEq, Repr

/-- One view of the MVC record (R45). -/
structure MvcView where
  view_id : BitVec 10 := 0
  num_anchor_refs_l0 : BitVec 4 := 0
  anchor_ref_l0 : Table (BitVec 10) := []   -- [15]
  num_anchor_refs_l1 : BitVec 4 := 0
  anchor_ref_l1 : Table (BitVec 10) := []   -- [15]
  num_non_anchor_refs_l0 : BitVec 4 := 0
  non_anchor_ref_l0 : Table (BitVec 10) := []   -- [15]
  num_non_anchor_refs_l1 : BitVec 4 := 0
  non_anchor_ref_l1 : Table (BitVec 10) := []   -- [15]
deriving DecidableEq, Repr

/-- One operation point of an MVC level value (R45). -/
structure MvcOp where
  temporal_id : BitVec 3 := 0
  num_target_views_minus1 : BitVec 10 := 0
  target_view_id : Table (BitVec 10) := []   -- [MVC_TVIEWS_CAP = 1024]
  num_views_minus1 : BitVec 10 := 0
deriving DecidableEq, Repr

/-- One level value of the MVC record (R45). -/
structure MvcLevel where
  level_idc : BitVec 8 := 0
  num_applicable_ops_minus1 : BitVec 10 := 0
  op : Table MvcOp := []   -- [MVC_OPS_CAP = 1024]
deriving DecidableEq, Repr

/-- The MVC record (R45). -/
structure Mvc where
  num_views_minus1 : BitVec 10 := 0
  view : Table MvcView := []   -- [MVC_VIEWS_CAP = 1024]
  num_level_values_signalled_minus1 : BitVec 6 := 0
  level_value : Table MvcLevel := []   -- [MVC_LEVELS_CAP = 64]
deriving DecidableEq, Repr

/-- The twelve scaling lists of an SPS or a PPS (R42, R46), list[i] of R191. -/
structure Lists where
  scaling_lists_4x4 : Table (Table (BitVec 8)) := []   -- [6] x [16]
  scaling_lists_8x8 : Table (Table (BitVec 8)) := []   -- [6] x [64]
deriving DecidableEq, Repr

/-- An SPS record (R42): a store slot or the working record WSPS. -/
structure Sps where
  valid : Bool := false
  id : BitVec 5 := 0
  profile_idc : BitVec 8 := 0
  constraint_set0_flag : Bool := false
  constraint_set1_flag : Bool := false
  constraint_set2_flag : Bool := false
  constraint_set3_flag : Bool := false
  constraint_set4_flag : Bool := false
  constraint_set5_flag : Bool := false
  level_idc : BitVec 8 := 0
  chroma_format_idc : BitVec 2 := 0
  separate_colour_plane_flag : Bool := false
  bit_depth_luma_minus8 : BitVec 3 := 0
  bit_depth_chroma_minus8 : BitVec 3 := 0
  qpprime_y_zero_transform_bypass_flag : Bool := false
  scaling_matrix_present_flag : Bool := false
  lists : Lists := {}
  log2_max_frame_num_minus4 : BitVec 4 := 0
  pic_order_cnt_type : BitVec 2 := 0
  log2_max_pic_order_cnt_lsb_minus4 : BitVec 4 := 0
  delta_pic_order_always_zero_flag : Bool := false
  offset_for_non_ref_pic : BitVec 32 := 0   -- signed
  offset_for_top_to_bottom_field : BitVec 32 := 0   -- signed
  num_ref_frames_in_pic_order_cnt_cycle : BitVec 8 := 0
  offset_for_ref_frame : Table (BitVec 32) := []   -- [POC_CYCLE_CAP = 255], signed
  num_ref_frames : BitVec 32 := 0
  gaps_in_frame_num_value_allowed_flag : Bool := false
  pic_width_in_mbs_minus1 : BitVec 32 := 0
  pic_height_in_map_units_minus1 : BitVec 32 := 0
  frame_mbs_only_flag : Bool := false
  mb_adaptive_frame_field_flag : Bool := false
  direct_8x8_inference_flag : Bool := false
  frame_cropping_flag : Bool := false
  frame_crop_left_offset : BitVec 32 := 0
  frame_crop_right_offset : BitVec 32 := 0
  frame_crop_top_offset : BitVec 32 := 0
  frame_crop_bottom_offset : BitVec 32 := 0
  vui_parameters_present_flag : Bool := false
  vui : Vui := {}
  chroma_array_type : BitVec 2 := 0
  max_frame_num : BitVec 32 := 0
  width : BitVec 32 := 0
  height : BitVec 32 := 0
  crop_rect_width : BitVec 32 := 0
  crop_rect_height : BitVec 32 := 0
  crop_rect_x : BitVec 32 := 0
  crop_rect_y : BitVec 32 := 0
  extension_type : SpsExt := .none
  mvc : Mvc := {}
deriving DecidableEq, Repr

/-- A PPS record (R46): a store slot or the working record WPPS. -/
structure Pps where
  valid : Bool := false
  id : BitVec 8 := 0
  sps_id : BitVec 5 := 0
  entropy_coding_mode_flag : Bool := false
  bottom_field_pic_order_in_frame_present_flag : Bool := false
  num_slice_groups_minus1 : BitVec 3 := 0
  slice_group_map_type : BitVec 3 := 0
  run_length_minus1 : Table (BitVec 32) := []   -- [8]
  top_left : Table (BitVec 32) := []   -- [8]
  bottom_right : Table (BitVec 32) := []   -- [8]
  slice_group_change_direction_flag : Bool := false
  slice_group_change_rate_minus1 : BitVec 32 := 0
  pic_size_in_map_units_minus1 : BitVec 32 := 0
  slice_group_id : Table (BitVec 3) := []   -- [SGID_CAP]
  num_ref_idx_l0_default_active_minus1 : BitVec 5 := 0
  num_ref_idx_l1_default_active_minus1 : BitVec 5 := 0
  weighted_pred_flag : Bool := false
  weighted_bipred_idc : BitVec 2 := 0
  pic_init_qp_minus26 : BitVec 8 := 0   -- signed
  pic_init_qs_minus26 : BitVec 8 := 0   -- signed
  chroma_qp_index_offset : BitVec 8 := 0   -- signed
  deblocking_filter_control_present_flag : Bool := false
  constrained_intra_pred_flag : Bool := false
  redundant_pic_cnt_present_flag : Bool := false
  transform_8x8_mode_flag : Bool := false
  pic_scaling_matrix_present_flag : Bool := false
  lists : Lists := {}
  second_chroma_qp_index_offset : BitVec 8 := 0   -- signed
deriving DecidableEq, Repr

/-- One entry of a reference-picture-list modification (R47). -/
structure Rplm where
  idc : BitVec 3 := 0
  value : BitVec 32 := 0
deriving DecidableEq, Repr

/-- The modification of reference list X, X in 0, 1 (R47). -/
structure RplmList where
  ref_pic_list_modification_flag : Bool := false
  n_ref_pic_list_modification : BitVec 6 := 0
  rplm : Table Rplm := []   -- [RPLM_CAP = 32]
deriving DecidableEq, Repr

/-- The weights and offsets of reference list X, X in 0, 1 (R47). -/
structure PwtList where
  luma_weight : Table (BitVec 16) := []   -- [32], signed
  luma_offset : Table (BitVec 8) := []   -- [32], signed
  chroma_weight : Table (Table (BitVec 16)) := []   -- [32] x [2], signed
  chroma_offset : Table (Table (BitVec 8)) := []   -- [32] x [2], signed
deriving DecidableEq, Repr

/-- The prediction-weight table (R47). -/
structure Pwt where
  luma_log2_weight_denom : BitVec 3 := 0
  chroma_log2_weight_denom : BitVec 3 := 0
  l0 : PwtList := {}
  l1 : PwtList := {}
deriving DecidableEq, Repr

/-- One memory-management control operation (R47). -/
structure Mmco where
  op : BitVec 3 := 0
  difference_of_pic_nums_minus1 : BitVec 32 := 0
  long_term_pic_num : BitVec 32 := 0
  long_term_frame_idx : BitVec 32 := 0
  max_long_term_frame_idx_plus1 : BitVec 32 := 0
deriving DecidableEq, Repr

/-- Decoded-reference-picture marking (R47). -/
structure Drpm where
  no_output_of_prior_pics_flag : Bool := false
  long_term_reference_flag : Bool := false
  adaptive_ref_pic_marking_mode_flag : Bool := false
  n_ref_pic_marking : BitVec 4 := 0
  mmco : Table Mmco := []   -- [MMCO_CAP = 10]
deriving DecidableEq, Repr

/-- The SLICE record (R47). -/
structure Slice where
  first_mb_in_slice : BitVec 32 := 0
  slice_type : BitVec 4 := 0
  pps_id : BitVec 8 := 0
  colour_plane_id : BitVec 2 := 0
  frame_num : BitVec 16 := 0
  field_pic_flag : Bool := false
  bottom_field_flag : Bool := false
  idr_pic_id : BitVec 16 := 0
  pic_order_cnt_lsb : BitVec 16 := 0
  delta_pic_order_cnt_bottom : BitVec 32 := 0   -- signed
  delta_pic_order_cnt : Table (BitVec 32) := []   -- [2], signed
  redundant_pic_cnt : BitVec 7 := 0
  direct_spatial_mv_pred_flag : Bool := false
  num_ref_idx_active_override_flag : Bool := false
  num_ref_idx_l0_active_minus1 : BitVec 5 := 0
  num_ref_idx_l1_active_minus1 : BitVec 5 := 0
  mod_l0 : RplmList := {}
  mod_l1 : RplmList := {}
  pwt : Pwt := {}
  drpm : Drpm := {}
  cabac_init_idc : BitVec 2 := 0
  slice_qp_delta : BitVec 8 := 0   -- signed
  sp_for_switch_flag : Bool := false
  slice_qs_delta : BitVec 8 := 0   -- signed
  disable_deblocking_filter_idc : BitVec 2 := 0
  slice_alpha_c0_offset_div2 : BitVec 4 := 0   -- signed
  slice_beta_offset_div2 : BitVec 4 := 0   -- signed
  slice_group_change_cycle : BitVec 32 := 0
  max_pic_num : BitVec 32 := 0
  header_size : BitVec 32 := 0
  n_emulation_prevention_bytes : BitVec 32 := 0
deriving DecidableEq, Repr

/-- The fields of a buffering-period message (R351). -/
structure BufferingPeriod where
  sps_id : BitVec 5 := 0
  nal_initial_cpb_removal_delay : Table (BitVec 32) := []   -- [32]
  nal_initial_cpb_removal_delay_offset : Table (BitVec 32) := []   -- [32]
  vcl_initial_cpb_removal_delay : Table (BitVec 32) := []   -- [32]
  vcl_initial_cpb_removal_delay_offset : Table (BitVec 32) := []   -- [32]
deriving DecidableEq, Repr

/-- One clock timestamp of a picture-timing message (R352). -/
structure ClockTimestamp where
  ct_type : BitVec 2 := 0
  nuit_field_based_flag : Bool := false
  counting_type : BitVec 5 := 0
  full_timestamp_flag : Bool := false
  discontinuity_flag : Bool := false
  cnt_dropped_flag : Bool := false
  n_frames : BitVec 8 := 0
  seconds_flag : Bool := false
  seconds_value : BitVec 6 := 0
  minutes_flag : Bool := false
  minutes_value : BitVec 6 := 0
  hours_flag : Bool := false
  hours_value : BitVec 5 := 0
  time_offset : BitVec 32 := 0   -- signed
deriving DecidableEq, Repr

/-- The fields of a picture-timing message (R352). -/
structure PicTiming where
  cpb_removal_delay : BitVec 32 := 0
  dpb_output_delay : BitVec 32 := 0
  pic_struct : BitVec 4 := 0
  clock_timestamp_flag : Table Bool := []   -- [3]
  clock_timestamp : Table ClockTimestamp := []   -- [3]
deriving DecidableEq, Repr

/-- The fields of a recovery-point message (R353). -/
structure RecoveryPoint where
  recovery_frame_cnt : BitVec 16 := 0
  exact_match_flag : Bool := false
  broken_link_flag : Bool := false
  changing_slice_group_idc : BitVec 2 := 0
deriving DecidableEq, Repr

/-- The fields of a stereo-video-info message (R354). -/
structure StereoVideo where
  field_views_flag : Bool := false
  top_field_is_left_view_flag : Bool := false
  current_frame_is_left_view_flag : Bool := false
  next_frame_is_second_view_flag : Bool := false
  left_view_self_contained_flag : Bool := false
  right_view_self_contained_flag : Bool := false
deriving DecidableEq, Repr

/-- The fields of a frame-packing-arrangement message (R355). -/
structure FramePacking where
  frame_packing_arrangement_id : BitVec 32 := 0
  cancel_flag : Bool := false
  arrangement_type : BitVec 7 := 0
  quincunx_sampling_flag : Bool := false
  content_interpretation_type : BitVec 6 := 0
  spatial_flipping_flag : Bool := false
  frame0_flipped_flag : Bool := false
  field_views_flag : Bool := false
  current_frame_is_frame0_flag : Bool := false
  frame0_self_contained_flag : Bool := false
  frame1_self_contained_flag : Bool := false
  frame0_grid_position_x : BitVec 4 := 0
  frame0_grid_position_y : BitVec 4 := 0
  frame1_grid_position_x : BitVec 4 := 0
  frame1_grid_position_y : BitVec 4 := 0
  reserved_byte : BitVec 8 := 0
  repetition_period : BitVec 32 := 0
  extension_flag : Bool := false
deriving DecidableEq, Repr

/-- One SEI message record (R48, R350): the fields of the other kinds are 0. -/
structure SeiMsg where
  payload_type : BitVec 32 := 0
  payload_size : BitVec 32 := 0
  kind : SeiKind := .bufferingPeriod
  bp : BufferingPeriod := {}
  pt : PicTiming := {}
  rp : RecoveryPoint := {}
  sv : StereoVideo := {}
  fpa : FramePacking := {}
deriving DecidableEq, Repr
/-- The SEI list (R48): `SEI_COUNT` and the messages. -/
structure SeiList where
  count : Nat := 0
  msgs : Table SeiMsg := []   -- [SEI_CAP]
deriving DecidableEq, Repr

/-- A register the host may read by name (R22). -/
inductive HostReg where
  | cmd
  | status
  | arg0
  | arg1
  | arg2
  | arg3
  | result
  | brBase
  | brSize
  | brPos
  | brEpb
  | brFail
  | lastSps
  | lastPps
deriving DecidableEq, Repr

/-- One access of the host that changes something (R20, R22; 20_memory.md R60, R67; log 1). -/
inductive HostOp where
  /-- A write of `CMD`, which runs the command (R20). -/
  | cmd (w : Word)
  /-- A write of `ARG0` to `ARG3`. -/
  | arg (k : Fin 4) (v : Word)
  /-- A write of one byte of the input buffer, which the host owns. -/
  | buf (a : Word) (b : Byte)
  /-- Power-on reset of the core (70_reset_and_hazards.md R430, R431; log 14). -/
  | reset
deriving DecidableEq, Repr

/-- The memory of the input buffer (20_memory.md R60): unwritten bytes read as 0 (log 2). -/
abbrev Memory := List Host.Cell

/-- The machine: the core's registers and records, the input buffer, and the model's own `host` and `params`. -/
structure State where
  /-- The input buffer (20_memory.md R60). -/
  mem : Memory := []
  /-- The model's own: the host accesses to come, in order (log 1). -/
  host : List HostOp := []
  /-- The model's own: the OPEN parameters, written by nothing (log 3). -/
  params : Params := {}
  /-- `STATUS` (R22). -/
  status : Status := {}
  /-- `ARG0` (R22). -/
  arg0 : Word := 0
  /-- `ARG1` (R22). -/
  arg1 : Word := 0
  /-- `ARG2` (R22). -/
  arg2 : Word := 0
  /-- `ARG3` (R22): no command reads it. -/
  arg3 : Word := 0
  /-- `RESULT` (R22). -/
  result : Word := 0
  /-- `BR_BASE` (R22, R25). -/
  br_base : Word := 0
  /-- `BR_SIZE` (R22, R25). -/
  br_size : Word := 0
  /-- The logical bit position `p` (R26); the register `BR_POS` shows its low 32 bits (log 4). -/
  br_pos : Nat := 0
  /-- `BR_EPB` (R22, R25, 40_bitreader.md R103): recomputed when `p` changes and when the buffer does (log 5). -/
  br_epb : Word := 0
  /-- `BR_FAIL` (R22, 40_bitreader.md R106). -/
  br_fail : Bool := false
  /-- `LAST_SPS` (R22): 0x3F is none. -/
  last_sps : BitVec 6 := 0x3F
  /-- `LAST_PPS` (R22): 0x1FF is none. -/
  last_pps : BitVec 9 := 0x1FF
  /-- The NALU record (R30). -/
  nalu : Nalu := {}
  /-- The SPS slots 0..31 (R40). -/
  sps : Table Sps := []
  /-- The PPS slots 0..255 (R40). -/
  pps : Table Pps := []
  /-- `WSPS` (R41). -/
  wsps : Sps := {}
  /-- `WPPS` (R41). -/
  wpps : Pps := {}
  /-- `SLICE` (R41, R47). -/
  slice : Slice := {}
  /-- The SEI list (R48). -/
  sei : SeiList := {}
deriving DecidableEq, Repr

/-- The machine after reset (70_reset_and_hazards.md R430): every field at its default. The buffer has no byte
written, no host access is pending, and the OPEN parameters have the values of log 3. -/
def State.reset : State := {}

/-- Why the machine stops with a fault: nothing does. A failing check is a status code that ends the command
(60_exceptions.md R400), and no trap exists (R411); so this type has no constructor (log 15). -/
inductive Fault where
deriving DecidableEq, Repr

/-- Why the model has no meaning for a command. -/
inductive Refusal where
  /-- Raised by `exec` alone, for a command without a meaning yet; safe. No arm raises it. -/
  | notModelled (mnemonic : String)
deriving DecidableEq, Repr

end Sys2Proof.Machine
end

