-- ==== Sys2Proof/Machine/Table.lean ====
section
/-! DEFINITION. Sys2Proof/Machine/Table.lean: reading and writing an array, the one home of the canonical form
(log 8). `d` is what an unlisted index reads as: 0 for a register array, the zero record for a record array. -/

namespace Sys2Proof.Machine

/-- Entry `i` of an array. -/
def Table.read {α : Type} (t : Table α) (d : α) (i : Nat) : α :=
  match t with
  | [] => d
  | (k, v) :: rest => if k = i then v else Table.read rest d i

/-- The array with entry `i` written: a value equal to `d` leaves no entry, and the indexes stay rising. -/
def Table.write {α : Type} [DecidableEq α] (t : Table α) (d : α) (i : Nat) (v : α) : Table α :=
  match t with
  | [] => if v = d then [] else [(i, v)]
  | (k, w) :: rest =>
    if i < k then
      if v = d then (k, w) :: rest else (i, v) :: (k, w) :: rest
    else if i = k then
      if v = d then rest else (i, v) :: rest
    else (k, w) :: Table.write rest d i v

/-- The array whose entries from index `i` on are the listed values. -/
def Table.ofList {α : Type} [DecidableEq α] (d : α) (i : Nat) : List α → Table α
  | [] => []
  | v :: vs => if v = d then Table.ofList d (i + 1) vs else (i, v) :: Table.ofList d (i + 1) vs

/-- Every index listed is at least `lo`, the indexes rise, and no value is `d`. -/
def Table.wfFrom {α : Type} [DecidableEq α] (d : α) (lo : Nat) : Table α → Bool
  | [] => true
  | (k, v) :: rest => decide (lo ≤ k) && decide (v ≠ d) && Table.wfFrom d (k + 1) rest

/-- The canonical form of an array. -/
def Table.wf {α : Type} [DecidableEq α] (d : α) (t : Table α) : Bool := Table.wfFrom d 0 t

/-- Every index listed is below `n`. -/
def Table.below {α : Type} (n : Nat) : Table α → Bool
  | [] => true
  | (k, _) :: rest => decide (k < n) && Table.below n rest

end Sys2Proof.Machine
end

