-- ==== Sys2Proof/Machine/Reader.lean ====
section
/-! DEFINITION. Sys2Proof/Machine/Reader.lean: the bit reader's functions (40_bitreader.md section 1) over the raw
bytes of a window and over the list of logical bits still unread. A function that can fail answers `none`. -/

namespace Sys2Proof.Machine

/-- The logical stream of a window: each logical byte with its index in the raw window (R102). -/
abbrev Stream := List (Nat × Byte)

/-- R101, R102: walks the raw window from index `i`; `zeros` counts the raw zero bytes just before it. A 0x03
after two raw zero bytes is an emulation-prevention byte and is dropped; every other byte passes. -/
def destuffFrom (i zeros : Nat) : List Byte → Stream
  | [] => []
  | b :: bs =>
    if 2 ≤ zeros ∧ b = 3 then destuffFrom (i + 1) 0 bs
    else (i, b) :: destuffFrom (i + 1) (if b = 0 then zeros + 1 else 0) bs

/-- The logical stream of a raw window; the detection window starts empty (R101, D10). -/
def destuff (w : List Byte) : Stream := destuffFrom 0 0 w

/-- The bits of a byte, most significant first (00_scope.md R8). -/
def byteBits (b : Byte) : List Bool :=
  [b.getLsbD 7, b.getLsbD 6, b.getLsbD 5, b.getLsbD 4, b.getLsbD 3, b.getLsbD 2, b.getLsbD 1, b.getLsbD 0]

/-- The logical bits of a stream, in reading order (R102): `8 L` of them. -/
def logicalBits (st : Stream) : List Bool := st.flatMap fun e => byteBits e.2

/-- `BR_EPB` at logical position `p` (R103): 0 while no byte is fetched, else `rawpos(k-1) - (k-1)` for
`k = ceil(p / 8)`. -/
def epbCount (st : Stream) (p : Nat) : Nat :=
  match (p + 7) / 8 with
  | 0 => 0
  | k + 1 => (st.getD k (0, 0)).1 - k

/-- `raw_pos()` (R114). -/
def rawPos (st : Stream) (p : Nat) : Nat := p + 8 * epbCount st p

/-- Appends the next `n` bits to the value `acc`, most significant first; fails where fewer are left (R104). -/
def takeBits : Nat → Nat → List Bool → Option Nat
  | 0, acc, _ => some acc
  | _ + 1, _, [] => none
  | n + 1, acc, b :: bs => takeBits n (2 * acc + b.toNat) bs

/-- `read_u(n)` on the unread bits (R104); for `n = 0` the value 0 and no bit read (R105). -/
def readU (n : Nat) (bits : List Bool) : Option Nat := takeBits n 0 bits

/-- The zero bits before the first 1 bit; none where no 1 bit is left (R110). -/
def leadingZeros : List Bool → Option Nat
  | [] => none
  | true :: _ => some 0
  | false :: bs => (leadingZeros bs).map (· + 1)

/-- `read_ue()` (R110): the value and the number of bits read. More than 31 leading zeros fail. -/
def readUe (bits : List Bool) : Option (Nat × Nat) :=
  match leadingZeros bits with
  | none => none
  | some lz =>
    if Config.ueMaxLz < lz then none
    else
      match readU lz (bits.drop (lz + 1)) with
      | none => none
      | some info => some (2 ^ lz - 1 + info, 2 * lz + 1)

/-- The signed value of the code number `k` (R111, 30_encoding.md R92). -/
def signedOf (k : Nat) : Int := if k % 2 = 1 then ((k + 1) / 2 : Nat) else -((k / 2 : Nat) : Int)

/-- `read_se()` (R111): the value and the number of bits read. -/
def readSe (bits : List Bool) : Option (Int × Nat) :=
  match readUe bits with
  | none => none
  | some (k, n) => some (signedOf k, n)

/-- `more_rbsp_data()` on the unread bits (R116): false at the end and at a 1 bit followed only by 0 bits. -/
def moreRbspData : List Bool → Bool
  | [] => false
  | false :: _ => true
  | true :: bs => bs.any id

end Sys2Proof.Machine
end

