-- ==== Sys2Proof/Machine/Ops.lean ====
section
/-! DEFINITION. Sys2Proof/Machine/Ops.lean: the named operations over the input buffer and the registers: reading
and writing bytes, ending a command with a status (the machine's one form of exception, 60_exceptions.md R400),
the bit-reader registers, the parameter-set store, host accesses. -/

namespace Sys2Proof.Machine

/-! ## The input buffer (20_memory.md) -/

/-- What a byte of the buffer reads as that no host write has reached (DESIGN CHOICE, log 2). -/
def unwrittenByte : Byte := 0

/-- `MemRead(a, 1)` (R60). -/
def Memory.byte (m : Memory) (a : Word) : Byte := Table.read m unwrittenByte a.toNat

/-- A host write of one byte (R60: the core never writes). -/
def Memory.store (m : Memory) (a : Word) (b : Byte) : Memory := Table.write m unwrittenByte a.toNat b

/-- The bytes of the window of `n` bytes at `base`, in order (R100). -/
def Memory.window (m : Memory) (base : Word) (n : Nat) : List Byte :=
  (List.range n).map fun i => m.byte (base + BitVec.ofNat 32 i)

/-- The big-endian value of the `n` bytes at `a` (R63). -/
def Memory.bigEndian (m : Memory) (a : Word) (n : Nat) : Nat :=
  (m.window a n).foldl (fun acc b => 256 * acc + b.toNat) 0

/-- The canonical form of the buffer: rising addresses below 2^32, no byte listed that reads the same unlisted. -/
def Memory.wf (m : Memory) : Bool := Table.wf unwrittenByte m && Table.below Config.bufferBytes m

/-! ## Ending a command (60_exceptions.md R400) -/

/-- The number of a status code (10_state.md R24). -/
def Code.num : Code → Nat
  | .ok => 0
  | .brokenLink => 1
  | .brokenData => 2
  | .noNal => 3
  | .noNalEnd => 4
  | .error => 5
  | .insufficientData => 6
  | .illegal => 7

/-- The command ends and writes `STATUS` (R400): success, or a failed check that ends it at once. `WARN` was
cleared when the command started (10_state.md R23), so it holds what this command set. Nothing else is saved or
changed: no trap is taken (R411), and there is none to return from (R412). -/
def State.finish (s : State) (c : Code) (warn : Bool) : State := { s with status := { code := c, warn := warn } }

/-- `raise Status(ILLEGAL)` before anything is done: no other state change (30_encoding.md R85; `WARN`: log 6). -/
def State.illegal (s : State) : State := s.finish .illegal false

/-! ## The bit-reader registers (40_bitreader.md) -/

/-- The logical stream of the window `BR_BASE`, `BR_SIZE` (R100 to R102). -/
def State.stream (s : State) : Stream := destuff (s.mem.window s.br_base s.br_size.toNat)

/-- `8 L`, the number of logical bits (R102). -/
def State.bitLength (s : State) : Nat := 8 * s.stream.length

/-- The logical bits not yet read. -/
def State.unread (s : State) : List Bool := (logicalBits s.stream).drop s.br_pos

/-- `BR_EPB` as a function of `BR_BASE`, `BR_SIZE`, `p` and the buffer's bytes (10_state.md R25, R103). Past the end of
the logical stream it is the free value (log 5). -/
def State.epbByRule (s : State) : Word :=
  if s.br_pos ≤ s.bitLength then BitVec.ofNat 32 (epbCount s.stream s.br_pos)
  else Config.epbPastEnd s.br_base s.br_size s.br_pos (s.mem.window s.br_base s.br_size.toNat)

/-- `p <- p + n`, within the stream; `BR_EPB` is recomputed when `p` changes (R103). -/
def State.advance (s : State) (n : Nat) : State :=
  if n = 0 then s
  else { s with br_pos := s.br_pos + n, br_epb := BitVec.ofNat 32 (epbCount s.stream (s.br_pos + n)) }

/-- `BR_Init(base, size)` (R118). -/
def State.brInit (s : State) (base size : Word) : State :=
  { s with br_base := base, br_size := size, br_pos := 0, br_epb := 0, br_fail := false }

/-- A host read, skip or code that fails: `p` is unchanged, `BR_FAIL` is set, the status is `INSUFFICIENT_DATA`
(R106). -/
def State.readFails (s : State) : State := { s with br_fail := true }.finish .insufficientData false

/-- A host read or skip of `n` bits that succeeds: `RESULT` and `p` are written (R121 to R126). -/
def State.readEnds (s : State) (n : Nat) (v : Word) : State := { s.advance n with result := v }.finish .ok false

/-- A host query that succeeds: `RESULT` alone is written (R122, R127, R128). -/
def State.queryEnds (s : State) (v : Word) : State := { s with result := v }.finish .ok false

/-! ## The parameter-set store (46_store.md) -/

/-- `SPS[id]` (R372): the zero record, with `valid` 0, where nothing is stored. -/
def spsSlot (t : Table Sps) (id : Nat) : Sps := Table.read t {} id

/-- `PPS[id]` (R372). -/
def ppsSlot (t : Table Pps) (id : Nat) : Pps := Table.read t {} id

/-- `store_sps(W)` (R370). -/
def State.storeSps (s : State) (w : Sps) : State :=
  { s with sps := Table.write s.sps {} w.id.toNat w, last_sps := w.id.setWidth 6 }

/-- `store_pps(W)` (R371). -/
def State.storePps (s : State) (w : Pps) : State :=
  { s with pps := Table.write s.pps {} w.id.toNat w, last_pps := w.id.setWidth 9 }

/-- `LAST_SPS` = none (R373). -/
def noLastSps (l : BitVec 6) : Bool := l == 0x3F

/-! ## Host accesses (10_state.md R20, R22) -/

/-- A register as the host reads it (R22); a read changes nothing (log 17). -/
def State.readReg (s : State) : HostReg → Word
  | .cmd => 0
  | .status => BitVec.ofNat 32 (s.status.code.num + 256 * s.status.warn.toNat)
  | .arg0 => s.arg0
  | .arg1 => s.arg1
  | .arg2 => s.arg2
  | .arg3 => s.arg3
  | .result => s.result
  | .brBase => s.br_base
  | .brSize => s.br_size
  | .brPos => BitVec.ofNat 32 s.br_pos
  | .brEpb => s.br_epb
  | .brFail => BitVec.ofNat 32 s.br_fail.toNat
  | .lastSps => s.last_sps.setWidth 32
  | .lastPps => s.last_pps.setWidth 32

/-- A write of `ARGk`. -/
def State.writeArg (s : State) (k : Fin 4) (v : Word) : State :=
  match k with
  | 0 => { s with arg0 := v }
  | 1 => { s with arg1 := v }
  | 2 => { s with arg2 := v }
  | 3 => { s with arg3 := v }

/-- A host write of one byte of the buffer. `BR_EPB` follows it, being a function of the buffer's bytes (10_state.md
R25, 70_reset_and_hazards.md R440). -/
def State.writeByte (s : State) (a : Word) (b : Byte) : State :=
  { s with mem := s.mem.store a b, br_epb := { s with mem := s.mem.store a b }.epbByRule }

/-- Power-on reset (70_reset_and_hazards.md R430): the core's registers, records and store take their reset
values. The host's own things stay: the buffer, its accesses to come, and the parameters (log 14). -/
def State.powerOn (s : State) : State :=
  { State.reset with mem := s.mem, host := s.host, params := s.params }

/-- The state with the host's next access taken off the list. -/
def State.popHost (s : State) : State := { s with host := s.host.tail }

/-- A host access that runs no command. A write of `CMD` is not one: `step` runs it. -/
def State.hostAccess (s : State) : HostOp → State
  | .cmd _ => s
  | .arg k v => s.writeArg k v
  | .buf a b => s.writeByte a b
  | .reset => s.powerOn

end Sys2Proof.Machine
end

