-- ==== Sys2Proof/Machine/Operands.lean ====
section
/-! DEFINITION. Sys2Proof/Machine/Operands.lean: operand assembly and the operand checks of 30_encoding.md R81 and
R85. `imm8` and `ARG0` to `ARG2` are zero-extended; an address plus a size is computed in unbounded integers. -/

namespace Sys2Proof.Machine

/-- The window of `size` bytes at `base` ends beyond 2^32 (R85, 20_memory.md R60). -/
def windowPast (base size : Word) : Bool := Config.bufferBytes < base.toNat + size.toNat

/-- The operands of `IDENTIFY_ANNEXB` and `IDENTIFY_AVC` are illegal (R85): the buffer `ARG0`, `ARG2` ends beyond
2^32, or the offset `ARG1` lies past its size `ARG2`. -/
def locatorIllegal (s : State) : Bool := windowPast s.arg0 s.arg2 || decide (s.arg2.toNat < s.arg1.toNat)

/-- The record admits a parse command: it is valid, and its size is not below its header (42_sps.md R180). -/
def naluReady (n : Nalu) : Bool := n.valid && decide (n.header_bytes.toNat ≤ n.size.toNat)

/-- The payload's address (40_bitreader.md R118): `NALU.base + NALU.offset + NALU.header_bytes`. -/
def payloadBase (n : Nalu) : Word := n.base + n.offset + n.header_bytes.setWidth 32

/-- The payload's size (R118): `NALU.size - NALU.header_bytes`. -/
def payloadSize (n : Nalu) : Word := n.size - n.header_bytes.setWidth 32

end Sys2Proof.Machine
end

