-- ==== Sys2Proof/Machine/Flags.lean ====
section
/-! DEFINITION. Sys2Proof/Machine/Flags.lean: the conditions that set a flag. The flags are `STATUS.WARN`
(10_state.md R23) and `BR_FAIL` (40_bitreader.md R106); no other condition code exists (10_state.md R49). -/

namespace Sys2Proof.Machine

/-- `WARN` by 42_sps.md R211: a zero numerator or denominator of the VUI timing. -/
def timingWarns (num_units_in_tick time_scale : Nat) : Bool := num_units_in_tick == 0 || time_scale == 0

/-- `WARN` by 45_sei.md R345: the first alignment bit is not the stop bit 1. -/
def stopBitWarns (b : Nat) : Bool := b != 1

/-- `WARN` by 45_sei.md R345: a later alignment bit is not 0. -/
def padBitWarns (b : Nat) : Bool := b != 0

/-- The sticky flag (R106): while `BR_FAIL` is 1 a host bit-reader command ends at once with `INSUFFICIENT_DATA`;
else the command goes on as `k`. -/
def State.unlessFailed (s : State) (k : State) : State :=
  if s.br_fail then s.finish .insufficientData false else k

end Sys2Proof.Machine
end

