-- ==== Sys2Proof/Machine/BitReader.lean ====
section
/-! DEFINITION. Sys2Proof/Machine/BitReader.lean: the host bit-reader commands (40_bitreader.md section 2). Each
clears `WARN` and never sets it. -/

namespace Sys2Proof.Machine

/-- `skip(n)` and `skip_long(n)` at the host interface (R108, R109): fails when `p + n > 8 L`. -/
def State.skipBits (s : State) (n : Nat) : State :=
  if s.bitLength < s.br_pos + n then s.readFails else s.readEnds n 0

/-- `BR_INIT` (R120). -/
def execBrInit (s : State) : Host.Outcome State Fault Refusal :=
  .next (if windowPast s.arg0 s.arg1 then s.illegal else (s.brInit s.arg0 s.arg1).queryEnds 0)

/-- `BR_READ n` (R121). -/
def execBrRead (n : BitVec 8) (s : State) : Host.Outcome State Fault Refusal :=
  .next (if bitCountOk n then
      s.unlessFailed (match readU n.toNat s.unread with
        | some v => s.readEnds n.toNat (BitVec.ofNat 32 v)
        | none => s.readFails)
    else s.illegal)

/-- `BR_PEEK n` (R122): neither a success nor a failure moves `p` or sets `BR_FAIL`. -/
def execBrPeek (n : BitVec 8) (s : State) : Host.Outcome State Fault Refusal :=
  .next (if bitCountOk n then
      s.unlessFailed (match readU n.toNat s.unread with
        | some v => s.queryEnds (BitVec.ofNat 32 v)
        | none => s.finish .insufficientData false)
    else s.illegal)

/-- `BR_SKIP n` (R123). -/
def execBrSkip (n : BitVec 8) (s : State) : Host.Outcome State Fault Refusal :=
  .next (if bitCountOk n then s.unlessFailed (s.skipBits n.toNat) else s.illegal)

/-- `BR_SKIP_LONG` (R124). -/
def execBrSkipLong (s : State) : Host.Outcome State Fault Refusal :=
  .next (s.unlessFailed (s.skipBits s.arg0.toNat))

/-- `BR_READ_UE` (R125). -/
def execBrReadUe (s : State) : Host.Outcome State Fault Refusal :=
  .next (s.unlessFailed (match readUe s.unread with
    | some (v, n) => s.readEnds n (BitVec.ofNat 32 v)
    | none => s.readFails))

/-- `BR_READ_SE` (R126): the value in two's complement. -/
def execBrReadSe (s : State) : Host.Outcome State Fault Refusal :=
  .next (s.unlessFailed (match readSe s.unread with
    | some (v, n) => s.readEnds n (BitVec.ofInt 32 v)
    | none => s.readFails))

/-- `BR_BYTE_ALIGNED` (R127, R112). -/
def execBrByteAligned (s : State) : Host.Outcome State Fault Refusal :=
  .next (s.unlessFailed (s.queryEnds (if s.br_pos % 8 = 0 then 1 else 0)))

/-- `BR_MORE_RBSP_DATA` (R128, R116). -/
def execBrMoreRbspData (s : State) : Host.Outcome State Fault Refusal :=
  .next (s.unlessFailed (s.queryEnds (if moreRbspData s.unread then 1 else 0)))

end Sys2Proof.Machine
end

