-- ==== Sys2Proof/Machine/Locator.lean ====
section
/-! DEFINITION. Sys2Proof/Machine/Locator.lean: the NAL-unit locator (41_nal_locator.md). Bytes are compared raw
(R140); none of its commands touches the bit reader or the store. -/

namespace Sys2Proof.Machine

/-! ## Functions -/

/-- The bytes 00 00 01 stand at `a` (R140). -/
def startCodeAt (m : Memory) (a : Word) : Bool := m.byte a == 0 && m.byte (a + 1) == 0 && m.byte (a + 2) == 1

/-- The least of the `k` offsets from `i` on at which a start code stands. -/
def scanFrom (m : Memory) (a : Word) : Nat → Nat → Option Nat
  | 0, _ => none
  | k + 1, i => if startCodeAt m (a + BitVec.ofNat 32 i) then some i else scanFrom m a k (i + 1)

/-- `scan_sc(a, n)` (R140): the offsets 0 to n - 4, so that a fourth byte follows the pattern (C6). -/
def scanStartCode (m : Memory) (a : Word) (n : Nat) : Option Nat := scanFrom m a (n - 3) 0

/-- The 24 extension bits after the header byte at `a` (30_encoding.md R90). -/
def extensionBits (m : Memory) (a : Word) : BitVec 24 := m.byte (a + 1) ++ m.byte (a + 2) ++ m.byte (a + 3)

/-- The fields of a header byte (R141, 30_encoding.md R88); `forbidden_zero_bit` is not looked at (R142). -/
def Nalu.withHeaderByte (n : Nalu) (h : Byte) : Nalu :=
  { n with
    type := h.extractLsb' 0 5, ref_idc := h.extractLsb' 5 2, idr_pic_flag := h.extractLsb' 0 5 == 5
    header_bytes := 1, extension_type := .none }

/-- The fields of a 4-byte header (R141, R144, 30_encoding.md R90). -/
def Nalu.withExtension (n : Nalu) (x : BitVec 24) : Nalu :=
  if x.getLsbD 23 then
    { n with svc_extension_flag := true, extension_type := .svc, header_bytes := 4 }
  else
    { n with
      svc_extension_flag := false, extension_type := .mvc, header_bytes := 4
      mvc :=
        { non_idr_flag := x.getLsbD 22, priority_id := x.extractLsb' 16 6, view_id := x.extractLsb' 6 10
          temporal_id := x.extractLsb' 3 3, anchor_pic_flag := x.getLsbD 2, inter_view_flag := x.getLsbD 1 }
      idr_pic_flag := !x.getLsbD 22 }

/-- A NAL unit of this type has a 4-byte header (R141, 30_encoding.md R89). -/
def extendedType (t : BitVec 5) : Bool := t == 14 || t == 20

/-- `parse_header(N)` (R141): whether it succeeds, and the record as far as it is filled (R143). -/
def parseHeader (m : Memory) (n : Nalu) : Bool × Nalu :=
  if n.size.toNat < 1 then (false, n)
  else
    let n1 := n.withHeaderByte (m.byte (n.base + n.offset))
    if extendedType n1.type then
      if n.size.toNat < 4 then (false, n1)
      else (true, n1.withExtension (extensionBits m (n.base + n.offset)))
    else (true, n1)

/-- R145: the start code of an SPS, PPS or access-unit delimiter begins one byte earlier where a fourth zero byte
stands before it. -/
def fourByteStart (m : Memory) (n : Nalu) : Nalu :=
  if 0 < n.sc_offset.toNat ∧ m.byte (n.base + n.sc_offset - 1) = 0 ∧ (n.type = 7 ∨ n.type = 8 ∨ n.type = 9) then
    { n with sc_offset := n.sc_offset - 1 }
  else n

/-- R147: `off2` less the zero bytes that end the `off2` bytes at `a`. -/
def trimZeros (m : Memory) (a : Word) : Nat → Nat
  | 0 => 0
  | k + 1 => if m.byte (a + BitVec.ofNat 32 k) = 0 then trimZeros m a k else k + 1

/-- The size of a NAL unit whose header is parsed, in a buffer of `size` bytes (R146, R147, R161). -/
def annexbEnd (m : Memory) (size : Word) (n : Nalu) : Code × Nalu :=
  if n.type = 10 ∨ n.type = 11 then (.ok, { n with size := 1 })
  else
    match scanStartCode m (n.base + n.offset) (size.toNat - n.offset.toNat) with
    | none => (.noNalEnd, n)
    | some off2 =>
      let len := trimZeros m (n.base + n.offset) off2
      (if len < 2 then .brokenData else .ok, { n with size := BitVec.ofNat 32 len })

/-- `identify_nalu_annexb(data, offset, size)` (R161): the status and the NALU record. -/
def identifyAnnexb (m : Memory) (base offset size : Word) : Code × Nalu :=
  if size.toNat < offset.toNat + 4 then (.error, { base := base })
  else
    match scanStartCode m (base + offset) (size.toNat - offset.toNat) with
    | none => (.noNal, { base := base })
    | some off1 =>
      let header := offset + BitVec.ofNat 32 off1 + 3
      match parseHeader m
          { base := base, sc_offset := offset + BitVec.ofNat 32 off1, offset := header, size := size - header } with
      | (false, n) => (.brokenData, n)
      | (true, n) => annexbEnd m size (fourByteStart m { n with valid := true })

/-- `identify_nalu_avc(data, offset, size, m)` (R162): the status and the NALU record. -/
def identifyAvc (m : Memory) (lengthSize : BitVec 8) (base offset size : Word) : Code × Nalu :=
  if size.toNat < offset.toNat + lengthSize.toNat then (.error, { base := base })
  else
    let len := m.bigEndian (base + offset) lengthSize.toNat
    let n : Nalu :=
      { base := base, sc_offset := offset, offset := offset + lengthSize.setWidth 32, size := BitVec.ofNat 32 len }
    if size.toNat - offset.toNat < len + lengthSize.toNat then (.noNalEnd, { n with size := 0 })
    else
      match parseHeader m n with
      | (false, n) => (.brokenData, n)
      | (true, n) => (.ok, { n with valid := true })

/-- The locator's answer is written: the NALU record, then `STATUS`. -/
def State.located (s : State) (r : Code × Nalu) : State := { s with nalu := r.2 }.finish r.1 false

/-! ## Commands -/

/-- `SCAN_START_CODE` (R160): it leaves the NALU record alone. -/
def execScanStartCode (s : State) : Host.Outcome State Fault Refusal :=
  .next (if windowPast s.arg0 s.arg1 then s.illegal
    else
      match scanStartCode s.mem s.arg0 s.arg1.toNat with
      | none => { s with result := 0xFFFFFFFF }.finish .noNal false
      | some i => s.queryEnds (BitVec.ofNat 32 i))

/-- `IDENTIFY_ANNEXB` (R161). -/
def execIdentifyAnnexb (s : State) : Host.Outcome State Fault Refusal :=
  .next (if locatorIllegal s then s.illegal else s.located (identifyAnnexb s.mem s.arg0 s.arg1 s.arg2))

/-- `IDENTIFY_AVC m` (R162). -/
def execIdentifyAvc (m : BitVec 8) (s : State) : Host.Outcome State Fault Refusal :=
  .next (if lengthSizeOk m && !locatorIllegal s then s.located (identifyAvc s.mem m s.arg0 s.arg1 s.arg2)
    else s.illegal)

end Sys2Proof.Machine
end

