-- ==== Sys2Proof/Machine/Parser.lean ====
section
/-! DEFINITION. Sys2Proof/Machine/Parser.lean: what the parse commands share: the primitives of 00_scope.md R10
and the prologue of 42_sps.md R180. A parse runs over the reader and ONE record; whatever else it looks at is an
argument. So what it cannot write is plain from its type. A failed check ends it with a code and keeps what was
written (60_exceptions.md R405). -/

namespace Sys2Proof.Machine

/-- The reader while a command parses: the bits unread, `p`, `BR_FAIL`, and the `WARN` this command has set. -/
structure Reader where
  rest : List Bool
  p : Nat := 0
  fail : Bool := false
  warn : Bool := false
deriving DecidableEq, Repr

/-- The reader and the record being filled. -/
structure PState (R : Type) where
  rd : Reader
  out : R

/-- A parse that fills a record of type `R`. -/
abbrev Parse (R α : Type) := EStateM Code (PState R) α

/-- The reader after `n` bits. -/
def Reader.advance (r : Reader) (n : Nat) : Reader := { r with rest := r.rest.drop n, p := r.p + n }

/-- `raise Status(c)` (R10). -/
def raiseCode {R α : Type} (c : Code) : Parse R α := fun st => .error c st

/-- A read that fails ends the command with `ERROR`, `p` where the read began and `BR_FAIL` set
(60_exceptions.md R406). -/
def readFailure {R α : Type} : Parse R α := fun st => .error .error { st with rd := { st.rd with fail := true } }

/-- `BR.read_u(n)` inside a parse (R10). -/
def getU {R : Type} (n : Nat) : Parse R Nat := fun st =>
  match readU n st.rd.rest with
  | some v => .ok v { st with rd := st.rd.advance n }
  | none => readFailure st

/-- `BR.read_ue()` inside a parse. -/
def getUe {R : Type} : Parse R Nat := fun st =>
  match readUe st.rd.rest with
  | some (v, n) => .ok v { st with rd := st.rd.advance n }
  | none => readFailure st

/-- `BR.read_se()` inside a parse. -/
def getSe {R : Type} : Parse R Int := fun st =>
  match readSe st.rd.rest with
  | some (v, n) => .ok v { st with rd := st.rd.advance n }
  | none => readFailure st

/-- `skip_long(n)` inside a parse (40_bitreader.md R109). -/
def skipLong {R : Type} (n : Nat) : Parse R Unit := fun st =>
  if st.rd.rest.length < n then readFailure st else .ok () { st with rd := st.rd.advance n }

/-- The record as filled so far. -/
def look {R : Type} : Parse R R := fun st => .ok st.out st

/-- The reader. -/
def reader {R : Type} : Parse R Reader := fun st => .ok st.rd st

/-- Writes to the record. -/
def put {R : Type} (f : R → R) : Parse R Unit := fun st => .ok () { st with out := f st.out }

/-- Sets `WARN` where `b` holds; nothing clears it (R23). -/
def warnIf {R : Type} (b : Bool) : Parse R Unit := fun st =>
  .ok () { st with rd := { st.rd with warn := st.rd.warn || b } }

/-- Ends the command with `c` unless `b` holds. -/
def require {R : Type} (b : Bool) (c : Code) : Parse R Unit := if b then pure () else raiseCode c

/-- Goes on with `m` where `b` holds. -/
def whenever {R : Type} (b : Bool) (m : Parse R Unit) : Parse R Unit := if b then m else pure ()

/-- `more_rbsp_data()` inside a parse: it ignores `BR_FAIL` and changes nothing (R116). -/
def moreData {R : Type} : Parse R Bool := fun st => .ok (moreRbspData st.rd.rest) st

/-- Runs the parse of a sub-record within the record that holds it: what it wrote is kept, whether it ended well
or not (R405). -/
def within {R A α : Type} (get : R → A) (set : R → A → R) (m : Parse A α) : Parse R α := fun st =>
  match m { rd := st.rd, out := get st.out } with
  | .ok a e => .ok a { rd := e.rd, out := set st.out e.out }
  | .error c e => .error c { rd := e.rd, out := set st.out e.out }

/-- Runs `f i`, `f (i + 1)`, ... `k` times. -/
def loopFrom {R : Type} (f : Nat → Parse R Unit) : Nat → Nat → Parse R Unit
  | 0, _ => pure ()
  | k + 1, i => do f i; loopFrom f k (i + 1)

/-! ## Elements of a syntax table. A value goes into its field first and is range-checked next (R10, R407); a
field holds the low bits of a value that is wider (R9; log 7). -/

/-- `READ_U(x, n)`. -/
def elemU {R : Type} (n : Nat) (w : R → Nat → R) : Parse R Unit := do
  let v ← getU n
  put (w · v)

/-- `READ_U(x, 1)` of a flag. -/
def elemFlag {R : Type} (w : R → Bool → R) : Parse R Unit := do
  let v ← getU 1
  put (w · (v == 1))

/-- `READ_UE(x)`. -/
def elemUe {R : Type} (w : R → Nat → R) : Parse R Unit := do
  let v ← getUe
  put (w · v)

/-- `READ_UE_MAX(x, m)`. -/
def elemUeMax {R : Type} (m : Int) (w : R → Nat → R) : Parse R Unit := do
  let v ← getUe
  put (w · v)
  require (decide ((v : Int) ≤ m)) .error

/-- `READ_SE(x)`. -/
def elemSe {R : Type} (w : R → Int → R) : Parse R Unit := do
  let v ← getSe
  put (w · v)

/-- `READ_SE_RANGE(x, lo, hi)`. -/
def elemSeRange {R : Type} (lo hi : Int) (w : R → Int → R) : Parse R Unit := do
  let v ← getSe
  put (w · v)
  require (decide (lo ≤ v ∧ v ≤ hi)) .error

/-! ## The frame of a parse command (42_sps.md R180) -/

/-- The state after a parse: the reader's registers describe it (70_reset_and_hazards.md R441). -/
def State.withReader (s : State) (base size : Word) (st : Stream) (r : Reader) : State :=
  { s with
    br_base := base, br_size := size, br_pos := r.p, br_epb := BitVec.ofNat 32 (epbCount st r.p), br_fail := r.fail }

/-- The payload's logical stream (R118, R180). -/
def State.payloadStream (s : State) : Stream :=
  destuff (s.mem.window (payloadBase s.nalu) (payloadSize s.nalu).toNat)

/-- A parse command: the NALU check, the destination zeroed to `zero`, the reader over the payload, the syntax
`body`, the record written by `write`, on success the store by `store`, and the status (R180, 60_exceptions.md
R400, R404). -/
def State.parse {R : Type} (s : State) (zero : R) (body : Stream → Parse R Unit) (write : State → R → State)
    (store : State → R → State) : State :=
  if naluReady s.nalu then
    let st := s.payloadStream
    let after := s.withReader (payloadBase s.nalu) (payloadSize s.nalu) st
    match body st { rd := { rest := logicalBits st }, out := zero } with
    | .ok _ e => (store (write (after e.rd) e.out) e.out).finish .ok e.rd.warn
    | .error c e => (write (after e.rd) e.out).finish c e.rd.warn
  else s.finish .error false

end Sys2Proof.Machine
end

