-- ==== Sys2Proof/Machine/Scaling.lean ====
section
/-! DEFINITION. Sys2Proof/Machine/Scaling.lean: the scaling lists shared by SPS and PPS (42_sps.md section 3), in
scan order. `list[i]` is `scaling_lists_4x4[i]` for i < 6 and `scaling_lists_8x8[i - 6]` from 6 on (R191). -/

namespace Sys2Proof.Machine

/-- One scaling list: its entries in scan order. -/
abbrev ScalingList := Table (BitVec 8)

/-- `X.list[i]` (R191). -/
def Lists.list (x : Lists) (i : Nat) : ScalingList :=
  if i < 6 then Table.read x.scaling_lists_4x4 [] i else Table.read x.scaling_lists_8x8 [] (i - 6)

/-- `X.list[i] <- l`. -/
def Lists.setList (x : Lists) (i : Nat) (l : ScalingList) : Lists :=
  if i < 6 then { x with scaling_lists_4x4 := Table.write x.scaling_lists_4x4 [] i l }
  else { x with scaling_lists_8x8 := Table.write x.scaling_lists_8x8 [] (i - 6) l }

/-- A list from its values. -/
def listOf (l : List (BitVec 8)) : ScalingList := Table.ofList 0 0 l

/-- The number of entries of list `i`. -/
def listSize (i : Nat) : Nat := if i < 6 then 16 else 64

/-- `Default_4x4_Intra` (R194). -/
def default4x4Intra : ScalingList := listOf [6, 13, 13, 20, 20, 20, 28, 28, 28, 28, 32, 32, 32, 37, 37, 42]

/-- `Default_4x4_Inter` (R194). -/
def default4x4Inter : ScalingList := listOf [10, 14, 14, 20, 20, 20, 24, 24, 24, 24, 27, 27, 27, 30, 30, 34]

/-- `Default_8x8_Intra` (R194). -/
def default8x8Intra : ScalingList := listOf (
  [6, 10, 10, 13, 11, 13, 16, 16, 16, 16, 18, 18, 18, 18, 18, 23] ++
  [23, 23, 23, 23, 23, 25, 25, 25, 25, 25, 25, 25, 27, 27, 27, 27] ++
  [27, 27, 27, 27, 29, 29, 29, 29, 29, 29, 29, 31, 31, 31, 31, 31] ++
  [31, 33, 33, 33, 33, 33, 36, 36, 36, 36, 38, 38, 38, 40, 40, 42])

/-- `Default_8x8_Inter` (R194). -/
def default8x8Inter : ScalingList := listOf (
  [9, 13, 13, 15, 13, 15, 17, 17, 17, 17, 19, 19, 19, 19, 19, 21] ++
  [21, 21, 21, 21, 21, 22, 22, 22, 22, 22, 22, 22, 24, 24, 24, 24] ++
  [24, 24, 24, 24, 25, 25, 25, 25, 25, 25, 25, 27, 27, 27, 27, 27] ++
  [27, 28, 28, 28, 28, 28, 30, 30, 30, 30, 32, 32, 32, 33, 33, 35])

/-- `Default(i)` (R192). -/
def defaultList (i : Nat) : ScalingList :=
  if i < 3 then default4x4Intra
  else if i < 6 then default4x4Inter
  else if i % 2 = 0 then default8x8Intra
  else default8x8Inter

/-- `Flat_16` of the size of list `i` (R195). -/
def flatList (i : Nat) : ScalingList := listOf (List.replicate (listSize i) 16)

/-- All twelve lists `Flat_16` (R183). -/
def flatLists : Lists := (List.range 12).foldl (fun x i => x.setList i (flatList i)) {}

/-- The list that list `i` falls back to within the same parse, for the lists that have one (R193): list i - 1
of a 4x4 family, list i - 2 of an 8x8 family. -/
def cascadeFrom (i : Nat) : Option Nat :=
  if i = 1 ∨ i = 2 ∨ i = 4 ∨ i = 5 then some (i - 1)
  else if 8 ≤ i then some (i - 2)
  else none

/-- `Fallback(i, X, rule)` (R193): `inherited` is none for rule A and the SPS's lists for rule B. -/
def fallbackList (inherited : Option Lists) (x : Lists) (i : Nat) : ScalingList :=
  match cascadeFrom i with
  | some k => x.list k
  | none =>
    match inherited with
    | none => defaultList i
    | some q => q.list i

/-- The entries of list `i` from `j` on, `k` of them (R192): `last` and `next` are the running scales. -/
def scalingEntries (i : Nat) : Nat → Nat → Nat → Nat → Parse Lists Unit
  | 0, _, _, _ => pure ()
  | k + 1, j, last, next =>
    if next ≠ 0 then do
      let delta ← getSe
      require (decide (-128 ≤ delta ∧ delta ≤ 127)) .error
      let next' := ((last + delta + 256) % 256).toNat
      if j = 0 ∧ next' = 0 then put (·.setList i (defaultList i))
      else do
        let v := if next' = 0 then last else next'
        put fun x => x.setList i (Table.write (x.list i) 0 j (BitVec.ofNat 8 v))
        scalingEntries i k (j + 1) v next'
    else do
      put fun x => x.setList i (Table.write (x.list i) 0 j (BitVec.ofNat 8 last))
      scalingEntries i k (j + 1) last next

/-- `scaling_list(X.list[i], size, Default(i))` (R192). -/
def scalingList (i : Nat) : Parse Lists Unit := scalingEntries i (listSize i) 0 8 8

/-- One list of `scaling_matrix` (R191): its presence flag is read only for i < n_lists. -/
def scalingMatrixList (nLists : Nat) (inherited : Option Lists) (i : Nat) : Parse Lists Unit := do
  let present ← if i < nLists then getU 1 else pure 0
  if present = 1 then scalingList i
  else put fun x => x.setList i (fallbackList inherited x i)

/-- `scaling_matrix(X, n_lists, rule)` (R191). -/
def scalingMatrix (nLists : Nat) (inherited : Option Lists) : Parse Lists Unit :=
  loopFrom (scalingMatrixList nLists inherited) 12 0

end Sys2Proof.Machine
end

