-- ==== Sys2Proof/Machine/Pps.lean ====
section
/-! DEFINITION. Sys2Proof/Machine/Pps.lean: the PPS (43_pps.md). `Q` is the SPS the PPS names, as it is stored when
the PPS is parsed (R241). -/

namespace Sys2Proof.Machine

/-- `CeilLog2(x)`: the least `n` with `2^n ≥ x` (00_scope.md R9). -/
def ceilLog2 (x : Nat) : Nat := if x ≤ 1 then 0 else (x - 1).log2 + 1

/-- Map type 2: the rectangle of slice group `g` (R243). -/
def ppsRectangle (g : Nat) : Parse Pps Unit := do
  elemUe fun r v => { r with top_left := Table.write r.top_left 0 g (BitVec.ofNat 32 v) }
  elemUe fun r v => { r with bottom_right := Table.write r.bottom_right 0 g (BitVec.ofNat 32 v) }

/-- Map type 6: the slice-group ids (R243); `SGID_CAP` is the OPEN parameter (D17). -/
def ppsSliceGroupIds (sgidCap : Nat) : Parse Pps Unit := do
  elemUe fun r v => { r with pic_size_in_map_units_minus1 := BitVec.ofNat 32 v }
  let r ← look
  require (decide (r.pic_size_in_map_units_minus1.toNat + 1 ≤ sgidCap)) .error
  let w := ceilLog2 (r.num_slice_groups_minus1.toNat + 1)
  loopFrom (fun u => elemU w fun r v => { r with slice_group_id := Table.write r.slice_group_id 0 u (BitVec.ofNat 3 v) })
    (r.pic_size_in_map_units_minus1.toNat + 1) 0

/-- The slice-group map (R243). -/
def ppsSliceGroups (sgidCap : Nat) : Parse Pps Unit := do
  elemUeMax 6 fun r v => { r with slice_group_map_type := BitVec.ofNat 3 v }
  let r ← look
  let n := r.num_slice_groups_minus1.toNat
  let t := r.slice_group_map_type.toNat
  if t = 0 then
    loopFrom (fun g => elemUe fun r v =>
      { r with run_length_minus1 := Table.write r.run_length_minus1 0 g (BitVec.ofNat 32 v) }) (n + 1) 0
  else if t = 2 then loopFrom ppsRectangle n 0
  else if 3 ≤ t ∧ t ≤ 5 then do
    elemFlag fun r v => { r with slice_group_change_direction_flag := v }
    elemUe fun r v => { r with slice_group_change_rate_minus1 := BitVec.ofNat 32 v }
  else whenever (t == 6) (ppsSliceGroupIds sgidCap)

/-- `qp_bd_offset` (R244, C7): the source's formula. -/
def qpBdOffset (q : Sps) : Nat := 6 * (q.bit_depth_luma_minus8.toNat + q.separate_colour_plane_flag.toNat)

/-- Rows 3 to 16 of R240. -/
def ppsBody (sgidCap : Nat) (q : Sps) : Parse Pps Unit := do
  elemFlag fun r v => { r with entropy_coding_mode_flag := v }
  elemFlag fun r v => { r with bottom_field_pic_order_in_frame_present_flag := v }
  elemUeMax 7 fun r v => { r with num_slice_groups_minus1 := BitVec.ofNat 3 v }
  whenever (decide (0 < (← look).num_slice_groups_minus1.toNat)) (ppsSliceGroups sgidCap)
  elemUeMax 31 fun r v => { r with num_ref_idx_l0_default_active_minus1 := BitVec.ofNat 5 v }
  elemUeMax 31 fun r v => { r with num_ref_idx_l1_default_active_minus1 := BitVec.ofNat 5 v }
  elemFlag fun r v => { r with weighted_pred_flag := v }
  elemU 2 fun r v => { r with weighted_bipred_idc := BitVec.ofNat 2 v }
  require (decide ((← look).weighted_bipred_idc.toNat ≤ 2)) .error
  elemSeRange (-(26 + qpBdOffset q)) 25 fun r v => { r with pic_init_qp_minus26 := BitVec.ofInt 8 v }
  elemSeRange (-26) 25 fun r v => { r with pic_init_qs_minus26 := BitVec.ofInt 8 v }
  elemSeRange (-12) 12 fun r v => { r with chroma_qp_index_offset := BitVec.ofInt 8 v }
  elemFlag fun r v => { r with deblocking_filter_control_present_flag := v }
  elemFlag fun r v => { r with constrained_intra_pred_flag := v }
  elemFlag fun r v => { r with redundant_pic_cnt_present_flag := v }

/-- `n_lists` of the PPS's scaling matrix (R245). -/
def ppsListCount (q : Sps) (transform_8x8_mode_flag : Bool) : Nat :=
  6 + (if q.chroma_format_idc = 3 then 6 else 2) * transform_8x8_mode_flag.toNat

/-- The optional tail (R245): read only if bits remain; rule B where the SPS carries a matrix, else rule A. -/
def ppsTail (q : Sps) : Parse Pps Unit := do
  if ← moreData then do
    elemFlag fun r v => { r with transform_8x8_mode_flag := v }
    elemFlag fun r v => { r with pic_scaling_matrix_present_flag := v }
    let r ← look
    whenever r.pic_scaling_matrix_present_flag
      (within (·.lists) (fun r l => { r with lists := l })
        (scalingMatrix (ppsListCount q r.transform_8x8_mode_flag)
          (if q.scaling_matrix_present_flag then some q.lists else none)))
    elemSeRange (-12) 12 fun r v => { r with second_chroma_qp_index_offset := BitVec.ofInt 8 v }
  else put fun r =>
    { r with
      transform_8x8_mode_flag := false, pic_scaling_matrix_present_flag := false
      second_chroma_qp_index_offset := r.chroma_qp_index_offset }

/-- The syntax of `PARSE_PPS` (R240 to R245, R260) against the SPS slots `sps`. -/
def ppsSyntax (sgidCap : Nat) (sps : Table Sps) : Parse Pps Unit := do
  elemUeMax 255 fun r v => { r with id := BitVec.ofNat 8 v }
  elemUeMax 31 fun r v => { r with sps_id := BitVec.ofNat 5 v }
  let q := spsSlot sps (← look).sps_id.toNat
  require q.valid .brokenLink
  put fun r => { r with lists := q.lists }
  ppsBody sgidCap q
  ppsTail q
  put fun r => { r with valid := true }

/-- `PARSE_PPS` (R260). -/
def execParsePps (s : State) : Host.Outcome State Fault Refusal :=
  .next (s.parse {} (fun _ => ppsSyntax s.params.sgidCap s.sps) (fun s w => { s with wpps := w }) State.storePps)

end Sys2Proof.Machine
end

