-- ==== Sys2Proof/Machine/Sei.lean ====
section
/-! DEFINITION. Sys2Proof/Machine/Sei.lean: SEI messages (45_sei.md). -/

namespace Sys2Proof.Machine

/-! ## Structured payloads (R351 to R355) -/

/-- The delays of one HRD, entry by entry, written by `wd` and `wo` (R351). -/
def bpDelays (h : Hrd) (wd wo : BufferingPeriod → Nat → Nat → BufferingPeriod) : Parse BufferingPeriod Unit :=
  loopFrom (fun i => do
    elemU (h.initial_cpb_removal_delay_length_minus1.toNat + 1) fun r v => wd r i v
    elemU (h.initial_cpb_removal_delay_length_minus1.toNat + 1) fun r v => wo r i v)
    (h.cpb_cnt_minus1.toNat + 1) 0

/-- Buffering period (R351). -/
def bufferingPeriod (sps : Table Sps) : Parse BufferingPeriod Unit := do
  elemUeMax 31 fun r v => { r with sps_id := BitVec.ofNat 5 v }
  let q := spsSlot sps (← look).sps_id.toNat
  require q.valid .brokenLink
  whenever q.vui.nal_hrd_parameters_present_flag (bpDelays q.vui.nal_hrd
    (fun r i v => { r with nal_initial_cpb_removal_delay := Table.write r.nal_initial_cpb_removal_delay 0 i (BitVec.ofNat 32 v) })
    (fun r i v => { r with nal_initial_cpb_removal_delay_offset := Table.write r.nal_initial_cpb_removal_delay_offset 0 i (BitVec.ofNat 32 v) }))
  whenever q.vui.vcl_hrd_parameters_present_flag (bpDelays q.vui.vcl_hrd
    (fun r i v => { r with vcl_initial_cpb_removal_delay := Table.write r.vcl_initial_cpb_removal_delay 0 i (BitVec.ofNat 32 v) })
    (fun r i v => { r with vcl_initial_cpb_removal_delay_offset := Table.write r.vcl_initial_cpb_removal_delay_offset 0 i (BitVec.ofNat 32 v) }))

/-- `NumClockTS[pic_struct]` (R352). -/
def numClockTs (pic_struct : Nat) : Nat := [1, 1, 1, 2, 2, 3, 3, 2, 3].getD pic_struct 0

/-- `sext_n(v)` in 32 bits (00_scope.md R9): the value of the n-bit field `v`, as a two's-complement number. -/
def sextField (n v : Nat) : BitVec 32 := (BitVec.ofNat n v).signExtend 32

/-- One clock timestamp (R352), with `tlen` bits of time offset. -/
def clockTimestamp (tlen : Nat) : Parse ClockTimestamp Unit := do
  elemU 2 fun r v => { r with ct_type := BitVec.ofNat 2 v }
  elemFlag fun r v => { r with nuit_field_based_flag := v }
  elemU 5 fun r v => { r with counting_type := BitVec.ofNat 5 v }
  elemFlag fun r v => { r with full_timestamp_flag := v }
  elemFlag fun r v => { r with discontinuity_flag := v }
  elemFlag fun r v => { r with cnt_dropped_flag := v }
  elemU 8 fun r v => { r with n_frames := BitVec.ofNat 8 v }
  if (← look).full_timestamp_flag then do
    elemU 6 fun r v => { r with seconds_value := BitVec.ofNat 6 v }
    elemU 6 fun r v => { r with minutes_value := BitVec.ofNat 6 v }
    elemU 5 fun r v => { r with hours_value := BitVec.ofNat 5 v }
  else do
    elemFlag fun r v => { r with seconds_flag := v }
    whenever (← look).seconds_flag do
      elemU 6 fun r v => { r with seconds_value := BitVec.ofNat 6 v }
      elemFlag fun r v => { r with minutes_flag := v }
      whenever (← look).minutes_flag do
        elemU 6 fun r v => { r with minutes_value := BitVec.ofNat 6 v }
        elemFlag fun r v => { r with hours_flag := v }
        whenever (← look).hours_flag (elemU 5 fun r v => { r with hours_value := BitVec.ofNat 5 v })
  whenever (decide (0 < tlen)) (elemU tlen fun r v => { r with time_offset := sextField tlen v })

/-- Timestamp `i` of a picture timing (R352). -/
def ptTimestamp (tlen i : Nat) : Parse PicTiming Unit := do
  elemFlag fun r v => { r with clock_timestamp_flag := Table.write r.clock_timestamp_flag false i v }
  whenever (Table.read (← look).clock_timestamp_flag false i)
    (within (fun r => Table.read r.clock_timestamp {} i)
      (fun r x => { r with clock_timestamp := Table.write r.clock_timestamp {} i x }) (clockTimestamp tlen))

/-- The HRD whose lengths a picture timing uses: the NAL HRD where present, else the VCL HRD (R352, D50). -/
def timingHrd (v : Vui) : Option Hrd :=
  if v.nal_hrd_parameters_present_flag then some v.nal_hrd
  else if v.vcl_hrd_parameters_present_flag then some v.vcl_hrd
  else none

/-- The delays of a picture timing (R352). -/
def ptDelays : Option Hrd → Parse PicTiming Unit
  | some h => do
    elemU (h.cpb_removal_delay_length_minus1.toNat + 1) fun r v => { r with cpb_removal_delay := BitVec.ofNat 32 v }
    elemU (h.dpb_output_delay_length_minus1.toNat + 1) fun r v => { r with dpb_output_delay := BitVec.ofNat 32 v }
  | none => pure ()

/-- `tlen` (R352): 24 without an HRD. -/
def timeOffsetLength : Option Hrd → Nat
  | some h => h.time_offset_length.toNat
  | none => 24

/-- Picture timing (R352), by the last stored SPS. -/
def picTiming (sps : Table Sps) (last_sps : BitVec 6) : Parse PicTiming Unit := do
  require (!noLastSps last_sps) .brokenLink
  let q := spsSlot sps last_sps.toNat
  let h := timingHrd q.vui
  ptDelays h
  whenever q.vui.pic_struct_present_flag do
    elemU 4 fun r v => { r with pic_struct := BitVec.ofNat 4 v }
    let r ← look
    require (decide (r.pic_struct.toNat ≤ 8)) .error
    loopFrom (ptTimestamp (timeOffsetLength h)) (numClockTs r.pic_struct.toNat) 0

/-- Recovery point (R353), by the last stored SPS. -/
def recoveryPoint (sps : Table Sps) (last_sps : BitVec 6) : Parse RecoveryPoint Unit := do
  require (!noLastSps last_sps) .brokenLink
  let q := spsSlot sps last_sps.toNat
  elemUeMax ((q.max_frame_num.toNat : Int) - 1) fun r v => { r with recovery_frame_cnt := BitVec.ofNat 16 v }
  elemFlag fun r v => { r with exact_match_flag := v }
  elemFlag fun r v => { r with broken_link_flag := v }
  elemU 2 fun r v => { r with changing_slice_group_idc := BitVec.ofNat 2 v }

/-- Stereo video info (R354). -/
def stereoVideo : Parse StereoVideo Unit := do
  elemFlag fun r v => { r with field_views_flag := v }
  if (← look).field_views_flag then elemFlag fun r v => { r with top_field_is_left_view_flag := v }
  else do
    elemFlag fun r v => { r with current_frame_is_left_view_flag := v }
    elemFlag fun r v => { r with next_frame_is_second_view_flag := v }
  elemFlag fun r v => { r with left_view_self_contained_flag := v }
  elemFlag fun r v => { r with right_view_self_contained_flag := v }

/-- The arrangement fields of a frame packing that is not cancelled (R355). -/
def fpaArrangement : Parse FramePacking Unit := do
  elemU 7 fun r v => { r with arrangement_type := BitVec.ofNat 7 v }
  elemFlag fun r v => { r with quincunx_sampling_flag := v }
  elemU 6 fun r v => { r with content_interpretation_type := BitVec.ofNat 6 v }
  elemFlag fun r v => { r with spatial_flipping_flag := v }
  elemFlag fun r v => { r with frame0_flipped_flag := v }
  elemFlag fun r v => { r with field_views_flag := v }
  elemFlag fun r v => { r with current_frame_is_frame0_flag := v }
  elemFlag fun r v => { r with frame0_self_contained_flag := v }
  elemFlag fun r v => { r with frame1_self_contained_flag := v }
  let r ← look
  whenever (!r.quincunx_sampling_flag && r.arrangement_type != 5) do
    elemU 4 fun r v => { r with frame0_grid_position_x := BitVec.ofNat 4 v }
    elemU 4 fun r v => { r with frame0_grid_position_y := BitVec.ofNat 4 v }
    elemU 4 fun r v => { r with frame1_grid_position_x := BitVec.ofNat 4 v }
    elemU 4 fun r v => { r with frame1_grid_position_y := BitVec.ofNat 4 v }
  elemU 8 fun r v => { r with reserved_byte := BitVec.ofNat 8 v }
  elemUe fun r v => { r with repetition_period := BitVec.ofNat 32 v }

/-- The fields of a frame packing arrangement (R355). -/
def fpaFields : Parse FramePacking Unit := do
  elemUe fun r v => { r with frame_packing_arrangement_id := BitVec.ofNat 32 v }
  elemFlag fun r v => { r with cancel_flag := v }
  whenever (!(← look).cancel_flag) fpaArrangement
  elemFlag fun r v => { r with extension_flag := v }

/-- Frame packing arrangement (R355): `start` and `bits` are the message's (R331, D53). -/
def framePacking (start bits : Nat) : Parse FramePacking Unit := do
  fpaFields
  whenever (← look).extension_flag do
    let used := (← reader).p - start
    require (decide (used ≤ bits)) .error
    skipLong (bits - used)

/-! ## Framing (R330 to R345) -/

/-- A type or size code (R331, 30_encoding.md R94): bytes are added up to the first that is not 0xFF. `k` is the
number of whole bytes left, and with none left the read itself fails. -/
def codeSum : Nat → Nat → Parse SeiMsg Nat
  | 0, acc => do
    let b ← getU 8
    pure (acc + b)
  | k + 1, acc => do
    let b ← getU 8
    if b = 255 then codeSum k (acc + b) else pure (acc + b)

/-- `payloadType` or `payloadSize` (R331). -/
def seiCode : Parse SeiMsg Nat := do codeSum ((← reader).rest.length / 8) 0

/-- A sum that its 32-bit field cannot hold is `ERROR` (R331). -/
def fitsField (v : Nat) : Bool := decide (v < 4294967296)

/-- Dispatch by `payloadType` (R340): the kind, then the decoder (the moment `kind` is written: log 12); `start` and
`bits` are R331's. -/
def seiPayload (sps : Table Sps) (last_sps : BitVec 6) (start bits : Nat) (t : Nat) : Parse SeiMsg Unit :=
  if t = 0 then do
    put fun r => { r with kind := .bufferingPeriod }
    within (·.bp) (fun r x => { r with bp := x }) (bufferingPeriod sps)
  else if t = 1 then do
    put fun r => { r with kind := .picTiming }
    within (·.pt) (fun r x => { r with pt := x }) (picTiming sps last_sps)
  else if t = 6 then do
    put fun r => { r with kind := .recoveryPoint }
    within (·.rp) (fun r x => { r with rp := x }) (recoveryPoint sps last_sps)
  else if t = 21 then do
    put fun r => { r with kind := .stereoVideo }
    within (·.sv) (fun r x => { r with sv := x }) stereoVideo
  else if t = 45 then do
    put fun r => { r with kind := .framePacking }
    within (·.fpa) (fun r x => { r with fpa := x }) (framePacking start bits)
  else do
    put fun r => { r with kind := .skipped }
    skipLong bits

/-- The zero bits of the trailing alignment, `k` of them (R345). -/
def padBits : Nat → Parse SeiMsg Unit
  | 0 => pure ()
  | k + 1 => do
    let b ← getU 1
    warnIf (padBitWarns b)
    padBits k

/-- The bits up to the next byte boundary. -/
def bitsToAlign (p : Nat) : Nat := (8 - p % 8) % 8

/-- Trailing alignment (R345): a wrong bit is a warning. -/
def trailingAlignment : Parse SeiMsg Unit := do
  match bitsToAlign (← reader).p with
  | 0 => pure ()
  | k + 1 => do
    let b ← getU 1
    warnIf (stopBitWarns b)
    padBits k

/-- `sei_message()` (R331): each sum is checked after its read and before the next (60_exceptions.md R407), and both
fields are written after both; `bits` is clamped to the logical bits left (R341). -/
def seiMessage (sps : Table Sps) (last_sps : BitVec 6) : Parse SeiMsg Unit := do
  let t ← seiCode
  require (fitsField t) .error
  let size ← seiCode
  require (fitsField size) .error
  put fun r => { r with payload_type := BitVec.ofNat 32 t, payload_size := BitVec.ofNat 32 size }
  let rd ← reader
  seiPayload sps last_sps rd.p (min (8 * size) rd.rest.length) t
  trailingAlignment

/-- The messages, while `room` more fit (R330). -/
def seiLoop (sps : Table Sps) (last_sps : BitVec 6) : Nat → Parse SeiList Unit
  | 0 => raiseCode .error
  | room + 1 => do
    let n := (← look).count
    within (fun _ => ({} : SeiMsg)) (fun r m => { r with msgs := Table.write r.msgs {} n m }) (seiMessage sps last_sps)
    put fun r => { r with count := r.count + 1 }
    if ← moreData then seiLoop sps last_sps room else pure ()

/-- `PARSE_SEI` (R360): the store is never written. -/
def execParseSei (s : State) : Host.Outcome State Fault Refusal :=
  .next (s.parse {} (fun _ => seiLoop s.sps s.last_sps s.params.seiCap) (fun s w => { s with sei := w }) fun s _ => s)

end Sys2Proof.Machine
end

