-- ==== Sys2Proof/Machine/SliceHeader.lean ====
section
/-! DEFINITION. Sys2Proof/Machine/SliceHeader.lean: the slice header (44_slice.md). `n` is the NALU record, `p` and
`q` the PPS and the SPS the slice resolves to (R270). -/

namespace Sys2Proof.Machine

/-! ## Slice type classes (R273) -/

/-- `IS_P`. -/
def Slice.isP (r : Slice) : Bool := r.slice_type.toNat % 5 == 0

/-- `IS_B`. -/
def Slice.isB (r : Slice) : Bool := r.slice_type.toNat % 5 == 1

/-- `IS_I`. -/
def Slice.isI (r : Slice) : Bool := r.slice_type.toNat % 5 == 2

/-- `IS_SP`. -/
def Slice.isSP (r : Slice) : Bool := r.slice_type.toNat % 5 == 3

/-- `IS_SI`. -/
def Slice.isSI (r : Slice) : Bool := r.slice_type.toNat % 5 == 4

/-! ## Reference-picture-list modification (R280) -/

/-- The entries of a modification list from entry `n` on, while `room` more fit (R280): the capacity check comes
before every write. -/
def rplmLoop (mvc : Bool) (maxPicNum : Nat) : Nat → Nat → Parse RplmList Unit
  | room, n => do
    let idc ← getUe
    require (decide (idc ≤ 5)) .error
    if idc = 3 then put fun r => { r with n_ref_pic_list_modification := BitVec.ofNat 6 n }
    else do
      require (mvc || decide (idc ≤ 3)) .error
      match room with
      | 0 => raiseCode .error
      | room + 1 => do
        let value ← getUe
        require (decide (idc = 0 ∨ idc = 1 → (value : Int) ≤ (maxPicNum : Int) - 1)) .error
        put fun r => { r with
          rplm := Table.write r.rplm {} n { idc := BitVec.ofNat 3 idc, value := BitVec.ofNat 32 value } }
        rplmLoop mvc maxPicNum room (n + 1)

/-- `rplm_list(X)` (R280). -/
def rplmList (mvc : Bool) (maxPicNum : Nat) : Parse RplmList Unit := do
  elemFlag fun r v => { r with ref_pic_list_modification_flag := v }
  whenever (← look).ref_pic_list_modification_flag (rplmLoop mvc maxPicNum Config.rplmCap 0)

/-- Row 13 (R280). -/
def sliceModification (n : Nalu) : Parse Slice Unit := do
  let r ← look
  let m := rplmList (n.extension_type == .mvc) r.max_pic_num.toNat
  whenever (!r.isI && !r.isSI) (within (·.mod_l0) (fun r x => { r with mod_l0 := x }) m)
  whenever r.isB (within (·.mod_l1) (fun r x => { r with mod_l1 := x }) m)

/-! ## Prediction-weight table (R285) -/

/-- The default weights of entry `i` (R285). -/
def pwtDefault (lumaDenom chromaDenom : Nat) (i : Nat) : Parse PwtList Unit :=
  put fun r =>
    { r with
      luma_weight := Table.write r.luma_weight 0 i (BitVec.ofNat 16 (2 ^ lumaDenom))
      luma_offset := Table.write r.luma_offset 0 i 0
      chroma_weight := Table.write r.chroma_weight [] i
        (Table.ofList 0 0 (List.replicate 2 (BitVec.ofNat 16 (2 ^ chromaDenom))))
      chroma_offset := Table.write r.chroma_offset [] i [] }

/-- `a[i][j] <- v` in an array of rows. -/
def writeRow {w : Nat} (a : Table (Table (BitVec w))) (i j : Nat) (v : BitVec w) : Table (Table (BitVec w)) :=
  Table.write a [] i (Table.write (Table.read a [] i) 0 j v)

/-- Chroma component `j` of entry `i` (R285). -/
def pwtChroma (i j : Nat) : Parse PwtList Unit := do
  elemSeRange (-128) 127 fun r v => { r with chroma_weight := writeRow r.chroma_weight i j (BitVec.ofInt 16 v) }
  elemSeRange (-128) 127 fun r v => { r with chroma_offset := writeRow r.chroma_offset i j (BitVec.ofInt 8 v) }

/-- Entry `i` (R285); the presence flags are not stored. -/
def pwtEntry (hasChroma : Bool) (i : Nat) : Parse PwtList Unit := do
  let luma ← getU 1
  whenever (luma == 1) do
    elemSeRange (-128) 127 fun r v => { r with luma_weight := Table.write r.luma_weight 0 i (BitVec.ofInt 16 v) }
    elemSeRange (-128) 127 fun r v => { r with luma_offset := Table.write r.luma_offset 0 i (BitVec.ofInt 8 v) }
  whenever hasChroma do
    let chroma ← getU 1
    whenever (chroma == 1) do
      pwtChroma i 0
      pwtChroma i 1

/-- The weights of one list of `count` references: the defaults of every entry first (R285). -/
def pwtList (lumaDenom chromaDenom : Nat) (hasChroma : Bool) (count : Nat) : Parse PwtList Unit := do
  loopFrom (pwtDefault lumaDenom chromaDenom) count 0
  loopFrom (pwtEntry hasChroma) count 0

/-- The prediction-weight table (R285) of a slice with `count0` and `count1` references. -/
def predWeightTable (hasChroma isB : Bool) (count0 count1 : Nat) : Parse Pwt Unit := do
  elemUeMax 7 fun r v => { r with luma_log2_weight_denom := BitVec.ofNat 3 v }
  whenever hasChroma (elemUeMax 7 fun r v => { r with chroma_log2_weight_denom := BitVec.ofNat 3 v })
  let r ← look
  let m := pwtList r.luma_log2_weight_denom.toNat r.chroma_log2_weight_denom.toNat hasChroma
  within (·.l0) (fun r x => { r with l0 := x }) (m count0)
  whenever isB (within (·.l1) (fun r x => { r with l1 := x }) (m count1))

/-- Row 14 (R274). -/
def sliceWeights (p : Pps) (q : Sps) : Parse Slice Unit := do
  let r ← look
  whenever ((p.weighted_pred_flag && (r.isP || r.isSP)) || (p.weighted_bipred_idc == 1 && r.isB))
    (within (·.pwt) (fun r x => { r with pwt := x })
      (predWeightTable (q.chroma_array_type != 0) r.isB (r.num_ref_idx_l0_active_minus1.toNat + 1)
        (r.num_ref_idx_l1_active_minus1.toNat + 1)))

/-! ## Decoded-reference-picture marking (R290) -/

/-- Reads a ue(v) where `b` holds; else the value 0. -/
def ueWhere {R : Type} (b : Bool) : Parse R Nat := if b then getUe else pure 0

/-- The operations from entry `n` on, while `room` more fit (R290). -/
def mmcoLoop : Nat → Nat → Parse Drpm Unit
  | room, n => do
    let op ← getUe
    require (decide (op ≤ 6)) .error
    if op = 0 then put fun r => { r with n_ref_pic_marking := BitVec.ofNat 4 n }
    else
      match room with
      | 0 => raiseCode .error
      | room + 1 => do
        let diff ← ueWhere (op == 1 || op == 3)
        let longTermPic ← ueWhere (op == 2)
        let longTermFrame ← ueWhere (op == 3 || op == 6)
        let maxLongTerm ← ueWhere (op == 4)
        put fun r => { r with
          mmco := Table.write r.mmco {} n
            { op := BitVec.ofNat 3 op
              difference_of_pic_nums_minus1 := BitVec.ofNat 32 diff
              long_term_pic_num := BitVec.ofNat 32 longTermPic
              long_term_frame_idx := BitVec.ofNat 32 longTermFrame
              max_long_term_frame_idx_plus1 := BitVec.ofNat 32 maxLongTerm } }
        mmcoLoop room (n + 1)

/-- The marking (R290). -/
def refPicMarking (idr : Bool) : Parse Drpm Unit := do
  if idr then do
    elemFlag fun r v => { r with no_output_of_prior_pics_flag := v }
    elemFlag fun r v => { r with long_term_reference_flag := v }
  else do
    elemFlag fun r v => { r with adaptive_ref_pic_marking_mode_flag := v }
    whenever (← look).adaptive_ref_pic_marking_mode_flag (mmcoLoop Config.mmcoCap 0)

/-! ## The header (R274) -/

/-- Rows 1 to 4, and `max_pic_num` once `field_pic_flag` is known (R272). -/
def sliceFrameNum (q : Sps) : Parse Slice Unit := do
  whenever q.separate_colour_plane_flag do
    elemU 2 fun r v => { r with colour_plane_id := BitVec.ofNat 2 v }
    require (decide ((← look).colour_plane_id.toNat ≤ 2)) .error
  elemU (q.log2_max_frame_num_minus4.toNat + 4) fun r v => { r with frame_num := BitVec.ofNat 16 v }
  whenever (!q.frame_mbs_only_flag) (elemFlag fun r v => { r with field_pic_flag := v })
  put fun r => { r with
    max_pic_num := BitVec.ofNat 32 (if r.field_pic_flag then 2 * q.max_frame_num.toNat else q.max_frame_num.toNat) }
  whenever (← look).field_pic_flag (elemFlag fun r v => { r with bottom_field_flag := v })

/-- Rows 5 to 11. -/
def slicePicOrder (n : Nalu) (p : Pps) (q : Sps) : Parse Slice Unit := do
  whenever n.idr_pic_flag (elemUeMax 65535 fun r v => { r with idr_pic_id := BitVec.ofNat 16 v })
  let both := p.bottom_field_pic_order_in_frame_present_flag && !(← look).field_pic_flag
  whenever (q.pic_order_cnt_type == 0) do
    elemU (q.log2_max_pic_order_cnt_lsb_minus4.toNat + 4) fun r v => { r with pic_order_cnt_lsb := BitVec.ofNat 16 v }
    whenever both (elemSe fun r v => { r with delta_pic_order_cnt_bottom := BitVec.ofInt 32 v })
  whenever (q.pic_order_cnt_type == 1 && !q.delta_pic_order_always_zero_flag) do
    elemSe fun r v => { r with delta_pic_order_cnt := Table.write r.delta_pic_order_cnt 0 0 (BitVec.ofInt 32 v) }
    whenever both
      (elemSe fun r v => { r with delta_pic_order_cnt := Table.write r.delta_pic_order_cnt 0 1 (BitVec.ofInt 32 v) })
  whenever p.redundant_pic_cnt_present_flag
    (elemUeMax 127 fun r v => { r with redundant_pic_cnt := BitVec.ofNat 7 v })
  whenever (← look).isB (elemFlag fun r v => { r with direct_spatial_mv_pred_flag := v })

/-- The reference counts (R275): the PPS's defaults, for every slice type, then the override. -/
def sliceRefCounts (p : Pps) : Parse Slice Unit := do
  put fun r => { r with
    num_ref_idx_l0_active_minus1 := p.num_ref_idx_l0_default_active_minus1
    num_ref_idx_l1_active_minus1 := p.num_ref_idx_l1_default_active_minus1 }
  let r ← look
  whenever (r.isP || r.isSP || r.isB) do
    elemFlag fun r v => { r with num_ref_idx_active_override_flag := v }
    whenever (← look).num_ref_idx_active_override_flag do
      elemUeMax 31 fun r v => { r with num_ref_idx_l0_active_minus1 := BitVec.ofNat 5 v }
      whenever r.isB (elemUeMax 31 fun r v => { r with num_ref_idx_l1_active_minus1 := BitVec.ofNat 5 v })

/-- Rows 16 to 21. -/
def sliceQuant (p : Pps) : Parse Slice Unit := do
  let r ← look
  whenever (p.entropy_coding_mode_flag && !r.isI && !r.isSI)
    (elemUeMax 2 fun r v => { r with cabac_init_idc := BitVec.ofNat 2 v })
  elemSeRange (-87) 77 fun r v => { r with slice_qp_delta := BitVec.ofInt 8 v }
  whenever r.isSP (elemFlag fun r v => { r with sp_for_switch_flag := v })
  whenever (r.isSP || r.isSI) (elemSeRange (-51) 51 fun r v => { r with slice_qs_delta := BitVec.ofInt 8 v })
  whenever p.deblocking_filter_control_present_flag do
    elemUeMax 2 fun r v => { r with disable_deblocking_filter_idc := BitVec.ofNat 2 v }
    whenever ((← look).disable_deblocking_filter_idc != 1) do
      elemSeRange (-6) 6 fun r v => { r with slice_alpha_c0_offset_div2 := BitVec.ofInt 4 v }
      elemSeRange (-6) 6 fun r v => { r with slice_beta_offset_div2 := BitVec.ofInt 4 v }

/-- The width of `slice_group_change_cycle` (R300); the division truncates (D22). -/
def changeCycleWidth (p : Pps) (q : Sps) : Nat :=
  ceilLog2 ((q.pic_width_in_mbs_minus1.toNat + 1) * (q.pic_height_in_map_units_minus1.toNat + 1) /
    (p.slice_group_change_rate_minus1.toNat + 1) + 1)

/-- Row 22 (R300). -/
def sliceChangeCycle (p : Pps) (q : Sps) : Parse Slice Unit :=
  whenever (decide (0 < p.num_slice_groups_minus1.toNat ∧ 3 ≤ p.slice_group_map_type.toNat ∧
      p.slice_group_map_type.toNat ≤ 5)) do
    require (decide (changeCycleWidth p q ≤ 32)) .error
    elemU (changeCycleWidth p q) fun r v => { r with slice_group_change_cycle := BitVec.ofNat 32 v }

/-- Rows 1 to 22 of R274. -/
def sliceHeader (n : Nalu) (p : Pps) (q : Sps) : Parse Slice Unit := do
  sliceFrameNum q
  slicePicOrder n p q
  sliceRefCounts p
  sliceModification n
  sliceWeights p q
  whenever (n.ref_idc != 0) (within (·.drpm) (fun r x => { r with drpm := x }) (refPicMarking n.idr_pic_flag))
  sliceQuant p
  sliceChangeCycle p q

/-- The end of the header (R318): where the reader stands in the raw payload. -/
def sliceEnd (st : Stream) : Parse Slice Unit := do
  let r ← reader
  put fun x => { x with
    header_size := BitVec.ofNat 32 (rawPos st r.p)
    n_emulation_prevention_bytes := BitVec.ofNat 32 (epbCount st r.p) }

/-- The syntax of `PARSE_SLICE_HDR` (R270, R271, R274, R318) against the parameter-set slots. -/
def sliceSyntax (n : Nalu) (sps : Table Sps) (pps : Table Pps) (st : Stream) : Parse Slice Unit := do
  elemUe fun r v => { r with first_mb_in_slice := BitVec.ofNat 32 v }
  elemUeMax 9 fun r v => { r with slice_type := BitVec.ofNat 4 v }
  elemUeMax 255 fun r v => { r with pps_id := BitVec.ofNat 8 v }
  let p := ppsSlot pps (← look).pps_id.toNat
  require p.valid .brokenLink
  let q := spsSlot sps p.sps_id.toNat
  require q.valid .brokenLink
  require (q.extension_type != .other) .brokenData
  sliceHeader n p q
  sliceEnd st

/-- `PARSE_SLICE_HDR` (R320): the store is never written. -/
def execParseSliceHdr (s : State) : Host.Outcome State Fault Refusal :=
  .next (s.parse {} (sliceSyntax s.nalu s.sps s.pps) (fun s w => { s with slice := w }) fun s _ => s)

end Sys2Proof.Machine
end

