-- ==== Sys2Proof/Machine/Sps.lean ====
section
/-! DEFINITION. Sys2Proof/Machine/Sps.lean: SPS, VUI, HRD, subset SPS and the MVC extension (42_sps.md). Each
definition reads the elements of one syntax table in its order. -/

namespace Sys2Proof.Machine

/-! ## HRD (R215) -/

/-- Scheduling entry `i` of an HRD. -/
def hrdEntry (i : Nat) : Parse Hrd Unit := do
  elemUe fun h v => { h with bit_rate_value_minus1 := Table.write h.bit_rate_value_minus1 0 i (BitVec.ofNat 32 v) }
  elemUe fun h v => { h with cpb_size_value_minus1 := Table.write h.cpb_size_value_minus1 0 i (BitVec.ofNat 32 v) }
  elemFlag fun h v => { h with cbr_flag := Table.write h.cbr_flag false i v }

/-- HRD parameters (R215). -/
def hrdParameters : Parse Hrd Unit := do
  elemUeMax 31 fun h v => { h with cpb_cnt_minus1 := BitVec.ofNat 5 v }
  elemU 4 fun h v => { h with bit_rate_scale := BitVec.ofNat 4 v }
  elemU 4 fun h v => { h with cpb_size_scale := BitVec.ofNat 4 v }
  let h ← look
  loopFrom hrdEntry (h.cpb_cnt_minus1.toNat + 1) 0
  elemU 5 fun h v => { h with initial_cpb_removal_delay_length_minus1 := BitVec.ofNat 5 v }
  elemU 5 fun h v => { h with cpb_removal_delay_length_minus1 := BitVec.ofNat 5 v }
  elemU 5 fun h v => { h with dpb_output_delay_length_minus1 := BitVec.ofNat 5 v }
  elemU 5 fun h v => { h with time_offset_length := BitVec.ofNat 5 v }

/-! ## VUI (R205 to R211) -/

/-- Aspect ratio and overscan (R207): 255 is the extended-SAR escape. -/
def vuiAspect : Parse Vui Unit := do
  elemFlag fun r v => { r with aspect_ratio_info_present_flag := v }
  whenever (← look).aspect_ratio_info_present_flag do
    elemU 8 fun r v => { r with aspect_ratio_idc := BitVec.ofNat 8 v }
    whenever ((← look).aspect_ratio_idc == 255) do
      elemU 16 fun r v => { r with sar_width := BitVec.ofNat 16 v }
      elemU 16 fun r v => { r with sar_height := BitVec.ofNat 16 v }
  elemFlag fun r v => { r with overscan_info_present_flag := v }
  whenever (← look).overscan_info_present_flag do
    elemFlag fun r v => { r with overscan_appropriate_flag := v }

/-- Video signal type and chroma location (R207). -/
def vuiSignal : Parse Vui Unit := do
  elemFlag fun r v => { r with video_signal_type_present_flag := v }
  whenever (← look).video_signal_type_present_flag do
    elemU 3 fun r v => { r with video_format := BitVec.ofNat 3 v }
    elemFlag fun r v => { r with video_full_range_flag := v }
    elemFlag fun r v => { r with colour_description_present_flag := v }
    whenever (← look).colour_description_present_flag do
      elemU 8 fun r v => { r with colour_primaries := BitVec.ofNat 8 v }
      elemU 8 fun r v => { r with transfer_characteristics := BitVec.ofNat 8 v }
      elemU 8 fun r v => { r with matrix_coefficients := BitVec.ofNat 8 v }
  elemFlag fun r v => { r with chroma_loc_info_present_flag := v }
  whenever (← look).chroma_loc_info_present_flag do
    elemUeMax 5 fun r v => { r with chroma_sample_loc_type_top_field := BitVec.ofNat 3 v }
    elemUeMax 5 fun r v => { r with chroma_sample_loc_type_bottom_field := BitVec.ofNat 3 v }

/-- Timing (R207), with its warning (R211). -/
def vuiTiming : Parse Vui Unit := do
  elemFlag fun r v => { r with timing_info_present_flag := v }
  whenever (← look).timing_info_present_flag do
    elemU 32 fun r v => { r with num_units_in_tick := BitVec.ofNat 32 v }
    elemU 32 fun r v => { r with time_scale := BitVec.ofNat 32 v }
    let r ← look
    warnIf (timingWarns r.num_units_in_tick.toNat r.time_scale.toNat)
    elemFlag fun r v => { r with fixed_frame_rate_flag := v }

/-- The HRD blocks and the flags after them (R207). -/
def vuiHrd : Parse Vui Unit := do
  elemFlag fun r v => { r with nal_hrd_parameters_present_flag := v }
  whenever (← look).nal_hrd_parameters_present_flag
    (within (·.nal_hrd) (fun r h => { r with nal_hrd := h }) hrdParameters)
  elemFlag fun r v => { r with vcl_hrd_parameters_present_flag := v }
  whenever (← look).vcl_hrd_parameters_present_flag
    (within (·.vcl_hrd) (fun r h => { r with vcl_hrd := h }) hrdParameters)
  let r ← look
  whenever (r.nal_hrd_parameters_present_flag || r.vcl_hrd_parameters_present_flag) do
    elemFlag fun r v => { r with low_delay_hrd_flag := v }
  elemFlag fun r v => { r with pic_struct_present_flag := v }

/-- Bitstream restriction (R207). -/
def vuiRestriction : Parse Vui Unit := do
  elemFlag fun r v => { r with bitstream_restriction_flag := v }
  whenever (← look).bitstream_restriction_flag do
    elemFlag fun r v => { r with motion_vectors_over_pic_boundaries_flag := v }
    elemUeMax 16 fun r v => { r with max_bytes_per_pic_denom := BitVec.ofNat 5 v }
    elemUeMax 16 fun r v => { r with max_bits_per_mb_denom := BitVec.ofNat 5 v }
    elemUeMax 16 fun r v => { r with log2_max_mv_length_horizontal := BitVec.ofNat 5 v }
    elemUeMax 16 fun r v => { r with log2_max_mv_length_vertical := BitVec.ofNat 5 v }
    elemUe fun r v => { r with max_num_reorder_frames := BitVec.ofNat 32 v }
    elemUe fun r v => { r with max_dec_frame_buffering := BitVec.ofNat 32 v }

/-- VUI parameters (R207), the defaults of R206 first. -/
def vuiParameters : Parse Vui Unit := do
  put fun r => { r with video_format := 5, colour_primaries := 2, transfer_characteristics := 2, matrix_coefficients := 2 }
  vuiAspect
  vuiSignal
  vuiTiming
  vuiHrd
  vuiRestriction

/-! ## SPS data (R181 to R190) -/

/-- `HIGH_PROFILES` (R182). -/
def highProfile (profile_idc : BitVec 8) : Bool :=
  [100, 110, 122, 244, 44, 83, 86, 118, 128, 138, 139, 134, 135].contains profile_idc.toNat

/-- Rows 1 to 5 of R181. -/
def spsIdentity : Parse Sps Unit := do
  elemU 8 fun r v => { r with profile_idc := BitVec.ofNat 8 v }
  elemFlag fun r v => { r with constraint_set0_flag := v }
  elemFlag fun r v => { r with constraint_set1_flag := v }
  elemFlag fun r v => { r with constraint_set2_flag := v }
  elemFlag fun r v => { r with constraint_set3_flag := v }
  elemFlag fun r v => { r with constraint_set4_flag := v }
  elemFlag fun r v => { r with constraint_set5_flag := v }
  let _ ← getU 2
  elemU 8 fun r v => { r with level_idc := BitVec.ofNat 8 v }
  elemUeMax 31 fun r v => { r with id := BitVec.ofNat 5 v }

/-- Row 6 of R181: the chroma and bit-depth fields (R183), or their defaults. R183 names the defaults and no moment at
which they are written: here it is row 6, before row 7 is read (DESIGN CHOICE, log 21). -/
def spsChroma : Parse Sps Unit := do
  if highProfile (← look).profile_idc then do
    elemUeMax 3 fun r v => { r with chroma_format_idc := BitVec.ofNat 2 v }
    whenever ((← look).chroma_format_idc == 3) do
      elemFlag fun r v => { r with separate_colour_plane_flag := v }
    elemUeMax 6 fun r v => { r with bit_depth_luma_minus8 := BitVec.ofNat 3 v }
    elemUeMax 6 fun r v => { r with bit_depth_chroma_minus8 := BitVec.ofNat 3 v }
    elemFlag fun r v => { r with qpprime_y_zero_transform_bypass_flag := v }
    elemFlag fun r v => { r with scaling_matrix_present_flag := v }
    let r ← look
    if r.scaling_matrix_present_flag then
      within (·.lists) (fun r l => { r with lists := l })
        (scalingMatrix (if r.chroma_format_idc = 3 then 12 else 8) none)
    else put fun r => { r with lists := flatLists }
  else put fun r => { r with chroma_format_idc := 1, lists := flatLists }

/-- Entry `i` of the picture-order-count cycle, with the source's index check (R186). -/
def offsetForRefFrame (i : Nat) : Parse Sps Unit := do
  require (decide (i < Config.pocCycleCap)) .error
  elemSe fun r v => { r with offset_for_ref_frame := Table.write r.offset_for_ref_frame 0 i (BitVec.ofInt 32 v) }

/-- Row 9 of R181: the picture-order-count fields (R186). -/
def spsPicOrderCount : Parse Sps Unit := do
  let t := (← look).pic_order_cnt_type
  if t = 0 then elemUeMax 12 fun r v => { r with log2_max_pic_order_cnt_lsb_minus4 := BitVec.ofNat 4 v }
  else whenever (t == 1) do
    elemFlag fun r v => { r with delta_pic_order_always_zero_flag := v }
    elemSe fun r v => { r with offset_for_non_ref_pic := BitVec.ofInt 32 v }
    elemSe fun r v => { r with offset_for_top_to_bottom_field := BitVec.ofInt 32 v }
    elemUeMax 255 fun r v => { r with num_ref_frames_in_pic_order_cnt_cycle := BitVec.ofNat 8 v }
    loopFrom offsetForRefFrame (← look).num_ref_frames_in_pic_order_cnt_cycle.toNat 0

/-- Rows 7 to 19 of R181. -/
def spsFrame : Parse Sps Unit := do
  elemUeMax 12 fun r v => { r with log2_max_frame_num_minus4 := BitVec.ofNat 4 v }
  elemUeMax 2 fun r v => { r with pic_order_cnt_type := BitVec.ofNat 2 v }
  spsPicOrderCount
  elemUeMax 16 fun r v => { r with num_ref_frames := BitVec.ofNat 32 v }
  elemFlag fun r v => { r with gaps_in_frame_num_value_allowed_flag := v }
  elemUe fun r v => { r with pic_width_in_mbs_minus1 := BitVec.ofNat 32 v }
  elemUe fun r v => { r with pic_height_in_map_units_minus1 := BitVec.ofNat 32 v }
  elemFlag fun r v => { r with frame_mbs_only_flag := v }
  whenever (!(← look).frame_mbs_only_flag) do
    elemFlag fun r v => { r with mb_adaptive_frame_field_flag := v }
  elemFlag fun r v => { r with direct_8x8_inference_flag := v }
  elemFlag fun r v => { r with frame_cropping_flag := v }
  whenever (← look).frame_cropping_flag do
    elemUe fun r v => { r with frame_crop_left_offset := BitVec.ofNat 32 v }
    elemUe fun r v => { r with frame_crop_right_offset := BitVec.ofNat 32 v }
    elemUe fun r v => { r with frame_crop_top_offset := BitVec.ofNat 32 v }
    elemUe fun r v => { r with frame_crop_bottom_offset := BitVec.ofNat 32 v }
  elemFlag fun r v => { r with vui_parameters_present_flag := v }

/-- `seq_parameter_set_data` (R181), rows 1 to 20; the VUI is parsed where it is present and requested (R205). -/
def spsData (vuiRequested : Bool) : Parse Sps Unit := do
  spsIdentity
  spsChroma
  spsFrame
  whenever ((← look).vui_parameters_present_flag && vuiRequested)
    (within (·.vui) (fun r x => { r with vui := x }) vuiParameters)

/-- `SubWidthC` (R188). -/
def subWidthC (chroma_format_idc : BitVec 2) : Nat :=
  if chroma_format_idc = 1 ∨ chroma_format_idc = 2 then 2 else 1

/-- `SubHeightC` (R188). -/
def subHeightC (chroma_format_idc : BitVec 2) : Nat := if chroma_format_idc = 1 then 2 else 1

/-- `2 - frame_mbs_only_flag` (R187). -/
def Sps.fieldFactor (s : Sps) : Nat := if s.frame_mbs_only_flag then 1 else 2

/-- `width`, unbounded (R187). -/
def Sps.widthOf (s : Sps) : Nat := (s.pic_width_in_mbs_minus1.toNat + 1) * 16

/-- `height`, unbounded (R187). -/
def Sps.heightOf (s : Sps) : Nat := (s.pic_height_in_map_units_minus1.toNat + 1) * 16 * s.fieldFactor

/-- `CropUnitX` (R188). -/
def Sps.cropUnitX (s : Sps) : Nat := subWidthC s.chroma_format_idc

/-- `CropUnitY` (R188). -/
def Sps.cropUnitY (s : Sps) : Nat := subHeightC s.chroma_format_idc * s.fieldFactor

/-- `crop_rect_x`, unbounded (R188). -/
def Sps.cropX (s : Sps) : Nat := if s.frame_cropping_flag then s.frame_crop_left_offset.toNat * s.cropUnitX else 0

/-- `crop_rect_y`, unbounded (R188). -/
def Sps.cropY (s : Sps) : Nat := if s.frame_cropping_flag then s.frame_crop_top_offset.toNat * s.cropUnitY else 0

/-- `crop_rect_width`, unbounded and possibly below 1 (R188). -/
def Sps.cropWidth (s : Sps) : Int :=
  if s.frame_cropping_flag then
    (s.widthOf : Int) - ((s.frame_crop_left_offset.toNat + s.frame_crop_right_offset.toNat) * s.cropUnitX : Nat)
  else s.widthOf

/-- `crop_rect_height`, unbounded and possibly below 1 (R188). -/
def Sps.cropHeight (s : Sps) : Int :=
  if s.frame_cropping_flag then
    (s.heightOf : Int) - ((s.frame_crop_top_offset.toNat + s.frame_crop_bottom_offset.toNat) * s.cropUnitY : Nat)
  else s.heightOf

/-- The size check of R189 passes. -/
def Sps.sizeOk (s : Sps) : Bool :=
  decide (s.widthOf < 2147483648 ∧ s.heightOf < 2147483648 ∧ 1 ≤ s.cropWidth ∧ 1 ≤ s.cropHeight ∧
    s.cropX < 2147483648 ∧ s.cropY < 2147483648)

/-- The derived fields (R184, R185, R187, R188). -/
def Sps.derived (s : Sps) : Sps :=
  { s with
    chroma_array_type := if s.separate_colour_plane_flag then 0 else s.chroma_format_idc
    max_frame_num := BitVec.ofNat 32 (2 ^ (s.log2_max_frame_num_minus4.toNat + 4))
    width := BitVec.ofNat 32 s.widthOf
    height := BitVec.ofNat 32 s.heightOf
    crop_rect_x := BitVec.ofNat 32 s.cropX
    crop_rect_y := BitVec.ofNat 32 s.cropY
    crop_rect_width := BitVec.ofInt 32 s.cropWidth
    crop_rect_height := BitVec.ofInt 32 s.cropHeight }

/-- Derivations, then the size check (R187 to R190). -/
def spsDerivations : Parse Sps Unit := do
  put (·.derived)
  require (← look).sizeOk .error

/-! ## The MVC extension (R220) and the subset SPS (R221) -/

/-- A reference list of view `i` (R220): its count by `wn`, its entries by `wr`; the count is then read back. -/
def mvcRefs (wn : MvcView → Nat → MvcView) (n : MvcView → Nat) (wr : MvcView → Nat → Nat → MvcView) :
    Parse MvcView Unit := do
  elemUeMax 15 wn
  loopFrom (fun j => elemUeMax 1023 fun v x => wr v j x) (n (← look)) 0

/-- The anchor references of one view (R220). -/
def mvcAnchorRefs : Parse MvcView Unit := do
  mvcRefs (fun v x => { v with num_anchor_refs_l0 := BitVec.ofNat 4 x }) (·.num_anchor_refs_l0.toNat)
    (fun v j x => { v with anchor_ref_l0 := Table.write v.anchor_ref_l0 0 j (BitVec.ofNat 10 x) })
  mvcRefs (fun v x => { v with num_anchor_refs_l1 := BitVec.ofNat 4 x }) (·.num_anchor_refs_l1.toNat)
    (fun v j x => { v with anchor_ref_l1 := Table.write v.anchor_ref_l1 0 j (BitVec.ofNat 10 x) })

/-- The non-anchor references of one view (R220). -/
def mvcNonAnchorRefs : Parse MvcView Unit := do
  mvcRefs (fun v x => { v with num_non_anchor_refs_l0 := BitVec.ofNat 4 x }) (·.num_non_anchor_refs_l0.toNat)
    (fun v j x => { v with non_anchor_ref_l0 := Table.write v.non_anchor_ref_l0 0 j (BitVec.ofNat 10 x) })
  mvcRefs (fun v x => { v with num_non_anchor_refs_l1 := BitVec.ofNat 4 x }) (·.num_non_anchor_refs_l1.toNat)
    (fun v j x => { v with non_anchor_ref_l1 := Table.write v.non_anchor_ref_l1 0 j (BitVec.ofNat 10 x) })

/-- Runs a parse of `view[i]`. -/
def inView (m : Parse MvcView Unit) (i : Nat) : Parse Mvc Unit :=
  within (fun r => Table.read r.view {} i) (fun r v => { r with view := Table.write r.view {} i v }) m

/-- Operation point `j` of a level value (R220). -/
def mvcOp (j : Nat) : Parse MvcLevel Unit :=
  within (fun r => Table.read r.op {} j) (fun r v => { r with op := Table.write r.op {} j v }) do
    elemU 3 fun o v => { o with temporal_id := BitVec.ofNat 3 v }
    elemUeMax 1023 fun o v => { o with num_target_views_minus1 := BitVec.ofNat 10 v }
    loopFrom (fun k => elemUeMax 1023 fun o v =>
      { o with target_view_id := Table.write o.target_view_id 0 k (BitVec.ofNat 10 v) })
      ((← look).num_target_views_minus1.toNat + 1) 0
    elemUeMax 1023 fun o v => { o with num_views_minus1 := BitVec.ofNat 10 v }

/-- Level value `i` (R220). -/
def mvcLevel (i : Nat) : Parse Mvc Unit :=
  within (fun r => Table.read r.level_value {} i) (fun r v => { r with level_value := Table.write r.level_value {} i v }) do
    elemU 8 fun l v => { l with level_idc := BitVec.ofNat 8 v }
    elemUeMax 1023 fun l v => { l with num_applicable_ops_minus1 := BitVec.ofNat 10 v }
    loopFrom mvcOp ((← look).num_applicable_ops_minus1.toNat + 1) 0

/-- The MVC extension (R220); view 0 has no reference lists. -/
def mvcExtension : Parse Mvc Unit := do
  elemUeMax 1023 fun r v => { r with num_views_minus1 := BitVec.ofNat 10 v }
  let n := (← look).num_views_minus1.toNat
  loopFrom (inView (elemUeMax 1023 fun w v => { w with view_id := BitVec.ofNat 10 v })) (n + 1) 0
  loopFrom (inView mvcAnchorRefs) n 1
  loopFrom (inView mvcNonAnchorRefs) n 1
  elemUeMax 63 fun r v => { r with num_level_values_signalled_minus1 := BitVec.ofNat 6 v }
  loopFrom mvcLevel ((← look).num_level_values_signalled_minus1.toNat + 1) 0

/-- A profile whose subset SPS carries the MVC extension (R221). -/
def mvcProfile (profile_idc : BitVec 8) : Bool := profile_idc == 118 || profile_idc == 128

/-- The subset SPS after its SPS data (R221). -/
def subsetBody : Parse Sps Unit := do
  if mvcProfile (← look).profile_idc then do
    let one ← getU 1
    require (one == 1) .error
    put fun r => { r with extension_type := .mvc }
    within (·.mvc) (fun r x => { r with mvc := x }) mvcExtension
  else put fun r => { r with extension_type := .other }

/-! ## Commands -/

/-- The syntax and derivations of `PARSE_SPS` (R230). -/
def spsSyntax (parseVui : Bool) : Parse Sps Unit := do
  spsData parseVui
  spsDerivations
  put fun r => { r with extension_type := .none, valid := true }

/-- The syntax and derivations of `PARSE_SUBSET_SPS` (R231). -/
def subsetSpsSyntax : Parse Sps Unit := do
  spsData true
  subsetBody
  spsDerivations
  put fun r => { r with valid := true }

/-- `PARSE_SPS` (R230). -/
def execParseSps (parseVui : Bool) (s : State) : Host.Outcome State Fault Refusal :=
  .next (s.parse {} (fun _ => spsSyntax parseVui) (fun s w => { s with wsps := w }) State.storeSps)

/-- `PARSE_SUBSET_SPS` (R231): stored in the same slots as an SPS. -/
def execParseSubsetSps (s : State) : Host.Outcome State Fault Refusal :=
  .next (s.parse {} (fun _ => subsetSpsSyntax) (fun s w => { s with wsps := w }) State.storeSps)

end Sys2Proof.Machine
end

