-- ==== Sys2Proof/Machine/Dispatch.lean ====
section
/-! DEFINITION. Sys2Proof/Machine/Dispatch.lean: the meaning of each command, one arm per constructor. -/

namespace Sys2Proof.Machine

def exec (i : Instr) (s : State) : Host.Outcome State Fault Refusal :=
  match i with
  | .brInit => Sys2Proof.Machine.execBrInit s
  | .brRead n => Sys2Proof.Machine.execBrRead n s
  | .brPeek n => Sys2Proof.Machine.execBrPeek n s
  | .brSkip n => Sys2Proof.Machine.execBrSkip n s
  | .brSkipLong => Sys2Proof.Machine.execBrSkipLong s
  | .brReadUe => Sys2Proof.Machine.execBrReadUe s
  | .brReadSe => Sys2Proof.Machine.execBrReadSe s
  | .brByteAligned => Sys2Proof.Machine.execBrByteAligned s
  | .brMoreRbspData => Sys2Proof.Machine.execBrMoreRbspData s
  | .scanStartCode => Sys2Proof.Machine.execScanStartCode s
  | .identifyAnnexb => Sys2Proof.Machine.execIdentifyAnnexb s
  | .identifyAvc m => Sys2Proof.Machine.execIdentifyAvc m s
  | .parseSps parseVui => Sys2Proof.Machine.execParseSps parseVui s
  | .parseSubsetSps => Sys2Proof.Machine.execParseSubsetSps s
  | .parsePps => Sys2Proof.Machine.execParsePps s
  | .parseSliceHdr => Sys2Proof.Machine.execParseSliceHdr s
  | .parseSei => Sys2Proof.Machine.execParseSei s

end Sys2Proof.Machine
end

