-- ==== Sys2Proof/Machine/Step.lean ====
section
/-! DEFINITION. Sys2Proof/Machine/Step.lean: one step takes the host's next access (10_state.md R20, log 1). -/

namespace Sys2Proof.Machine

/-- One step: the next access of the host, or nothing while the core is idle (60_exceptions.md R420). A write of
`CMD` runs its command to completion (R20); an illegal word ends with `ILLEGAL` (30_encoding.md R85). -/
def step (s : State) : Host.Outcome State Fault Refusal :=
  match s.host with
  | [] => .next s
  | .cmd w :: _ =>
    match decode w with
    | .ok i => exec i s.popHost
    | .error _ => .next s.popHost.illegal
  | op :: _ => .next (s.popHost.hostAccess op)

/-- The state whose next host access is the write of `CMD` with the word given by its bits; the rest of the host's
accesses follow it. The core fetches nothing (10_state.md R21): a command reaches it as this one write. -/
def State.withFetchWord (s : State) (nbits w : Nat) : State :=
  { s with host := .cmd (BitVec.ofNat 32 (w % 2 ^ nbits)) :: s.host }

end Sys2Proof.Machine
end

