-- ==== Sys2Proof/Machine/Coding.lean ====
section
/-! DEFINITION. Sys2Proof/Machine/Coding.lean: the syntax tables read the other way, for statements: the bits that
code a record (`bits`), the values a coded record may have (`codable`), and the record a parse leaves (`coded`:
an element that is not read has the value its rule infers, 00_scope.md R11). No command uses this file. -/

namespace Sys2Proof.Machine

/-! ## Codes of one element (30_encoding.md R91 to R95) -/

/-- `u(n)`: the low `n` bits of `v`, most significant first (20_memory.md R62). -/
def uBits : Nat → Nat → List Bool
  | 0, _ => []
  | n + 1, v => v.testBit n :: uBits n v

/-- `ue(v)` (R91): `lz` zero bits, a one bit, `lz` information bits. -/
def ueBits (k : Nat) : List Bool :=
  List.replicate (k + 1).log2 false ++ true :: uBits (k + 1).log2 (k + 1 - 2 ^ (k + 1).log2)

/-- The code number of a signed value (R92). -/
def codeNumber (v : Int) : Nat := if 0 < v then 2 * v.toNat - 1 else 2 * (-v).toNat

/-- `se(v)` (R92). -/
def seBits (v : Int) : List Bool := ueBits (codeNumber v)

/-- A field coded `u(n)`, `n` its own width. -/
def uField {n : Nat} (x : BitVec n) : List Bool := uBits n x.toNat

/-- A field coded `ue(v)`. -/
def ueField {n : Nat} (x : BitVec n) : List Bool := ueBits x.toNat

/-- A field coded `se(v)`. -/
def seField {n : Nat} (x : BitVec n) : List Bool := seBits x.toInt

/-- Bits that are present where `b` holds. -/
def optBits (b : Bool) (l : List Bool) : List Bool := if b then l else []

/-- The bits of entries 0 to `n - 1`. -/
def rowBits (n : Nat) (f : Nat → List Bool) : List Bool := (List.range n).flatMap f

/-- The value of an element that is read where `b` holds, and inferred to be `d` where it does not (R11). -/
def given {α : Type} (b : Bool) (x d : α) : α := if b then x else d

/-- A 32-bit field has a `ue(v)` code (40_bitreader.md R110: at most 2^32 - 2). -/
def ueOk (x : BitVec 32) : Bool := x != 0xFFFFFFFF

/-- A 32-bit field has an `se(v)` code (40_bitreader.md R111: at least -(2^31 - 1)). -/
def seOk (x : BitVec 32) : Bool := x != 0x80000000

/-- Every entry below `n` passes. -/
def rowOk (n : Nat) (f : Nat → Bool) : Bool := (List.range n).all f

/-- The array with entries `f 0` to `f (n - 1)`. -/
def tabulate {α : Type} [DecidableEq α] (d : α) (n : Nat) (f : Nat → α) : Table α :=
  Table.ofList d 0 ((List.range n).map f)

/-- The first `n` entries of an array. -/
def firstEntries {α : Type} [DecidableEq α] (d : α) (n : Nat) (t : Table α) : Table α := tabulate d n (Table.read t d)

/-! ## Scaling lists (42_sps.md R191 to R193) -/

/-- How one scaling list is coded: not at all, as the default, or by its entries, the last of which repeats. -/
inductive ListCoding where
  | absent
  | useDefault
  | entries (vs : List (BitVec 8))
deriving DecidableEq, Repr

/-- The one `delta_scale` in -128..127 that leads from `last` to `v` (R192). -/
def scaleDelta (last v : Nat) : Int := ((v : Int) - last + 128) % 256 - 128

/-- The deltas of the entries `vs` after the entry `last`. -/
def deltaBits : Nat → List (BitVec 8) → List Bool
  | _, [] => []
  | last, v :: vs => seBits (scaleDelta last v.toNat) ++ deltaBits v.toNat vs

/-- The presence flag and the deltas of a list of `size` entries. -/
def ListCoding.bits (size : Nat) : ListCoding → List Bool
  | .absent => [false]
  | .useDefault => true :: seBits (scaleDelta 8 0)
  | .entries vs =>
    true :: deltaBits 8 vs ++ optBits (decide (vs.length < size)) (seBits (scaleDelta (vs.getLastD 8).toNat 0))

/-- Entries are 1 to 255, at least one and at most `size`. -/
def ListCoding.codable (size : Nat) : ListCoding → Bool
  | .absent => true
  | .useDefault => true
  | .entries vs => !vs.isEmpty && decide (vs.length ≤ size) && vs.all (· != 0)

/-- The list with its entries written from 0 on. -/
def fillList (t : ScalingList) (vs : List (BitVec 8)) : ScalingList :=
  vs.zipIdx.foldl (fun t e => Table.write t 0 e.2 e.1) t

/-- The value of list `i` of `x` by its coding. -/
def ListCoding.value (inherited : Option Lists) (x : Lists) (i : Nat) : ListCoding → ScalingList
  | .absent => fallbackList inherited x i
  | .useDefault => defaultList i
  | .entries vs => fillList (x.list i) (vs ++ List.replicate (listSize i - vs.length) (vs.getLastD 8))

/-- The coding of list `i`, of which only the first `nLists` can be present. -/
def codingOf (nLists : Nat) (c : List ListCoding) (i : Nat) : ListCoding :=
  if i < nLists then c.getD i .absent else .absent

/-- The bits of a scaling matrix of `nLists` lists. -/
def matrixBits (nLists : Nat) (c : List ListCoding) : List Bool :=
  rowBits nLists fun i => (codingOf nLists c i).bits (listSize i)

/-- Every list's coding is one. -/
def matrixOk (nLists : Nat) (c : List ListCoding) : Bool :=
  rowOk nLists fun i => (codingOf nLists c i).codable (listSize i)

/-- The twelve lists of a coded matrix, list 0 first, over the lists `x` (R191). -/
def matrixLists (nLists : Nat) (inherited : Option Lists) (c : List ListCoding) (x : Lists) : Lists :=
  (List.range 12).foldl (fun x i => x.setList i ((codingOf nLists c i).value inherited x i)) x

/-! ## HRD (42_sps.md R215) -/

/-- The scheduling entries. -/
def Hrd.entries (h : Hrd) : Nat := h.cpb_cnt_minus1.toNat + 1

/-- The bits of HRD parameters. -/
def Hrd.bits (h : Hrd) : List Bool :=
  ueField h.cpb_cnt_minus1 ++ uField h.bit_rate_scale ++ uField h.cpb_size_scale ++
  (rowBits h.entries fun i => ueField (Table.read h.bit_rate_value_minus1 0 i) ++
    ueField (Table.read h.cpb_size_value_minus1 0 i) ++ [Table.read h.cbr_flag false i]) ++
  uField h.initial_cpb_removal_delay_length_minus1 ++ uField h.cpb_removal_delay_length_minus1 ++
  uField h.dpb_output_delay_length_minus1 ++ uField h.time_offset_length

/-- The values HRD parameters may have. -/
def Hrd.codable (h : Hrd) : Bool := rowOk h.entries fun i =>
  ueOk (Table.read h.bit_rate_value_minus1 0 i) && ueOk (Table.read h.cpb_size_value_minus1 0 i)

/-- The HRD record after its parse. -/
def Hrd.coded (h : Hrd) : Hrd :=
  { h with
    bit_rate_value_minus1 := firstEntries 0 h.entries h.bit_rate_value_minus1
    cpb_size_value_minus1 := firstEntries 0 h.entries h.cpb_size_value_minus1
    cbr_flag := firstEntries false h.entries h.cbr_flag }

/-! ## VUI (42_sps.md R206, R207) -/

/-- The extended aspect ratio is present. -/
def Vui.extendedSar (r : Vui) : Bool := r.aspect_ratio_info_present_flag && r.aspect_ratio_idc == 255

/-- The colour description is present. -/
def Vui.colourDescription (r : Vui) : Bool := r.video_signal_type_present_flag && r.colour_description_present_flag

/-- An HRD is present. -/
def Vui.anyHrd (r : Vui) : Bool := r.nal_hrd_parameters_present_flag || r.vcl_hrd_parameters_present_flag

/-- The bits of `vuiAspect`. -/
def Vui.aspectBits (r : Vui) : List Bool :=
  [r.aspect_ratio_info_present_flag] ++
  optBits r.aspect_ratio_info_present_flag (uField r.aspect_ratio_idc ++
    optBits (r.aspect_ratio_idc == 255) (uField r.sar_width ++ uField r.sar_height)) ++
  [r.overscan_info_present_flag] ++ optBits r.overscan_info_present_flag [r.overscan_appropriate_flag]

/-- The bits of `vuiSignal`. -/
def Vui.signalBits (r : Vui) : List Bool :=
  [r.video_signal_type_present_flag] ++
  optBits r.video_signal_type_present_flag (uField r.video_format ++ [r.video_full_range_flag] ++
    [r.colour_description_present_flag] ++ optBits r.colour_description_present_flag
      (uField r.colour_primaries ++ uField r.transfer_characteristics ++ uField r.matrix_coefficients)) ++
  [r.chroma_loc_info_present_flag] ++ optBits r.chroma_loc_info_present_flag
    (ueField r.chroma_sample_loc_type_top_field ++ ueField r.chroma_sample_loc_type_bottom_field)

/-- The bits of `vuiTiming`. -/
def Vui.timingBits (r : Vui) : List Bool :=
  [r.timing_info_present_flag] ++ optBits r.timing_info_present_flag
    (uField r.num_units_in_tick ++ uField r.time_scale ++ [r.fixed_frame_rate_flag])

/-- The bits of `vuiHrd`. -/
def Vui.hrdBits (r : Vui) : List Bool :=
  [r.nal_hrd_parameters_present_flag] ++ optBits r.nal_hrd_parameters_present_flag r.nal_hrd.bits ++
  [r.vcl_hrd_parameters_present_flag] ++ optBits r.vcl_hrd_parameters_present_flag r.vcl_hrd.bits ++
  optBits r.anyHrd [r.low_delay_hrd_flag] ++ [r.pic_struct_present_flag]

/-- The bits of `vuiRestriction`. -/
def Vui.restrictionBits (r : Vui) : List Bool :=
  [r.bitstream_restriction_flag] ++ optBits r.bitstream_restriction_flag
    ([r.motion_vectors_over_pic_boundaries_flag] ++ ueField r.max_bytes_per_pic_denom ++
      ueField r.max_bits_per_mb_denom ++ ueField r.log2_max_mv_length_horizontal ++
      ueField r.log2_max_mv_length_vertical ++ ueField r.max_num_reorder_frames ++ ueField r.max_dec_frame_buffering)

/-- The bits of VUI parameters. -/
def Vui.bits (r : Vui) : List Bool :=
  r.aspectBits ++ r.signalBits ++ r.timingBits ++ r.hrdBits ++ r.restrictionBits

/-- The values VUI parameters may have. -/
def Vui.codable (r : Vui) : Bool :=
  decide (r.chroma_sample_loc_type_top_field.toNat ≤ 5) && decide (r.chroma_sample_loc_type_bottom_field.toNat ≤ 5) &&
  r.nal_hrd.codable && r.vcl_hrd.codable &&
  decide (r.max_bytes_per_pic_denom.toNat ≤ 16) && decide (r.max_bits_per_mb_denom.toNat ≤ 16) &&
  decide (r.log2_max_mv_length_horizontal.toNat ≤ 16) && decide (r.log2_max_mv_length_vertical.toNat ≤ 16) &&
  ueOk r.max_num_reorder_frames && ueOk r.max_dec_frame_buffering

/-- The VUI record after its parse. -/
def Vui.coded (r : Vui) : Vui :=
  { r with
    aspect_ratio_idc := given r.aspect_ratio_info_present_flag r.aspect_ratio_idc 0
    sar_width := given r.extendedSar r.sar_width 0
    sar_height := given r.extendedSar r.sar_height 0
    overscan_appropriate_flag := r.overscan_info_present_flag && r.overscan_appropriate_flag
    video_format := given r.video_signal_type_present_flag r.video_format 5
    video_full_range_flag := r.video_signal_type_present_flag && r.video_full_range_flag
    colour_description_present_flag := r.colourDescription
    colour_primaries := given r.colourDescription r.colour_primaries 2
    transfer_characteristics := given r.colourDescription r.transfer_characteristics 2
    matrix_coefficients := given r.colourDescription r.matrix_coefficients 2
    chroma_sample_loc_type_top_field := given r.chroma_loc_info_present_flag r.chroma_sample_loc_type_top_field 0
    chroma_sample_loc_type_bottom_field := given r.chroma_loc_info_present_flag r.chroma_sample_loc_type_bottom_field 0
    num_units_in_tick := given r.timing_info_present_flag r.num_units_in_tick 0
    time_scale := given r.timing_info_present_flag r.time_scale 0
    fixed_frame_rate_flag := r.timing_info_present_flag && r.fixed_frame_rate_flag
    nal_hrd := given r.nal_hrd_parameters_present_flag r.nal_hrd.coded {}
    vcl_hrd := given r.vcl_hrd_parameters_present_flag r.vcl_hrd.coded {}
    low_delay_hrd_flag := r.anyHrd && r.low_delay_hrd_flag
    motion_vectors_over_pic_boundaries_flag := r.bitstream_restriction_flag && r.motion_vectors_over_pic_boundaries_flag
    max_bytes_per_pic_denom := given r.bitstream_restriction_flag r.max_bytes_per_pic_denom 0
    max_bits_per_mb_denom := given r.bitstream_restriction_flag r.max_bits_per_mb_denom 0
    log2_max_mv_length_horizontal := given r.bitstream_restriction_flag r.log2_max_mv_length_horizontal 0
    log2_max_mv_length_vertical := given r.bitstream_restriction_flag r.log2_max_mv_length_vertical 0
    max_num_reorder_frames := given r.bitstream_restriction_flag r.max_num_reorder_frames 0
    max_dec_frame_buffering := given r.bitstream_restriction_flag r.max_dec_frame_buffering 0 }

/-- The warning of R211. -/
def Vui.warns (r : Vui) : Bool := r.timing_info_present_flag && timingWarns r.num_units_in_tick.toNat r.time_scale.toNat

/-! ## SPS data (42_sps.md R181, R183, R186) -/

/-- `n_lists` of an SPS (R183). -/
def Sps.listCount (q : Sps) : Nat := if q.chroma_format_idc = 3 then 12 else 8

/-- The chroma fields are present. -/
def Sps.high (q : Sps) : Bool := highProfile q.profile_idc

/-- A scaling matrix is present. -/
def Sps.hasMatrix (q : Sps) : Bool := q.high && q.scaling_matrix_present_flag

/-- The plane flag is present. -/
def Sps.hasPlane (q : Sps) : Bool := q.high && q.chroma_format_idc == 3

/-- The VUI is present and requested (R205). -/
def Sps.hasVui (q : Sps) (vuiRequested : Bool) : Bool := q.vui_parameters_present_flag && vuiRequested

/-- The bits of rows 1 to 5. -/
def Sps.identityBits (q : Sps) (reserved : BitVec 2) : List Bool :=
  uField q.profile_idc ++ [q.constraint_set0_flag] ++ [q.constraint_set1_flag] ++ [q.constraint_set2_flag] ++
  [q.constraint_set3_flag] ++ [q.constraint_set4_flag] ++ [q.constraint_set5_flag] ++ uField reserved ++
  uField q.level_idc ++ ueField q.id

/-- The bits of row 6. -/
def Sps.chromaBits (q : Sps) (c : List ListCoding) : List Bool :=
  optBits q.high (ueField q.chroma_format_idc ++ optBits (q.chroma_format_idc == 3) [q.separate_colour_plane_flag] ++
    ueField q.bit_depth_luma_minus8 ++ ueField q.bit_depth_chroma_minus8 ++ [q.qpprime_y_zero_transform_bypass_flag] ++
    [q.scaling_matrix_present_flag] ++ optBits q.scaling_matrix_present_flag (matrixBits q.listCount c))

/-- The bits of row 9. -/
def Sps.orderBits (q : Sps) : List Bool :=
  optBits (q.pic_order_cnt_type == 0) (ueField q.log2_max_pic_order_cnt_lsb_minus4) ++
  optBits (q.pic_order_cnt_type == 1) ([q.delta_pic_order_always_zero_flag] ++ seField q.offset_for_non_ref_pic ++
    seField q.offset_for_top_to_bottom_field ++ ueField q.num_ref_frames_in_pic_order_cnt_cycle ++
    rowBits q.num_ref_frames_in_pic_order_cnt_cycle.toNat fun i => seField (Table.read q.offset_for_ref_frame 0 i))

/-- The bits of rows 7 to 19. -/
def Sps.frameBits (q : Sps) : List Bool :=
  ueField q.log2_max_frame_num_minus4 ++ ueField q.pic_order_cnt_type ++ q.orderBits ++ ueField q.num_ref_frames ++
  [q.gaps_in_frame_num_value_allowed_flag] ++ ueField q.pic_width_in_mbs_minus1 ++
  ueField q.pic_height_in_map_units_minus1 ++ [q.frame_mbs_only_flag] ++
  optBits (!q.frame_mbs_only_flag) [q.mb_adaptive_frame_field_flag] ++ [q.direct_8x8_inference_flag] ++
  [q.frame_cropping_flag] ++ optBits q.frame_cropping_flag (ueField q.frame_crop_left_offset ++
    ueField q.frame_crop_right_offset ++ ueField q.frame_crop_top_offset ++ ueField q.frame_crop_bottom_offset) ++
  [q.vui_parameters_present_flag]

/-- The bits of `seq_parameter_set_data`, with the two reserved bits and the coding `c` of the scaling lists. -/
def Sps.bits (q : Sps) (vuiRequested : Bool) (reserved : BitVec 2) (c : List ListCoding) : List Bool :=
  q.identityBits reserved ++ q.chromaBits c ++ q.frameBits ++ optBits (q.hasVui vuiRequested) q.vui.bits

/-- The values `seq_parameter_set_data` may have, but for the size check. -/
def Sps.codable (q : Sps) (c : List ListCoding) : Bool :=
  decide (q.bit_depth_luma_minus8.toNat ≤ 6) && decide (q.bit_depth_chroma_minus8.toNat ≤ 6) &&
  matrixOk q.listCount c && decide (q.log2_max_frame_num_minus4.toNat ≤ 12) &&
  decide (q.pic_order_cnt_type.toNat ≤ 2) && decide (q.log2_max_pic_order_cnt_lsb_minus4.toNat ≤ 12) &&
  seOk q.offset_for_non_ref_pic && seOk q.offset_for_top_to_bottom_field &&
  (rowOk q.num_ref_frames_in_pic_order_cnt_cycle.toNat fun i => seOk (Table.read q.offset_for_ref_frame 0 i)) &&
  decide (q.num_ref_frames.toNat ≤ 16) && ueOk q.pic_width_in_mbs_minus1 && ueOk q.pic_height_in_map_units_minus1 &&
  ueOk q.frame_crop_left_offset && ueOk q.frame_crop_right_offset && ueOk q.frame_crop_top_offset &&
  ueOk q.frame_crop_bottom_offset && q.vui.codable

/-- The SPS record after `seq_parameter_set_data`, before the derivations. -/
def Sps.dataCoded (q : Sps) (vuiRequested : Bool) (c : List ListCoding) : Sps :=
  { q with
    valid := false
    chroma_format_idc := given q.high q.chroma_format_idc 1
    separate_colour_plane_flag := q.hasPlane && q.separate_colour_plane_flag
    bit_depth_luma_minus8 := given q.high q.bit_depth_luma_minus8 0
    bit_depth_chroma_minus8 := given q.high q.bit_depth_chroma_minus8 0
    qpprime_y_zero_transform_bypass_flag := q.high && q.qpprime_y_zero_transform_bypass_flag
    scaling_matrix_present_flag := q.hasMatrix
    lists := given q.hasMatrix (matrixLists q.listCount none c {}) flatLists
    log2_max_pic_order_cnt_lsb_minus4 := given (q.pic_order_cnt_type == 0) q.log2_max_pic_order_cnt_lsb_minus4 0
    delta_pic_order_always_zero_flag := q.pic_order_cnt_type == 1 && q.delta_pic_order_always_zero_flag
    offset_for_non_ref_pic := given (q.pic_order_cnt_type == 1) q.offset_for_non_ref_pic 0
    offset_for_top_to_bottom_field := given (q.pic_order_cnt_type == 1) q.offset_for_top_to_bottom_field 0
    num_ref_frames_in_pic_order_cnt_cycle :=
      given (q.pic_order_cnt_type == 1) q.num_ref_frames_in_pic_order_cnt_cycle 0
    offset_for_ref_frame := given (q.pic_order_cnt_type == 1)
      (firstEntries 0 q.num_ref_frames_in_pic_order_cnt_cycle.toNat q.offset_for_ref_frame) []
    mb_adaptive_frame_field_flag := !q.frame_mbs_only_flag && q.mb_adaptive_frame_field_flag
    frame_crop_left_offset := given q.frame_cropping_flag q.frame_crop_left_offset 0
    frame_crop_right_offset := given q.frame_cropping_flag q.frame_crop_right_offset 0
    frame_crop_top_offset := given q.frame_cropping_flag q.frame_crop_top_offset 0
    frame_crop_bottom_offset := given q.frame_cropping_flag q.frame_crop_bottom_offset 0
    vui := given (q.hasVui vuiRequested) q.vui.coded {}
    chroma_array_type := 0, max_frame_num := 0, width := 0, height := 0
    crop_rect_width := 0, crop_rect_height := 0, crop_rect_x := 0, crop_rect_y := 0
    extension_type := .none, mvc := {} }

/-- The warning of an SPS (R211). -/
def Sps.warns (q : Sps) (vuiRequested : Bool) : Bool := q.hasVui vuiRequested && q.vui.warns

/-- `WSPS` after `PARSE_SPS` (R230). -/
def Sps.coded (q : Sps) (vuiRequested : Bool) (c : List ListCoding) : Sps :=
  { (q.dataCoded vuiRequested c).derived with valid := true }

/-! ## The MVC extension (42_sps.md R220, R221) -/

/-- The bits of one reference list. -/
def refsBits (n : BitVec 4) (t : Table (BitVec 10)) : List Bool :=
  ueField n ++ rowBits n.toNat fun j => ueField (Table.read t 0 j)

/-- The bits of a view's anchor references. -/
def MvcView.anchorBits (v : MvcView) : List Bool :=
  refsBits v.num_anchor_refs_l0 v.anchor_ref_l0 ++ refsBits v.num_anchor_refs_l1 v.anchor_ref_l1

/-- The bits of a view's non-anchor references. -/
def MvcView.nonAnchorBits (v : MvcView) : List Bool :=
  refsBits v.num_non_anchor_refs_l0 v.non_anchor_ref_l0 ++ refsBits v.num_non_anchor_refs_l1 v.non_anchor_ref_l1

/-- View `i` after its parse: view 0 has an id alone. -/
def MvcView.coded (i : Nat) (v : MvcView) : MvcView :=
  if i = 0 then { view_id := v.view_id }
  else
    { v with
      anchor_ref_l0 := firstEntries 0 v.num_anchor_refs_l0.toNat v.anchor_ref_l0
      anchor_ref_l1 := firstEntries 0 v.num_anchor_refs_l1.toNat v.anchor_ref_l1
      non_anchor_ref_l0 := firstEntries 0 v.num_non_anchor_refs_l0.toNat v.non_anchor_ref_l0
      non_anchor_ref_l1 := firstEntries 0 v.num_non_anchor_refs_l1.toNat v.non_anchor_ref_l1 }

/-- The bits of an operation point. -/
def MvcOp.bits (o : MvcOp) : List Bool :=
  uField o.temporal_id ++ ueField o.num_target_views_minus1 ++
  (rowBits (o.num_target_views_minus1.toNat + 1) fun k => ueField (Table.read o.target_view_id 0 k)) ++
  ueField o.num_views_minus1

/-- An operation point after its parse. -/
def MvcOp.coded (o : MvcOp) : MvcOp :=
  { o with target_view_id := firstEntries 0 (o.num_target_views_minus1.toNat + 1) o.target_view_id }

/-- The bits of a level value. -/
def MvcLevel.bits (l : MvcLevel) : List Bool :=
  uField l.level_idc ++ ueField l.num_applicable_ops_minus1 ++
  rowBits (l.num_applicable_ops_minus1.toNat + 1) fun j => (Table.read l.op {} j).bits

/-- A level value after its parse. -/
def MvcLevel.coded (l : MvcLevel) : MvcLevel :=
  { l with op := tabulate {} (l.num_applicable_ops_minus1.toNat + 1) fun j => (Table.read l.op {} j).coded }

/-- The bits of the MVC extension. -/
def Mvc.bits (m : Mvc) : List Bool :=
  ueField m.num_views_minus1 ++
  (rowBits (m.num_views_minus1.toNat + 1) fun i => ueField (Table.read m.view {} i).view_id) ++
  (rowBits m.num_views_minus1.toNat fun i => (Table.read m.view {} (i + 1)).anchorBits) ++
  (rowBits m.num_views_minus1.toNat fun i => (Table.read m.view {} (i + 1)).nonAnchorBits) ++
  ueField m.num_level_values_signalled_minus1 ++
  rowBits (m.num_level_values_signalled_minus1.toNat + 1) fun i => (Table.read m.level_value {} i).bits

/-- The MVC record after its parse. -/
def Mvc.coded (m : Mvc) : Mvc :=
  { m with
    view := tabulate {} (m.num_views_minus1.toNat + 1) fun i => (Table.read m.view {} i).coded i
    level_value := tabulate {} (m.num_level_values_signalled_minus1.toNat + 1) fun i =>
      (Table.read m.level_value {} i).coded }

/-- The bits of a subset SPS (R221): the MVC profiles carry `bit_equal_to_one` and the extension. -/
def Sps.subsetBits (q : Sps) (reserved : BitVec 2) (c : List ListCoding) : List Bool :=
  q.bits true reserved c ++ optBits (mvcProfile q.profile_idc) ([true] ++ q.mvc.bits)

/-- `WSPS` after `PARSE_SUBSET_SPS` (R231). -/
def Sps.subsetCoded (q : Sps) (c : List ListCoding) : Sps :=
  { (q.dataCoded true c).derived with
    valid := true
    extension_type := if mvcProfile q.profile_idc then .mvc else .other
    mvc := given (mvcProfile q.profile_idc) q.mvc.coded {} }

/-! ## PPS (43_pps.md R240 to R245) -/

/-- Slice groups are present. -/
def Pps.grouped (p : Pps) : Bool := decide (0 < p.num_slice_groups_minus1.toNat)

/-- Slice groups are present and of map type `t`. -/
def Pps.hasMap (p : Pps) (t : Nat) : Bool := p.grouped && p.slice_group_map_type.toNat == t

/-- Slice groups are present and of map type 3, 4 or 5. -/
def Pps.changing (p : Pps) : Bool :=
  p.grouped && decide (3 ≤ p.slice_group_map_type.toNat ∧ p.slice_group_map_type.toNat ≤ 5)

/-- The width of one slice-group id. -/
def Pps.idWidth (p : Pps) : Nat := ceilLog2 (p.num_slice_groups_minus1.toNat + 1)

/-- The map units of map type 6. -/
def Pps.mapUnits (p : Pps) : Nat := p.pic_size_in_map_units_minus1.toNat + 1

/-- The bits of the slice-group map (R243). -/
def Pps.groupBits (p : Pps) : List Bool :=
  optBits p.grouped (ueField p.slice_group_map_type) ++
  optBits (p.hasMap 0) (rowBits (p.num_slice_groups_minus1.toNat + 1) fun g => ueField (Table.read p.run_length_minus1 0 g)) ++
  optBits (p.hasMap 2) (rowBits p.num_slice_groups_minus1.toNat fun g =>
    ueField (Table.read p.top_left 0 g) ++ ueField (Table.read p.bottom_right 0 g)) ++
  optBits p.changing ([p.slice_group_change_direction_flag] ++ ueField p.slice_group_change_rate_minus1) ++
  optBits (p.hasMap 6) (ueField p.pic_size_in_map_units_minus1 ++
    rowBits p.mapUnits fun u => uBits p.idWidth (Table.read p.slice_group_id 0 u).toNat)

/-- The bits of a PPS with map type 6 up to the number of its map units (R240, R243). -/
def Pps.mapHeadBits (p : Pps) : List Bool :=
  ueField p.id ++ ueField p.sps_id ++ [p.entropy_coding_mode_flag] ++
  [p.bottom_field_pic_order_in_frame_present_flag] ++ ueField p.num_slice_groups_minus1 ++
  ueField p.slice_group_map_type ++ ueField p.pic_size_in_map_units_minus1

/-- The bits of rows 1 to 16 (R240). -/
def Pps.bodyBits (p : Pps) : List Bool :=
  ueField p.id ++ ueField p.sps_id ++ [p.entropy_coding_mode_flag] ++
  [p.bottom_field_pic_order_in_frame_present_flag] ++ ueField p.num_slice_groups_minus1 ++ p.groupBits ++
  ueField p.num_ref_idx_l0_default_active_minus1 ++ ueField p.num_ref_idx_l1_default_active_minus1 ++
  [p.weighted_pred_flag] ++ uField p.weighted_bipred_idc ++ seField p.pic_init_qp_minus26 ++
  seField p.pic_init_qs_minus26 ++ seField p.chroma_qp_index_offset ++ [p.deblocking_filter_control_present_flag] ++
  [p.constrained_intra_pred_flag] ++ [p.redundant_pic_cnt_present_flag]

/-- The bits of the optional tail (R245) against the SPS `q`. -/
def Pps.tailBits (p : Pps) (q : Sps) (c : List ListCoding) : List Bool :=
  [p.transform_8x8_mode_flag] ++ [p.pic_scaling_matrix_present_flag] ++
  optBits p.pic_scaling_matrix_present_flag (matrixBits (ppsListCount q p.transform_8x8_mode_flag) c) ++
  seField p.second_chroma_qp_index_offset

/-- The lists that rule B inherits (R245). -/
def ppsInherited (q : Sps) : Option Lists := if q.scaling_matrix_present_flag then some q.lists else none

/-- A signed field lies in `lo` to `hi`. -/
def seIn {n : Nat} (lo hi : Int) (x : BitVec n) : Bool := decide (lo ≤ x.toInt ∧ x.toInt ≤ hi)

/-- The values a PPS may have against the SPS `q` and the capacity of the slice-group ids. -/
def Pps.codable (p : Pps) (q : Sps) (sgidCap : Nat) (c : List ListCoding) : Bool :=
  decide (p.slice_group_map_type.toNat ≤ 6) &&
  (rowOk (p.num_slice_groups_minus1.toNat + 1) fun g => ueOk (Table.read p.run_length_minus1 0 g) &&
    ueOk (Table.read p.top_left 0 g) && ueOk (Table.read p.bottom_right 0 g)) &&
  ueOk p.slice_group_change_rate_minus1 && ueOk p.pic_size_in_map_units_minus1 &&
  (!p.hasMap 6 || decide (p.mapUnits ≤ sgidCap) &&
    rowOk p.mapUnits fun u => decide ((Table.read p.slice_group_id 0 u).toNat < 2 ^ p.idWidth)) &&
  decide (p.weighted_bipred_idc.toNat ≤ 2) && seIn (-(26 + qpBdOffset q)) 25 p.pic_init_qp_minus26 &&
  seIn (-26) 25 p.pic_init_qs_minus26 && seIn (-12) 12 p.chroma_qp_index_offset &&
  matrixOk (ppsListCount q p.transform_8x8_mode_flag) c && seIn (-12) 12 p.second_chroma_qp_index_offset

/-- `WPPS` after `PARSE_PPS` (R260), `tail` saying whether the tail is present. -/
def Pps.coded (p : Pps) (q : Sps) (tail : Bool) (c : List ListCoding) : Pps :=
  { p with
    valid := true
    slice_group_map_type := given p.grouped p.slice_group_map_type 0
    run_length_minus1 := given (p.hasMap 0) (firstEntries 0 (p.num_slice_groups_minus1.toNat + 1) p.run_length_minus1) []
    top_left := given (p.hasMap 2) (firstEntries 0 p.num_slice_groups_minus1.toNat p.top_left) []
    bottom_right := given (p.hasMap 2) (firstEntries 0 p.num_slice_groups_minus1.toNat p.bottom_right) []
    slice_group_change_direction_flag := p.changing && p.slice_group_change_direction_flag
    slice_group_change_rate_minus1 := given p.changing p.slice_group_change_rate_minus1 0
    pic_size_in_map_units_minus1 := given (p.hasMap 6) p.pic_size_in_map_units_minus1 0
    slice_group_id := given (p.hasMap 6) (firstEntries 0 p.mapUnits p.slice_group_id) []
    transform_8x8_mode_flag := tail && p.transform_8x8_mode_flag
    pic_scaling_matrix_present_flag := tail && p.pic_scaling_matrix_present_flag
    lists := given (tail && p.pic_scaling_matrix_present_flag)
      (matrixLists (ppsListCount q p.transform_8x8_mode_flag) (ppsInherited q) c q.lists) q.lists
    second_chroma_qp_index_offset := given tail p.second_chroma_qp_index_offset p.chroma_qp_index_offset }

/-! ## Slice header (44_slice.md) -/

/-- The bits of the first `n` entries of a modification list (R280). -/
def RplmList.entryBits (l : RplmList) (n : Nat) : List Bool := rowBits n fun i =>
  ueField (Table.read l.rplm {} i).idc ++ ueField (Table.read l.rplm {} i).value

/-- The bits of a modification list (R280), the terminator 3 last. -/
def RplmList.bits (l : RplmList) : List Bool :=
  [l.ref_pic_list_modification_flag] ++ optBits l.ref_pic_list_modification_flag
    (l.entryBits l.n_ref_pic_list_modification.toNat ++ ueBits 3)

/-- The values one modification may have. -/
def Rplm.codable (mvc : Bool) (maxPicNum : Nat) (r : Rplm) : Bool :=
  ueOk r.value && (decide (r.idc.toNat ≤ 1 ∧ r.value.toNat + 1 ≤ maxPicNum) || r.idc == 2 ||
    (mvc && (r.idc == 4 || r.idc == 5)))

/-- The values a modification list may have. -/
def RplmList.codable (mvc : Bool) (maxPicNum : Nat) (l : RplmList) : Bool :=
  decide (l.n_ref_pic_list_modification.toNat ≤ Config.rplmCap) &&
  rowOk l.n_ref_pic_list_modification.toNat fun i => (Table.read l.rplm {} i).codable mvc maxPicNum

/-- A modification list after its parse. -/
def RplmList.coded (l : RplmList) : RplmList :=
  given l.ref_pic_list_modification_flag
    { l with rplm := firstEntries {} l.n_ref_pic_list_modification.toNat l.rplm } {}

/-- The presence flags of a prediction-weight list, which no field stores (R285). -/
structure WeightFlags where
  luma : List Bool := []
  chroma : List Bool := []
deriving DecidableEq, Repr

/-- Entry `j` of row `i` of an array of rows. -/
def rowEntry {w : Nat} (a : Table (Table (BitVec w))) (i j : Nat) : BitVec w := Table.read (Table.read a [] i) 0 j

/-- The bits of the weights of `count` references. -/
def PwtList.bits (l : PwtList) (f : WeightFlags) (hasChroma : Bool) (count : Nat) : List Bool :=
  rowBits count fun i =>
    [f.luma.getD i false] ++
    optBits (f.luma.getD i false) (seField (Table.read l.luma_weight 0 i) ++ seField (Table.read l.luma_offset 0 i)) ++
    optBits hasChroma ([f.chroma.getD i false] ++ optBits (f.chroma.getD i false)
      (seField (rowEntry l.chroma_weight i 0) ++ seField (rowEntry l.chroma_offset i 0) ++
        seField (rowEntry l.chroma_weight i 1) ++ seField (rowEntry l.chroma_offset i 1)))

/-- The values the weights of `count` references may have. -/
def PwtList.codable (l : PwtList) (count : Nat) : Bool := rowOk count fun i =>
  seIn (-128) 127 (Table.read l.luma_weight 0 i) && seIn (-128) 127 (rowEntry l.chroma_weight i 0) &&
  seIn (-128) 127 (rowEntry l.chroma_weight i 1)

/-- The weights of `count` references after their parse. -/
def PwtList.coded (l : PwtList) (f : WeightFlags) (lumaDenom chromaDenom : Nat) (hasChroma : Bool) (count : Nat) :
    PwtList :=
  { luma_weight := tabulate 0 count fun i =>
      given (f.luma.getD i false) (Table.read l.luma_weight 0 i) (BitVec.ofNat 16 (2 ^ lumaDenom))
    luma_offset := tabulate 0 count fun i => given (f.luma.getD i false) (Table.read l.luma_offset 0 i) 0
    chroma_weight := tabulate [] count fun i => tabulate 0 2 fun j =>
      given (hasChroma && f.chroma.getD i false) (rowEntry l.chroma_weight i j) (BitVec.ofNat 16 (2 ^ chromaDenom))
    chroma_offset := tabulate [] count fun i => tabulate 0 2 fun j =>
      given (hasChroma && f.chroma.getD i false) (rowEntry l.chroma_offset i j) 0 }

/-- The presence flags of both lists. -/
structure WeightFlagPair where
  l0 : WeightFlags := {}
  l1 : WeightFlags := {}
deriving DecidableEq, Repr

/-- The bits of a prediction-weight table (R285). -/
def Pwt.bits (t : Pwt) (f : WeightFlagPair) (hasChroma isB : Bool) (count0 count1 : Nat) : List Bool :=
  ueField t.luma_log2_weight_denom ++ optBits hasChroma (ueField t.chroma_log2_weight_denom) ++
  t.l0.bits f.l0 hasChroma count0 ++ optBits isB (t.l1.bits f.l1 hasChroma count1)

/-- A prediction-weight table after its parse. -/
def Pwt.coded (t : Pwt) (f : WeightFlagPair) (hasChroma isB : Bool) (count0 count1 : Nat) : Pwt :=
  let chromaDenom := given hasChroma t.chroma_log2_weight_denom 0
  { luma_log2_weight_denom := t.luma_log2_weight_denom
    chroma_log2_weight_denom := chromaDenom
    l0 := t.l0.coded f.l0 t.luma_log2_weight_denom.toNat chromaDenom.toNat hasChroma count0
    l1 := given isB (t.l1.coded f.l1 t.luma_log2_weight_denom.toNat chromaDenom.toNat hasChroma count1) {} }

/-- The bits of one memory-management operation (R290). -/
def Mmco.bits (m : Mmco) : List Bool :=
  ueField m.op ++ optBits (m.op == 1 || m.op == 3) (ueField m.difference_of_pic_nums_minus1) ++
  optBits (m.op == 2) (ueField m.long_term_pic_num) ++ optBits (m.op == 3 || m.op == 6) (ueField m.long_term_frame_idx) ++
  optBits (m.op == 4) (ueField m.max_long_term_frame_idx_plus1)

/-- The values one operation may have; 0 is the terminator. -/
def Mmco.codable (m : Mmco) : Bool :=
  decide (1 ≤ m.op.toNat ∧ m.op.toNat ≤ 6) && ueOk m.difference_of_pic_nums_minus1 && ueOk m.long_term_pic_num &&
  ueOk m.long_term_frame_idx && ueOk m.max_long_term_frame_idx_plus1

/-- One operation after its parse. -/
def Mmco.coded (m : Mmco) : Mmco :=
  { op := m.op
    difference_of_pic_nums_minus1 := given (m.op == 1 || m.op == 3) m.difference_of_pic_nums_minus1 0
    long_term_pic_num := given (m.op == 2) m.long_term_pic_num 0
    long_term_frame_idx := given (m.op == 3 || m.op == 6) m.long_term_frame_idx 0
    max_long_term_frame_idx_plus1 := given (m.op == 4) m.max_long_term_frame_idx_plus1 0 }

/-- The bits of the first `n` operations (R290). -/
def Drpm.opBits (d : Drpm) (n : Nat) : List Bool := rowBits n fun i => (Table.read d.mmco {} i).bits

/-- The bits of the marking (R290), the terminator 0 last. -/
def Drpm.bits (d : Drpm) (idr : Bool) : List Bool :=
  if idr then [d.no_output_of_prior_pics_flag, d.long_term_reference_flag]
  else [d.adaptive_ref_pic_marking_mode_flag] ++ optBits d.adaptive_ref_pic_marking_mode_flag
    (d.opBits d.n_ref_pic_marking.toNat ++ ueBits 0)

/-- The values a marking may have. -/
def Drpm.codable (d : Drpm) : Bool :=
  decide (d.n_ref_pic_marking.toNat ≤ Config.mmcoCap) &&
  rowOk d.n_ref_pic_marking.toNat fun i => (Table.read d.mmco {} i).codable

/-- The marking after its parse. -/
def Drpm.coded (d : Drpm) (idr : Bool) : Drpm :=
  if idr then
    { no_output_of_prior_pics_flag := d.no_output_of_prior_pics_flag
      long_term_reference_flag := d.long_term_reference_flag }
  else if d.adaptive_ref_pic_marking_mode_flag then
    { adaptive_ref_pic_marking_mode_flag := true
      n_ref_pic_marking := d.n_ref_pic_marking
      mmco := tabulate {} d.n_ref_pic_marking.toNat fun i => (Table.read d.mmco {} i).coded }
  else {}

/-- The NAL unit, the PPS and the SPS a slice header is coded against (R274). -/
structure SliceContext where
  nalu : Nalu
  pps : Pps
  sps : Sps

/-- Row 4 is present. -/
def Slice.isField (r : Slice) (x : SliceContext) : Bool := !x.sps.frame_mbs_only_flag && r.field_pic_flag

/-- `max_pic_num` (R272). -/
def Slice.maxPicNum (r : Slice) (x : SliceContext) : BitVec 32 :=
  BitVec.ofNat 32 (if r.isField x then 2 * x.sps.max_frame_num.toNat else x.sps.max_frame_num.toNat)

/-- Rows 7 and 9 are present where the row before them is. -/
def Slice.bothFields (r : Slice) (x : SliceContext) : Bool :=
  x.pps.bottom_field_pic_order_in_frame_present_flag && !r.isField x

/-- Row 8 is present. -/
def SliceContext.deltas (x : SliceContext) : Bool :=
  x.sps.pic_order_cnt_type == 1 && !x.sps.delta_pic_order_always_zero_flag

/-- The slice has a list 0. -/
def Slice.inter (r : Slice) : Bool := r.isP || r.isSP || r.isB

/-- The override is present (R275). -/
def Slice.overrides (r : Slice) : Bool := r.inter && r.num_ref_idx_active_override_flag

/-- The active reference counts (R275). -/
def Slice.count0 (r : Slice) (x : SliceContext) : BitVec 5 :=
  given r.overrides r.num_ref_idx_l0_active_minus1 x.pps.num_ref_idx_l0_default_active_minus1

/-- The active reference counts (R275). -/
def Slice.count1 (r : Slice) (x : SliceContext) : BitVec 5 :=
  given (r.overrides && r.isB) r.num_ref_idx_l1_active_minus1 x.pps.num_ref_idx_l1_default_active_minus1

/-- Row 14 is present. -/
def Slice.weighted (r : Slice) (x : SliceContext) : Bool :=
  (x.pps.weighted_pred_flag && (r.isP || r.isSP)) || (x.pps.weighted_bipred_idc == 1 && r.isB)

/-- The weights cover chroma. -/
def SliceContext.hasChroma (x : SliceContext) : Bool := x.sps.chroma_array_type != 0

/-- Row 15 is present. -/
def SliceContext.marked (x : SliceContext) : Bool := x.nalu.ref_idc != 0

/-- Row 16 is present. -/
def Slice.cabac (r : Slice) (x : SliceContext) : Bool := x.pps.entropy_coding_mode_flag && !r.isI && !r.isSI

/-- Row 21 is present. -/
def Slice.deblocks (r : Slice) (x : SliceContext) : Bool :=
  x.pps.deblocking_filter_control_present_flag && r.disable_deblocking_filter_idc != 1

/-- Row 22 is present. -/
def SliceContext.cycles (x : SliceContext) : Bool :=
  decide (0 < x.pps.num_slice_groups_minus1.toNat ∧ 3 ≤ x.pps.slice_group_map_type.toNat ∧
    x.pps.slice_group_map_type.toNat ≤ 5)

/-- The bits of rows 1 to 4. -/
def Slice.frameBits (r : Slice) (x : SliceContext) : List Bool :=
  optBits x.sps.separate_colour_plane_flag (uField r.colour_plane_id) ++
  uBits (x.sps.log2_max_frame_num_minus4.toNat + 4) r.frame_num.toNat ++
  optBits (!x.sps.frame_mbs_only_flag) [r.field_pic_flag] ++ optBits (r.isField x) [r.bottom_field_flag]

/-- The bits of rows 5 to 11. -/
def Slice.orderBits (r : Slice) (x : SliceContext) : List Bool :=
  optBits x.nalu.idr_pic_flag (ueField r.idr_pic_id) ++
  optBits (x.sps.pic_order_cnt_type == 0)
    (uBits (x.sps.log2_max_pic_order_cnt_lsb_minus4.toNat + 4) r.pic_order_cnt_lsb.toNat ++
      optBits (r.bothFields x) (seField r.delta_pic_order_cnt_bottom)) ++
  optBits x.deltas (seField (Table.read r.delta_pic_order_cnt 0 0) ++
    optBits (r.bothFields x) (seField (Table.read r.delta_pic_order_cnt 0 1))) ++
  optBits x.pps.redundant_pic_cnt_present_flag (ueField r.redundant_pic_cnt) ++
  optBits r.isB [r.direct_spatial_mv_pred_flag]

/-- The bits of row 12 (R275). -/
def Slice.overrideBits (r : Slice) : List Bool :=
  optBits r.inter ([r.num_ref_idx_active_override_flag] ++ optBits r.num_ref_idx_active_override_flag
    (ueField r.num_ref_idx_l0_active_minus1 ++ optBits r.isB (ueField r.num_ref_idx_l1_active_minus1)))

/-- The bits of row 13 (R280). -/
def Slice.listBits (r : Slice) : List Bool :=
  optBits (!r.isI && !r.isSI) r.mod_l0.bits ++ optBits r.isB r.mod_l1.bits

/-- The bits of row 14 (R285). -/
def Slice.weightBits (r : Slice) (x : SliceContext) (f : WeightFlagPair) : List Bool :=
  optBits (r.weighted x) (r.pwt.bits f x.hasChroma r.isB ((r.count0 x).toNat + 1) ((r.count1 x).toNat + 1))

/-- The bits of rows 12 to 15. -/
def Slice.refBits (r : Slice) (x : SliceContext) (f : WeightFlagPair) : List Bool :=
  r.overrideBits ++ r.listBits ++ r.weightBits x f ++ optBits x.marked (r.drpm.bits x.nalu.idr_pic_flag)

/-- The bits of rows 16 to 22. -/
def Slice.quantBits (r : Slice) (x : SliceContext) : List Bool :=
  optBits (r.cabac x) (ueField r.cabac_init_idc) ++ seField r.slice_qp_delta ++
  optBits r.isSP [r.sp_for_switch_flag] ++ optBits (r.isSP || r.isSI) (seField r.slice_qs_delta) ++
  optBits x.pps.deblocking_filter_control_present_flag (ueField r.disable_deblocking_filter_idc ++
    optBits (r.disable_deblocking_filter_idc != 1)
      (seField r.slice_alpha_c0_offset_div2 ++ seField r.slice_beta_offset_div2)) ++
  optBits x.cycles (uBits (changeCycleWidth x.pps x.sps) r.slice_group_change_cycle.toNat)

/-- The bits of a slice header (R270, R274). -/
def Slice.bits (r : Slice) (x : SliceContext) (f : WeightFlagPair) : List Bool :=
  ueField r.first_mb_in_slice ++ ueField r.slice_type ++ ueField r.pps_id ++
  r.frameBits x ++ r.orderBits x ++ r.refBits x f ++ r.quantBits x

/-- The bits of a slice header before row 13. -/
def Slice.headBits (r : Slice) (x : SliceContext) : List Bool :=
  ueField r.first_mb_in_slice ++ ueField r.slice_type ++ ueField r.pps_id ++
  r.frameBits x ++ r.orderBits x ++ r.overrideBits

/-- The values a slice header may have. -/
def Slice.codable (r : Slice) (x : SliceContext) : Bool :=
  ueOk r.first_mb_in_slice && decide (r.slice_type.toNat ≤ 9) && decide (r.colour_plane_id.toNat ≤ 2) &&
  decide (r.frame_num.toNat < 2 ^ (x.sps.log2_max_frame_num_minus4.toNat + 4)) &&
  decide (r.pic_order_cnt_lsb.toNat < 2 ^ (x.sps.log2_max_pic_order_cnt_lsb_minus4.toNat + 4)) &&
  seOk r.delta_pic_order_cnt_bottom && seOk (Table.read r.delta_pic_order_cnt 0 0) &&
  seOk (Table.read r.delta_pic_order_cnt 0 1) &&
  r.mod_l0.codable (x.nalu.extension_type == .mvc) (r.maxPicNum x).toNat &&
  r.mod_l1.codable (x.nalu.extension_type == .mvc) (r.maxPicNum x).toNat &&
  r.pwt.l0.codable ((r.count0 x).toNat + 1) && r.pwt.l1.codable ((r.count1 x).toNat + 1) && r.drpm.codable &&
  decide (r.cabac_init_idc.toNat ≤ 2) && seIn (-87) 77 r.slice_qp_delta && seIn (-51) 51 r.slice_qs_delta &&
  decide (r.disable_deblocking_filter_idc.toNat ≤ 2) && seIn (-6) 6 r.slice_alpha_c0_offset_div2 &&
  seIn (-6) 6 r.slice_beta_offset_div2 &&
  (!x.cycles || decide (changeCycleWidth x.pps x.sps ≤ 32 ∧
    r.slice_group_change_cycle.toNat < 2 ^ changeCycleWidth x.pps x.sps))

/-- `SLICE` after rows 1 to 22 (R11, R274, R275). -/
def Slice.headerCoded (r : Slice) (x : SliceContext) (f : WeightFlagPair) : Slice :=
  { r with
    colour_plane_id := given x.sps.separate_colour_plane_flag r.colour_plane_id 0
    field_pic_flag := r.isField x
    bottom_field_flag := r.isField x && r.bottom_field_flag
    idr_pic_id := given x.nalu.idr_pic_flag r.idr_pic_id 0
    pic_order_cnt_lsb := given (x.sps.pic_order_cnt_type == 0) r.pic_order_cnt_lsb 0
    delta_pic_order_cnt_bottom := given (x.sps.pic_order_cnt_type == 0 && r.bothFields x) r.delta_pic_order_cnt_bottom 0
    delta_pic_order_cnt := tabulate 0 2 fun i =>
      given (x.deltas && (i == 0 || r.bothFields x)) (Table.read r.delta_pic_order_cnt 0 i) 0
    redundant_pic_cnt := given x.pps.redundant_pic_cnt_present_flag r.redundant_pic_cnt 0
    direct_spatial_mv_pred_flag := r.isB && r.direct_spatial_mv_pred_flag
    num_ref_idx_active_override_flag := r.overrides
    num_ref_idx_l0_active_minus1 := r.count0 x
    num_ref_idx_l1_active_minus1 := r.count1 x
    mod_l0 := given (!r.isI && !r.isSI) r.mod_l0.coded {}
    mod_l1 := given r.isB r.mod_l1.coded {}
    pwt := given (r.weighted x)
      (r.pwt.coded f x.hasChroma r.isB ((r.count0 x).toNat + 1) ((r.count1 x).toNat + 1)) {}
    drpm := given x.marked (r.drpm.coded x.nalu.idr_pic_flag) {}
    cabac_init_idc := given (r.cabac x) r.cabac_init_idc 0
    sp_for_switch_flag := r.isSP && r.sp_for_switch_flag
    slice_qs_delta := given (r.isSP || r.isSI) r.slice_qs_delta 0
    disable_deblocking_filter_idc :=
      given x.pps.deblocking_filter_control_present_flag r.disable_deblocking_filter_idc 0
    slice_alpha_c0_offset_div2 := given (r.deblocks x) r.slice_alpha_c0_offset_div2 0
    slice_beta_offset_div2 := given (r.deblocks x) r.slice_beta_offset_div2 0
    slice_group_change_cycle := given x.cycles r.slice_group_change_cycle 0
    max_pic_num := r.maxPicNum x
    header_size := 0
    n_emulation_prevention_bytes := 0 }

/-- `SLICE` after `PARSE_SLICE_HDR` (R318) on a payload with the logical stream `st`. -/
def Slice.coded (r : Slice) (x : SliceContext) (f : WeightFlagPair) (st : Stream) : Slice :=
  { r.headerCoded x f with
    header_size := BitVec.ofNat 32 (rawPos st (r.bits x f).length)
    n_emulation_prevention_bytes := BitVec.ofNat 32 (epbCount st (r.bits x f).length) }

/-! ## SEI (45_sei.md) -/

/-- The bits of one HRD's delays (R351). -/
def delayBits (h : Hrd) (d o : Table (BitVec 32)) : List Bool := rowBits h.entries fun i =>
  uBits (h.initial_cpb_removal_delay_length_minus1.toNat + 1) (Table.read d 0 i).toNat ++
  uBits (h.initial_cpb_removal_delay_length_minus1.toNat + 1) (Table.read o 0 i).toNat

/-- The values one HRD's delays may have. -/
def delayOk (h : Hrd) (d o : Table (BitVec 32)) : Bool := rowOk h.entries fun i =>
  decide ((Table.read d 0 i).toNat < 2 ^ (h.initial_cpb_removal_delay_length_minus1.toNat + 1)) &&
  decide ((Table.read o 0 i).toNat < 2 ^ (h.initial_cpb_removal_delay_length_minus1.toNat + 1))

/-- The bits of a buffering period against the SPS slots (R351). -/
def BufferingPeriod.bits (b : BufferingPeriod) (sps : Table Sps) : List Bool :=
  let v := (spsSlot sps b.sps_id.toNat).vui
  ueField b.sps_id ++
  optBits v.nal_hrd_parameters_present_flag
    (delayBits v.nal_hrd b.nal_initial_cpb_removal_delay b.nal_initial_cpb_removal_delay_offset) ++
  optBits v.vcl_hrd_parameters_present_flag
    (delayBits v.vcl_hrd b.vcl_initial_cpb_removal_delay b.vcl_initial_cpb_removal_delay_offset)

/-- The values a buffering period may have. -/
def BufferingPeriod.codable (b : BufferingPeriod) (sps : Table Sps) : Bool :=
  let v := (spsSlot sps b.sps_id.toNat).vui
  (spsSlot sps b.sps_id.toNat).valid &&
  (!v.nal_hrd_parameters_present_flag ||
    delayOk v.nal_hrd b.nal_initial_cpb_removal_delay b.nal_initial_cpb_removal_delay_offset) &&
  (!v.vcl_hrd_parameters_present_flag ||
    delayOk v.vcl_hrd b.vcl_initial_cpb_removal_delay b.vcl_initial_cpb_removal_delay_offset)

/-- A buffering period after its parse. -/
def BufferingPeriod.coded (b : BufferingPeriod) (sps : Table Sps) : BufferingPeriod :=
  let v := (spsSlot sps b.sps_id.toNat).vui
  { sps_id := b.sps_id
    nal_initial_cpb_removal_delay :=
      given v.nal_hrd_parameters_present_flag (firstEntries 0 v.nal_hrd.entries b.nal_initial_cpb_removal_delay) []
    nal_initial_cpb_removal_delay_offset :=
      given v.nal_hrd_parameters_present_flag (firstEntries 0 v.nal_hrd.entries b.nal_initial_cpb_removal_delay_offset) []
    vcl_initial_cpb_removal_delay :=
      given v.vcl_hrd_parameters_present_flag (firstEntries 0 v.vcl_hrd.entries b.vcl_initial_cpb_removal_delay) []
    vcl_initial_cpb_removal_delay_offset :=
      given v.vcl_hrd_parameters_present_flag (firstEntries 0 v.vcl_hrd.entries b.vcl_initial_cpb_removal_delay_offset) [] }

/-- The bits of a clock timestamp with `tlen` bits of time offset (R352). -/
def ClockTimestamp.bits (c : ClockTimestamp) (tlen : Nat) : List Bool :=
  uField c.ct_type ++ [c.nuit_field_based_flag] ++ uField c.counting_type ++ [c.full_timestamp_flag] ++
  [c.discontinuity_flag] ++ [c.cnt_dropped_flag] ++ uField c.n_frames ++
  (if c.full_timestamp_flag then uField c.seconds_value ++ uField c.minutes_value ++ uField c.hours_value
  else [c.seconds_flag] ++ optBits c.seconds_flag (uField c.seconds_value ++ [c.minutes_flag] ++
    optBits c.minutes_flag (uField c.minutes_value ++ [c.hours_flag] ++ optBits c.hours_flag (uField c.hours_value)))) ++
  uBits tlen c.time_offset.toNat

/-- The time offset fits its width. -/
def ClockTimestamp.codable (c : ClockTimestamp) (tlen : Nat) : Bool :=
  tlen == 0 || c.time_offset == sextField tlen c.time_offset.toNat

/-- A clock timestamp after its parse. -/
def ClockTimestamp.coded (c : ClockTimestamp) (tlen : Nat) : ClockTimestamp :=
  let seconds := !c.full_timestamp_flag && c.seconds_flag
  let minutes := seconds && c.minutes_flag
  let hours := minutes && c.hours_flag
  { c with
    seconds_flag := seconds
    seconds_value := given (c.full_timestamp_flag || seconds) c.seconds_value 0
    minutes_flag := minutes
    minutes_value := given (c.full_timestamp_flag || minutes) c.minutes_value 0
    hours_flag := hours
    hours_value := given (c.full_timestamp_flag || hours) c.hours_value 0
    time_offset := given (tlen != 0) c.time_offset 0 }

/-- The bits of the delays of a picture timing. -/
def PicTiming.delayBits (t : PicTiming) : Option Hrd → List Bool
  | none => []
  | some h => uBits (h.cpb_removal_delay_length_minus1.toNat + 1) t.cpb_removal_delay.toNat ++
    uBits (h.dpb_output_delay_length_minus1.toNat + 1) t.dpb_output_delay.toNat

/-- The bits of a picture timing against the VUI of the last SPS (R352). -/
def PicTiming.bits (t : PicTiming) (v : Vui) : List Bool :=
  t.delayBits (timingHrd v) ++
  optBits v.pic_struct_present_flag (uField t.pic_struct ++ rowBits (numClockTs t.pic_struct.toNat) fun i =>
    [Table.read t.clock_timestamp_flag false i] ++ optBits (Table.read t.clock_timestamp_flag false i)
      ((Table.read t.clock_timestamp {} i).bits (timeOffsetLength (timingHrd v))))

/-- The delays fit their widths. -/
def PicTiming.delayOk (t : PicTiming) : Option Hrd → Bool
  | none => true
  | some h => decide (t.cpb_removal_delay.toNat < 2 ^ (h.cpb_removal_delay_length_minus1.toNat + 1)) &&
    decide (t.dpb_output_delay.toNat < 2 ^ (h.dpb_output_delay_length_minus1.toNat + 1))

/-- The values a picture timing may have. -/
def PicTiming.codable (t : PicTiming) (v : Vui) : Bool :=
  t.delayOk (timingHrd v) && decide (t.pic_struct.toNat ≤ 8) &&
  rowOk (numClockTs t.pic_struct.toNat) fun i =>
    (Table.read t.clock_timestamp {} i).codable (timeOffsetLength (timingHrd v))

/-- A picture timing after its parse. -/
def PicTiming.coded (t : PicTiming) (v : Vui) : PicTiming :=
  let n := given v.pic_struct_present_flag (numClockTs t.pic_struct.toNat) 0
  { cpb_removal_delay := given (timingHrd v).isSome t.cpb_removal_delay 0
    dpb_output_delay := given (timingHrd v).isSome t.dpb_output_delay 0
    pic_struct := given v.pic_struct_present_flag t.pic_struct 0
    clock_timestamp_flag := firstEntries false n t.clock_timestamp_flag
    clock_timestamp := tabulate {} n fun i => given (Table.read t.clock_timestamp_flag false i)
      ((Table.read t.clock_timestamp {} i).coded (timeOffsetLength (timingHrd v))) {} }

/-- The bits of a recovery point (R353). -/
def RecoveryPoint.bits (r : RecoveryPoint) : List Bool :=
  ueField r.recovery_frame_cnt ++ [r.exact_match_flag] ++ [r.broken_link_flag] ++ uField r.changing_slice_group_idc

/-- The bits of a stereo video info (R354). -/
def StereoVideo.bits (v : StereoVideo) : List Bool :=
  [v.field_views_flag] ++
  (if v.field_views_flag then [v.top_field_is_left_view_flag]
  else [v.current_frame_is_left_view_flag] ++ [v.next_frame_is_second_view_flag]) ++
  [v.left_view_self_contained_flag] ++ [v.right_view_self_contained_flag]

/-- A stereo video info after its parse. -/
def StereoVideo.coded (v : StereoVideo) : StereoVideo :=
  { v with
    top_field_is_left_view_flag := v.field_views_flag && v.top_field_is_left_view_flag
    current_frame_is_left_view_flag := !v.field_views_flag && v.current_frame_is_left_view_flag
    next_frame_is_second_view_flag := !v.field_views_flag && v.next_frame_is_second_view_flag }

/-- The grid positions are present (R355). -/
def FramePacking.hasGrid (f : FramePacking) : Bool :=
  !f.cancel_flag && !f.quincunx_sampling_flag && f.arrangement_type != 5

/-- The bits of a frame packing arrangement (R355), up to the extension's content. -/
def FramePacking.bits (f : FramePacking) : List Bool :=
  ueField f.frame_packing_arrangement_id ++ [f.cancel_flag] ++
  optBits (!f.cancel_flag) (uField f.arrangement_type ++ [f.quincunx_sampling_flag] ++
    uField f.content_interpretation_type ++ [f.spatial_flipping_flag] ++ [f.frame0_flipped_flag] ++
    [f.field_views_flag] ++ [f.current_frame_is_frame0_flag] ++ [f.frame0_self_contained_flag] ++
    [f.frame1_self_contained_flag] ++
    optBits (!f.quincunx_sampling_flag && f.arrangement_type != 5) (uField f.frame0_grid_position_x ++
      uField f.frame0_grid_position_y ++ uField f.frame1_grid_position_x ++ uField f.frame1_grid_position_y) ++
    uField f.reserved_byte ++ ueField f.repetition_period) ++
  [f.extension_flag]

/-- The values a frame packing arrangement may have. -/
def FramePacking.codable (f : FramePacking) : Bool := ueOk f.frame_packing_arrangement_id && ueOk f.repetition_period

/-- A frame packing arrangement after its parse. -/
def FramePacking.coded (f : FramePacking) : FramePacking :=
  { f with
    arrangement_type := given (!f.cancel_flag) f.arrangement_type 0
    quincunx_sampling_flag := !f.cancel_flag && f.quincunx_sampling_flag
    content_interpretation_type := given (!f.cancel_flag) f.content_interpretation_type 0
    spatial_flipping_flag := !f.cancel_flag && f.spatial_flipping_flag
    frame0_flipped_flag := !f.cancel_flag && f.frame0_flipped_flag
    field_views_flag := !f.cancel_flag && f.field_views_flag
    current_frame_is_frame0_flag := !f.cancel_flag && f.current_frame_is_frame0_flag
    frame0_self_contained_flag := !f.cancel_flag && f.frame0_self_contained_flag
    frame1_self_contained_flag := !f.cancel_flag && f.frame1_self_contained_flag
    frame0_grid_position_x := given f.hasGrid f.frame0_grid_position_x 0
    frame0_grid_position_y := given f.hasGrid f.frame0_grid_position_y 0
    frame1_grid_position_x := given f.hasGrid f.frame1_grid_position_x 0
    frame1_grid_position_y := given f.hasGrid f.frame1_grid_position_y 0
    reserved_byte := given (!f.cancel_flag) f.reserved_byte 0
    repetition_period := given (!f.cancel_flag) f.repetition_period 0 }

/-- A type or size code (30_encoding.md R94). -/
def seiCodeBits (v : Nat) : List Bool := List.replicate (8 * (v / 255)) true ++ uBits 8 (v % 255)

/-- The kind of a payload type (R340). -/
def kindOf (t : Nat) : SeiKind :=
  if t = 0 then .bufferingPeriod else if t = 1 then .picTiming else if t = 6 then .recoveryPoint
  else if t = 21 then .stereoVideo else if t = 45 then .framePacking else .skipped

/-- One coded SEI message: the record, the bits that are skipped (R355, R356) and the alignment bits (R345). -/
structure SeiCoding where
  msg : SeiMsg := {}
  skip : List Bool := []
  pad : List Bool := []
deriving DecidableEq, Repr

/-- The SPS slots and `LAST_SPS`. -/
structure SeiContext where
  sps : Table Sps
  last_sps : BitVec 6

/-- The last stored SPS. -/
def SeiContext.lastSlot (x : SeiContext) : Sps := spsSlot x.sps x.last_sps.toNat

/-- The payload's bits before those skipped. -/
def SeiMsg.bits (m : SeiMsg) (x : SeiContext) : List Bool :=
  match kindOf m.payload_type.toNat with
  | .bufferingPeriod => m.bp.bits x.sps
  | .picTiming => m.pt.bits x.lastSlot.vui
  | .recoveryPoint => m.rp.bits
  | .stereoVideo => m.sv.bits
  | .framePacking => m.fpa.bits
  | .skipped => []

/-- Bits are skipped after `SeiMsg.bits`. -/
def SeiMsg.skips (m : SeiMsg) : Bool :=
  match kindOf m.payload_type.toNat with
  | .framePacking => m.fpa.extension_flag
  | .skipped => true
  | _ => false

/-- The values a message's payload may have. -/
def SeiMsg.codable (m : SeiMsg) (x : SeiContext) : Bool :=
  match kindOf m.payload_type.toNat with
  | .bufferingPeriod => m.bp.codable x.sps
  | .picTiming => !noLastSps x.last_sps && m.pt.codable x.lastSlot.vui
  | .recoveryPoint => !noLastSps x.last_sps && decide (m.rp.recovery_frame_cnt.toNat + 1 ≤ x.lastSlot.max_frame_num.toNat)
  | .stereoVideo => true
  | .framePacking => m.fpa.codable
  | .skipped => true

/-- A message after its parse: the fields of the other kinds are 0 (R350). -/
def SeiMsg.coded (m : SeiMsg) (x : SeiContext) : SeiMsg :=
  let head : SeiMsg := { payload_type := m.payload_type, payload_size := m.payload_size, kind := kindOf m.payload_type.toNat }
  match kindOf m.payload_type.toNat with
  | .bufferingPeriod => { head with bp := m.bp.coded x.sps }
  | .picTiming => { head with pt := m.pt.coded x.lastSlot.vui }
  | .recoveryPoint => { head with rp := m.rp }
  | .stereoVideo => { head with sv := m.sv.coded }
  | .framePacking => { head with fpa := m.fpa.coded }
  | .skipped => head

/-- The bits of one message (R331). -/
def SeiCoding.bits (c : SeiCoding) (x : SeiContext) : List Bool :=
  seiCodeBits c.msg.payload_type.toNat ++ seiCodeBits c.msg.payload_size.toNat ++ c.msg.bits x ++ c.skip ++ c.pad

/-- The alignment bits violate the pattern (R345). -/
def padWarns : List Bool → Bool
  | [] => false
  | b :: bs => !b || bs.any id

/-- A message may stand before `rest`: its payload is codable, it skips what `payload_size`, clamped to the bits
left (R341), leaves, and its alignment bits reach the next byte. -/
def SeiCoding.codable (c : SeiCoding) (x : SeiContext) (rest : List Bool) : Bool :=
  let used := (c.msg.bits x).length
  let left := used + c.skip.length + c.pad.length + rest.length
  c.msg.codable x &&
  (if c.msg.skips then decide (used + c.skip.length = min (8 * c.msg.payload_size.toNat) left) else c.skip.isEmpty) &&
  decide (c.pad.length = bitsToAlign (used + c.skip.length))

/-- The bits of a list of messages. -/
def seiBits (x : SeiContext) (cs : List SeiCoding) : List Bool := cs.flatMap fun c => c.bits x

/-- A list of messages before `rest`: bits remain after each but the last (R330). -/
def seiCodable (x : SeiContext) : List SeiCoding → List Bool → Bool
  | [], _ => true
  | c :: cs, rest =>
    c.codable x (seiBits x cs ++ rest) && (moreRbspData (seiBits x cs ++ rest) == !cs.isEmpty) && seiCodable x cs rest

/-- The SEI list after `PARSE_SEI`. -/
def seiCoded (x : SeiContext) (cs : List SeiCoding) : SeiList :=
  { count := cs.length, msgs := Table.ofList {} 0 (cs.map fun c => c.msg.coded x) }

end Sys2Proof.Machine
end

