-- ==== Sys2Proof/Safety.lean ====
section
/-! DEFINITION. Sys2Proof/Safety.lean: the terms claims are stated in: the invariants of the machine, the spec's
own formulas for the logical stream, the conditions of 30_encoding.md R85, the rows of spec/opcode_table.json and
the status codes of 60_exceptions.md R401, the failures inside a parse of R406. -/

namespace Sys2Proof.Machine

/-! ## Invariants -/

/-- The slots of a store are in canonical form, below the capacity, and a listed slot is valid and holds the record
with its own id (46_store.md R370, R371, R376). -/
def slotsOk {α : Type} [DecidableEq α] (zero : α) (cap : Nat) (valid : α → Bool) (id : α → Nat) (t : Table α) : Bool :=
  Table.wf zero t && Table.below cap t && t.all fun e => valid e.2 && id e.2 == e.1

/-- `LAST_SPS` is none exactly while no SPS is stored, and else names a valid slot (46_store.md R373). -/
def lastSpsOk (s : State) : Bool :=
  (noLastSps s.last_sps == s.sps.isEmpty) && (noLastSps s.last_sps || (spsSlot s.sps s.last_sps.toNat).valid)

/-- `LAST_PPS` is none exactly while no PPS is stored, and else names a valid slot (R373). -/
def lastPpsOk (s : State) : Bool :=
  ((s.last_pps == 0x1FF) == s.pps.isEmpty) && (s.last_pps == 0x1FF || (ppsSlot s.pps s.last_pps.toNat).valid)

/-- The store (10_state.md R40). -/
def storeOk (s : State) : Bool :=
  slotsOk {} Config.spsSlots (·.valid) (·.id.toNat) s.sps && slotsOk {} Config.ppsSlots (·.valid) (·.id.toNat) s.pps &&
  lastSpsOk s && lastPpsOk s

/-- A valid NALU record names bytes of the buffer and has the header its type has (41_nal_locator.md R141). -/
def naluOk (n : Nalu) : Bool :=
  !n.valid || decide (n.base.toNat + n.offset.toNat + n.size.toNat ≤ Config.bufferBytes) &&
    n.header_bytes == (if extendedType n.type then 4 else 1) && ((n.extension_type == .none) == !extendedType n.type)

/-- What every step keeps: the buffer's canonical form, the store, the reader's window inside the buffer (R60),
the NALU record. -/
def State.Inv (s : State) : Prop :=
  s.mem.wf = true ∧ storeOk s = true ∧ windowPast s.br_base s.br_size = false ∧ naluOk s.nalu = true

/-- `BR_EPB` is what 40_bitreader.md R103 gives for `BR_BASE`, `BR_SIZE`, `p` and the buffer's bytes as they are
(10_state.md R25), wherever R103 gives a value: while `p` is at most `8 L`. -/
def State.EpbOk (s : State) : Prop :=
  s.br_pos ≤ s.bitLength → s.br_epb = BitVec.ofNat 32 (epbCount s.stream s.br_pos)

/-- `p` is at most `8 L` (10_state.md R26), and `BR_EPB` is R103's. A host write of the buffer under the window can
make the stream shorter than `p`; no command can. -/
def State.ReaderOk (s : State) : Prop := s.br_pos ≤ s.bitLength ∧ s.EpbOk

/-- The arrays whose capacity a check guards hold no entry beyond it: the offsets of the picture-order-count cycle, of
WSPS and every SPS slot (42_sps.md R186), the slice-group ids of WPPS and every PPS slot (43_pps.md R243), modification
lists (44_slice.md R280), marking operations (R290), SEI messages (45_sei.md R330). -/
def State.CapacityOk (s : State) : Prop :=
  Table.below Config.rplmCap s.slice.mod_l0.rplm = true ∧ Table.below Config.rplmCap s.slice.mod_l1.rplm = true ∧
  s.slice.mod_l0.n_ref_pic_list_modification.toNat ≤ Config.rplmCap ∧
  s.slice.mod_l1.n_ref_pic_list_modification.toNat ≤ Config.rplmCap ∧
  Table.below Config.mmcoCap s.slice.drpm.mmco = true ∧ s.slice.drpm.n_ref_pic_marking.toNat ≤ Config.mmcoCap ∧
  Table.below Config.pocCycleCap s.wsps.offset_for_ref_frame = true ∧
  (∀ e ∈ s.sps, Table.below Config.pocCycleCap e.2.offset_for_ref_frame = true) ∧
  Table.below s.params.sgidCap s.wpps.slice_group_id = true ∧
  (∀ e ∈ s.pps, Table.below s.params.sgidCap e.2.slice_group_id = true) ∧
  Table.below s.params.seiCap s.sei.msgs = true ∧ s.sei.count ≤ s.params.seiCap

/-! ## The logical stream by the formulas of 40_bitreader.md -/

/-- `i ∈ E` for the raw window `w` (R101). -/
def isEpb (w : List Byte) (i : Nat) : Bool :=
  decide (2 ≤ i ∧ i < w.length) && w.getD (i - 2) 0 == 0 && w.getD (i - 1) 0 == 0 && w.getD i 0 == 3

/-- Logical bit `b` (R102). -/
def logicalBit (st : Stream) (b : Nat) : Bool := (st.getD (b / 8) (0, 0)).2.getLsbD (7 - b % 8)

/-- The raw window of the reader (R100). -/
def State.rawWindow (s : State) : List Byte := s.mem.window s.br_base s.br_size.toNat

/-- `v` is the value of the `n` logical bits at `p`, the first as the most significant (R104). -/
def isValueAt (st : Stream) (p n v : Nat) : Prop := v < 2 ^ n ∧ ∀ j < n, v.testBit (n - 1 - j) = logicalBit st (p + j)

/-- `i` is `scan_sc(a, n)` (41_nal_locator.md R140): the least offset, a byte after it in the window, at which the
bytes 00 00 01 stand. -/
def isFirstStartCode (m : Memory) (a : Word) (n i : Nat) : Prop :=
  i + 4 ≤ n ∧ startCodeAt m (a + BitVec.ofNat 32 i) = true ∧
    ∀ j < i, startCodeAt m (a + BitVec.ofNat 32 j) = false

/-- `scan_sc(a, n)` = NOT_FOUND (R140). -/
def noStartCode (m : Memory) (a : Word) (n : Nat) : Prop :=
  ∀ j, j + 4 ≤ n → startCodeAt m (a + BitVec.ofNat 32 j) = false

/-! ## Commands -/

/-- Operands that 30_encoding.md R85 calls illegal for a command of R82. -/
def operandsIllegal (i : Instr) (s : State) : Bool :=
  match i with
  | .brInit => decide (2 ^ 32 < s.arg0.toNat + s.arg1.toNat)
  | .brRead n => decide (n.toNat = 0 ∨ 32 < n.toNat)
  | .brPeek n => decide (n.toNat = 0 ∨ 32 < n.toNat)
  | .brSkip n => decide (n.toNat = 0 ∨ 32 < n.toNat)
  | .scanStartCode => decide (2 ^ 32 < s.arg0.toNat + s.arg1.toNat)
  | .identifyAnnexb => decide (2 ^ 32 < s.arg0.toNat + s.arg2.toNat ∨ s.arg2.toNat < s.arg1.toNat)
  | .identifyAvc m =>
    decide (m.toNat = 0 ∨ 4 < m.toNat ∨ 2 ^ 32 < s.arg0.toNat + s.arg2.toNat ∨ s.arg2.toNat < s.arg1.toNat)
  | .brSkipLong => false
  | .brReadUe => false
  | .brReadSe => false
  | .brByteAligned => false
  | .brMoreRbspData => false
  | .parseSps _ => false
  | .parseSubsetSps => false
  | .parsePps => false
  | .parseSliceHdr => false
  | .parseSei => false

/-- The rows of spec/opcode_table.json: mask and match, numbered from the least significant bit (R82). -/
def opcodeRows : List (Word × Word) :=
  [(0xFFFFFFFF, 0x01), (0xFFFF00FF, 0x02), (0xFFFF00FF, 0x03), (0xFFFF00FF, 0x04), (0xFFFFFFFF, 0x05),
   (0xFFFFFFFF, 0x06), (0xFFFFFFFF, 0x07), (0xFFFFFFFF, 0x08), (0xFFFFFFFF, 0x09), (0xFFFFFFFF, 0x10),
   (0xFFFFFFFF, 0x11), (0xFFFF00FF, 0x12), (0xFFFFFEFF, 0x20), (0xFFFFFFFF, 0x21), (0xFFFFFFFF, 0x22),
   (0xFFFFFFFF, 0x23), (0xFFFFFFFF, 0x24)]

/-- A host bit-reader command that works on the reader as it stands (40_bitreader.md R121 to R128). -/
def readsBits : Instr → Bool
  | .brRead _ | .brPeek _ | .brSkip _ | .brSkipLong | .brReadUe | .brReadSe | .brByteAligned | .brMoreRbspData => true
  | .brInit | .scanStartCode | .identifyAnnexb | .identifyAvc _ => false
  | .parseSps _ | .parseSubsetSps | .parsePps | .parseSliceHdr | .parseSei => false

/-- A locator command that writes the NALU record (41_nal_locator.md R161, R162). -/
def identifies : Instr → Bool
  | .identifyAnnexb | .identifyAvc _ => true
  | .brInit | .brRead _ | .brPeek _ | .brSkip _ | .brSkipLong | .brReadUe | .brReadSe | .brByteAligned => false
  | .brMoreRbspData | .scanStartCode => false
  | .parseSps _ | .parseSubsetSps | .parsePps | .parseSliceHdr | .parseSei => false

/-- A parse command that writes `WSPS` and may store an SPS (42_sps.md R230, R231). -/
def parsesSps : Instr → Bool
  | .parseSps _ | .parseSubsetSps => true
  | .brInit | .brRead _ | .brPeek _ | .brSkip _ | .brSkipLong | .brReadUe | .brReadSe | .brByteAligned => false
  | .brMoreRbspData | .scanStartCode | .identifyAnnexb | .identifyAvc _ | .parsePps | .parseSliceHdr | .parseSei => false

/-- A parse command (42_sps.md R180). -/
def parses : Instr → Bool
  | .parseSps _ | .parseSubsetSps | .parsePps | .parseSliceHdr | .parseSei => true
  | .brInit | .brRead _ | .brPeek _ | .brSkip _ | .brSkipLong | .brReadUe | .brReadSe | .brByteAligned => false
  | .brMoreRbspData | .scanStartCode | .identifyAnnexb | .identifyAvc _ => false

/-- The bytes of the input buffer a command may read: a base and a number of bytes (20_memory.md R60,
40_bitreader.md R117). -/
def windowOf (s : State) : Instr → Word × Nat
  | .brRead _ | .brPeek _ | .brSkip _ | .brSkipLong | .brReadUe | .brReadSe | .brByteAligned | .brMoreRbspData =>
    (s.br_base, s.br_size.toNat)
  | .scanStartCode => (s.arg0, s.arg1.toNat)
  | .identifyAnnexb | .identifyAvc _ => (s.arg0, s.arg2.toNat)
  | .parseSps _ | .parseSubsetSps | .parsePps | .parseSliceHdr | .parseSei =>
    (payloadBase s.nalu, (payloadSize s.nalu).toNat)
  | .brInit => (0, 0)

/-- The status codes a command can end with (60_exceptions.md R401). -/
def codesOf : Instr → List Code
  | .brInit => [.ok, .illegal]
  | .brRead _ | .brPeek _ | .brSkip _ => [.ok, .insufficientData, .illegal]
  | .brSkipLong | .brReadUe | .brReadSe | .brByteAligned | .brMoreRbspData => [.ok, .insufficientData]
  | .scanStartCode => [.ok, .noNal, .illegal]
  | .identifyAnnexb => [.ok, .brokenData, .noNal, .noNalEnd, .error, .illegal]
  | .identifyAvc _ => [.ok, .brokenData, .noNalEnd, .error, .illegal]
  | .parseSps _ | .parseSubsetSps => [.ok, .error]
  | .parsePps | .parseSei => [.ok, .brokenLink, .error]
  | .parseSliceHdr => [.ok, .brokenLink, .brokenData, .error]

/-- The logical bits of the NALU's payload, where every parse command begins (42_sps.md R180). -/
def State.payloadBits (s : State) : List Bool := logicalBits s.payloadStream

/-- A command ends with `ILLEGAL` and changes nothing else (30_encoding.md R85); what `WARN` holds then is left
unsaid. -/
def endsIllegal (o : Host.Outcome State Fault Refusal) (s : State) : Prop :=
  ∃ w, o = .next { s with status := { code := .illegal, warn := w } }

/-- The state after a bit-reader command that reads `n` bits and answers `v` (40_bitreader.md R104, R103). -/
def State.readAs (s : State) (n : Nat) (v : Word) : State :=
  { s with
    result := v, br_pos := s.br_pos + n, br_epb := BitVec.ofNat 32 (epbCount s.stream (s.br_pos + n))
    status := { code := .ok, warn := false } }

/-- The state after a bit-reader command that fails: `BR_FAIL` is set, `p` unchanged (R106). -/
def State.insufficient (s : State) : State :=
  { s with br_fail := true, status := { code := .insufficientData, warn := false } }

/-- The state after a bit-reader command that fails and leaves even `BR_FAIL` as it was: a peek past the end (R107), or
any of them while `BR_FAIL` is 1 (R106). -/
def State.failsAtOnce (s : State) : State := { s with status := { code := .insufficientData, warn := false } }

/-- The state after a parse command that has moved its reader by `n` bits (42_sps.md R180, 40_bitreader.md R118,
R103), with `BR_FAIL` and the status it ends with. -/
def State.parsed (s : State) (n : Nat) (fail : Bool) (c : Code) (warn : Bool) : State :=
  { s with
    br_base := payloadBase s.nalu, br_size := payloadSize s.nalu, br_pos := n
    br_epb := BitVec.ofNat 32 (epbCount s.payloadStream n), br_fail := fail
    status := { code := c, warn := warn } }

/-- The NAL unit, PPS and SPS that a slice header naming `pps_id` resolves to (44_slice.md R270). -/
def State.sliceContext (s : State) (pps_id : BitVec 8) : SliceContext :=
  { nalu := s.nalu
    pps := ppsSlot s.pps pps_id.toNat
    sps := spsSlot s.sps (ppsSlot s.pps pps_id.toNat).sps_id.toNat }

/-- What SEI messages are parsed against (45_sei.md R351 to R353). -/
def State.seiContext (s : State) : SeiContext := { sps := s.sps, last_sps := s.last_sps }

/-- The SEI list when the first message fails: the message as far as it is filled, and none counted
(60_exceptions.md R405). -/
def firstMessageFailed (m : SeiMsg) : SeiList := { count := 0, msgs := Table.write [] {} 0 m }

/-! ## A failed read, and a failed check, inside a parse command (60_exceptions.md R406) -/

/-- No `ue(v)` code, and so no `se(v)` code, begins these bits (40_bitreader.md R110, R111). -/
def noUeCode (bits : List Bool) : Prop := ∀ k rest, k ≤ 4294967294 → bits ≠ ueBits k ++ rest

/-- An element whose read fails may stand here: a `u(n)`, n at most 32, wants more bits than are left, or no
Exp-Golomb code begins here. -/
def unreadable (bits : List Bool) : Prop := bits.length < 32 ∨ noUeCode bits

/-- A command ends with `ERROR`, its reader `n` bits on, with `BR_FAIL` as given. -/
def endsInError (o : Host.Outcome State Fault Refusal) (n : Nat) (fail : Bool) : Prop :=
  ∃ t, o = .next t ∧ t.status.code = .error ∧ t.br_pos = n ∧ t.br_fail = fail

/-- Failures of a parse of an SPS: no byte; `seq_parameter_set_id`, after 24 bits, unreadable or above 31
(42_sps.md R181); the size check after the last element (R189). -/
def spsErrors (s : State) (i : Instr) : Prop :=
  (s.payloadBits.length < 8 → endsInError (exec i s) 0 true) ∧
  (∀ head rest, head.length = 24 → noUeCode rest → s.payloadBits = head ++ rest → endsInError (exec i s) 24 true) ∧
  (∀ head k rest, head.length = 24 → 31 < k → k ≤ 4294967294 → s.payloadBits = head ++ ueBits k ++ rest →
    endsInError (exec i s) (24 + (ueBits k).length) false) ∧
  ∀ (q : Sps) (vui : Bool) (reserved : BitVec 2) (c : List ListCoding) (rest : List Bool), i = .parseSps vui →
    q.codable c = true → (q.coded vui c).sizeOk = false → s.payloadBits = q.bits vui reserved c ++ rest →
    endsInError (exec i s) (q.bits vui reserved c).length false

/-- Failures of a parse of a PPS: `pic_parameter_set_id` unreadable or above 255 (43_pps.md R240, R241); more map units
than `SGID_CAP` (R243). -/
def ppsErrors (s : State) : Prop :=
  (noUeCode s.payloadBits → endsInError (exec .parsePps s) 0 true) ∧
  (∀ k rest, 255 < k → k ≤ 4294967294 → s.payloadBits = ueBits k ++ rest →
    endsInError (exec .parsePps s) (ueBits k).length false) ∧
  ∀ (p : Pps) (rest : List Bool), (spsSlot s.sps p.sps_id.toNat).valid = true → p.hasMap 6 = true →
    ueOk p.pic_size_in_map_units_minus1 = true → s.params.sgidCap < p.mapUnits → s.payloadBits = p.mapHeadBits ++ rest →
    endsInError (exec .parsePps s) p.mapHeadBits.length false

/-- A code of `modification_of_pic_nums_idc` that names an entry (44_slice.md R280). -/
def entryCode (mvc : Bool) (idc : Nat) : Prop := idc ≤ 2 ∨ mvc = true ∧ (idc = 4 ∨ idc = 5)

/-- Failures of a parse of a slice header: `slice_type` unreadable or above 9 (44_slice.md R270); a 33rd entry of either
modification list, at its code (R280); an eleventh memory-management operation, at its code (R290). -/
def sliceErrors (s : State) : Prop :=
  (∀ (first : BitVec 32) (rest : List Bool), ueOk first = true → noUeCode rest → s.payloadBits = ueField first ++ rest →
    endsInError (exec .parseSliceHdr s) (ueField first).length true) ∧
  (∀ (first : BitVec 32) (k : Nat) (rest : List Bool), ueOk first = true → 9 < k → k ≤ 4294967294 →
    s.payloadBits = ueField first ++ ueBits k ++ rest →
    endsInError (exec .parseSliceHdr s) (ueField first ++ ueBits k).length false) ∧
  ∀ (r : Slice) (f : WeightFlagPair) (code : Nat) (rest : List Bool),
    let x := s.sliceContext r.pps_id
    let list0 := r.headBits x ++ true :: r.mod_l0.entryBits 32 ++ ueBits code
    let list1 := r.headBits x ++ r.mod_l0.bits ++ true :: r.mod_l1.entryBits 32 ++ ueBits code
    let marking := r.headBits x ++ r.listBits ++ r.weightBits x f ++ true :: r.drpm.opBits 10 ++ ueBits code
    x.pps.valid = true → x.sps.valid = true → x.sps.extension_type ≠ .other → r.codable x = true →
    (r.isI = false → r.isSI = false → r.mod_l0.n_ref_pic_list_modification = 32 →
      entryCode (x.nalu.extension_type == .mvc) code → s.payloadBits = list0 ++ rest →
      endsInError (exec .parseSliceHdr s) list0.length false) ∧
    (r.isB = true → r.mod_l1.n_ref_pic_list_modification = 32 →
      entryCode (x.nalu.extension_type == .mvc) code → s.payloadBits = list1 ++ rest →
      endsInError (exec .parseSliceHdr s) list1.length false) ∧
    (x.nalu.ref_idc ≠ 0 → x.nalu.idr_pic_flag = false → r.drpm.n_ref_pic_marking = 10 → 1 ≤ code → code ≤ 6 →
      s.payloadBits = marking ++ rest → endsInError (exec .parseSliceHdr s) marking.length false)

/-- Failures of `PARSE_SEI`: a payload that ends within a type code (45_sei.md R331); a type or a size that 32 bits do
not hold, the type before the size is read (R331, 60_exceptions.md R407); more messages than `SEI_CAP` (R330). -/
def seiErrors (s : State) : Prop :=
  (1 ≤ s.params.seiCap →
    (∀ n rest, rest.length < 8 → s.payloadBits = List.replicate (8 * n) true ++ rest →
      endsInError (exec .parseSei s) (8 * n) true) ∧
    (∀ type rest, 4294967296 ≤ type → s.payloadBits = seiCodeBits type ++ rest →
      endsInError (exec .parseSei s) (seiCodeBits type).length false) ∧
    ∀ type size rest, type < 4294967296 → 4294967296 ≤ size →
      s.payloadBits = seiCodeBits type ++ seiCodeBits size ++ rest →
      endsInError (exec .parseSei s) (seiCodeBits type ++ seiCodeBits size).length false) ∧
  ∀ (cs : List SeiCoding) (c : SeiCoding) (rest : List Bool),
    let x := s.seiContext
    cs.length = s.params.seiCap → seiCodable x (cs ++ [c]) rest = true → s.payloadBits = seiBits x (cs ++ [c]) ++ rest →
    endsInError (exec .parseSei s) (seiBits x cs).length false

end Sys2Proof.Machine
end

