-- ==== Sys2Proof/Certificates/Slice0/Obligations.lean ====
section
/-! DEFINITION. Sys2Proof/Certificates/Slice0/Obligations.lean: the statements for the provers. A statement about a
command says what `exec` answers: an equation with a next state, which is also what the command leaves unchanged. -/

open Sys2Proof Sys2Proof.Machine

/-! ## The command word (30_encoding.md) -/

/-- Decoding the word of any command gives the command back, with every value of its operand (R80, R82). -/
def Obligations.DecodeOfEncode : Prop := ∀ i : Instr, decode (encode i) = .ok i

/-- A word that decodes is the word of the command it decodes to: no second spelling (R80, R85). -/
def Obligations.EncodeOfDecode : Prop := ∀ (w : Word) (i : Instr), decode w = .ok i → encode i = w

/-- The words that decode are those that match a row of the opcode table (R82). -/
def Obligations.DecodesExactlyTheTable : Prop := ∀ w : Word,
  (∃ i, decode w = .ok i) ↔ ∃ r ∈ opcodeRows, w &&& r.1 = r.2

/-- Words written out from R80 and R82, zero field, `imm8`, opcode: one or more of each family. -/
def Obligations.TableWordsDecode : Prop :=
  decode 0x00000001 = .ok .brInit ∧ decode 0x00002002 = .ok (.brRead 32) ∧ decode 0x00000503 = .ok (.brPeek 5) ∧
  decode 0x00000010 = .ok .scanStartCode ∧ decode 0x00000412 = .ok (.identifyAvc 4) ∧
  decode 0x00000120 = .ok (.parseSps true) ∧ decode 0x00000020 = .ok (.parseSps false) ∧
  decode 0x00000021 = .ok .parseSubsetSps ∧ decode 0x00000022 = .ok .parsePps ∧
  decode 0x00000023 = .ok .parseSliceHdr ∧ decode 0x00000024 = .ok .parseSei ∧
  decode 0x00000220 = .error .unusedImm8Set ∧ decode 0x00010001 = .error .zeroFieldSet ∧
  decode 0x00000000 = .error .unknownOpcode

/-! ## A step (10_state.md R20) -/

/-- A write of `CMD` with a word that decodes is a step that runs the command, the access taken off the list of the
host's accesses (log 1); `withFetchWord` makes that write the next access. -/
def Obligations.StepRunsTheCommand : Prop := ∀ (s : State) (w : Word) (i : Instr), decode w = .ok i →
  (∀ rest, s.host = .cmd w :: rest → step s = exec i { s with host := rest }) ∧
  step (s.withFetchWord 32 w.toNat) = exec i s

/-- R85: a word that matches no row of R82, or whose command has operands out of their range, ends with `ILLEGAL`
and no other state change; every other word ends otherwise. -/
def Obligations.IllegalCommandWord : Prop := ∀ (s : State) (w : Word) (rest : List HostOp),
  s.host = .cmd w :: rest →
  let illegal := (∀ r ∈ opcodeRows, w &&& r.1 ≠ r.2) ∨ ∃ i, decode w = .ok i ∧ operandsIllegal i s = true
  (illegal → endsIllegal (step s) { s with host := rest }) ∧
  (¬illegal → ∃ t, step s = .next t ∧ t.status.code ≠ .illegal)

/-- The other accesses of the host, the model's form of R20 and R22 (log 1): a write of an argument register changes
that register alone; a write of one byte of the buffer changes that byte alone, and `BR_EPB` is then R103's count of the
buffer as it is (R25) while `p` is within the stream; power-on reset gives every piece of the core's state its reset
value, whatever it was, and leaves what is the host's own (R430, R431; log 14); without an access to come the core is
idle (R420). -/
def Obligations.HostAccesses : Prop := ∀ (s : State) (rest : List HostOp),
  (∀ k v, s.host = .arg k v :: rest → step s = .next ({ s with host := rest }.writeArg k v)) ∧
  (∀ v, s.writeArg 0 v = { s with arg0 := v } ∧ s.writeArg 1 v = { s with arg1 := v } ∧
    s.writeArg 2 v = { s with arg2 := v } ∧ s.writeArg 3 v = { s with arg3 := v }) ∧
  (∀ a b, s.mem.wf = true → s.host = .buf a b :: rest → ∃ t, step s = .next t ∧
    t = { s with host := rest, mem := t.mem, br_epb := t.br_epb } ∧
    t.mem.byte a = b ∧ (∀ c, c ≠ a → t.mem.byte c = s.mem.byte c) ∧
    (t.br_pos ≤ t.bitLength → t.readReg .brEpb = BitVec.ofNat 32 (epbCount t.stream t.br_pos))) ∧
  (s.host = .reset :: rest → step s = .next { State.reset with mem := s.mem, host := rest, params := s.params }) ∧
  (s.host = [] → step s = .next s)

/-! ## Reset (70_reset_and_hazards.md) -/

/-- R430: every piece of state after reset. -/
def Obligations.ResetState : Prop :=
  let r := State.reset
  r.readReg .cmd = 0 ∧ r.readReg .status = 0 ∧ r.status = { code := .ok, warn := false } ∧
  r.readReg .arg0 = 0 ∧ r.readReg .arg1 = 0 ∧ r.readReg .arg2 = 0 ∧ r.readReg .arg3 = 0 ∧ r.readReg .result = 0 ∧
  r.readReg .brBase = 0 ∧ r.readReg .brSize = 0 ∧ r.readReg .brPos = 0 ∧ r.br_pos = 0 ∧ r.readReg .brEpb = 0 ∧
  r.readReg .brFail = 0 ∧ r.readReg .lastSps = 0x3F ∧ r.readReg .lastPps = 0x1FF ∧
  r.nalu = {} ∧ r.nalu.valid = false ∧ r.nalu.extension_type = .none ∧
  (∀ id, spsSlot r.sps id = {} ∧ (spsSlot r.sps id).valid = false) ∧
  (∀ id, ppsSlot r.pps id = {} ∧ (ppsSlot r.pps id).valid = false) ∧
  r.wsps = {} ∧ r.wpps = {} ∧ r.slice = {} ∧ r.sei.count = 0 ∧ ∀ i, Table.read r.sei.msgs {} i = {}

/-- The registers as the host reads them (10_state.md R22), each status code by its number (R24). -/
def Obligations.RegistersAsRead : Prop := ∀ s : State,
  let code := (s.readReg .status).extractLsb' 0 4
  s.readReg .cmd = 0 ∧
  (s.status.code = .ok → code = 0) ∧ (s.status.code = .brokenLink → code = 1) ∧
  (s.status.code = .brokenData → code = 2) ∧ (s.status.code = .noNal → code = 3) ∧
  (s.status.code = .noNalEnd → code = 4) ∧ (s.status.code = .error → code = 5) ∧
  (s.status.code = .insufficientData → code = 6) ∧ (s.status.code = .illegal → code = 7) ∧
  (s.readReg .status).extractLsb' 4 4 = 0 ∧ (s.readReg .status).getLsbD 8 = s.status.warn ∧
  (s.readReg .status).extractLsb' 9 23 = 0 ∧ (s.readReg .brFail).getLsbD 0 = s.br_fail ∧
  (s.readReg .brFail).extractLsb' 1 31 = 0 ∧ (s.readReg .lastSps).extractLsb' 0 6 = s.last_sps ∧
  (s.readReg .lastSps).extractLsb' 6 26 = 0 ∧ (s.readReg .lastPps).extractLsb' 0 9 = s.last_pps ∧
  (s.readReg .lastPps).extractLsb' 9 23 = 0

/-! ## What every command keeps -/

/-- Every command ends, with a state in which every byte of the buffer reads as before, the argument registers are as
they were, and the host's accesses and the open parameters too (R400, R60, R22). -/
def Obligations.EveryCommandEnds : Prop := ∀ (i : Instr) (s : State), ∃ t, exec i s = .next t ∧
  (∀ a, t.mem.byte a = s.mem.byte a) ∧ t.mem = s.mem ∧ t.host = s.host ∧ t.params = s.params ∧
  t.arg0 = s.arg0 ∧ t.arg1 = s.arg1 ∧ t.arg2 = s.arg2 ∧ t.arg3 = s.arg3

/-- The status codes a command can end with (60_exceptions.md R401). -/
def Obligations.StatusCodes : Prop := ∀ (i : Instr) (s t : State), exec i s = .next t → t.status.code ∈ codesOf i

/-- No command looks at `STATUS`: `WARN` is cleared when a command starts (R23, R400). For a command that ends with
`ILLEGAL` this says that `WARN` does not depend on what it was, which is the model's choice (DEDUCED, log 6). -/
def Obligations.StatusIsWriteOnly : Prop := ∀ (i : Instr) (s : State) (x : Status),
  exec i { s with status := x } = exec i s

/-- `WARN` is set only by a parse that may reach a VUI, and by SEI (R23, R403). For a command that ends with `ILLEGAL`
this says that `WARN` is 0, which is the model's choice (DEDUCED, log 6). -/
def Obligations.WarnOnlyFromVuiAndSei : Prop := ∀ (i : Instr) (s t : State), exec i s = .next t →
  t.status.warn = true → i = .parseSps true ∨ i = .parseSubsetSps ∨ i = .parseSei

/-- A command reads no byte of the buffer outside its window: with any other bytes there, it ends in the same state. The
window of a bit-reader or parse command is the reader's (40_bitreader.md R117), that of a locator command its operands'
(20_memory.md R60). -/
def Obligations.ReadsOnlyItsWindow : Prop := ∀ (i : Instr) (s : State) (m : Memory),
  (∀ k < (windowOf s i).2, m.byte ((windowOf s i).1 + BitVec.ofNat 32 k) = s.mem.byte ((windowOf s i).1 + BitVec.ofNat 32 k)) →
  ∃ t, exec i s = .next t ∧ exec i { s with mem := m } = .next { t with mem := m }

/-! ## Invariants -/

/-- The invariants hold after reset. -/
def Obligations.InvAtReset : Prop := State.reset.Inv ∧ State.reset.ReaderOk ∧ State.reset.CapacityOk

/-- Every step keeps the buffer's canonical form, the store's, the reader's window and the NALU record inside the
buffer (46_store.md R370 to R376, 20_memory.md R60, 41_nal_locator.md R141). -/
def Obligations.StepKeepsInv : Prop := ∀ s t : State, s.Inv → step s = .next t → t.Inv

/-- Every step, a host write of the buffer too, keeps `BR_EPB` what R103 gives for the window, `p` and the buffer as they
are (10_state.md R25); every step but a host write of the buffer keeps `0 ≤ p ≤ 8 L` (R26). -/
def Obligations.StepKeepsReader : Prop := ∀ s t : State, step s = .next t →
  (s.EpbOk → t.EpbOk) ∧ ((∀ a b rest, s.host ≠ .buf a b :: rest) → s.ReaderOk → t.ReaderOk)

/-- No step writes an array entry beyond the capacity its rule checks (R186, R243, R280, R290, R330). -/
def Obligations.StepKeepsCapacity : Prop := ∀ s t : State, s.CapacityOk → step s = .next t → t.CapacityOk

/-! ## The reader (40_bitreader.md section 1) -/

/-- R101: the logical stream is the raw window without the positions of `E`, and no position of `E` is one of the
two zero bytes of another. -/
def Obligations.EmulationPrevention : Prop := ∀ w : List Byte,
  destuff w = ((List.range w.length).filter fun i => !isEpb w i).map (fun i => (i, w.getD i 0)) ∧
  ∀ i j, isEpb w i = true → isEpb w j = true → i + 1 ≠ j ∧ i + 2 ≠ j

/-- R102: the logical bytes are those of the raw positions outside `E`, in order, each with its raw position; the
logical length; logical bit `b` is the bit `7 - b % 8` of the logical byte `b / 8`. -/
def Obligations.LogicalBits : Prop := ∀ w : List Byte,
  (destuff w).map (·.1) = (List.range w.length).filter (fun i => !isEpb w i) ∧ (∀ e ∈ destuff w, e.2 = w.getD e.1 0) ∧
  (destuff w).length + ((List.range w.length).filter (isEpb w)).length = w.length ∧
  (logicalBits (destuff w)).length = 8 * (destuff w).length ∧
  ∀ b < 8 * (destuff w).length, (logicalBits (destuff w)).getD b false = logicalBit (destuff w) b

/-- R103: `BR_EPB` counts the positions of `E` before the last logical byte fetched. -/
def Obligations.EpbCount : Prop := ∀ (w : List Byte) (p : Nat), p ≤ 8 * (destuff w).length →
  epbCount (destuff w) p = if p = 0 then 0 else
    ((List.range ((destuff w).getD ((p + 7) / 8 - 1) (0, 0)).1).filter (isEpb w)).length

/-- R115: the splitting law. -/
def Obligations.SplittingLaw : Prop := ∀ (bits : List Bool) (n : Nat), 1 ≤ n → n ≤ 31 → 32 ≤ bits.length →
  ∃ a b v, readU n bits = some a ∧ readU (32 - n) (bits.drop n) = some b ∧ readU 32 bits = some v ∧
    (a <<< (32 - n)) ||| b = v

/-- R91, R92, R110, R111: reading an Exp-Golomb code, at the front of any bits, gives its value and its length; of
bits that no code begins, there is no value. -/
def Obligations.ExpGolombCodes : Prop :=
  (∀ k rest, k ≤ 4294967294 → readUe (ueBits k ++ rest) = some (k, (ueBits k).length)) ∧
  (∀ (v : Int) rest, -2147483647 ≤ v → v ≤ 2147483647 → readSe (seBits v ++ rest) = some (v, (seBits v).length)) ∧
  ∀ bits, (∀ k rest, k ≤ 4294967294 → bits ≠ ueBits k ++ rest) → readUe bits = none ∧ readSe bits = none

/-! ## Host bit-reader commands (40_bitreader.md section 2) -/

/-- R120: `BR_INIT`; a window of size 0 is an empty stream. -/
def Obligations.BrInit : Prop := ∀ s : State,
  (s.arg0.toNat + s.arg1.toNat ≤ 2 ^ 32 → exec .brInit s = .next { s with
    br_base := s.arg0, br_size := s.arg1, br_pos := 0, br_epb := 0, br_fail := false, result := 0
    status := { code := .ok, warn := false } }) ∧
  (2 ^ 32 < s.arg0.toNat + s.arg1.toNat → endsIllegal (exec .brInit s) s) ∧
  (s.arg1 = 0 → ∃ t, exec .brInit s = .next t ∧ t.bitLength = 0)

/-- R121, R104: `BR_READ n`. -/
def Obligations.BrRead : Prop := ∀ (s : State) (n : BitVec 8),
  (1 ≤ n.toNat → n.toNat ≤ 32 → s.br_fail = false → s.br_pos + n.toNat ≤ s.bitLength →
    ∃ v, isValueAt s.stream s.br_pos n.toNat v ∧ exec (.brRead n) s = .next (s.readAs n.toNat (BitVec.ofNat 32 v))) ∧
  (1 ≤ n.toNat → n.toNat ≤ 32 → s.br_fail = false → s.bitLength < s.br_pos + n.toNat →
    exec (.brRead n) s = .next s.insufficient) ∧
  (1 ≤ n.toNat → n.toNat ≤ 32 → s.br_fail = true → exec (.brRead n) s = .next s.failsAtOnce) ∧
  (n.toNat = 0 ∨ 32 < n.toNat → endsIllegal (exec (.brRead n) s) s)

/-- R122, R107: `BR_PEEK n` answers what `BR_READ n` would, and changes no state but `RESULT` and `STATUS`; a failing
peek does not set `BR_FAIL`. -/
def Obligations.BrPeek : Prop := ∀ (s : State) (n : BitVec 8),
  (1 ≤ n.toNat → n.toNat ≤ 32 → s.br_fail = false → s.br_pos + n.toNat ≤ s.bitLength →
    ∃ v, isValueAt s.stream s.br_pos n.toNat v ∧ exec (.brPeek n) s = .next { s with
      result := BitVec.ofNat 32 v, status := { code := .ok, warn := false } }) ∧
  (1 ≤ n.toNat → n.toNat ≤ 32 → s.br_fail = false → s.bitLength < s.br_pos + n.toNat →
    exec (.brPeek n) s = .next s.failsAtOnce) ∧
  (1 ≤ n.toNat → n.toNat ≤ 32 → s.br_fail = true → exec (.brPeek n) s = .next s.failsAtOnce) ∧
  (n.toNat = 0 ∨ 32 < n.toNat → endsIllegal (exec (.brPeek n) s) s)

/-- R123, R108: `BR_SKIP n`. -/
def Obligations.BrSkip : Prop := ∀ (s : State) (n : BitVec 8),
  (1 ≤ n.toNat → n.toNat ≤ 32 → s.br_fail = false → s.br_pos + n.toNat ≤ s.bitLength →
    exec (.brSkip n) s = .next (s.readAs n.toNat 0)) ∧
  (1 ≤ n.toNat → n.toNat ≤ 32 → s.br_fail = false → s.bitLength < s.br_pos + n.toNat →
    exec (.brSkip n) s = .next s.insufficient) ∧
  (1 ≤ n.toNat → n.toNat ≤ 32 → s.br_fail = true → exec (.brSkip n) s = .next s.failsAtOnce) ∧
  (n.toNat = 0 ∨ 32 < n.toNat → endsIllegal (exec (.brSkip n) s) s)

/-- R124, R109: `BR_SKIP_LONG`, for any `ARG0`; skipping 0 bits changes nothing. -/
def Obligations.BrSkipLong : Prop := ∀ s : State,
  (s.br_fail = false → s.br_pos + s.arg0.toNat ≤ s.bitLength → s.arg0 ≠ 0 →
    exec .brSkipLong s = .next (s.readAs s.arg0.toNat 0)) ∧
  (s.br_fail = false → s.br_pos ≤ s.bitLength → s.arg0 = 0 →
    exec .brSkipLong s = .next { s with result := 0, status := { code := .ok, warn := false } }) ∧
  (s.br_fail = false → s.bitLength < s.br_pos + s.arg0.toNat → exec .brSkipLong s = .next s.insufficient) ∧
  (s.br_fail = true → exec .brSkipLong s = .next s.failsAtOnce)

/-- R125, R110: `BR_READ_UE`. -/
def Obligations.BrReadUe : Prop := ∀ s : State,
  (∀ k rest, s.br_fail = false → k ≤ 4294967294 → s.unread = ueBits k ++ rest →
    exec .brReadUe s = .next (s.readAs (ueBits k).length (BitVec.ofNat 32 k))) ∧
  (s.br_fail = false → (∀ k rest, k ≤ 4294967294 → s.unread ≠ ueBits k ++ rest) →
    exec .brReadUe s = .next s.insufficient) ∧
  (s.br_fail = true → exec .brReadUe s = .next s.failsAtOnce)

/-- R126, R111: `BR_READ_SE`, the value in two's complement. -/
def Obligations.BrReadSe : Prop := ∀ s : State,
  (∀ (v : Int) rest, s.br_fail = false → -2147483647 ≤ v → v ≤ 2147483647 → s.unread = seBits v ++ rest →
    exec .brReadSe s = .next (s.readAs (seBits v).length (BitVec.ofInt 32 v))) ∧
  (s.br_fail = false → (∀ (v : Int) rest, -2147483647 ≤ v → v ≤ 2147483647 → s.unread ≠ seBits v ++ rest) →
    exec .brReadSe s = .next s.insufficient) ∧
  (s.br_fail = true → exec .brReadSe s = .next s.failsAtOnce)

/-- R127, R112: `BR_BYTE_ALIGNED`. -/
def Obligations.BrByteAligned : Prop := ∀ s : State,
  (s.br_fail = false → exec .brByteAligned s = .next { s with
    result := if s.br_pos % 8 = 0 then 1 else 0, status := { code := .ok, warn := false } }) ∧
  (s.br_fail = true → exec .brByteAligned s = .next s.failsAtOnce)

/-- R128, R116: `BR_MORE_RBSP_DATA`. -/
def Obligations.BrMoreRbspData : Prop := ∀ s : State,
  let more := s.br_pos < s.bitLength ∧ (logicalBit s.stream s.br_pos = false ∨
    ∃ b, s.br_pos < b ∧ b < s.bitLength ∧ logicalBit s.stream b = true)
  (s.br_fail = false → more →
    exec .brMoreRbspData s = .next { s with result := 1, status := { code := .ok, warn := false } }) ∧
  (s.br_fail = false → ¬more →
    exec .brMoreRbspData s = .next { s with result := 0, status := { code := .ok, warn := false } }) ∧
  (s.br_fail = true → exec .brMoreRbspData s = .next s.failsAtOnce)

/-- R106: while `BR_FAIL` is 1, every host read, skip, Exp-Golomb, alignment and more-data command with a legal operand
fails at once with `INSUFFICIENT_DATA` and changes nothing. -/
def Obligations.StickyFailure : Prop := ∀ (i : Instr) (s : State), readsBits i = true → operandsIllegal i s = false →
  s.br_fail = true → exec i s = .next s.failsAtOnce

/-- What a bit-reader command leaves unchanged: all but the reader's registers, `RESULT` and `STATUS` (R82). -/
def Obligations.BitReaderFrame : Prop := ∀ (i : Instr) (s t : State), readsBits i = true ∨ i = .brInit →
  exec i s = .next t → t = { s with
    br_base := t.br_base, br_size := t.br_size, br_pos := t.br_pos, br_epb := t.br_epb, br_fail := t.br_fail
    result := t.result, status := t.status } ∧ (i ≠ .brInit → t.br_base = s.br_base ∧ t.br_size = s.br_size)

/-! ## The NAL-unit locator (41_nal_locator.md) -/

/-- R160, R140: `SCAN_START_CODE`. -/
def Obligations.ScanStartCode : Prop := ∀ s : State,
  (s.arg0.toNat + s.arg1.toNat ≤ 2 ^ 32 →
    (∀ i, isFirstStartCode s.mem s.arg0 s.arg1.toNat i → exec .scanStartCode s = .next { s with
      result := BitVec.ofNat 32 i, status := { code := .ok, warn := false } }) ∧
    (noStartCode s.mem s.arg0 s.arg1.toNat → exec .scanStartCode s = .next { s with
      result := 0xFFFFFFFF, status := { code := .noNal, warn := false } })) ∧
  (2 ^ 32 < s.arg0.toNat + s.arg1.toNat → endsIllegal (exec .scanStartCode s) s)

/-- R141, R142, R144: `parse_header`, by the bits of the header byte `h` and of the three bytes after it. -/
def Obligations.HeaderParse : Prop := ∀ (m : Memory) (n : Nalu),
  let a := n.base + n.offset
  let h := m.byte a
  let b1 := m.byte (a + 1)
  let b2 := m.byte (a + 2)
  let b3 := m.byte (a + 3)
  let r : Nalu := { n with
    type := h.extractLsb' 0 5, ref_idc := h.extractLsb' 5 2, idr_pic_flag := h.extractLsb' 0 5 == 5
    header_bytes := 1, extension_type := .none }
  let extended := h.extractLsb' 0 5 = 14 ∨ h.extractLsb' 0 5 = 20
  (n.size = 0 → parseHeader m n = (false, n)) ∧
  (n.size ≠ 0 → ¬extended → parseHeader m n = (true, r)) ∧
  (n.size ≠ 0 → extended → n.size.toNat < 4 → parseHeader m n = (false, r)) ∧
  (extended → 4 ≤ n.size.toNat → b1.getLsbD 7 = true → parseHeader m n = (true, { r with
    svc_extension_flag := true, extension_type := .svc, header_bytes := 4 })) ∧
  (extended → 4 ≤ n.size.toNat → b1.getLsbD 7 = false → parseHeader m n = (true, { r with
    svc_extension_flag := false, extension_type := .mvc, header_bytes := 4
    mvc := { non_idr_flag := b1.getLsbD 6, priority_id := b1.extractLsb' 0 6, view_id := b2 ++ b3.extractLsb' 6 2
             temporal_id := b3.extractLsb' 3 3, anchor_pic_flag := b3.getLsbD 2, inter_view_flag := b3.getLsbD 1 }
    idr_pic_flag := !b1.getLsbD 6 }))

/-- R161 with R145, R146, R147: `IDENTIFY_ANNEXB`. `n1` is the record after R145; `len` is `off2` with the zero bytes
before it taken off. -/
def Obligations.IdentifyAnnexb : Prop := ∀ s : State,
  (s.arg0.toNat + s.arg2.toNat ≤ 2 ^ 32 → s.arg1.toNat ≤ s.arg2.toNat →
    (s.arg2.toNat < s.arg1.toNat + 4 → exec .identifyAnnexb s = .next { s with
      nalu := { base := s.arg0 }, status := { code := .error, warn := false } }) ∧
    (s.arg1.toNat + 4 ≤ s.arg2.toNat → noStartCode s.mem (s.arg0 + s.arg1) (s.arg2.toNat - s.arg1.toNat) →
      exec .identifyAnnexb s = .next { s with nalu := { base := s.arg0 }, status := { code := .noNal, warn := false } }) ∧
    ∀ off1, s.arg1.toNat + 4 ≤ s.arg2.toNat →
      isFirstStartCode s.mem (s.arg0 + s.arg1) (s.arg2.toNat - s.arg1.toNat) off1 →
      let sc := s.arg1 + BitVec.ofNat 32 off1
      let r := parseHeader s.mem { base := s.arg0, sc_offset := sc, offset := sc + 3, size := s.arg2 - (sc + 3) }
      let n1 : Nalu := { r.2 with
        valid := true
        sc_offset := if 0 < sc.toNat ∧ s.mem.byte (s.arg0 + sc - 1) = 0 ∧ (r.2.type = 7 ∨ r.2.type = 8 ∨ r.2.type = 9)
          then sc - 1 else sc }
      (r.1 = false → exec .identifyAnnexb s = .next { s with
        nalu := r.2, status := { code := .brokenData, warn := false } }) ∧
      (r.1 = true → r.2.type = 10 ∨ r.2.type = 11 → exec .identifyAnnexb s = .next { s with
        nalu := { n1 with size := 1 }, status := { code := .ok, warn := false } }) ∧
      (r.1 = true → r.2.type ≠ 10 → r.2.type ≠ 11 →
        (noStartCode s.mem (s.arg0 + (sc + 3)) (s.arg2.toNat - (sc + 3).toNat) → exec .identifyAnnexb s = .next { s with
          nalu := n1, status := { code := .noNalEnd, warn := false } }) ∧
        ∀ off2 len, isFirstStartCode s.mem (s.arg0 + (sc + 3)) (s.arg2.toNat - (sc + 3).toNat) off2 → len ≤ off2 →
          (∀ k, len ≤ k → k < off2 → s.mem.byte (s.arg0 + (sc + 3) + BitVec.ofNat 32 k) = 0) →
          (0 < len → s.mem.byte (s.arg0 + (sc + 3) + BitVec.ofNat 32 (len - 1)) ≠ 0) →
          exec .identifyAnnexb s = .next { s with
            nalu := { n1 with size := BitVec.ofNat 32 len }
            status := { code := if len < 2 then .brokenData else .ok, warn := false } })) ∧
  (2 ^ 32 < s.arg0.toNat + s.arg2.toNat ∨ s.arg2.toNat < s.arg1.toNat → endsIllegal (exec .identifyAnnexb s) s)

/-- R162, R63: `IDENTIFY_AVC m`; `len` is the big-endian value of the `m` bytes at `ARG0 + ARG1`. -/
def Obligations.IdentifyAvc : Prop := ∀ (s : State) (m : BitVec 8),
  (1 ≤ m.toNat → m.toNat ≤ 4 → s.arg0.toNat + s.arg2.toNat ≤ 2 ^ 32 → s.arg1.toNat ≤ s.arg2.toNat →
    (s.arg2.toNat < s.arg1.toNat + m.toNat → exec (.identifyAvc m) s = .next { s with
      nalu := { base := s.arg0 }, status := { code := .error, warn := false } }) ∧
    ∀ len, s.arg1.toNat + m.toNat ≤ s.arg2.toNat → len < 256 ^ m.toNat →
      (∀ j < m.toNat, (s.mem.byte (s.arg0 + s.arg1 + BitVec.ofNat 32 j)).toNat = len / 256 ^ (m.toNat - 1 - j) % 256) →
      let n : Nalu := { base := s.arg0, sc_offset := s.arg1, offset := s.arg1 + m.setWidth 32, size := BitVec.ofNat 32 len }
      let r := parseHeader s.mem n
      (s.arg2.toNat - s.arg1.toNat < len + m.toNat → exec (.identifyAvc m) s = .next { s with
        nalu := { n with size := 0 }, status := { code := .noNalEnd, warn := false } }) ∧
      (len + m.toNat ≤ s.arg2.toNat - s.arg1.toNat → r.1 = false → exec (.identifyAvc m) s = .next { s with
        nalu := r.2, status := { code := .brokenData, warn := false } }) ∧
      (len + m.toNat ≤ s.arg2.toNat - s.arg1.toNat → r.1 = true → exec (.identifyAvc m) s = .next { s with
        nalu := { r.2 with valid := true }, status := { code := .ok, warn := false } })) ∧
  (m.toNat = 0 ∨ 4 < m.toNat ∨ 2 ^ 32 < s.arg0.toNat + s.arg2.toNat ∨ s.arg2.toNat < s.arg1.toNat →
    endsIllegal (exec (.identifyAvc m) s) s)

/-- What the locator leaves unchanged: `SCAN_START_CODE` all but `RESULT` and `STATUS`; the others all but the NALU
record and `STATUS`, and what they write does not depend on the record before (R442, 41_nal_locator.md section 2). -/
def Obligations.LocatorFrame : Prop := ∀ (i : Instr) (s t : State), exec i s = .next t →
  (i = .scanStartCode → t = { s with result := t.result, status := t.status }) ∧
  (identifies i = true → t = { s with nalu := t.nalu, status := t.status } ∧
    ∀ n, operandsIllegal i s = false → exec i { s with nalu := n } = .next t)

/-! ## Parse commands -/

/-- R180: without a valid NALU record, or with one shorter than its header, a parse command ends with `ERROR` before it
changes anything else. -/
def Obligations.ParseNeedsARecord : Prop := ∀ (i : Instr) (s : State), parses i = true →
  s.nalu.valid = false ∨ s.nalu.size.toNat < s.nalu.header_bytes.toNat →
  exec i s = .next { s with status := { code := .error, warn := false } }

/-- R180, R41: a parse command zeroes its destination first, so what it ends in does not depend on what the
destination held. -/
def Obligations.DestinationIsZeroed : Prop := ∀ s : State, naluReady s.nalu = true →
  (∀ v x, exec (.parseSps v) { s with wsps := x } = exec (.parseSps v) s) ∧
  (∀ x, exec .parseSubsetSps { s with wsps := x } = exec .parseSubsetSps s) ∧
  (∀ x, exec .parsePps { s with wpps := x } = exec .parsePps s) ∧
  (∀ x, exec .parseSliceHdr { s with slice := x } = exec .parseSliceHdr s) ∧
  ∀ x, exec .parseSei { s with sei := x } = exec .parseSei s

/-- R441, R180: after a parse command the reader's registers describe the payload, `p` is in it, and `BR_EPB` is R103's
count. -/
def Obligations.ReaderAfterParse : Prop := ∀ (i : Instr) (s t : State), parses i = true → naluReady s.nalu = true →
  exec i s = .next t →
  t.br_base = payloadBase s.nalu ∧ t.br_size = payloadSize s.nalu ∧ t.br_pos ≤ s.payloadBits.length ∧
  t.br_epb = BitVec.ofNat 32 (epbCount s.payloadStream t.br_pos)

/-- R406: a parse command leaves `BR_FAIL` set only where it ends with `ERROR`, with `p` where a read can fail. And a read
that fails ends it so, with `p` at the element, while a failed range or capacity check ends it with `ERROR`, `BR_FAIL` 0
and `p` past the element: elements and checks of every parse command, in `Safety.lean`. -/
def Obligations.BrFailOnlyWithError : Prop := ∀ (i : Instr) (s : State), parses i = true → naluReady s.nalu = true →
  (∀ t, exec i s = .next t → t.br_fail = true → t.status.code = .error ∧ unreadable (s.payloadBits.drop t.br_pos)) ∧
  (parsesSps i = true → spsErrors s i) ∧ (i = .parsePps → ppsErrors s) ∧ (i = .parseSliceHdr → sliceErrors s) ∧
  (i = .parseSei → seiErrors s)

/-- What a parse command leaves unchanged: all but the reader's registers, `STATUS`, its own record and its own slots
with their pointer (R82, R376). -/
def Obligations.ParseFrame : Prop := ∀ (i : Instr) (s t : State), parses i = true → exec i s = .next t → t = { s with
  br_base := t.br_base, br_size := t.br_size, br_pos := t.br_pos, br_epb := t.br_epb, br_fail := t.br_fail
  status := t.status
  wsps := if parsesSps i then t.wsps else s.wsps
  sps := if parsesSps i then t.sps else s.sps
  last_sps := if parsesSps i then t.last_sps else s.last_sps
  wpps := if i = .parsePps then t.wpps else s.wpps
  pps := if i = .parsePps then t.pps else s.pps
  last_pps := if i = .parsePps then t.last_pps else s.last_pps
  slice := if i = .parseSliceHdr then t.slice else s.slice
  sei := if i = .parseSei then t.sei else s.sei }

/-- R375, for every parse command: parsing the same bytes twice leaves what parsing them once left. -/
def Obligations.ParseIsIdempotent : Prop := ∀ (i : Instr) (s t : State), parses i = true → exec i s = .next t →
  exec i t = .next t

/-- R405: the working record's `valid` is set only on success, and the NALU record's where its rule set it before the
failure. -/
def Obligations.ValidIsTheGate : Prop := ∀ (i : Instr) (s t : State), exec i s = .next t →
  (parsesSps i = true → naluReady s.nalu = true → (t.wsps.valid = true ↔ t.status.code = .ok)) ∧
  (i = .parsePps → naluReady s.nalu = true → (t.wpps.valid = true ↔ t.status.code = .ok)) ∧
  (∀ m, i = .identifyAvc m → operandsIllegal i s = false → (t.nalu.valid = true ↔ t.status.code = .ok)) ∧
  (i = .identifyAnnexb → operandsIllegal i s = false →
    (t.status.code = .ok ∨ t.status.code = .noNalEnd → t.nalu.valid = true) ∧
    (t.status.code = .error ∨ t.status.code = .noNal → t.nalu.valid = false))

/-! ## The parameter-set store (46_store.md) -/

/-- R376, R404: a command that ends with another status than `OK` leaves every slot and both pointers alone; so does
every command that is not a parse of their kind. -/
def Obligations.OnlySuccessStores : Prop := ∀ (i : Instr) (s t : State), exec i s = .next t →
  (t.status.code ≠ .ok ∨ parsesSps i = false → t.sps = s.sps ∧ t.last_sps = s.last_sps) ∧
  (t.status.code ≠ .ok ∨ i ≠ .parsePps → t.pps = s.pps ∧ t.last_pps = s.last_pps)

/-- R370, R371, R373, R374: a successful parse stores its whole record in the slot of its id, which is then the last
stored; every other slot stays. -/
def Obligations.SuccessStores : Prop := ∀ (i : Instr) (s t : State), exec i s = .next t → t.status.code = .ok →
  (parsesSps i = true → t.wsps.valid = true ∧ spsSlot t.sps t.wsps.id.toNat = t.wsps ∧
    t.last_sps.toNat = t.wsps.id.toNat ∧ ∀ id, id ≠ t.wsps.id.toNat → spsSlot t.sps id = spsSlot s.sps id) ∧
  (i = .parsePps → t.wpps.valid = true ∧ ppsSlot t.pps t.wpps.id.toNat = t.wpps ∧
    t.last_pps.toNat = t.wpps.id.toNat ∧ ∀ id, id ≠ t.wpps.id.toNat → ppsSlot t.pps id = ppsSlot s.pps id)

/-- R376, R431: no command makes a valid slot invalid. -/
def Obligations.NoCommandClearsASlot : Prop := ∀ (i : Instr) (s t : State), exec i s = .next t → ∀ id,
  ((spsSlot s.sps id).valid = true → (spsSlot t.sps id).valid = true) ∧
  ((ppsSlot s.pps id).valid = true → (ppsSlot t.pps id).valid = true)

/-! ## SPS (42_sps.md) -/

/-- R230 with R181 to R215: `PARSE_SPS` of a payload that begins with the coded bits of an SPS, for every SPS, coding of
its scaling lists, value of the reserved bits and VUI request, whose sizes R189 admits. -/
def Obligations.ParseSps : Prop := ∀ (s : State) (q : Sps) (vui : Bool) (reserved : BitVec 2) (c : List ListCoding)
    (rest : List Bool),
  naluReady s.nalu = true → q.codable c = true → (q.coded vui c).sizeOk = true →
  s.payloadBits = q.bits vui reserved c ++ rest →
  exec (.parseSps vui) s = .next { s.parsed (q.bits vui reserved c).length false .ok (q.warns vui) with
    wsps := q.coded vui c
    sps := Table.write s.sps {} q.id.toNat (q.coded vui c)
    last_sps := q.id.setWidth 6 }

/-- R231 with R220, R221: `PARSE_SUBSET_SPS`, the VUI always requested. -/
def Obligations.ParseSubsetSps : Prop := ∀ (s : State) (q : Sps) (reserved : BitVec 2) (c : List ListCoding)
    (rest : List Bool),
  naluReady s.nalu = true → q.codable c = true → (q.subsetCoded c).sizeOk = true →
  s.payloadBits = q.subsetBits reserved c ++ rest →
  exec .parseSubsetSps s = .next { s.parsed (q.subsetBits reserved c).length false .ok (q.warns true) with
    wsps := q.subsetCoded c
    sps := Table.write s.sps {} q.id.toNat (q.subsetCoded c)
    last_sps := q.id.setWidth 6 }

/-- R184, R185, R187, R188, R189: the derived fields of an SPS whose parse succeeds, in integers. -/
def Obligations.DerivedSpsFields : Prop := ∀ (i : Instr) (s t : State), parsesSps i = true → exec i s = .next t →
  t.status.code = .ok →
  let w := t.wsps
  let field : Nat := if w.frame_mbs_only_flag then 1 else 2
  let unitX : Nat := [1, 2, 2, 1].getD w.chroma_format_idc.toNat 0
  let unitY : Nat := [1, 2, 1, 1].getD w.chroma_format_idc.toNat 0 * field
  w.chroma_array_type = (if w.separate_colour_plane_flag then 0 else w.chroma_format_idc) ∧
  w.max_frame_num.toNat = 2 ^ (w.log2_max_frame_num_minus4.toNat + 4) ∧
  w.width.toNat = (w.pic_width_in_mbs_minus1.toNat + 1) * 16 ∧ w.width.toNat < 2 ^ 31 ∧
  w.height.toNat = (w.pic_height_in_map_units_minus1.toNat + 1) * 16 * field ∧ w.height.toNat < 2 ^ 31 ∧
  (w.frame_cropping_flag = true →
    w.crop_rect_x.toNat = w.frame_crop_left_offset.toNat * unitX ∧
    w.crop_rect_y.toNat = w.frame_crop_top_offset.toNat * unitY ∧
    w.crop_rect_width.toNat + (w.frame_crop_left_offset.toNat + w.frame_crop_right_offset.toNat) * unitX = w.width.toNat ∧
    w.crop_rect_height.toNat + (w.frame_crop_top_offset.toNat + w.frame_crop_bottom_offset.toNat) * unitY = w.height.toNat) ∧
  (w.frame_cropping_flag = false →
    w.crop_rect_x = 0 ∧ w.crop_rect_y = 0 ∧ w.crop_rect_width = w.width ∧ w.crop_rect_height = w.height) ∧
  1 ≤ w.crop_rect_width.toNat ∧ 1 ≤ w.crop_rect_height.toNat ∧ w.crop_rect_x.toNat < 2 ^ 31 ∧ w.crop_rect_y.toNat < 2 ^ 31

/-! ## PPS (43_pps.md) -/

/-- R260 with R240 to R245: `PARSE_PPS` of a payload that begins with the coded bits of a PPS that names a stored SPS, with
the optional tail or without it, as the bits that follow say (R245). -/
def Obligations.ParsePps : Prop := ∀ (s : State) (p : Pps) (c : List ListCoding) (tail : Bool) (rest : List Bool),
  let q := spsSlot s.sps p.sps_id.toNat
  let bits := p.bodyBits ++ optBits tail (p.tailBits q c)
  naluReady s.nalu = true → q.valid = true → p.codable q s.params.sgidCap c = true →
  moreRbspData (optBits tail (p.tailBits q c) ++ rest) = tail → s.payloadBits = bits ++ rest →
  exec .parsePps s = .next { s.parsed bits.length false .ok false with
    wpps := p.coded q tail c
    pps := Table.write s.pps {} p.id.toNat (p.coded q tail c)
    last_pps := p.id.setWidth 9 }

/-- R241: a PPS that names an SPS that is not stored ends with `BROKEN_LINK`, its first two fields read. -/
def Obligations.PpsBrokenLink : Prop := ∀ (s : State) (id : BitVec 8) (sps_id : BitVec 5) (rest : List Bool),
  naluReady s.nalu = true → (spsSlot s.sps sps_id.toNat).valid = false →
  s.payloadBits = ueField id ++ ueField sps_id ++ rest →
  exec .parsePps s = .next { s.parsed (ueField id ++ ueField sps_id).length false .brokenLink false with
    wpps := { id := id, sps_id := sps_id } }

/-- R183, R195, R242, R245: without a scaling matrix of its own an SPS has twelve `Flat_16` lists and a PPS the lists of
the SPS it names. -/
def Obligations.ListsWithoutAMatrix : Prop := ∀ (i : Instr) (s t : State), exec i s = .next t → t.status.code = .ok →
  (parsesSps i = true → t.wsps.scaling_matrix_present_flag = false →
    ∀ k < 12, ∀ j < listSize k, Table.read (t.wsps.lists.list k) 0 j = 16) ∧
  (i = .parsePps → t.wpps.pic_scaling_matrix_present_flag = false →
    t.wpps.lists = (spsSlot s.sps t.wpps.sps_id.toNat).lists)

/-! ## Slice header (44_slice.md) -/

/-- R320 with R270 to R318: `PARSE_SLICE_HDR` of a payload that begins with the coded bits of a slice header whose
parameter sets are stored, the SPS's extension not `OTHER`. -/
def Obligations.ParseSliceHdr : Prop := ∀ (s : State) (r : Slice) (f : WeightFlagPair) (rest : List Bool),
  let x := s.sliceContext r.pps_id
  naluReady s.nalu = true → x.pps.valid = true → x.sps.valid = true → x.sps.extension_type ≠ .other →
  r.codable x = true → s.payloadBits = r.bits x f ++ rest →
  exec .parseSliceHdr s = .next { s.parsed (r.bits x f).length false .ok false with
    slice := r.coded x f s.payloadStream }

/-- R270, R271: a slice whose PPS is not stored, or whose PPS is but whose SPS is not, ends with `BROKEN_LINK`; one whose
SPS has the extension `OTHER` with `BROKEN_DATA`; its first three fields are read. That `SLICE.pps_id` holds the id then,
and not only after a whole header (R318), is the model's choice (DEDUCED, log 13). -/
def Obligations.SliceBroken : Prop := ∀ (s : State) (first : BitVec 32) (type : BitVec 4) (pps_id : BitVec 8)
    (rest : List Bool),
  let x := s.sliceContext pps_id
  let bits := ueField first ++ ueField type ++ ueField pps_id
  let slice : Slice := { first_mb_in_slice := first, slice_type := type, pps_id := pps_id }
  naluReady s.nalu = true → ueOk first = true → type.toNat ≤ 9 → s.payloadBits = bits ++ rest →
  (x.pps.valid = false → exec .parseSliceHdr s = .next { s.parsed bits.length false .brokenLink false with slice := slice }) ∧
  (x.pps.valid = true → x.sps.valid = false →
    exec .parseSliceHdr s = .next { s.parsed bits.length false .brokenLink false with slice := slice }) ∧
  (x.pps.valid = true → x.sps.valid = true → x.sps.extension_type = .other →
    exec .parseSliceHdr s = .next { s.parsed bits.length false .brokenData false with slice := slice })

/-- R270, R272, R318: the links and the derived fields of a slice header whose parse succeeds. -/
def Obligations.DerivedSliceFields : Prop := ∀ s t : State, exec .parseSliceHdr s = .next t → t.status.code = .ok →
  let x := s.sliceContext t.slice.pps_id
  x.pps.valid = true ∧ x.sps.valid = true ∧ x.sps.extension_type ≠ .other ∧
  t.slice.max_pic_num = BitVec.ofNat 32
    (if t.slice.field_pic_flag then 2 * x.sps.max_frame_num.toNat else x.sps.max_frame_num.toNat) ∧
  t.slice.header_size = t.readReg .brPos + 8 * t.readReg .brEpb ∧
  t.slice.n_emulation_prevention_bytes = t.readReg .brEpb

/-! ## SEI (45_sei.md) -/

/-- R360 with R330 to R356: `PARSE_SEI` of a payload that begins with coded messages, with bits that remain after each but
the last, no more of them than the open parameter `SEI_CAP` admits. -/
def Obligations.ParseSei : Prop := ∀ (s : State) (cs : List SeiCoding) (rest : List Bool),
  let x := s.seiContext
  naluReady s.nalu = true → cs ≠ [] → cs.length ≤ s.params.seiCap → seiCodable x cs rest = true →
  s.payloadBits = seiBits x cs ++ rest →
  exec .parseSei s = .next { s.parsed (seiBits x cs).length false .ok (cs.any fun c => padWarns c.pad) with
    sei := seiCoded x cs }

/-- R351, R352, R353: a first message that is a buffering period naming an SPS that is not stored, or a picture timing
or recovery point while no SPS is stored, ends with `BROKEN_LINK`. That the failed message stands in the list with its
`kind` is the model's choice (DEDUCED, log 12). -/
def Obligations.SeiBrokenLink : Prop := ∀ (s : State) (size : BitVec 32) (rest : List Bool),
  naluReady s.nalu = true → 1 ≤ s.params.seiCap →
  (∀ (sps_id : BitVec 5), (spsSlot s.sps sps_id.toNat).valid = false →
    s.payloadBits = seiCodeBits 0 ++ seiCodeBits size.toNat ++ ueField sps_id ++ rest →
    exec .parseSei s = .next { s.parsed (seiCodeBits 0 ++ seiCodeBits size.toNat ++ ueField sps_id).length false .brokenLink false with
      sei := firstMessageFailed
        { payload_type := 0, payload_size := size, kind := .bufferingPeriod, bp := { sps_id := sps_id } } }) ∧
  ∀ type : BitVec 32, type = 1 ∨ type = 6 → noLastSps s.last_sps = true →
    s.payloadBits = seiCodeBits type.toNat ++ seiCodeBits size.toNat ++ rest →
    exec .parseSei s = .next { s.parsed (seiCodeBits type.toNat ++ seiCodeBits size.toNat).length false .brokenLink false with
      sei := firstMessageFailed { payload_type := type, payload_size := size, kind := kindOf type.toNat } }
end

