-- ==== Sys2Proof/Laws/Table.lean ====
section
/-! SUPPORT. Sys2Proof/Laws/Table.lean: reading after writing, and the canonical form of an array: every write keeps
it, and canonical arrays with equal entries are equal. -/

namespace Sys2Proof.Machine

variable {α : Type} {d : α}

@[simp] theorem Table.read_nil (i : Nat) : Table.read ([] : Table α) d i = d := rfl

section
variable [DecidableEq α]

@[simp] theorem Table.wfFrom_nil (lo : Nat) : Table.wfFrom d lo [] = true := rfl

theorem Table.wfFrom_cons {lo k : Nat} {v : α} {t : Table α} :
    Table.wfFrom d lo ((k, v) :: t) = true ↔ lo ≤ k ∧ v ≠ d ∧ Table.wfFrom d (k + 1) t = true := by
  simp [Table.wfFrom, and_assoc]

theorem Table.wfFrom_mono {lo lo' : Nat} {t : Table α} (h : lo' ≤ lo) (w : Table.wfFrom d lo t = true) :
    Table.wfFrom d lo' t = true := by
  cases t with
  | nil => rfl
  | cons e t => obtain ⟨k, v⟩ := e; rw [Table.wfFrom_cons] at w ⊢; exact ⟨by omega, w.2⟩

/-- Below its first index a canonical array reads as unlisted. -/
theorem Table.read_of_lt {lo i : Nat} {t : Table α} (w : Table.wfFrom d lo t = true) (h : i < lo) :
    Table.read t d i = d := by
  induction t generalizing lo with
  | nil => rfl
  | cons e t ih =>
    obtain ⟨k, v⟩ := e
    rw [Table.wfFrom_cons] at w
    rw [Table.read, if_neg (by omega)]
    exact ih w.2.2 (by omega)

/-- Every write keeps the canonical form. -/
theorem Table.wfFrom_write {lo i : Nat} {v : α} {t : Table α} (w : Table.wfFrom d lo t = true) (h : lo ≤ i) :
    Table.wfFrom d lo (Table.write t d i v) = true := by
  induction t generalizing lo with
  | nil =>
    unfold Table.write
    split
    · rfl
    · rw [Table.wfFrom_cons]; exact ⟨h, ‹_›, rfl⟩
  | cons e t ih =>
    obtain ⟨k, u⟩ := e
    have w' := w
    rw [Table.wfFrom_cons] at w'
    obtain ⟨hk, hu, ht⟩ := w'
    unfold Table.write
    split
    · split
      · exact w
      · rw [Table.wfFrom_cons, Table.wfFrom_cons]; exact ⟨h, ‹_›, by omega, hu, ht⟩
    · split
      · split
        · exact Table.wfFrom_mono (by omega) ht
        · rw [Table.wfFrom_cons]; subst_vars; exact ⟨hk, ‹_›, ht⟩
      · rw [Table.wfFrom_cons]; exact ⟨hk, hu, ih ht (by omega)⟩

theorem Table.wf_write {i : Nat} {v : α} {t : Table α} (w : Table.wf d t = true) :
    Table.wf d (Table.write t d i v) = true :=
  Table.wfFrom_write w (Nat.zero_le i)

/-- An entry reads as the value written to it. -/
theorem Table.read_write_same {lo i : Nat} {v : α} {t : Table α} (w : Table.wfFrom d lo t = true) :
    Table.read (Table.write t d i v) d i = v := by
  induction t generalizing lo with
  | nil => unfold Table.write; split <;> simp_all [Table.read]
  | cons e t ih =>
    obtain ⟨k, u⟩ := e
    rw [Table.wfFrom_cons] at w
    obtain ⟨hk, hu, ht⟩ := w
    unfold Table.write
    split
    · split
      · subst_vars
        rw [Table.read, if_neg (by omega)]
        exact Table.read_of_lt ht (by omega)
      · simp [Table.read]
    · split
      · split
        · subst_vars; exact Table.read_of_lt ht (by omega)
        · simp [Table.read]
      · rw [Table.read, if_neg (by omega)]; exact ih ht

/-- Every other entry is left alone by a write. -/
theorem Table.read_write_other {i j : Nat} {v : α} {t : Table α} (h : j ≠ i) :
    Table.read (Table.write t d i v) d j = Table.read t d j := by
  induction t with
  | nil => unfold Table.write; split <;> simp [Table.read, Ne.symm h]
  | cons e t ih =>
    obtain ⟨k, u⟩ := e
    unfold Table.write
    split
    · split
      · rfl
      · simp [Table.read, Ne.symm h]
    · split
      · split
        · subst_vars; simp [Table.read, Ne.symm h]
        · subst_vars; simp [Table.read, Ne.symm h]
      · by_cases hk : k = j <;> simp [Table.read, hk, ih]

theorem Table.below_write {n i : Nat} {v : α} {t : Table α} (b : Table.below n t = true) (h : i < n) :
    Table.below n (Table.write t d i v) = true := by
  induction t with
  | nil => unfold Table.write; split <;> simp [Table.below, h]
  | cons e t ih =>
    obtain ⟨k, u⟩ := e
    simp only [Table.below, Bool.and_eq_true, decide_eq_true_eq] at b
    unfold Table.write
    split
    · split <;> simp [Table.below, h, b.1, b.2]
    · split
      · split <;> simp [Table.below, h, b.2]
      · simp [Table.below, b.1, ih b.2]

theorem Table.wfFrom_ofList (l : List α) (i : Nat) : Table.wfFrom d i (Table.ofList d i l) = true := by
  induction l generalizing i with
  | nil => rfl
  | cons v l ih =>
    unfold Table.ofList
    split
    · exact Table.wfFrom_mono (Nat.le_succ i) (ih (i + 1))
    · rw [Table.wfFrom_cons]; exact ⟨Nat.le_refl i, ‹_›, ih (i + 1)⟩

theorem Table.wf_ofList (l : List α) : Table.wf d (Table.ofList d 0 l) = true := Table.wfFrom_ofList l 0

/-- The entries of an array made from a list. -/
theorem Table.read_ofList (l : List α) (i j : Nat) :
    Table.read (Table.ofList d i l) d j = if i ≤ j then l.getD (j - i) d else d := by
  induction l generalizing i with
  | nil => simp [Table.ofList]
  | cons v l ih =>
    have tail : (if i + 1 ≤ j then l.getD (j - (i + 1)) d else d)
        = if i = j then d else if i ≤ j then (v :: l).getD (j - i) d else d := by
      by_cases h : i + 1 ≤ j
      · have : j - i = (j - (i + 1)) + 1 := by omega
        rw [if_pos h, if_neg (by omega), if_pos (by omega), this, List.getD_cons_succ]
      · by_cases hij : i = j
        · rw [if_neg h, if_pos hij]
        · rw [if_neg h, if_neg hij, if_neg (by omega)]
    unfold Table.ofList
    split
    · rw [ih, tail]; by_cases hij : i = j <;> simp_all
    · rw [Table.read]
      by_cases hij : i = j
      · subst hij; simp
      · rw [if_neg hij, ih, tail, if_neg hij]

/-- Canonical arrays with equal entries are equal: equal contents are equal data (log 8). -/
theorem Table.ext_of_wfFrom {lo : Nat} {t u : Table α} (ht : Table.wfFrom d lo t = true)
    (hu : Table.wfFrom d lo u = true) (h : ∀ i, Table.read t d i = Table.read u d i) : t = u := by
  induction t generalizing lo u with
  | nil =>
    cases u with
    | nil => rfl
    | cons f u =>
      obtain ⟨k, v⟩ := f
      rw [Table.wfFrom_cons] at hu
      have := h k
      simp [Table.read] at this
      exact absurd this.symm hu.2.1
  | cons e t ih =>
    obtain ⟨k, v⟩ := e
    rw [Table.wfFrom_cons] at ht
    cases u with
    | nil =>
      have := h k
      simp [Table.read] at this
      exact absurd this ht.2.1
    | cons f u =>
      obtain ⟨m, w⟩ := f
      rw [Table.wfFrom_cons] at hu
      have hkm : k = m := by
        rcases Nat.lt_trichotomy k m with hlt | heq | hgt
        · have := h k
          rw [Table.read, if_pos rfl, Table.read, if_neg (by omega), Table.read_of_lt hu.2.2 (by omega)] at this
          exact absurd this ht.2.1
        · exact heq
        · have := h m
          rw [Table.read, if_neg (by omega), Table.read_of_lt ht.2.2 (by omega), Table.read, if_pos rfl] at this
          exact absurd this.symm hu.2.1
      subst hkm
      have hv : v = w := by have := h k; simpa [Table.read] using this
      subst hv
      have : t = u := ih ht.2.2 hu.2.2 fun i => by
        by_cases hik : k = i
        · subst hik
          rw [Table.read_of_lt ht.2.2 (by omega), Table.read_of_lt hu.2.2 (by omega)]
        · have := h i
          simpa [Table.read, hik] using this
      rw [this]

theorem Table.ext_of_wf {t u : Table α} (ht : Table.wf d t = true) (hu : Table.wf d u = true)
    (h : ∀ i, Table.read t d i = Table.read u d i) : t = u :=
  Table.ext_of_wfFrom ht hu h

/-- The second of two writes of an entry is the one that counts. -/
theorem Table.write_write {i : Nat} {v w : α} {t : Table α} (h : Table.wf d t = true) :
    Table.write (Table.write t d i v) d i w = Table.write t d i w := by
  refine Table.ext_of_wf (Table.wf_write (Table.wf_write h)) (Table.wf_write h) fun j => ?_
  by_cases e : j = i
  · subst e; rw [Table.read_write_same (lo := 0) (Table.wf_write h), Table.read_write_same (lo := 0) h]
  · rw [Table.read_write_other e, Table.read_write_other e, Table.read_write_other e]

/-- A value other than the unlisted one is read back from any array. -/
theorem Table.read_write_of_ne {i : Nat} {v : α} {t : Table α} (h : v ≠ d) :
    Table.read (Table.write t d i v) d i = v := by
  induction t with
  | nil => simp [Table.write, h, Table.read]
  | cons e t ih =>
    obtain ⟨k, u⟩ := e
    unfold Table.write
    split
    · rw [Table.read, if_pos rfl]
    · split
      · rw [Table.read, if_pos rfl]
      · rw [Table.read, if_neg (by omega), ih]

/-- Of two writes to one entry the second stands. -/
theorem Table.write_write_of_ne {i : Nat} {v w : α} {t : Table α} (h : v ≠ d) :
    Table.write (Table.write t d i v) d i w = Table.write t d i w := by
  induction t with
  | nil => simp [Table.write, h]
  | cons e t ih =>
    obtain ⟨k, u⟩ := e
    by_cases a : i < k
    · simp [Table.write, h, a]
    · by_cases b : i = k
      · subst b; simp [Table.write, h]
      · simp [Table.write, a, b, ih]

theorem Table.write_ne_nil {i : Nat} {v : α} {t : Table α} (h : v ≠ d) : Table.write t d i v ≠ [] := by
  intro e
  have := Table.read_write_of_ne (i := i) (t := t) h
  rw [e] at this; exact h this.symm

end

end Sys2Proof.Machine
end

