-- ==== Sys2Proof/Laws/Codes.lean ====
section
/-! SUPPORT. Sys2Proof/Laws/Codes.lean: reading back a code: the primitives of the reader on the bits that code a
value, and how a parse that reads coded bits is put together from parses that do. -/

namespace Sys2Proof.Machine

-- One theorem at a time: a thread for each, with check.sh's stack size, passes its memory limit.
set_option Elab.async false

/-! ## Codes of one element -/

@[simp] theorem uBits_length (n v : Nat) : (uBits n v).length = n := by
  induction n with
  | zero => rfl
  | succ n ih => simp [uBits, ih]

/-- Reading `n` coded bits onto a value. -/
theorem takeBits_uBits (n v acc : Nat) (rest : List Bool) :
    takeBits n acc (uBits n v ++ rest) = some (acc * 2 ^ n + v % 2 ^ n) := by
  induction n generalizing acc with
  | zero => simp [takeBits, Nat.mod_one]
  | succ n ih =>
    rw [uBits, List.cons_append, takeBits, ih, Option.some.injEq]
    have h : v % 2 ^ (n + 1) = 2 ^ n * (v.testBit n).toNat + v % 2 ^ n := by
      rw [Nat.pow_succ, Nat.mod_mul, Nat.add_comm, Nat.testBit_eq_decide_div_mod_eq]
      congr 2
      rcases Nat.mod_two_eq_zero_or_one (v / 2 ^ n) with e | e <;> simp [e]
    rw [h]; ring

/-- `read_u(n)` reads `n` coded bits. -/
theorem readU_uBits {n v : Nat} (h : v < 2 ^ n) (rest : List Bool) : readU n (uBits n v ++ rest) = some v := by
  rw [readU, takeBits_uBits, Nat.mod_eq_of_lt h]; simp

theorem readU_flag (b : Bool) (rest : List Bool) : readU 1 (b :: rest) = some b.toNat := by
  cases b <;> rfl

theorem leadingZeros_code (lz : Nat) (rest : List Bool) :
    leadingZeros (List.replicate lz false ++ true :: rest) = some lz := by
  induction lz with
  | zero => rfl
  | succ n ih => simp [List.replicate_succ, leadingZeros, ih]

theorem ueBits_length (k : Nat) : (ueBits k).length = 2 * (k + 1).log2 + 1 := by
  simp [ueBits]; omega

/-- A `ue(v)` code has at most 31 leading zeros while its value is at most 2^32 - 2. -/
theorem log2_le_31 {k : Nat} (h : k < 4294967295) : (k + 1).log2 ≤ 31 := by
  have : (k + 1).log2 < 32 := (Nat.log2_lt (by omega)).2 (by omega)
  omega

/-- `read_ue()` reads a coded value (40_bitreader.md R110). -/
theorem readUe_ueBits {k : Nat} (h : k < 4294967295) (rest : List Bool) :
    readUe (ueBits k ++ rest) = some (k, (ueBits k).length) := by
  have hz : leadingZeros (ueBits k ++ rest) = some (k + 1).log2 := by
    rw [ueBits, List.append_assoc, List.cons_append]; exact leadingZeros_code _ _
  have hd : (ueBits k ++ rest).drop ((k + 1).log2 + 1) = uBits (k + 1).log2 (k + 1 - 2 ^ (k + 1).log2) ++ rest := by
    rw [ueBits, List.append_assoc, List.drop_append, List.length_replicate, Nat.add_sub_cancel_left,
      List.drop_of_length_le (by simp)]
    rfl
  have hlo : 2 ^ (k + 1).log2 ≤ k + 1 := Nat.log2_self_le (by omega)
  have hhi : k + 1 < 2 ^ ((k + 1).log2 + 1) := Nat.lt_log2_self
  rw [readUe, hz]
  simp only
  rw [if_neg (by have := log2_le_31 h; simp [Config.ueMaxLz]; omega), hd, readU_uBits (by rw [Nat.pow_succ] at hhi; omega),
    ueBits_length]
  simp only [Option.some.injEq, Prod.mk.injEq, and_true]
  omega

/-- The signed value of a code number (30_encoding.md R92). -/
theorem signedOf_codeNumber (v : Int) : signedOf (codeNumber v) = v := by
  unfold codeNumber signedOf; split <;> split <;> omega

/-- `read_se()` reads a coded value (40_bitreader.md R111). -/
theorem readSe_seBits {v : Int} (lo : -2147483648 < v) (hi : v < 2147483648) (rest : List Bool) :
    readSe (seBits v ++ rest) = some (v, (seBits v).length) := by
  rw [readSe, seBits, readUe_ueBits (by unfold codeNumber; split <;> omega)]
  simp [signedOf_codeNumber]

/-! ## A parse over coded bits -/

/-- From the record `r`, `m` reads exactly `bits`, answers `a` and leaves the record `r'`; it sets `WARN` where
`w` holds. -/
def Codes {R α : Type} (m : Parse R α) (bits : List Bool) (a : α) (r r' : R) (w : Bool) : Prop :=
  ∀ (rest : List Bool) (p : Nat) (fail warn : Bool),
    m ⟨⟨bits ++ rest, p, fail, warn⟩, r⟩ = .ok a ⟨⟨rest, p + bits.length, fail, warn || w⟩, r'⟩

variable {R A α β : Type} {r r' r'' : R}

theorem Parse.bind_ok {m : Parse R α} {k : α → Parse R β} {st st' : PState R} {a : α} (h : m st = .ok a st') :
    (m >>= k) st = k a st' := by
  show EStateM.bind m k st = _
  unfold EStateM.bind; rw [h]

theorem Parse.bind_error {m : Parse R α} {k : α → Parse R β} {st st' : PState R} {c : Code} (h : m st = .error c st') :
    (m >>= k) st = .error c st' := by
  show EStateM.bind m k st = _
  unfold EStateM.bind; rw [h]

theorem Codes.pure (a : α) : Codes (pure a : Parse R α) [] a r r false := by
  intro rest p f w; simp [Pure.pure, EStateM.pure]

theorem Codes.bind {m : Parse R α} {k : α → Parse R β} {b1 b2 : List Bool} {a : α} {b : β} {w1 w2 : Bool}
    (h1 : Codes m b1 a r r' w1) (h2 : Codes (k a) b2 b r' r'' w2) :
    Codes (m >>= k) (b1 ++ b2) b r r'' (w1 || w2) := by
  intro rest p f w
  rw [List.append_assoc, Parse.bind_ok (h1 _ p f w), h2]
  simp [Nat.add_assoc, Bool.or_assoc]

/-- A parse that warns nothing, then the rest. -/
theorem Codes.seq {m : Parse R α} {k : α → Parse R β} {b1 b2 : List Bool} {a : α} {b : β} {w : Bool}
    (h1 : Codes m b1 a r r' false) (h2 : Codes (k a) b2 b r' r'' w) : Codes (m >>= k) (b1 ++ b2) b r r'' w := by
  simpa using h1.bind h2

/-- A parse of the same bits, answer and record. -/
theorem Codes.congr {m : Parse R α} {b b' : List Bool} {a a' : α} {w w' : Bool} (h : Codes m b a r r' w)
    (hb : b = b') (ha : a = a') (hr : r' = r'') (hw : w = w') : Codes m b' a' r r'' w' := by
  subst hb ha hr hw; exact h

/-- `look` goes on with the record. -/
theorem Codes.look {k : R → Parse R α} {b : List Bool} {a : α} {w : Bool} (h : Codes (k r) b a r r' w) :
    Codes (look >>= k) b a r r' w := by
  intro rest p f wn
  exact h rest p f wn

theorem Codes.put (f : R → R) : Codes (put f) [] () r (f r) false := by
  intro rest p fl w; simp [Machine.put]

theorem Codes.warnIf (b : Bool) : Codes (warnIf b : Parse R Unit) [] () r r b := by
  intro rest p f w; simp [Machine.warnIf]

theorem Codes.require {b : Bool} (c : Code) (h : b = true) : Codes (require b c : Parse R Unit) [] () r r false := by
  subst h; exact Codes.pure ()

/-- `warnIf`, then the rest. -/
theorem Codes.warned {b w : Bool} {k : Unit → Parse R α} {bits : List Bool} {a : α}
    (h : Codes (k ()) bits a r r' w) : Codes (Machine.warnIf b >>= k) bits a r r' (b || w) :=
  ((Codes.warnIf b).bind h).congr (by simp) rfl rfl rfl

/-- `put`, then the rest. -/
theorem Codes.putThen {f : R → R} {k : Unit → Parse R α} {bits : List Bool} {a : α} {w : Bool}
    (h : Codes (k ()) bits a (f r) r' w) : Codes (Machine.put f >>= k) bits a r r' w :=
  ((Codes.put f).bind h).congr (by simp) rfl rfl (by simp)

/-- A check that holds goes on. -/
theorem Codes.required {b : Bool} {c : Code} {k : Unit → Parse R α} {bits : List Bool} {a : α} {w : Bool}
    (h : b = true) (hk : Codes (k ()) bits a r r' w) : Codes (Machine.require b c >>= k) bits a r r' w :=
  (Codes.require c h |>.bind hk).congr (by simp) rfl rfl (by simp)

theorem Codes.whenever {b : Bool} {m : Parse R Unit} {bits : List Bool} {w : Bool}
    (h : b = true → Codes m bits () r r' w) :
    Codes (whenever b m) (optBits b bits) () r (given b r' r) (b && w) := by
  cases b
  · exact Codes.pure ()
  · exact (h rfl).congr rfl rfl rfl (by simp)

/-- A conditional part, then the rest: `f b r` is the record after the part, `f false r` the record unchanged. -/
theorem Codes.opt {b : Bool} {m : Parse R Unit} {k : Unit → Parse R α} {bits b2 : List Bool} {a : α} {w : Bool}
    (f : Bool → R → R) (h1 : b = true → Codes m bits () r (f true r) false) (h0 : f false r = r)
    (h2 : Codes (k ()) b2 a (f b r) r'' w) : Codes (Machine.whenever b m >>= k) (optBits b bits ++ b2) a r r'' w := by
  cases b
  · rw [h0] at h2; exact h2
  · exact (h1 rfl).seq h2

/-- A conditional part at the end. -/
theorem Codes.optEnd {b : Bool} {m : Parse R Unit} {bits : List Bool} (f : Bool → R → R)
    (h1 : b = true → Codes m bits () r (f true r) false) (h0 : f false r = r) :
    Codes (Machine.whenever b m) (optBits b bits) () r (f b r) false := by
  cases b
  · rw [h0]; exact Codes.pure ()
  · exact h1 rfl

/-- A conditional part at the end that may warn. -/
theorem Codes.optWarn {b w : Bool} {m : Parse R Unit} {bits : List Bool} (f : Bool → R → R)
    (h1 : b = true → Codes m bits () r (f true r) w) (h0 : f false r = r) :
    Codes (Machine.whenever b m) (optBits b bits) () r (f b r) (b && w) := by
  cases b
  · rw [h0]; exact Codes.pure ()
  · exact (h1 rfl).congr rfl rfl rfl (by simp)

@[simp] theorem given_true (x d : α) : given true x d = x := rfl

@[simp] theorem given_false (x d : α) : given false x d = d := rfl

@[simp] theorem given_bool_false (b x : Bool) : given b x false = (b && x) := by cases b <;> rfl

theorem Codes.getU {n v : Nat} (h : v < 2 ^ n) : Codes (getU n : Parse R Nat) (uBits n v) v r r false := by
  intro rest p f w
  simp only [Machine.getU, readU_uBits h, Reader.advance, uBits_length, Bool.or_false]
  simp

theorem Codes.getFlag (b : Bool) : Codes (Machine.getU 1 : Parse R Nat) [b] b.toNat r r false := by
  intro rest p f w
  simp [Machine.getU, readU_flag, Reader.advance]

theorem Codes.getUe {k : Nat} (h : k < 4294967295) : Codes (getUe : Parse R Nat) (ueBits k) k r r false := by
  intro rest p f w
  simp [Machine.getUe, readUe_ueBits h, Reader.advance]

theorem Codes.getSe {v : Int} (lo : -2147483648 < v) (hi : v < 2147483648) :
    Codes (getSe : Parse R Int) (seBits v) v r r false := by
  intro rest p f w
  simp [Machine.getSe, readSe_seBits lo hi, Reader.advance]

theorem Codes.elemU {n v : Nat} {w : R → Nat → R} (h : v < 2 ^ n) :
    Codes (elemU n w) (uBits n v) () r (w r v) false :=
  ((Codes.getU h).bind (Codes.put _)).congr (by simp) rfl rfl rfl

theorem Codes.elemFlag {w : R → Bool → R} (b : Bool) : Codes (elemFlag w) [b] () r (w r b) false :=
  ((Codes.getFlag b).bind (Codes.put _)).congr (by simp) rfl (by cases b <;> rfl) rfl

theorem Codes.elemUe {k : Nat} {w : R → Nat → R} (h : k < 4294967295) :
    Codes (elemUe w) (ueBits k) () r (w r k) false :=
  ((Codes.getUe h).bind (Codes.put _)).congr (by simp) rfl rfl rfl

theorem Codes.elemUeMax {k : Nat} {m : Int} {w : R → Nat → R} (h : k < 4294967295) (hm : (k : Int) ≤ m) :
    Codes (elemUeMax m w) (ueBits k) () r (w r k) false :=
  ((Codes.getUe h).bind ((Codes.put _).bind (Codes.require _ (by simpa using hm)))).congr (by simp) rfl rfl rfl

theorem Codes.elemSe {v : Int} {w : R → Int → R} (lo : -2147483648 < v) (hi : v < 2147483648) :
    Codes (elemSe w) (seBits v) () r (w r v) false :=
  ((Codes.getSe lo hi).bind (Codes.put _)).congr (by simp) rfl rfl rfl

theorem Codes.elemSeRange {v lo hi : Int} {w : R → Int → R} (h1 : lo ≤ v) (h2 : v ≤ hi)
    (hlo : -2147483648 < v) (hhi : v < 2147483648) :
    Codes (elemSeRange lo hi w) (seBits v) () r (w r v) false :=
  ((Codes.getSe hlo hhi).bind ((Codes.put _).bind (Codes.require _ (by simp [h1, h2])))).congr (by simp) rfl rfl rfl

theorem Codes.skipLong (bits : List Bool) : Codes (skipLong bits.length : Parse R Unit) bits () r r false := by
  intro rest p f w
  simp [Machine.skipLong, Reader.advance]

theorem Codes.within {get : R → A} {set : R → A → R} {m : Parse A α} {b : List Bool} {a : α} {x : A} {w : Bool}
    (h : Codes m b a (get r) x w) : Codes (within get set m) b a r (set r x) w := by
  intro rest p f wn
  simp [Machine.within, h rest p f wn]

/-- A loop reads its rounds' bits in turn; `x i` is the record before round `i`. -/
theorem Codes.loop {f : Nat → Parse R Unit} {g : Nat → List Bool} (x : Nat → R) (i k : Nat)
    (h : ∀ j, i ≤ j → j < i + k → Codes (f j) (g j) () (x j) (x (j + 1)) false) :
    Codes (loopFrom f k i) ((List.range' i k).flatMap g) () (x i) (x (i + k)) false := by
  induction k generalizing i with
  | zero => exact Codes.pure ()
  | succ k ih =>
    have h1 := h i (by omega) (by omega)
    have h2 := ih (i + 1) (fun j a b => h j (by omega) (by omega))
    refine (h1.bind h2).congr ?_ rfl (by rw [show i + 1 + k = i + (k + 1) by omega]) rfl
    simp [List.range'_succ]

/-- A loop from round 0. -/
theorem Codes.rows {f : Nat → Parse R Unit} {g : Nat → List Bool} (x : Nat → R) (n : Nat)
    (h : ∀ j < n, Codes (f j) (g j) () (x j) (x (j + 1)) false) :
    Codes (loopFrom f n 0) (rowBits n g) () (x 0) (x n) false := by
  have := Codes.loop x 0 n (fun j _ b => h j (by omega))
  rw [← List.range_eq_range', Nat.zero_add] at this
  exact this

/-! ## A parse that goes on as another -/

/-- From the record `r`, `m` over `bits` has come to where `m'` goes on, from the record `r'`. -/
def Leads {R α : Type} (m : Parse R α) (bits : List Bool) (r : R) (m' : Parse R α) (r' : R) : Prop :=
  ∀ (rest : List Bool) (p : Nat) (fail warn : Bool),
    m ⟨⟨bits ++ rest, p, fail, warn⟩, r⟩ = m' ⟨⟨rest, p + bits.length, fail, warn⟩, r'⟩

theorem Leads.refl (m : Parse R α) : Leads m [] r m r := fun _ _ _ _ => rfl

theorem Leads.congr {m m' : Parse R α} {b b' : List Bool} (h : Leads m b r m' r') (hb : b = b') (hr : r' = r'') :
    Leads m b' r m' r'' := by
  subst hb hr; exact h

/-- A coded part, then the rest. -/
theorem Codes.leads {m : Parse R α} {k : α → Parse R β} {m' : Parse R β} {b1 b2 : List Bool} {a : α}
    (h1 : Codes m b1 a r r' false) (h2 : Leads (k a) b2 r' m' r'') : Leads (m >>= k) (b1 ++ b2) r m' r'' := by
  intro rest p f w
  rw [List.append_assoc, Parse.bind_ok (h1 _ p f w), h2]
  simp [Nat.add_assoc]

theorem Leads.required {b : Bool} {c : Code} {k : Unit → Parse R α} {m' : Parse R α} {bits : List Bool} (h : b = true)
    (hk : Leads (k ()) bits r m' r') : Leads (Machine.require b c >>= k) bits r m' r' := by
  subst h; exact hk

theorem Leads.putThen {f : R → R} {k : Unit → Parse R α} {m' : Parse R α} {bits : List Bool}
    (h : Leads (k ()) bits (f r) m' r') : Leads (Machine.put f >>= k) bits r m' r' := fun rest p x w => h rest p x w

theorem Leads.codes {m m' : Parse R α} {b1 b2 : List Bool} {a : α} {w : Bool} (h1 : Leads m b1 r m' r')
    (h2 : Codes m' b2 a r' r'' w) : Codes m (b1 ++ b2) a r r'' w := by
  intro rest p f wn
  rw [List.append_assoc, h1, h2]
  simp [Nat.add_assoc]

/-! ## A parse that looks at where it stands -/

/-- As `Codes`, from the position `p` and with the bits `rest` after the coded ones. -/
def Runs {R α : Type} (m : Parse R α) (p : Nat) (bits rest : List Bool) (a : α) (r r' : R) (w : Bool) : Prop :=
  ∀ fail warn : Bool, m ⟨⟨bits ++ rest, p, fail, warn⟩, r⟩ = .ok a ⟨⟨rest, p + bits.length, fail, warn || w⟩, r'⟩

theorem Codes.runs {m : Parse R α} {bits : List Bool} {a : α} {w : Bool} (h : Codes m bits a r r' w) (p : Nat)
    (rest : List Bool) : Runs m p bits rest a r r' w := fun f wn => h rest p f wn

theorem Runs.bind {m : Parse R α} {k : α → Parse R β} {p : Nat} {b1 b2 rest : List Bool} {a : α} {b : β} {w1 w2 : Bool}
    (h1 : Runs m p b1 (b2 ++ rest) a r r' w1) (h2 : Runs (k a) (p + b1.length) b2 rest b r' r'' w2) :
    Runs (m >>= k) p (b1 ++ b2) rest b r r'' (w1 || w2) := by
  intro f w
  rw [List.append_assoc, Parse.bind_ok (h1 f w), h2]
  simp [Nat.add_assoc, Bool.or_assoc]

theorem Runs.congr {m : Parse R α} {p : Nat} {b b' rest : List Bool} {a : α} {w w' : Bool}
    (h : Runs m p b rest a r r' w) (hb : b = b') (hr : r' = r'') (hw : w = w') : Runs m p b' rest a r r'' w' := by
  subst hb hr hw; exact h

/-- A coded part, then the rest. -/
theorem Codes.run {m : Parse R α} {k : α → Parse R β} {p : Nat} {b1 b2 rest : List Bool} {a : α} {b : β} {w : Bool}
    (h1 : Codes m b1 a r r' false) (h2 : Runs (k a) (p + b1.length) b2 rest b r' r'' w) :
    Runs (m >>= k) p (b1 ++ b2) rest b r r'' w := by
  simpa using (h1.runs p (b2 ++ rest)).bind h2

theorem Runs.look {k : R → Parse R α} {p : Nat} {b rest : List Bool} {a : α} {w : Bool}
    (h : Runs (k r) p b rest a r r' w) : Runs (Machine.look >>= k) p b rest a r r' w := fun f wn => h f wn

theorem Runs.required {b : Bool} {c : Code} {k : Unit → Parse R α} {p : Nat} {bits rest : List Bool} {a : α} {w : Bool}
    (h : b = true) (hk : Runs (k ()) p bits rest a r r' w) : Runs (Machine.require b c >>= k) p bits rest a r r' w := by
  subst h; exact hk

theorem Runs.putThen {f : R → R} {k : Unit → Parse R α} {p : Nat} {bits rest : List Bool} {a : α} {w : Bool}
    (h : Runs (k ()) p bits rest a (f r) r' w) : Runs (Machine.put f >>= k) p bits rest a r r' w := fun x y => h x y

theorem Runs.moreData {k : Bool → Parse R α} {p : Nat} {bits rest : List Bool} {a : α} {w : Bool}
    (h : Runs (k (moreRbspData (bits ++ rest))) p bits rest a r r' w) :
    Runs (Machine.moreData >>= k) p bits rest a r r' w := fun x y => h x y

theorem Runs.within {get : R → A} {set : R → A → R} {m : Parse A α} {p : Nat} {b rest : List Bool} {a : α} {x : A}
    {w : Bool} (h : Runs m p b rest a (get r) x w) : Runs (Machine.within get set m) p b rest a r (set r x) w := by
  intro f wn
  simp [Machine.within, h f wn]

/-! ## Fields -/

theorem uField_code {n : Nat} (x : BitVec n) {w : R → Nat → R} :
    Codes (elemU n w) (uField x) () r (w r x.toNat) false := Codes.elemU x.isLt

theorem ueField_code {n : Nat} {x : BitVec n} {m : Int} {w : R → Nat → R} (h : x.toNat < 4294967295)
    (hm : (x.toNat : Int) ≤ m) : Codes (elemUeMax m w) (ueField x) () r (w r x.toNat) false := Codes.elemUeMax h hm

theorem ueOk_code {x : BitVec 32} {w : R → Nat → R} (h : ueOk x = true) :
    Codes (elemUe w) (ueField x) () r (w r x.toNat) false := by
  refine Codes.elemUe ?_
  have : x.toNat ≠ 4294967295 := fun e => by
    simp only [ueOk, bne_iff_ne, ne_eq] at h; exact h (BitVec.eq_of_toNat_eq e)
  omega

theorem seOk_code {x : BitVec 32} {w : R → Int → R} (h : seOk x = true) :
    Codes (elemSe w) (seField x) () r (w r x.toInt) false := by
  have hx : x.toInt ≠ -2147483648 := fun e => by
    simp only [seOk, bne_iff_ne, ne_eq] at h; exact h (BitVec.eq_of_toInt_eq e)
  have := @BitVec.le_toInt 32 x
  have := @BitVec.toInt_lt 32 x
  exact Codes.elemSe (by omega) (by omega)

theorem seIn_code {n : Nat} {x : BitVec n} {lo hi : Int} {w : R → Int → R} (h : seIn lo hi x = true)
    (hlo : -2147483648 < lo) (hhi : hi < 2147483648) :
    Codes (elemSeRange lo hi w) (seField x) () r (w r x.toInt) false := by
  have h := of_decide_eq_true h
  exact Codes.elemSeRange h.1 h.2 (by omega) (by omega)

/-! ## Arrays of coded entries -/

theorem rowOk_iff {n : Nat} {f : Nat → Bool} : rowOk n f = true ↔ ∀ i < n, f i = true := by
  simp [rowOk]

section
variable {d : α} [DecidableEq α]

theorem read_tabulate (n : Nat) (f : Nat → α) (i : Nat) :
    Table.read (tabulate d n f) d i = if i < n then f i else d := by
  rw [tabulate, Table.read_ofList]
  by_cases h : i < n
  · simp [h]
  · simp [h]

theorem wf_tabulate (n : Nat) (f : Nat → α) : Table.wf d (tabulate d n f) = true := Table.wf_ofList _

@[simp] theorem tabulate_zero (f : Nat → α) : tabulate d 0 f = [] := rfl

/-- Arrays of `n` entries are equal where the entries are. -/
theorem tabulate_congr {n : Nat} {f g : Nat → α} (h : ∀ i < n, f i = g i) : tabulate d n f = tabulate d n g := by
  unfold tabulate; congr 1; exact List.map_congr_left fun i hi => h i (List.mem_range.1 hi)

/-- Writing the next entry. -/
theorem write_tabulate (n : Nat) (f : Nat → α) : Table.write (tabulate d n f) d n (f n) = tabulate d (n + 1) f := by
  refine Table.ext_of_wf (Table.wf_write (wf_tabulate _ _)) (wf_tabulate _ _) fun j => ?_
  by_cases h : j = n
  · subst h; rw [Table.read_write_same (lo := 0) (wf_tabulate _ _), read_tabulate, if_pos (by omega)]
  · rw [Table.read_write_other h, read_tabulate, read_tabulate]
    by_cases h' : j < n
    · rw [if_pos h', if_pos (by omega)]
    · rw [if_neg h', if_neg (by omega)]

/-- Writing an entry that is there. -/
theorem write_tabulate_at {n i : Nat} (f : Nat → α) (v : α) (h : i < n) :
    Table.write (tabulate d n f) d i v = tabulate d n fun j => if j = i then v else f j := by
  refine Table.ext_of_wf (Table.wf_write (wf_tabulate _ _)) (wf_tabulate _ _) fun j => ?_
  by_cases e : j = i
  · subst e; rw [Table.read_write_same (lo := 0) (wf_tabulate _ _), read_tabulate, if_pos h, if_pos rfl]
  · rw [Table.read_write_other e, read_tabulate, read_tabulate]
    by_cases h' : j < n
    · rw [if_pos h', if_pos h', if_neg e]
    · rw [if_neg h', if_neg h']

theorem write_firstEntries (n : Nat) (t : Table α) :
    Table.write (firstEntries d n t) d n (Table.read t d n) = firstEntries d (n + 1) t := write_tabulate n _

@[simp] theorem firstEntries_zero (t : Table α) : firstEntries d 0 t = [] := rfl

end

end Sys2Proof.Machine
end

