-- ==== Sys2Proof/Laws/Decode.lean ====
section
/-! SUPPORT. Sys2Proof/Laws/Decode.lean: the fields of a command word. -/

namespace Sys2Proof

/-- The word with given fields. -/
def wordOf (zero : BitVec 16) (imm8 opcode : BitVec 8) : Word := zero ++ imm8 ++ opcode

theorem getLsbD_wordOf (z : BitVec 16) (m o : BitVec 8) (i : Nat) : (wordOf z m o).getLsbD i =
    if i < 8 then o.getLsbD i else if i - 8 < 8 then m.getLsbD (i - 8) else z.getLsbD (i - 8 - 8) := by
  unfold wordOf
  rw [BitVec.getLsbD_append, BitVec.getLsbD_append]

@[simp] theorem zeroField_wordOf (z : BitVec 16) (m o : BitVec 8) : zeroField (wordOf z m o) = z := by
  apply BitVec.eq_of_getLsbD_eq
  intro i hi
  simp only [zeroField, BitVec.getLsbD_extractLsb', getLsbD_wordOf, hi, decide_true, Bool.true_and]
  rw [if_neg (by omega), if_neg (by omega), show 16 + i - 8 - 8 = i by omega]

@[simp] theorem imm8Field_wordOf (z : BitVec 16) (m o : BitVec 8) : imm8Field (wordOf z m o) = m := by
  apply BitVec.eq_of_getLsbD_eq
  intro i hi
  simp only [imm8Field, BitVec.getLsbD_extractLsb', getLsbD_wordOf, hi, decide_true, Bool.true_and]
  rw [if_neg (by omega), if_pos (by omega), show 8 + i - 8 = i by omega]

@[simp] theorem opcodeField_wordOf (z : BitVec 16) (m o : BitVec 8) : opcodeField (wordOf z m o) = o := by
  apply BitVec.eq_of_getLsbD_eq
  intro i hi
  simp only [opcodeField, BitVec.getLsbD_extractLsb', getLsbD_wordOf, hi, decide_true, Bool.true_and]
  rw [if_pos (by omega), Nat.zero_add]

/-- A word is made of its fields. -/
theorem wordOf_fields (w : Word) : wordOf (zeroField w) (imm8Field w) (opcodeField w) = w := by
  apply BitVec.eq_of_getLsbD_eq
  intro i hi
  simp only [zeroField, wordOf, imm8Field, opcodeField, BitVec.getLsbD_append, BitVec.getLsbD_extractLsb']
  by_cases h1 : i < 8
  · simp [h1]
  · by_cases h2 : i - 8 < 8
    · simp [h1, h2, show 8 + (i - 8) = i by omega]
    · simp [h1, h2, show i - 8 - 8 < 16 by omega, show 16 + (i - 8 - 8) = i by omega]

theorem encode_eq_wordOf (i : Instr) : encode i = wordOf 0 (imm8Of i) (opcodeOf i) := rfl

theorem decode_wordOf (z : BitVec 16) (m o : BitVec 8) :
    decode (wordOf z m o) = if z = 0 then decodeFields o m else .error .zeroFieldSet := by
  simp [decode]

/-- What `decodeFields` accepts is the opcode and `imm8` of the command it answers. -/
theorem decodeFields_ok {o m : BitVec 8} {i : Instr} (h : decodeFields o m = .ok i) : o = opcodeOf i ∧ m = imm8Of i := by
  unfold decodeFields at h
  split at h
  all_goals first
    | (rename_i e
       unfold withoutImm8 at h
       split at h
       · cases h; exact ⟨BitVec.eq_of_toNat_eq e, by assumption⟩
       · cases h)
    | (rename_i e; cases h; exact ⟨BitVec.eq_of_toNat_eq e, rfl⟩)
    | (rename_i e
       split at h
       · rename_i hm
         cases h
         refine ⟨BitVec.eq_of_toNat_eq e, ?_⟩
         have : m.toNat = 0 ∨ m.toNat = 1 := by omega
         rcases this with hm | hm
         · rw [BitVec.eq_of_toNat_eq (y := (0 : BitVec 8)) hm]; rfl
         · rw [BitVec.eq_of_toNat_eq (y := (1 : BitVec 8)) hm]; rfl
       · cases h)
    | cases h

theorem decodeFields_encode (i : Instr) : decodeFields (opcodeOf i) (imm8Of i) = .ok i := by
  cases i with
  | parseSps v => cases v <;> rfl
  | _ => rfl

/-- A word matches a mask and a pattern where its fields do. -/
theorem and_wordOf (z z' : BitVec 16) (m m' o o' : BitVec 8) :
    wordOf z m o &&& wordOf z' m' o' = wordOf (z &&& z') (m &&& m') (o &&& o') := by
  apply BitVec.eq_of_getLsbD_eq
  intro i hi
  simp only [wordOf, BitVec.getLsbD_and, BitVec.getLsbD_append]
  by_cases h1 : i < 8
  · simp [h1]
  · by_cases h2 : i - 8 < 8
    · simp [h1, h2]
    · simp [h1, h2]

theorem wordOf_inj {z z' : BitVec 16} {m m' o o' : BitVec 8} :
    wordOf z m o = wordOf z' m' o' ↔ z = z' ∧ m = m' ∧ o = o' := by
  constructor
  · intro h
    exact ⟨by simpa using congrArg zeroField h, by simpa using congrArg imm8Field h, by simpa using congrArg opcodeField h⟩
  · rintro ⟨rfl, rfl, rfl⟩; rfl

end Sys2Proof
end

