-- ==== Sys2Proof/Laws/State.lean ====
section
/-! SUPPORT. Sys2Proof/Laws/State.lean: one lemma per field per named update of State, so that no proof unfolds a
record update. -/

namespace Sys2Proof.Machine

-- One theorem at a time: a thread for each, with check.sh's stack size, passes its memory limit.
set_option Elab.async false

/-! ## `State.finish` -/

@[simp] theorem State.finish_mem (s : State) (c : Code) (w : Bool) : (s.finish c w).mem = s.mem := rfl
@[simp] theorem State.finish_host (s : State) (c : Code) (w : Bool) : (s.finish c w).host = s.host := rfl
@[simp] theorem State.finish_params (s : State) (c : Code) (w : Bool) : (s.finish c w).params = s.params := rfl
@[simp] theorem State.finish_status (s : State) (c : Code) (w : Bool) : (s.finish c w).status = { code := c, warn := w } := rfl
@[simp] theorem State.finish_arg0 (s : State) (c : Code) (w : Bool) : (s.finish c w).arg0 = s.arg0 := rfl
@[simp] theorem State.finish_arg1 (s : State) (c : Code) (w : Bool) : (s.finish c w).arg1 = s.arg1 := rfl
@[simp] theorem State.finish_arg2 (s : State) (c : Code) (w : Bool) : (s.finish c w).arg2 = s.arg2 := rfl
@[simp] theorem State.finish_arg3 (s : State) (c : Code) (w : Bool) : (s.finish c w).arg3 = s.arg3 := rfl
@[simp] theorem State.finish_result (s : State) (c : Code) (w : Bool) : (s.finish c w).result = s.result := rfl
@[simp] theorem State.finish_br_base (s : State) (c : Code) (w : Bool) : (s.finish c w).br_base = s.br_base := rfl
@[simp] theorem State.finish_br_size (s : State) (c : Code) (w : Bool) : (s.finish c w).br_size = s.br_size := rfl
@[simp] theorem State.finish_br_pos (s : State) (c : Code) (w : Bool) : (s.finish c w).br_pos = s.br_pos := rfl
@[simp] theorem State.finish_br_epb (s : State) (c : Code) (w : Bool) : (s.finish c w).br_epb = s.br_epb := rfl
@[simp] theorem State.finish_br_fail (s : State) (c : Code) (w : Bool) : (s.finish c w).br_fail = s.br_fail := rfl
@[simp] theorem State.finish_last_sps (s : State) (c : Code) (w : Bool) : (s.finish c w).last_sps = s.last_sps := rfl
@[simp] theorem State.finish_last_pps (s : State) (c : Code) (w : Bool) : (s.finish c w).last_pps = s.last_pps := rfl
@[simp] theorem State.finish_nalu (s : State) (c : Code) (w : Bool) : (s.finish c w).nalu = s.nalu := rfl
@[simp] theorem State.finish_sps (s : State) (c : Code) (w : Bool) : (s.finish c w).sps = s.sps := rfl
@[simp] theorem State.finish_pps (s : State) (c : Code) (w : Bool) : (s.finish c w).pps = s.pps := rfl
@[simp] theorem State.finish_wsps (s : State) (c : Code) (w : Bool) : (s.finish c w).wsps = s.wsps := rfl
@[simp] theorem State.finish_wpps (s : State) (c : Code) (w : Bool) : (s.finish c w).wpps = s.wpps := rfl
@[simp] theorem State.finish_slice (s : State) (c : Code) (w : Bool) : (s.finish c w).slice = s.slice := rfl
@[simp] theorem State.finish_sei (s : State) (c : Code) (w : Bool) : (s.finish c w).sei = s.sei := rfl

/-! ## `State.illegal` -/

@[simp] theorem State.illegal_mem (s : State) : (s.illegal).mem = s.mem := rfl
@[simp] theorem State.illegal_host (s : State) : (s.illegal).host = s.host := rfl
@[simp] theorem State.illegal_params (s : State) : (s.illegal).params = s.params := rfl
@[simp] theorem State.illegal_status (s : State) : (s.illegal).status = { code := .illegal, warn := false } := rfl
@[simp] theorem State.illegal_arg0 (s : State) : (s.illegal).arg0 = s.arg0 := rfl
@[simp] theorem State.illegal_arg1 (s : State) : (s.illegal).arg1 = s.arg1 := rfl
@[simp] theorem State.illegal_arg2 (s : State) : (s.illegal).arg2 = s.arg2 := rfl
@[simp] theorem State.illegal_arg3 (s : State) : (s.illegal).arg3 = s.arg3 := rfl
@[simp] theorem State.illegal_result (s : State) : (s.illegal).result = s.result := rfl
@[simp] theorem State.illegal_br_base (s : State) : (s.illegal).br_base = s.br_base := rfl
@[simp] theorem State.illegal_br_size (s : State) : (s.illegal).br_size = s.br_size := rfl
@[simp] theorem State.illegal_br_pos (s : State) : (s.illegal).br_pos = s.br_pos := rfl
@[simp] theorem State.illegal_br_epb (s : State) : (s.illegal).br_epb = s.br_epb := rfl
@[simp] theorem State.illegal_br_fail (s : State) : (s.illegal).br_fail = s.br_fail := rfl
@[simp] theorem State.illegal_last_sps (s : State) : (s.illegal).last_sps = s.last_sps := rfl
@[simp] theorem State.illegal_last_pps (s : State) : (s.illegal).last_pps = s.last_pps := rfl
@[simp] theorem State.illegal_nalu (s : State) : (s.illegal).nalu = s.nalu := rfl
@[simp] theorem State.illegal_sps (s : State) : (s.illegal).sps = s.sps := rfl
@[simp] theorem State.illegal_pps (s : State) : (s.illegal).pps = s.pps := rfl
@[simp] theorem State.illegal_wsps (s : State) : (s.illegal).wsps = s.wsps := rfl
@[simp] theorem State.illegal_wpps (s : State) : (s.illegal).wpps = s.wpps := rfl
@[simp] theorem State.illegal_slice (s : State) : (s.illegal).slice = s.slice := rfl
@[simp] theorem State.illegal_sei (s : State) : (s.illegal).sei = s.sei := rfl

/-! ## `State.brInit` -/

@[simp] theorem State.brInit_mem (s : State) (b z : Word) : (s.brInit b z).mem = s.mem := rfl
@[simp] theorem State.brInit_host (s : State) (b z : Word) : (s.brInit b z).host = s.host := rfl
@[simp] theorem State.brInit_params (s : State) (b z : Word) : (s.brInit b z).params = s.params := rfl
@[simp] theorem State.brInit_status (s : State) (b z : Word) : (s.brInit b z).status = s.status := rfl
@[simp] theorem State.brInit_arg0 (s : State) (b z : Word) : (s.brInit b z).arg0 = s.arg0 := rfl
@[simp] theorem State.brInit_arg1 (s : State) (b z : Word) : (s.brInit b z).arg1 = s.arg1 := rfl
@[simp] theorem State.brInit_arg2 (s : State) (b z : Word) : (s.brInit b z).arg2 = s.arg2 := rfl
@[simp] theorem State.brInit_arg3 (s : State) (b z : Word) : (s.brInit b z).arg3 = s.arg3 := rfl
@[simp] theorem State.brInit_result (s : State) (b z : Word) : (s.brInit b z).result = s.result := rfl
@[simp] theorem State.brInit_br_base (s : State) (b z : Word) : (s.brInit b z).br_base = b := rfl
@[simp] theorem State.brInit_br_size (s : State) (b z : Word) : (s.brInit b z).br_size = z := rfl
@[simp] theorem State.brInit_br_pos (s : State) (b z : Word) : (s.brInit b z).br_pos = 0 := rfl
@[simp] theorem State.brInit_br_epb (s : State) (b z : Word) : (s.brInit b z).br_epb = 0 := rfl
@[simp] theorem State.brInit_br_fail (s : State) (b z : Word) : (s.brInit b z).br_fail = false := rfl
@[simp] theorem State.brInit_last_sps (s : State) (b z : Word) : (s.brInit b z).last_sps = s.last_sps := rfl
@[simp] theorem State.brInit_last_pps (s : State) (b z : Word) : (s.brInit b z).last_pps = s.last_pps := rfl
@[simp] theorem State.brInit_nalu (s : State) (b z : Word) : (s.brInit b z).nalu = s.nalu := rfl
@[simp] theorem State.brInit_sps (s : State) (b z : Word) : (s.brInit b z).sps = s.sps := rfl
@[simp] theorem State.brInit_pps (s : State) (b z : Word) : (s.brInit b z).pps = s.pps := rfl
@[simp] theorem State.brInit_wsps (s : State) (b z : Word) : (s.brInit b z).wsps = s.wsps := rfl
@[simp] theorem State.brInit_wpps (s : State) (b z : Word) : (s.brInit b z).wpps = s.wpps := rfl
@[simp] theorem State.brInit_slice (s : State) (b z : Word) : (s.brInit b z).slice = s.slice := rfl
@[simp] theorem State.brInit_sei (s : State) (b z : Word) : (s.brInit b z).sei = s.sei := rfl

/-! ## `State.readFails` -/

@[simp] theorem State.readFails_mem (s : State) : (s.readFails).mem = s.mem := rfl
@[simp] theorem State.readFails_host (s : State) : (s.readFails).host = s.host := rfl
@[simp] theorem State.readFails_params (s : State) : (s.readFails).params = s.params := rfl
@[simp] theorem State.readFails_status (s : State) : (s.readFails).status = { code := .insufficientData, warn := false } := rfl
@[simp] theorem State.readFails_arg0 (s : State) : (s.readFails).arg0 = s.arg0 := rfl
@[simp] theorem State.readFails_arg1 (s : State) : (s.readFails).arg1 = s.arg1 := rfl
@[simp] theorem State.readFails_arg2 (s : State) : (s.readFails).arg2 = s.arg2 := rfl
@[simp] theorem State.readFails_arg3 (s : State) : (s.readFails).arg3 = s.arg3 := rfl
@[simp] theorem State.readFails_result (s : State) : (s.readFails).result = s.result := rfl
@[simp] theorem State.readFails_br_base (s : State) : (s.readFails).br_base = s.br_base := rfl
@[simp] theorem State.readFails_br_size (s : State) : (s.readFails).br_size = s.br_size := rfl
@[simp] theorem State.readFails_br_pos (s : State) : (s.readFails).br_pos = s.br_pos := rfl
@[simp] theorem State.readFails_br_epb (s : State) : (s.readFails).br_epb = s.br_epb := rfl
@[simp] theorem State.readFails_br_fail (s : State) : (s.readFails).br_fail = true := rfl
@[simp] theorem State.readFails_last_sps (s : State) : (s.readFails).last_sps = s.last_sps := rfl
@[simp] theorem State.readFails_last_pps (s : State) : (s.readFails).last_pps = s.last_pps := rfl
@[simp] theorem State.readFails_nalu (s : State) : (s.readFails).nalu = s.nalu := rfl
@[simp] theorem State.readFails_sps (s : State) : (s.readFails).sps = s.sps := rfl
@[simp] theorem State.readFails_pps (s : State) : (s.readFails).pps = s.pps := rfl
@[simp] theorem State.readFails_wsps (s : State) : (s.readFails).wsps = s.wsps := rfl
@[simp] theorem State.readFails_wpps (s : State) : (s.readFails).wpps = s.wpps := rfl
@[simp] theorem State.readFails_slice (s : State) : (s.readFails).slice = s.slice := rfl
@[simp] theorem State.readFails_sei (s : State) : (s.readFails).sei = s.sei := rfl

/-! ## `State.queryEnds` -/

@[simp] theorem State.queryEnds_mem (s : State) (v : Word) : (s.queryEnds v).mem = s.mem := rfl
@[simp] theorem State.queryEnds_host (s : State) (v : Word) : (s.queryEnds v).host = s.host := rfl
@[simp] theorem State.queryEnds_params (s : State) (v : Word) : (s.queryEnds v).params = s.params := rfl
@[simp] theorem State.queryEnds_status (s : State) (v : Word) : (s.queryEnds v).status = { code := .ok, warn := false } := rfl
@[simp] theorem State.queryEnds_arg0 (s : State) (v : Word) : (s.queryEnds v).arg0 = s.arg0 := rfl
@[simp] theorem State.queryEnds_arg1 (s : State) (v : Word) : (s.queryEnds v).arg1 = s.arg1 := rfl
@[simp] theorem State.queryEnds_arg2 (s : State) (v : Word) : (s.queryEnds v).arg2 = s.arg2 := rfl
@[simp] theorem State.queryEnds_arg3 (s : State) (v : Word) : (s.queryEnds v).arg3 = s.arg3 := rfl
@[simp] theorem State.queryEnds_result (s : State) (v : Word) : (s.queryEnds v).result = v := rfl
@[simp] theorem State.queryEnds_br_base (s : State) (v : Word) : (s.queryEnds v).br_base = s.br_base := rfl
@[simp] theorem State.queryEnds_br_size (s : State) (v : Word) : (s.queryEnds v).br_size = s.br_size := rfl
@[simp] theorem State.queryEnds_br_pos (s : State) (v : Word) : (s.queryEnds v).br_pos = s.br_pos := rfl
@[simp] theorem State.queryEnds_br_epb (s : State) (v : Word) : (s.queryEnds v).br_epb = s.br_epb := rfl
@[simp] theorem State.queryEnds_br_fail (s : State) (v : Word) : (s.queryEnds v).br_fail = s.br_fail := rfl
@[simp] theorem State.queryEnds_last_sps (s : State) (v : Word) : (s.queryEnds v).last_sps = s.last_sps := rfl
@[simp] theorem State.queryEnds_last_pps (s : State) (v : Word) : (s.queryEnds v).last_pps = s.last_pps := rfl
@[simp] theorem State.queryEnds_nalu (s : State) (v : Word) : (s.queryEnds v).nalu = s.nalu := rfl
@[simp] theorem State.queryEnds_sps (s : State) (v : Word) : (s.queryEnds v).sps = s.sps := rfl
@[simp] theorem State.queryEnds_pps (s : State) (v : Word) : (s.queryEnds v).pps = s.pps := rfl
@[simp] theorem State.queryEnds_wsps (s : State) (v : Word) : (s.queryEnds v).wsps = s.wsps := rfl
@[simp] theorem State.queryEnds_wpps (s : State) (v : Word) : (s.queryEnds v).wpps = s.wpps := rfl
@[simp] theorem State.queryEnds_slice (s : State) (v : Word) : (s.queryEnds v).slice = s.slice := rfl
@[simp] theorem State.queryEnds_sei (s : State) (v : Word) : (s.queryEnds v).sei = s.sei := rfl

/-! ## `State.storeSps` -/

@[simp] theorem State.storeSps_mem (s : State) (w : Sps) : (s.storeSps w).mem = s.mem := rfl
@[simp] theorem State.storeSps_host (s : State) (w : Sps) : (s.storeSps w).host = s.host := rfl
@[simp] theorem State.storeSps_params (s : State) (w : Sps) : (s.storeSps w).params = s.params := rfl
@[simp] theorem State.storeSps_status (s : State) (w : Sps) : (s.storeSps w).status = s.status := rfl
@[simp] theorem State.storeSps_arg0 (s : State) (w : Sps) : (s.storeSps w).arg0 = s.arg0 := rfl
@[simp] theorem State.storeSps_arg1 (s : State) (w : Sps) : (s.storeSps w).arg1 = s.arg1 := rfl
@[simp] theorem State.storeSps_arg2 (s : State) (w : Sps) : (s.storeSps w).arg2 = s.arg2 := rfl
@[simp] theorem State.storeSps_arg3 (s : State) (w : Sps) : (s.storeSps w).arg3 = s.arg3 := rfl
@[simp] theorem State.storeSps_result (s : State) (w : Sps) : (s.storeSps w).result = s.result := rfl
@[simp] theorem State.storeSps_br_base (s : State) (w : Sps) : (s.storeSps w).br_base = s.br_base := rfl
@[simp] theorem State.storeSps_br_size (s : State) (w : Sps) : (s.storeSps w).br_size = s.br_size := rfl
@[simp] theorem State.storeSps_br_pos (s : State) (w : Sps) : (s.storeSps w).br_pos = s.br_pos := rfl
@[simp] theorem State.storeSps_br_epb (s : State) (w : Sps) : (s.storeSps w).br_epb = s.br_epb := rfl
@[simp] theorem State.storeSps_br_fail (s : State) (w : Sps) : (s.storeSps w).br_fail = s.br_fail := rfl
@[simp] theorem State.storeSps_last_sps (s : State) (w : Sps) : (s.storeSps w).last_sps = w.id.setWidth 6 := rfl
@[simp] theorem State.storeSps_last_pps (s : State) (w : Sps) : (s.storeSps w).last_pps = s.last_pps := rfl
@[simp] theorem State.storeSps_nalu (s : State) (w : Sps) : (s.storeSps w).nalu = s.nalu := rfl
@[simp] theorem State.storeSps_sps (s : State) (w : Sps) : (s.storeSps w).sps = Table.write s.sps {} w.id.toNat w := rfl
@[simp] theorem State.storeSps_pps (s : State) (w : Sps) : (s.storeSps w).pps = s.pps := rfl
@[simp] theorem State.storeSps_wsps (s : State) (w : Sps) : (s.storeSps w).wsps = s.wsps := rfl
@[simp] theorem State.storeSps_wpps (s : State) (w : Sps) : (s.storeSps w).wpps = s.wpps := rfl
@[simp] theorem State.storeSps_slice (s : State) (w : Sps) : (s.storeSps w).slice = s.slice := rfl
@[simp] theorem State.storeSps_sei (s : State) (w : Sps) : (s.storeSps w).sei = s.sei := rfl

/-! ## `State.storePps` -/

@[simp] theorem State.storePps_mem (s : State) (w : Pps) : (s.storePps w).mem = s.mem := rfl
@[simp] theorem State.storePps_host (s : State) (w : Pps) : (s.storePps w).host = s.host := rfl
@[simp] theorem State.storePps_params (s : State) (w : Pps) : (s.storePps w).params = s.params := rfl
@[simp] theorem State.storePps_status (s : State) (w : Pps) : (s.storePps w).status = s.status := rfl
@[simp] theorem State.storePps_arg0 (s : State) (w : Pps) : (s.storePps w).arg0 = s.arg0 := rfl
@[simp] theorem State.storePps_arg1 (s : State) (w : Pps) : (s.storePps w).arg1 = s.arg1 := rfl
@[simp] theorem State.storePps_arg2 (s : State) (w : Pps) : (s.storePps w).arg2 = s.arg2 := rfl
@[simp] theorem State.storePps_arg3 (s : State) (w : Pps) : (s.storePps w).arg3 = s.arg3 := rfl
@[simp] theorem State.storePps_result (s : State) (w : Pps) : (s.storePps w).result = s.result := rfl
@[simp] theorem State.storePps_br_base (s : State) (w : Pps) : (s.storePps w).br_base = s.br_base := rfl
@[simp] theorem State.storePps_br_size (s : State) (w : Pps) : (s.storePps w).br_size = s.br_size := rfl
@[simp] theorem State.storePps_br_pos (s : State) (w : Pps) : (s.storePps w).br_pos = s.br_pos := rfl
@[simp] theorem State.storePps_br_epb (s : State) (w : Pps) : (s.storePps w).br_epb = s.br_epb := rfl
@[simp] theorem State.storePps_br_fail (s : State) (w : Pps) : (s.storePps w).br_fail = s.br_fail := rfl
@[simp] theorem State.storePps_last_sps (s : State) (w : Pps) : (s.storePps w).last_sps = s.last_sps := rfl
@[simp] theorem State.storePps_last_pps (s : State) (w : Pps) : (s.storePps w).last_pps = w.id.setWidth 9 := rfl
@[simp] theorem State.storePps_nalu (s : State) (w : Pps) : (s.storePps w).nalu = s.nalu := rfl
@[simp] theorem State.storePps_sps (s : State) (w : Pps) : (s.storePps w).sps = s.sps := rfl
@[simp] theorem State.storePps_pps (s : State) (w : Pps) : (s.storePps w).pps = Table.write s.pps {} w.id.toNat w := rfl
@[simp] theorem State.storePps_wsps (s : State) (w : Pps) : (s.storePps w).wsps = s.wsps := rfl
@[simp] theorem State.storePps_wpps (s : State) (w : Pps) : (s.storePps w).wpps = s.wpps := rfl
@[simp] theorem State.storePps_slice (s : State) (w : Pps) : (s.storePps w).slice = s.slice := rfl
@[simp] theorem State.storePps_sei (s : State) (w : Pps) : (s.storePps w).sei = s.sei := rfl

/-! ## `State.popHost` -/

@[simp] theorem State.popHost_mem (s : State) : (s.popHost).mem = s.mem := rfl
@[simp] theorem State.popHost_host (s : State) : (s.popHost).host = s.host.tail := rfl
@[simp] theorem State.popHost_params (s : State) : (s.popHost).params = s.params := rfl
@[simp] theorem State.popHost_status (s : State) : (s.popHost).status = s.status := rfl
@[simp] theorem State.popHost_arg0 (s : State) : (s.popHost).arg0 = s.arg0 := rfl
@[simp] theorem State.popHost_arg1 (s : State) : (s.popHost).arg1 = s.arg1 := rfl
@[simp] theorem State.popHost_arg2 (s : State) : (s.popHost).arg2 = s.arg2 := rfl
@[simp] theorem State.popHost_arg3 (s : State) : (s.popHost).arg3 = s.arg3 := rfl
@[simp] theorem State.popHost_result (s : State) : (s.popHost).result = s.result := rfl
@[simp] theorem State.popHost_br_base (s : State) : (s.popHost).br_base = s.br_base := rfl
@[simp] theorem State.popHost_br_size (s : State) : (s.popHost).br_size = s.br_size := rfl
@[simp] theorem State.popHost_br_pos (s : State) : (s.popHost).br_pos = s.br_pos := rfl
@[simp] theorem State.popHost_br_epb (s : State) : (s.popHost).br_epb = s.br_epb := rfl
@[simp] theorem State.popHost_br_fail (s : State) : (s.popHost).br_fail = s.br_fail := rfl
@[simp] theorem State.popHost_last_sps (s : State) : (s.popHost).last_sps = s.last_sps := rfl
@[simp] theorem State.popHost_last_pps (s : State) : (s.popHost).last_pps = s.last_pps := rfl
@[simp] theorem State.popHost_nalu (s : State) : (s.popHost).nalu = s.nalu := rfl
@[simp] theorem State.popHost_sps (s : State) : (s.popHost).sps = s.sps := rfl
@[simp] theorem State.popHost_pps (s : State) : (s.popHost).pps = s.pps := rfl
@[simp] theorem State.popHost_wsps (s : State) : (s.popHost).wsps = s.wsps := rfl
@[simp] theorem State.popHost_wpps (s : State) : (s.popHost).wpps = s.wpps := rfl
@[simp] theorem State.popHost_slice (s : State) : (s.popHost).slice = s.slice := rfl
@[simp] theorem State.popHost_sei (s : State) : (s.popHost).sei = s.sei := rfl

/-! ## `State.located` -/

@[simp] theorem State.located_mem (s : State) (r : Code × Nalu) : (s.located r).mem = s.mem := rfl
@[simp] theorem State.located_host (s : State) (r : Code × Nalu) : (s.located r).host = s.host := rfl
@[simp] theorem State.located_params (s : State) (r : Code × Nalu) : (s.located r).params = s.params := rfl
@[simp] theorem State.located_status (s : State) (r : Code × Nalu) : (s.located r).status = { code := r.1, warn := false } := rfl
@[simp] theorem State.located_arg0 (s : State) (r : Code × Nalu) : (s.located r).arg0 = s.arg0 := rfl
@[simp] theorem State.located_arg1 (s : State) (r : Code × Nalu) : (s.located r).arg1 = s.arg1 := rfl
@[simp] theorem State.located_arg2 (s : State) (r : Code × Nalu) : (s.located r).arg2 = s.arg2 := rfl
@[simp] theorem State.located_arg3 (s : State) (r : Code × Nalu) : (s.located r).arg3 = s.arg3 := rfl
@[simp] theorem State.located_result (s : State) (r : Code × Nalu) : (s.located r).result = s.result := rfl
@[simp] theorem State.located_br_base (s : State) (r : Code × Nalu) : (s.located r).br_base = s.br_base := rfl
@[simp] theorem State.located_br_size (s : State) (r : Code × Nalu) : (s.located r).br_size = s.br_size := rfl
@[simp] theorem State.located_br_pos (s : State) (r : Code × Nalu) : (s.located r).br_pos = s.br_pos := rfl
@[simp] theorem State.located_br_epb (s : State) (r : Code × Nalu) : (s.located r).br_epb = s.br_epb := rfl
@[simp] theorem State.located_br_fail (s : State) (r : Code × Nalu) : (s.located r).br_fail = s.br_fail := rfl
@[simp] theorem State.located_last_sps (s : State) (r : Code × Nalu) : (s.located r).last_sps = s.last_sps := rfl
@[simp] theorem State.located_last_pps (s : State) (r : Code × Nalu) : (s.located r).last_pps = s.last_pps := rfl
@[simp] theorem State.located_nalu (s : State) (r : Code × Nalu) : (s.located r).nalu = r.2 := rfl
@[simp] theorem State.located_sps (s : State) (r : Code × Nalu) : (s.located r).sps = s.sps := rfl
@[simp] theorem State.located_pps (s : State) (r : Code × Nalu) : (s.located r).pps = s.pps := rfl
@[simp] theorem State.located_wsps (s : State) (r : Code × Nalu) : (s.located r).wsps = s.wsps := rfl
@[simp] theorem State.located_wpps (s : State) (r : Code × Nalu) : (s.located r).wpps = s.wpps := rfl
@[simp] theorem State.located_slice (s : State) (r : Code × Nalu) : (s.located r).slice = s.slice := rfl
@[simp] theorem State.located_sei (s : State) (r : Code × Nalu) : (s.located r).sei = s.sei := rfl

/-! ## `State.withReader` -/

@[simp] theorem State.withReader_mem (s : State) (b z : Word) (st : Stream) (r : Reader) : (s.withReader b z st r).mem = s.mem := rfl
@[simp] theorem State.withReader_host (s : State) (b z : Word) (st : Stream) (r : Reader) : (s.withReader b z st r).host = s.host := rfl
@[simp] theorem State.withReader_params (s : State) (b z : Word) (st : Stream) (r : Reader) : (s.withReader b z st r).params = s.params := rfl
@[simp] theorem State.withReader_status (s : State) (b z : Word) (st : Stream) (r : Reader) : (s.withReader b z st r).status = s.status := rfl
@[simp] theorem State.withReader_arg0 (s : State) (b z : Word) (st : Stream) (r : Reader) : (s.withReader b z st r).arg0 = s.arg0 := rfl
@[simp] theorem State.withReader_arg1 (s : State) (b z : Word) (st : Stream) (r : Reader) : (s.withReader b z st r).arg1 = s.arg1 := rfl
@[simp] theorem State.withReader_arg2 (s : State) (b z : Word) (st : Stream) (r : Reader) : (s.withReader b z st r).arg2 = s.arg2 := rfl
@[simp] theorem State.withReader_arg3 (s : State) (b z : Word) (st : Stream) (r : Reader) : (s.withReader b z st r).arg3 = s.arg3 := rfl
@[simp] theorem State.withReader_result (s : State) (b z : Word) (st : Stream) (r : Reader) : (s.withReader b z st r).result = s.result := rfl
@[simp] theorem State.withReader_br_base (s : State) (b z : Word) (st : Stream) (r : Reader) : (s.withReader b z st r).br_base = b := rfl
@[simp] theorem State.withReader_br_size (s : State) (b z : Word) (st : Stream) (r : Reader) : (s.withReader b z st r).br_size = z := rfl
@[simp] theorem State.withReader_br_pos (s : State) (b z : Word) (st : Stream) (r : Reader) : (s.withReader b z st r).br_pos = r.p := rfl
@[simp] theorem State.withReader_br_epb (s : State) (b z : Word) (st : Stream) (r : Reader) : (s.withReader b z st r).br_epb = BitVec.ofNat 32 (epbCount st r.p) := rfl
@[simp] theorem State.withReader_br_fail (s : State) (b z : Word) (st : Stream) (r : Reader) : (s.withReader b z st r).br_fail = r.fail := rfl
@[simp] theorem State.withReader_last_sps (s : State) (b z : Word) (st : Stream) (r : Reader) : (s.withReader b z st r).last_sps = s.last_sps := rfl
@[simp] theorem State.withReader_last_pps (s : State) (b z : Word) (st : Stream) (r : Reader) : (s.withReader b z st r).last_pps = s.last_pps := rfl
@[simp] theorem State.withReader_nalu (s : State) (b z : Word) (st : Stream) (r : Reader) : (s.withReader b z st r).nalu = s.nalu := rfl
@[simp] theorem State.withReader_sps (s : State) (b z : Word) (st : Stream) (r : Reader) : (s.withReader b z st r).sps = s.sps := rfl
@[simp] theorem State.withReader_pps (s : State) (b z : Word) (st : Stream) (r : Reader) : (s.withReader b z st r).pps = s.pps := rfl
@[simp] theorem State.withReader_wsps (s : State) (b z : Word) (st : Stream) (r : Reader) : (s.withReader b z st r).wsps = s.wsps := rfl
@[simp] theorem State.withReader_wpps (s : State) (b z : Word) (st : Stream) (r : Reader) : (s.withReader b z st r).wpps = s.wpps := rfl
@[simp] theorem State.withReader_slice (s : State) (b z : Word) (st : Stream) (r : Reader) : (s.withReader b z st r).slice = s.slice := rfl
@[simp] theorem State.withReader_sei (s : State) (b z : Word) (st : Stream) (r : Reader) : (s.withReader b z st r).sei = s.sei := rfl

/-! ## `State.advance` -/

@[simp] theorem State.advance_mem (s : State) (n : Nat) : (s.advance n).mem = s.mem := by
  unfold State.advance; split <;> rfl
@[simp] theorem State.advance_host (s : State) (n : Nat) : (s.advance n).host = s.host := by
  unfold State.advance; split <;> rfl
@[simp] theorem State.advance_params (s : State) (n : Nat) : (s.advance n).params = s.params := by
  unfold State.advance; split <;> rfl
@[simp] theorem State.advance_status (s : State) (n : Nat) : (s.advance n).status = s.status := by
  unfold State.advance; split <;> rfl
@[simp] theorem State.advance_arg0 (s : State) (n : Nat) : (s.advance n).arg0 = s.arg0 := by
  unfold State.advance; split <;> rfl
@[simp] theorem State.advance_arg1 (s : State) (n : Nat) : (s.advance n).arg1 = s.arg1 := by
  unfold State.advance; split <;> rfl
@[simp] theorem State.advance_arg2 (s : State) (n : Nat) : (s.advance n).arg2 = s.arg2 := by
  unfold State.advance; split <;> rfl
@[simp] theorem State.advance_arg3 (s : State) (n : Nat) : (s.advance n).arg3 = s.arg3 := by
  unfold State.advance; split <;> rfl
@[simp] theorem State.advance_result (s : State) (n : Nat) : (s.advance n).result = s.result := by
  unfold State.advance; split <;> rfl
@[simp] theorem State.advance_br_base (s : State) (n : Nat) : (s.advance n).br_base = s.br_base := by
  unfold State.advance; split <;> rfl
@[simp] theorem State.advance_br_size (s : State) (n : Nat) : (s.advance n).br_size = s.br_size := by
  unfold State.advance; split <;> rfl
@[simp] theorem State.advance_br_fail (s : State) (n : Nat) : (s.advance n).br_fail = s.br_fail := by
  unfold State.advance; split <;> rfl
@[simp] theorem State.advance_last_sps (s : State) (n : Nat) : (s.advance n).last_sps = s.last_sps := by
  unfold State.advance; split <;> rfl
@[simp] theorem State.advance_last_pps (s : State) (n : Nat) : (s.advance n).last_pps = s.last_pps := by
  unfold State.advance; split <;> rfl
@[simp] theorem State.advance_nalu (s : State) (n : Nat) : (s.advance n).nalu = s.nalu := by
  unfold State.advance; split <;> rfl
@[simp] theorem State.advance_sps (s : State) (n : Nat) : (s.advance n).sps = s.sps := by
  unfold State.advance; split <;> rfl
@[simp] theorem State.advance_pps (s : State) (n : Nat) : (s.advance n).pps = s.pps := by
  unfold State.advance; split <;> rfl
@[simp] theorem State.advance_wsps (s : State) (n : Nat) : (s.advance n).wsps = s.wsps := by
  unfold State.advance; split <;> rfl
@[simp] theorem State.advance_wpps (s : State) (n : Nat) : (s.advance n).wpps = s.wpps := by
  unfold State.advance; split <;> rfl
@[simp] theorem State.advance_slice (s : State) (n : Nat) : (s.advance n).slice = s.slice := by
  unfold State.advance; split <;> rfl
@[simp] theorem State.advance_sei (s : State) (n : Nat) : (s.advance n).sei = s.sei := by
  unfold State.advance; split <;> rfl
@[simp] theorem State.advance_br_pos (s : State) (n : Nat) : (s.advance n).br_pos = s.br_pos + n := by
  unfold State.advance; split <;> simp_all

theorem State.advance_br_epb (s : State) (n : Nat) (h : n ≠ 0) :
    (s.advance n).br_epb = BitVec.ofNat 32 (epbCount s.stream (s.br_pos + n)) := by
  simp [State.advance, h]

@[simp] theorem State.advance_zero (s : State) : s.advance 0 = s := rfl

/-! ## `State.readEnds` -/

@[simp] theorem State.readEnds_mem (s : State) (n : Nat) (v : Word) : (s.readEnds n v).mem = s.mem := by
  simp [State.readEnds]
@[simp] theorem State.readEnds_host (s : State) (n : Nat) (v : Word) : (s.readEnds n v).host = s.host := by
  simp [State.readEnds]
@[simp] theorem State.readEnds_params (s : State) (n : Nat) (v : Word) : (s.readEnds n v).params = s.params := by
  simp [State.readEnds]
@[simp] theorem State.readEnds_status (s : State) (n : Nat) (v : Word) : (s.readEnds n v).status = { code := .ok, warn := false } := by
  simp [State.readEnds]
@[simp] theorem State.readEnds_arg0 (s : State) (n : Nat) (v : Word) : (s.readEnds n v).arg0 = s.arg0 := by
  simp [State.readEnds]
@[simp] theorem State.readEnds_arg1 (s : State) (n : Nat) (v : Word) : (s.readEnds n v).arg1 = s.arg1 := by
  simp [State.readEnds]
@[simp] theorem State.readEnds_arg2 (s : State) (n : Nat) (v : Word) : (s.readEnds n v).arg2 = s.arg2 := by
  simp [State.readEnds]
@[simp] theorem State.readEnds_arg3 (s : State) (n : Nat) (v : Word) : (s.readEnds n v).arg3 = s.arg3 := by
  simp [State.readEnds]
@[simp] theorem State.readEnds_result (s : State) (n : Nat) (v : Word) : (s.readEnds n v).result = v := by
  simp [State.readEnds]
@[simp] theorem State.readEnds_br_base (s : State) (n : Nat) (v : Word) : (s.readEnds n v).br_base = s.br_base := by
  simp [State.readEnds]
@[simp] theorem State.readEnds_br_size (s : State) (n : Nat) (v : Word) : (s.readEnds n v).br_size = s.br_size := by
  simp [State.readEnds]
@[simp] theorem State.readEnds_br_pos (s : State) (n : Nat) (v : Word) : (s.readEnds n v).br_pos = s.br_pos + n := by
  simp [State.readEnds]
@[simp] theorem State.readEnds_br_epb (s : State) (n : Nat) (v : Word) : (s.readEnds n v).br_epb = (s.advance n).br_epb := by
  simp [State.readEnds]
@[simp] theorem State.readEnds_br_fail (s : State) (n : Nat) (v : Word) : (s.readEnds n v).br_fail = s.br_fail := by
  simp [State.readEnds]
@[simp] theorem State.readEnds_last_sps (s : State) (n : Nat) (v : Word) : (s.readEnds n v).last_sps = s.last_sps := by
  simp [State.readEnds]
@[simp] theorem State.readEnds_last_pps (s : State) (n : Nat) (v : Word) : (s.readEnds n v).last_pps = s.last_pps := by
  simp [State.readEnds]
@[simp] theorem State.readEnds_nalu (s : State) (n : Nat) (v : Word) : (s.readEnds n v).nalu = s.nalu := by
  simp [State.readEnds]
@[simp] theorem State.readEnds_sps (s : State) (n : Nat) (v : Word) : (s.readEnds n v).sps = s.sps := by
  simp [State.readEnds]
@[simp] theorem State.readEnds_pps (s : State) (n : Nat) (v : Word) : (s.readEnds n v).pps = s.pps := by
  simp [State.readEnds]
@[simp] theorem State.readEnds_wsps (s : State) (n : Nat) (v : Word) : (s.readEnds n v).wsps = s.wsps := by
  simp [State.readEnds]
@[simp] theorem State.readEnds_wpps (s : State) (n : Nat) (v : Word) : (s.readEnds n v).wpps = s.wpps := by
  simp [State.readEnds]
@[simp] theorem State.readEnds_slice (s : State) (n : Nat) (v : Word) : (s.readEnds n v).slice = s.slice := by
  simp [State.readEnds]
@[simp] theorem State.readEnds_sei (s : State) (n : Nat) (v : Word) : (s.readEnds n v).sei = s.sei := by
  simp [State.readEnds]

/-! ## `State.writeArg` and `State.powerOn` -/

@[simp] theorem State.writeArg_mem (s : State) (k : Fin 4) (v : Word) : (s.writeArg k v).mem = s.mem := by
  unfold State.writeArg; split <;> rfl
@[simp] theorem State.writeArg_host (s : State) (k : Fin 4) (v : Word) : (s.writeArg k v).host = s.host := by
  unfold State.writeArg; split <;> rfl
@[simp] theorem State.writeArg_params (s : State) (k : Fin 4) (v : Word) : (s.writeArg k v).params = s.params := by
  unfold State.writeArg; split <;> rfl
@[simp] theorem State.writeArg_status (s : State) (k : Fin 4) (v : Word) : (s.writeArg k v).status = s.status := by
  unfold State.writeArg; split <;> rfl
@[simp] theorem State.writeArg_result (s : State) (k : Fin 4) (v : Word) : (s.writeArg k v).result = s.result := by
  unfold State.writeArg; split <;> rfl
@[simp] theorem State.writeArg_br_base (s : State) (k : Fin 4) (v : Word) : (s.writeArg k v).br_base = s.br_base := by
  unfold State.writeArg; split <;> rfl
@[simp] theorem State.writeArg_br_size (s : State) (k : Fin 4) (v : Word) : (s.writeArg k v).br_size = s.br_size := by
  unfold State.writeArg; split <;> rfl
@[simp] theorem State.writeArg_br_pos (s : State) (k : Fin 4) (v : Word) : (s.writeArg k v).br_pos = s.br_pos := by
  unfold State.writeArg; split <;> rfl
@[simp] theorem State.writeArg_br_epb (s : State) (k : Fin 4) (v : Word) : (s.writeArg k v).br_epb = s.br_epb := by
  unfold State.writeArg; split <;> rfl
@[simp] theorem State.writeArg_br_fail (s : State) (k : Fin 4) (v : Word) : (s.writeArg k v).br_fail = s.br_fail := by
  unfold State.writeArg; split <;> rfl
@[simp] theorem State.writeArg_last_sps (s : State) (k : Fin 4) (v : Word) : (s.writeArg k v).last_sps = s.last_sps := by
  unfold State.writeArg; split <;> rfl
@[simp] theorem State.writeArg_last_pps (s : State) (k : Fin 4) (v : Word) : (s.writeArg k v).last_pps = s.last_pps := by
  unfold State.writeArg; split <;> rfl
@[simp] theorem State.writeArg_nalu (s : State) (k : Fin 4) (v : Word) : (s.writeArg k v).nalu = s.nalu := by
  unfold State.writeArg; split <;> rfl
@[simp] theorem State.writeArg_sps (s : State) (k : Fin 4) (v : Word) : (s.writeArg k v).sps = s.sps := by
  unfold State.writeArg; split <;> rfl
@[simp] theorem State.writeArg_pps (s : State) (k : Fin 4) (v : Word) : (s.writeArg k v).pps = s.pps := by
  unfold State.writeArg; split <;> rfl
@[simp] theorem State.writeArg_wsps (s : State) (k : Fin 4) (v : Word) : (s.writeArg k v).wsps = s.wsps := by
  unfold State.writeArg; split <;> rfl
@[simp] theorem State.writeArg_wpps (s : State) (k : Fin 4) (v : Word) : (s.writeArg k v).wpps = s.wpps := by
  unfold State.writeArg; split <;> rfl
@[simp] theorem State.writeArg_slice (s : State) (k : Fin 4) (v : Word) : (s.writeArg k v).slice = s.slice := by
  unfold State.writeArg; split <;> rfl
@[simp] theorem State.writeArg_sei (s : State) (k : Fin 4) (v : Word) : (s.writeArg k v).sei = s.sei := by
  unfold State.writeArg; split <;> rfl
@[simp] theorem State.powerOn_mem (s : State) : s.powerOn.mem = s.mem := rfl
@[simp] theorem State.powerOn_host (s : State) : s.powerOn.host = s.host := rfl
@[simp] theorem State.powerOn_params (s : State) : s.powerOn.params = s.params := rfl
@[simp] theorem State.powerOn_status (s : State) : s.powerOn.status = State.reset.status := rfl
@[simp] theorem State.powerOn_arg0 (s : State) : s.powerOn.arg0 = State.reset.arg0 := rfl
@[simp] theorem State.powerOn_arg1 (s : State) : s.powerOn.arg1 = State.reset.arg1 := rfl
@[simp] theorem State.powerOn_arg2 (s : State) : s.powerOn.arg2 = State.reset.arg2 := rfl
@[simp] theorem State.powerOn_arg3 (s : State) : s.powerOn.arg3 = State.reset.arg3 := rfl
@[simp] theorem State.powerOn_result (s : State) : s.powerOn.result = State.reset.result := rfl
@[simp] theorem State.powerOn_br_base (s : State) : s.powerOn.br_base = State.reset.br_base := rfl
@[simp] theorem State.powerOn_br_size (s : State) : s.powerOn.br_size = State.reset.br_size := rfl
@[simp] theorem State.powerOn_br_pos (s : State) : s.powerOn.br_pos = State.reset.br_pos := rfl
@[simp] theorem State.powerOn_br_epb (s : State) : s.powerOn.br_epb = State.reset.br_epb := rfl
@[simp] theorem State.powerOn_br_fail (s : State) : s.powerOn.br_fail = State.reset.br_fail := rfl
@[simp] theorem State.powerOn_last_sps (s : State) : s.powerOn.last_sps = State.reset.last_sps := rfl
@[simp] theorem State.powerOn_last_pps (s : State) : s.powerOn.last_pps = State.reset.last_pps := rfl
@[simp] theorem State.powerOn_nalu (s : State) : s.powerOn.nalu = State.reset.nalu := rfl
@[simp] theorem State.powerOn_sps (s : State) : s.powerOn.sps = State.reset.sps := rfl
@[simp] theorem State.powerOn_pps (s : State) : s.powerOn.pps = State.reset.pps := rfl
@[simp] theorem State.powerOn_wsps (s : State) : s.powerOn.wsps = State.reset.wsps := rfl
@[simp] theorem State.powerOn_wpps (s : State) : s.powerOn.wpps = State.reset.wpps := rfl
@[simp] theorem State.powerOn_slice (s : State) : s.powerOn.slice = State.reset.slice := rfl
@[simp] theorem State.powerOn_sei (s : State) : s.powerOn.sei = State.reset.sei := rfl

/-! ## `State.writeByte` -/

@[simp] theorem State.writeByte_mem (s : State) (a : Word) (b : Byte) : (s.writeByte a b).mem = s.mem.store a b := rfl
@[simp] theorem State.writeByte_host (s : State) (a : Word) (b : Byte) : (s.writeByte a b).host = s.host := rfl
@[simp] theorem State.writeByte_params (s : State) (a : Word) (b : Byte) : (s.writeByte a b).params = s.params := rfl
@[simp] theorem State.writeByte_status (s : State) (a : Word) (b : Byte) : (s.writeByte a b).status = s.status := rfl
@[simp] theorem State.writeByte_arg0 (s : State) (a : Word) (b : Byte) : (s.writeByte a b).arg0 = s.arg0 := rfl
@[simp] theorem State.writeByte_arg1 (s : State) (a : Word) (b : Byte) : (s.writeByte a b).arg1 = s.arg1 := rfl
@[simp] theorem State.writeByte_arg2 (s : State) (a : Word) (b : Byte) : (s.writeByte a b).arg2 = s.arg2 := rfl
@[simp] theorem State.writeByte_arg3 (s : State) (a : Word) (b : Byte) : (s.writeByte a b).arg3 = s.arg3 := rfl
@[simp] theorem State.writeByte_result (s : State) (a : Word) (b : Byte) : (s.writeByte a b).result = s.result := rfl
@[simp] theorem State.writeByte_br_base (s : State) (a : Word) (b : Byte) : (s.writeByte a b).br_base = s.br_base := rfl
@[simp] theorem State.writeByte_br_size (s : State) (a : Word) (b : Byte) : (s.writeByte a b).br_size = s.br_size := rfl
@[simp] theorem State.writeByte_br_pos (s : State) (a : Word) (b : Byte) : (s.writeByte a b).br_pos = s.br_pos := rfl
theorem State.writeByte_br_epb (s : State) (a : Word) (b : Byte) : (s.writeByte a b).br_epb = (s.writeByte a b).epbByRule := rfl
@[simp] theorem State.writeByte_br_fail (s : State) (a : Word) (b : Byte) : (s.writeByte a b).br_fail = s.br_fail := rfl
@[simp] theorem State.writeByte_last_sps (s : State) (a : Word) (b : Byte) : (s.writeByte a b).last_sps = s.last_sps := rfl
@[simp] theorem State.writeByte_last_pps (s : State) (a : Word) (b : Byte) : (s.writeByte a b).last_pps = s.last_pps := rfl
@[simp] theorem State.writeByte_nalu (s : State) (a : Word) (b : Byte) : (s.writeByte a b).nalu = s.nalu := rfl
@[simp] theorem State.writeByte_sps (s : State) (a : Word) (b : Byte) : (s.writeByte a b).sps = s.sps := rfl
@[simp] theorem State.writeByte_pps (s : State) (a : Word) (b : Byte) : (s.writeByte a b).pps = s.pps := rfl
@[simp] theorem State.writeByte_wsps (s : State) (a : Word) (b : Byte) : (s.writeByte a b).wsps = s.wsps := rfl
@[simp] theorem State.writeByte_wpps (s : State) (a : Word) (b : Byte) : (s.writeByte a b).wpps = s.wpps := rfl
@[simp] theorem State.writeByte_slice (s : State) (a : Word) (b : Byte) : (s.writeByte a b).slice = s.slice := rfl
@[simp] theorem State.writeByte_sei (s : State) (a : Word) (b : Byte) : (s.writeByte a b).sei = s.sei := rfl

/-! ## What the reader's functions see -/

@[simp] theorem State.stream_finish (s : State) (c : Code) (w : Bool) : (s.finish c w).stream = s.stream := rfl

@[simp] theorem State.stream_advance (s : State) (n : Nat) : (s.advance n).stream = s.stream := by
  simp [State.stream]

@[simp] theorem State.stream_readEnds (s : State) (n : Nat) (v : Word) : (s.readEnds n v).stream = s.stream := by
  simp [State.stream]

@[simp] theorem State.stream_readFails (s : State) : s.readFails.stream = s.stream := rfl

@[simp] theorem State.stream_queryEnds (s : State) (v : Word) : (s.queryEnds v).stream = s.stream := rfl

end Sys2Proof.Machine
end

