-- ==== Sys2Proof/Laws/Parser.lean ====
section
/-! SUPPORT. Sys2Proof/Laws/Parser.lean: what every parse does, and how a property of a parse follows from its
parts: how it moves the reader, the codes it ends with, whether it can warn, what it keeps of its record. -/

namespace Sys2Proof.Machine

-- One theorem at a time: a thread for each, with check.sh's stack size, passes its memory limit.
set_option Elab.async false

/-! ## The primitives consume bits that are there -/

theorem takeBits_isSome {n acc : Nat} {bits : List Bool} : (takeBits n acc bits).isSome = true ↔ n ≤ bits.length := by
  induction n generalizing acc bits with
  | zero => simp [takeBits]
  | succ n ih => cases bits <;> simp [takeBits, ih]

theorem readU_isSome {n : Nat} {bits : List Bool} : (readU n bits).isSome = true ↔ n ≤ bits.length := takeBits_isSome

theorem readU_length {n v : Nat} {bits : List Bool} (h : readU n bits = some v) : n ≤ bits.length := by
  rw [← readU_isSome, h]; rfl

theorem readU_eq_none {n : Nat} {bits : List Bool} : readU n bits = none ↔ bits.length < n := by
  rw [← Option.not_isSome_iff_eq_none, readU_isSome]; omega

theorem leadingZeros_spec {bits : List Bool} {lz : Nat} (h : leadingZeros bits = some lz) :
    ∃ rest, bits = List.replicate lz false ++ true :: rest := by
  induction bits generalizing lz with
  | nil => simp [leadingZeros] at h
  | cons b bits ih =>
    cases b
    · simp only [leadingZeros, Option.map_eq_some_iff] at h
      obtain ⟨k, hk, rfl⟩ := h
      obtain ⟨rest, rfl⟩ := ih hk
      exact ⟨rest, by simp [List.replicate_succ]⟩
    · simp only [leadingZeros, Option.some.injEq] at h
      subst h; exact ⟨bits, rfl⟩

/-- `read_u(n)` answers the value of the bits it reads. -/
theorem takeBits_spec {n acc v : Nat} {bits : List Bool} (h : takeBits n acc bits = some v) :
    ∃ x rest, x < 2 ^ n ∧ bits = uBits n x ++ rest ∧ v = acc * 2 ^ n + x := by
  induction n generalizing acc bits with
  | zero => simp only [takeBits, Option.some.injEq] at h; exact ⟨0, bits, by omega, rfl, by omega⟩
  | succ n ih =>
    cases bits with
    | nil => simp [takeBits] at h
    | cons b bits =>
      obtain ⟨x, rest, hx, rfl, rfl⟩ := ih h
      have hp : 2 ^ (n + 1) = 2 * 2 ^ n := by rw [Nat.pow_succ]; omega
      refine ⟨b.toNat * 2 ^ n + x, rest, ?_, ?_, ?_⟩
      · cases b <;> simp <;> omega
      · rw [uBits, List.cons_append]
        congr 1
        · rw [Nat.testBit_eq_decide_div_mod_eq]
          have : (b.toNat * 2 ^ n + x) / 2 ^ n = b.toNat := by
            rw [Nat.add_comm, Nat.add_mul_div_right _ _ (Nat.two_pow_pos n), Nat.div_eq_of_lt hx, Nat.zero_add]
          rw [this]; cases b <;> simp
        · have e : uBits n (b.toNat * 2 ^ n + x) = uBits n x := by
            suffices H : ∀ m ≤ n, uBits m (b.toNat * 2 ^ n + x) = uBits m x from H n (Nat.le_refl n)
            intro m hm
            induction m with
            | zero => rfl
            | succ m ihm =>
              rw [uBits, uBits, ihm (by omega)]
              congr 1
              rw [Nat.mul_comm, Nat.testBit_two_pow_mul_add _ hx]
              simp [show m < n by omega]
          rw [e]
      · rw [hp]; ring

theorem readU_spec {n v : Nat} {bits : List Bool} (h : readU n bits = some v) :
    v < 2 ^ n ∧ ∃ rest, bits = uBits n v ++ rest := by
  obtain ⟨x, rest, hx, e, hv⟩ := takeBits_spec h
  obtain rfl : v = x := by omega
  exact ⟨hx, rest, e⟩

/-- `read_ue()` answers the value of the code it reads. -/
theorem readUe_spec {bits : List Bool} {v n : Nat} (h : readUe bits = some (v, n)) :
    v < 4294967295 ∧ n = (ueBits v).length ∧ ∃ rest, bits = ueBits v ++ rest := by
  unfold readUe at h
  cases hz : leadingZeros bits with
  | none => simp [hz] at h
  | some lz =>
    simp only [hz] at h
    split at h
    · simp at h
    · rename_i hlz
      obtain ⟨rest, rfl⟩ := leadingZeros_spec hz
      rw [show (List.replicate lz false ++ true :: rest).drop (lz + 1) = rest by
        rw [List.drop_append, List.length_replicate, Nat.add_sub_cancel_left, List.drop_of_length_le (by simp)]; rfl] at h
      cases hu : readU lz rest with
      | none => simp [hu] at h
      | some info =>
        simp only [hu, Option.some.injEq, Prod.mk.injEq] at h
        obtain ⟨rfl, rfl⟩ := h
        obtain ⟨hi, rest, rfl⟩ := readU_spec hu
        have hp : 0 < 2 ^ lz := Nat.two_pow_pos lz
        have hle : 2 ^ lz ≤ 2 ^ 31 := Nat.pow_le_pow_right (by omega) (by simp [Config.ueMaxLz] at hlz; omega)
        have hlog : (2 ^ lz - 1 + info + 1).log2 = lz := by
          rw [show 2 ^ lz - 1 + info + 1 = 2 ^ lz + info by omega]
          exact (Nat.log2_eq_iff (by omega)).2 ⟨by omega, by rw [Nat.pow_succ]; omega⟩
        have hb : ueBits (2 ^ lz - 1 + info) = List.replicate lz false ++ true :: uBits lz info := by
          unfold ueBits; rw [hlog, show 2 ^ lz - 1 + info + 1 - 2 ^ lz = info by omega]
        refine ⟨by omega, by rw [ueBits_length, hlog], rest, ?_⟩
        rw [hb]; simp

theorem readUe_length {bits : List Bool} {v n : Nat} (h : readUe bits = some (v, n)) : n ≤ bits.length := by
  obtain ⟨-, rfl, rest, rfl⟩ := readUe_spec h
  simp

theorem readSe_length {bits : List Bool} {v : Int} {n : Nat} (h : readSe bits = some (v, n)) : n ≤ bits.length := by
  unfold readSe at h
  cases hu : readUe bits with
  | none => simp [hu] at h
  | some x =>
    simp only [hu, Option.some.injEq, Prod.mk.injEq] at h
    rw [← h.2]; exact readUe_length (v := x.1) hu

/-! ## How a parse moves the reader and ends -/

/-- The reader has gone on by some of its unread bits. -/
def Moved (r r' : Reader) : Prop := ∃ k ≤ r.rest.length, r'.rest = r.rest.drop k ∧ r'.p = r.p + k

theorem Moved.refl (r : Reader) : Moved r r := ⟨0, Nat.zero_le _, rfl, rfl⟩

theorem Moved.trans {a b c : Reader} (h1 : Moved a b) (h2 : Moved b c) : Moved a c := by
  obtain ⟨k, hk, e1, e2⟩ := h1
  obtain ⟨m, hm, e3, e4⟩ := h2
  rw [e1, List.length_drop] at hm
  exact ⟨k + m, by omega, by rw [e3, e1, List.drop_drop], by omega⟩

theorem Moved.advance {r : Reader} {n : Nat} (h : n ≤ r.rest.length) : Moved r (r.advance n) := ⟨n, h, rfl, rfl⟩

/-- A read can fail here: fewer bits are left than the widest `u(n)` reads, or no Exp-Golomb code stands here. -/
def Stuck (bits : List Bool) : Prop := bits.length < 32 ∨ readUe bits = none

/-- From `st`, a parse moves the reader; it fails only with a code of `codes`, and sets `BR_FAIL` only with `ERROR` and
where a read can fail; it warns only where `warns` allows it. -/
def SoundAt {R α : Type} (codes : List Code) (warns : Bool) (m : Parse R α) (st : PState R) : Prop :=
  match m st with
  | .ok _ e => Moved st.rd e.rd ∧ e.rd.fail = st.rd.fail ∧ (warns = false → e.rd.warn = st.rd.warn)
  | .error c e => Moved st.rd e.rd ∧ c ∈ codes ∧
    (e.rd.fail = true → st.rd.fail = true ∨ c = .error ∧ Stuck e.rd.rest) ∧ (warns = false → e.rd.warn = st.rd.warn)

/-- As `SoundAt`, from every state. -/
def Sound {R α : Type} (codes : List Code) (warns : Bool) (m : Parse R α) : Prop := ∀ st, SoundAt codes warns m st

variable {R A α β : Type} {cs : List Code} {w : Bool}

theorem SoundAt.bind {m : Parse R α} {k : α → Parse R β} {st : PState R} (h1 : SoundAt cs w m st)
    (h2 : ∀ a e, m st = .ok a e → SoundAt cs w (k a) e) : SoundAt cs w (m >>= k) st := by
  unfold SoundAt at h1 ⊢
  cases hm : m st with
  | error c e =>
    rw [Parse.bind_error hm]
    rw [hm] at h1; exact h1
  | ok a e =>
    rw [Parse.bind_ok hm]
    rw [hm] at h1
    obtain ⟨m1, f1, w1⟩ := h1
    have h2 := h2 a e hm
    unfold SoundAt at h2
    cases hk : k a e with
    | ok b e' =>
      rw [hk] at h2
      obtain ⟨m2, f2, w2⟩ := h2
      exact ⟨m1.trans m2, f2.trans f1, fun x => (w2 x).trans (w1 x)⟩
    | error c e' =>
      rw [hk] at h2
      obtain ⟨m2, hc, f2, w2⟩ := h2
      exact ⟨m1.trans m2, hc, fun x => by rw [← f1]; exact f2 x, fun x => (w2 x).trans (w1 x)⟩

theorem Sound.bind {m : Parse R α} {k : α → Parse R β} (h1 : Sound cs w m) (h2 : ∀ a, Sound cs w (k a)) :
    Sound cs w (m >>= k) := fun st => (h1 st).bind fun a e _ => h2 a e

theorem Sound.pure (a : α) : Sound cs w (pure a : Parse R α) := fun st => ⟨Moved.refl _, rfl, fun _ => rfl⟩

theorem Sound.look : Sound cs w (look : Parse R R) := fun _ => ⟨Moved.refl _, rfl, fun _ => rfl⟩

theorem Sound.reader : Sound cs w (reader : Parse R Reader) := fun _ => ⟨Moved.refl _, rfl, fun _ => rfl⟩

theorem Sound.moreData : Sound cs w (moreData : Parse R Bool) := fun _ => ⟨Moved.refl _, rfl, fun _ => rfl⟩

theorem Sound.put (f : R → R) : Sound cs w (put f) := fun _ => ⟨Moved.refl _, rfl, fun _ => rfl⟩

theorem Sound.warnIf (b : Bool) : Sound cs true (warnIf b : Parse R Unit) :=
  fun _ => ⟨Moved.refl _, rfl, fun h => by simp at h⟩

theorem Sound.require {b : Bool} {c : Code} (h : c ∈ cs) : Sound cs w (require b c : Parse R Unit) := by
  cases b
  · exact fun _ => ⟨Moved.refl _, h, Or.inl, fun _ => rfl⟩
  · exact Sound.pure ()

/-- What follows a check may use that it held. -/
theorem Sound.required {b : Bool} {c : Code} {k : Unit → Parse R α} (h : c ∈ cs) (hk : b = true → Sound cs w (k ())) :
    Sound cs w (Machine.require b c >>= k) := by
  cases b
  · exact fun _ => ⟨Moved.refl _, h, Or.inl, fun _ => rfl⟩
  · exact hk rfl

theorem Sound.raise {c : Code} (h : c ∈ cs) : Sound cs w (raiseCode c : Parse R α) :=
  fun _ => ⟨Moved.refl _, h, Or.inl, fun _ => rfl⟩

theorem Sound.whenever {b : Bool} {m : Parse R Unit} (h : Sound cs w m) : Sound cs w (Machine.whenever b m) := by
  cases b
  · exact Sound.pure ()
  · exact h

/-- A conditional part that may warn only where it is present. -/
theorem Sound.wheneverTrue {b : Bool} {m : Parse R Unit} (h : b = true → Sound cs w m) : Sound cs w (Machine.whenever b m) := by
  cases b
  · exact Sound.pure ()
  · exact h rfl

theorem Sound.ite {p : Prop} [Decidable p] {m k : Parse R α} (h1 : Sound cs w m) (h2 : Sound cs w k) :
    Sound cs w (if p then m else k) := by
  split
  · exact h1
  · exact h2

theorem SoundAt.within {get : R → A} {set : R → A → R} {m : Parse A α} {st : PState R}
    (h : SoundAt cs w m { rd := st.rd, out := get st.out }) : SoundAt cs w (Machine.within get set m) st := by
  unfold SoundAt at h ⊢
  cases hm : m { rd := st.rd, out := get st.out } with
  | ok a e => rw [hm] at h; simp only [Machine.within, hm]; exact h
  | error c e => rw [hm] at h; simp only [Machine.within, hm]; exact h

theorem Sound.within {get : R → A} {set : R → A → R} {m : Parse A α} (h : Sound cs w m) :
    Sound cs w (Machine.within get set m) := fun _ => SoundAt.within (h _)

theorem Sound.loop {f : Nat → Parse R Unit} (h : ∀ i, Sound cs w (f i)) (k i : Nat) : Sound cs w (loopFrom f k i) := by
  induction k generalizing i with
  | zero => exact Sound.pure ()
  | succ k ih => exact (h i).bind fun _ => ih (i + 1)

/-- A read that fails. -/
theorem SoundAt.fails {m : Parse R α} {st : PState R} (he : Code.error ∈ cs) (h : m st = readFailure st)
    (hs : Stuck st.rd.rest) : SoundAt cs w m st := by
  unfold SoundAt; rw [h]
  exact ⟨Moved.refl _, he, fun _ => Or.inr ⟨rfl, hs⟩, fun _ => rfl⟩

/-- A read of `n` bits that are there. -/
theorem SoundAt.reads {m : Parse R α} {st : PState R} {n : Nat} (a : α)
    (h : m st = .ok a { st with rd := st.rd.advance n }) (hn : n ≤ st.rd.rest.length) : SoundAt cs w m st := by
  unfold SoundAt; rw [h]
  exact ⟨Moved.advance hn, rfl, fun _ => rfl⟩

theorem Sound.getU (he : Code.error ∈ cs) (n : Nat) (hn : n ≤ 32 := by omega) : Sound cs w (getU n : Parse R Nat) := by
  intro st
  cases h : readU n st.rd.rest with
  | none => exact SoundAt.fails he (by simp only [Machine.getU, h]) (.inl (by have := readU_eq_none.1 h; omega))
  | some v => exact SoundAt.reads v (by simp only [Machine.getU, h]) (readU_length h)

theorem Sound.getUe (he : Code.error ∈ cs) : Sound cs w (getUe : Parse R Nat) := by
  intro st
  cases h : readUe st.rd.rest with
  | none => exact SoundAt.fails he (by simp only [Machine.getUe, h]) (.inr h)
  | some v => exact SoundAt.reads v.1 (by simp only [Machine.getUe, h]) (readUe_length (v := v.1) h)

theorem Sound.getSe (he : Code.error ∈ cs) : Sound cs w (getSe : Parse R Int) := by
  intro st
  cases h : readSe st.rd.rest with
  | none =>
    refine SoundAt.fails he (by simp only [Machine.getSe, h]) (.inr ?_)
    unfold readSe at h
    split at h <;> simp_all
  | some v => exact SoundAt.reads v.1 (by simp only [Machine.getSe, h]) (readSe_length (v := v.1) h)

/-- A skip of bits that are there. -/
theorem SoundAt.skipLong {st : PState R} {n : Nat} (h : n ≤ st.rd.rest.length) :
    SoundAt cs w (skipLong n : Parse R Unit) st :=
  SoundAt.reads () (by simp only [Machine.skipLong, if_neg (Nat.not_lt.2 h)]) h

theorem Sound.elemU (he : Code.error ∈ cs) (n : Nat) (f : R → Nat → R) (hn : n ≤ 32 := by omega) :
    Sound cs w (elemU n f) := (Sound.getU he n hn).bind fun _ => Sound.put _

theorem Sound.elemFlag (he : Code.error ∈ cs) (f : R → Bool → R) : Sound cs w (elemFlag f) :=
  (Sound.getU he 1).bind fun _ => Sound.put _

theorem Sound.elemUe (he : Code.error ∈ cs) (f : R → Nat → R) : Sound cs w (elemUe f) :=
  (Sound.getUe he).bind fun _ => Sound.put _

theorem Sound.elemUeMax (he : Code.error ∈ cs) (m : Int) (f : R → Nat → R) : Sound cs w (elemUeMax m f) :=
  (Sound.getUe he).bind fun _ => (Sound.put _).bind fun _ => Sound.require he

theorem Sound.elemSe (he : Code.error ∈ cs) (f : R → Int → R) : Sound cs w (elemSe f) :=
  (Sound.getSe he).bind fun _ => Sound.put _

theorem Sound.elemSeRange (he : Code.error ∈ cs) (lo hi : Int) (f : R → Int → R) : Sound cs w (elemSeRange lo hi f) :=
  (Sound.getSe he).bind fun _ => (Sound.put _).bind fun _ => Sound.require he

/-! ## What a parse keeps of its record -/

/-- Whatever way it ends, the record has `P` if it had it. -/
def Preserves {R α : Type} (P : R → Prop) (m : Parse R α) : Prop := ∀ st, P st.out →
  match m st with
  | .ok _ e => P e.out
  | .error _ e => P e.out

variable {P : R → Prop}

theorem Preserves.bind {m : Parse R α} {k : α → Parse R β} (h1 : Preserves P m) (h2 : ∀ a, Preserves P (k a)) :
    Preserves P (m >>= k) := by
  intro st hp
  have h1 := h1 st hp
  cases hm : m st with
  | error c e => rw [Parse.bind_error hm]; rw [hm] at h1; exact h1
  | ok a e => rw [Parse.bind_ok hm]; rw [hm] at h1; exact h2 a e h1

theorem Preserves.pure (a : α) : Preserves P (pure a : Parse R α) := fun _ h => h

/-- `look` answers a record that has `P`. -/
theorem Preserves.look {k : R → Parse R α} (h : ∀ r, P r → Preserves P (k r)) : Preserves P (look >>= k) :=
  fun st hp => h st.out hp st hp

theorem Preserves.reader : Preserves P (reader : Parse R Reader) := fun _ h => h

theorem Preserves.moreData : Preserves P (moreData : Parse R Bool) := fun _ h => h

theorem Preserves.put {f : R → R} (h : ∀ r, P r → P (f r)) : Preserves P (put f) := fun st hp => h st.out hp

theorem Preserves.warnIf (b : Bool) : Preserves P (warnIf b : Parse R Unit) := fun _ h => h

theorem Preserves.require (b : Bool) (c : Code) : Preserves P (require b c : Parse R Unit) := by
  cases b <;> exact fun _ h => h

theorem Preserves.raise (c : Code) : Preserves P (raiseCode c : Parse R α) := fun _ h => h

theorem Preserves.whenever {b : Bool} {m : Parse R Unit} (h : Preserves P m) : Preserves P (Machine.whenever b m) := by
  cases b
  · exact Preserves.pure ()
  · exact h

theorem Preserves.ite {p : Prop} [Decidable p] {m k : Parse R α} (h1 : Preserves P m) (h2 : Preserves P k) :
    Preserves P (if p then m else k) := by
  split
  · exact h1
  · exact h2

/-- A sub-record's parse keeps `P` of the whole where `Q` of the sub-record is enough for it. -/
theorem Preserves.within {get : R → A} {set : R → A → R} {m : Parse A α} {Q : A → Prop} (h : Preserves Q m)
    (hg : ∀ r, P r → Q (get r)) (hs : ∀ r a, P r → Q a → P (set r a)) : Preserves P (within get set m) := by
  intro st hp
  have h := h { rd := st.rd, out := get st.out } (hg _ hp)
  cases hm : m { rd := st.rd, out := get st.out } with
  | ok a e => rw [hm] at h; simp only [Machine.within, hm]; exact hs _ _ hp h
  | error c e => rw [hm] at h; simp only [Machine.within, hm]; exact hs _ _ hp h

/-- A sub-record of which `P` says nothing. -/
theorem Preserves.withinAny {get : R → A} {set : R → A → R} {m : Parse A α} (hs : ∀ r a, P r → P (set r a)) :
    Preserves P (Machine.within get set m) := by
  intro st hp
  cases hm : m { rd := st.rd, out := get st.out } with
  | ok a e => simp only [Machine.within, hm]; exact hs _ _ hp
  | error c e => simp only [Machine.within, hm]; exact hs _ _ hp

theorem Preserves.loop {f : Nat → Parse R Unit} (k i : Nat) (h : ∀ j, i ≤ j → j < i + k → Preserves P (f j)) :
    Preserves P (loopFrom f k i) := by
  induction k generalizing i with
  | zero => exact Preserves.pure ()
  | succ k ih => exact (h i (by omega) (by omega)).bind fun _ => ih (i + 1) fun j a b => h j (by omega) (by omega)

theorem Preserves.getU (n : Nat) : Preserves P (getU n : Parse R Nat) := by
  intro st hp; cases h : readU n st.rd.rest <;> simp only [Machine.getU, h, Machine.readFailure] <;> exact hp

theorem Preserves.getUe : Preserves P (getUe : Parse R Nat) := by
  intro st hp; cases h : readUe st.rd.rest <;> simp only [Machine.getUe, h, Machine.readFailure] <;> exact hp

theorem Preserves.getSe : Preserves P (getSe : Parse R Int) := by
  intro st hp; cases h : readSe st.rd.rest <;> simp only [Machine.getSe, h, Machine.readFailure] <;> exact hp

theorem Preserves.skipLong (n : Nat) : Preserves P (skipLong n : Parse R Unit) := by
  intro st hp; by_cases h : st.rd.rest.length < n <;> simp only [Machine.skipLong, h, if_true, if_false, Machine.readFailure] <;> exact hp

theorem Preserves.elemU {n : Nat} {f : R → Nat → R} (h : ∀ r v, P r → P (f r v)) : Preserves P (elemU n f) :=
  (Preserves.getU n).bind fun v => Preserves.put fun r => h r v

theorem Preserves.elemFlag {f : R → Bool → R} (h : ∀ r v, P r → P (f r v)) : Preserves P (elemFlag f) :=
  (Preserves.getU 1).bind fun v => Preserves.put fun r => h r _

theorem Preserves.elemUe {f : R → Nat → R} (h : ∀ r v, P r → P (f r v)) : Preserves P (elemUe f) :=
  Preserves.getUe.bind fun v => Preserves.put fun r => h r v

theorem Preserves.elemUeMax {m : Int} {f : R → Nat → R} (h : ∀ r v, P r → P (f r v)) : Preserves P (elemUeMax m f) :=
  Preserves.getUe.bind fun v => (Preserves.put fun r => h r v).bind fun _ => Preserves.require _ _

theorem Preserves.elemSe {f : R → Int → R} (h : ∀ r v, P r → P (f r v)) : Preserves P (elemSe f) :=
  Preserves.getSe.bind fun v => Preserves.put fun r => h r v

theorem Preserves.elemSeRange {lo hi : Int} {f : R → Int → R} (h : ∀ r v, P r → P (f r v)) :
    Preserves P (elemSeRange lo hi f) :=
  Preserves.getSe.bind fun v => (Preserves.put fun r => h r v).bind fun _ => Preserves.require _ _

end Sys2Proof.Machine
end

