-- ==== Sys2Proof/Laws/ParseSound.lean ====
section
/-! SUPPORT. Sys2Proof/Laws/ParseSound.lean: every part of every parse is sound: it moves the reader over bits that
are there, ends with the codes of its rule, sets `BR_FAIL` only with `ERROR` and where a read can fail, and warns only
where it may. -/

namespace Sys2Proof.Machine

-- One theorem at a time: a thread for each, with check.sh's stack size, passes its memory limit.
set_option Elab.async false

variable {cs : List Code} {w : Bool}

theorem scalingEntries_sound (he : Code.error ∈ cs) (i k j last next : Nat) :
    Sound cs w (scalingEntries i k j last next) := by
  induction k generalizing j last next with
  | zero => exact Sound.pure ()
  | succ k ih =>
    unfold scalingEntries
    refine Sound.ite ((Sound.getSe he).bind fun _ => (Sound.require he).bind fun _ => Sound.ite (Sound.put _) ?_) ?_
    · exact (Sound.put _).bind fun _ => ih _ _ _
    · exact (Sound.put _).bind fun _ => ih _ _ _

theorem scalingMatrix_sound (he : Code.error ∈ cs) (n : Nat) (q : Option Lists) : Sound cs w (scalingMatrix n q) := by
  refine Sound.loop (fun i => ?_) _ _
  unfold scalingMatrixList
  exact Sound.ite ((Sound.getU he 1).bind fun _ => Sound.ite (scalingEntries_sound he _ _ _ _ _) (Sound.put _))
    ((Sound.pure 0).bind fun _ => Sound.ite (scalingEntries_sound he _ _ _ _ _) (Sound.put _))

theorem hrdEntry_sound (he : Code.error ∈ cs) (i : Nat) : Sound cs w (hrdEntry i) := by
  unfold hrdEntry
  with_reducible repeat' first
    | exact Sound.elemU he _ _ | exact Sound.elemFlag he _ | exact Sound.elemUe he _ | exact Sound.elemUeMax he _ _
    | exact Sound.elemSe he _ | exact Sound.elemSeRange he _ _ _ | exact Sound.put _ | exact Sound.pure _
    | exact Sound.look | exact Sound.require he | refine Sound.whenever ?_ | refine Sound.within ?_
    | refine Sound.ite ?_ ?_ | refine Sound.loop (fun _ => ?_) _ _ | refine Sound.bind ?_ fun _ => ?_

theorem hrdParameters_sound (he : Code.error ∈ cs) : Sound cs w hrdParameters := by
  unfold hrdParameters
  with_reducible repeat' first
    | exact hrdEntry_sound he _
    | exact Sound.elemU he _ _ | exact Sound.elemFlag he _ | exact Sound.elemUe he _ | exact Sound.elemUeMax he _ _
    | exact Sound.elemSe he _ | exact Sound.elemSeRange he _ _ _ | exact Sound.put _ | exact Sound.pure _
    | exact Sound.look | exact Sound.require he | refine Sound.whenever ?_ | refine Sound.within ?_
    | refine Sound.ite ?_ ?_ | refine Sound.loop (fun _ => ?_) _ _ | refine Sound.bind ?_ fun _ => ?_

theorem vuiAspect_sound (he : Code.error ∈ cs) : Sound cs w vuiAspect := by
  unfold vuiAspect
  with_reducible repeat' first
    | exact Sound.elemU he _ _ | exact Sound.elemFlag he _ | exact Sound.elemUe he _ | exact Sound.elemUeMax he _ _
    | exact Sound.elemSe he _ | exact Sound.elemSeRange he _ _ _ | exact Sound.put _ | exact Sound.pure _
    | exact Sound.look | exact Sound.require he | refine Sound.whenever ?_ | refine Sound.within ?_
    | refine Sound.ite ?_ ?_ | refine Sound.loop (fun _ => ?_) _ _ | refine Sound.bind ?_ fun _ => ?_

theorem vuiSignal_sound (he : Code.error ∈ cs) : Sound cs w vuiSignal := by
  unfold vuiSignal
  with_reducible repeat' first
    | exact Sound.elemU he _ _ | exact Sound.elemFlag he _ | exact Sound.elemUe he _ | exact Sound.elemUeMax he _ _
    | exact Sound.elemSe he _ | exact Sound.elemSeRange he _ _ _ | exact Sound.put _ | exact Sound.pure _
    | exact Sound.look | exact Sound.require he | refine Sound.whenever ?_ | refine Sound.within ?_
    | refine Sound.ite ?_ ?_ | refine Sound.loop (fun _ => ?_) _ _ | refine Sound.bind ?_ fun _ => ?_

theorem vuiTiming_sound (he : Code.error ∈ cs) : Sound cs true vuiTiming := by
  unfold vuiTiming
  with_reducible repeat' first
    | exact Sound.warnIf _
    | exact Sound.elemU he _ _ | exact Sound.elemFlag he _ | exact Sound.elemUe he _ | exact Sound.elemUeMax he _ _
    | exact Sound.elemSe he _ | exact Sound.elemSeRange he _ _ _ | exact Sound.put _ | exact Sound.pure _
    | exact Sound.look | exact Sound.require he | refine Sound.whenever ?_ | refine Sound.within ?_
    | refine Sound.ite ?_ ?_ | refine Sound.loop (fun _ => ?_) _ _ | refine Sound.bind ?_ fun _ => ?_

theorem vuiHrd_sound (he : Code.error ∈ cs) : Sound cs w vuiHrd := by
  unfold vuiHrd
  with_reducible repeat' first
    | exact hrdParameters_sound he
    | exact Sound.elemU he _ _ | exact Sound.elemFlag he _ | exact Sound.elemUe he _ | exact Sound.elemUeMax he _ _
    | exact Sound.elemSe he _ | exact Sound.elemSeRange he _ _ _ | exact Sound.put _ | exact Sound.pure _
    | exact Sound.look | exact Sound.require he | refine Sound.whenever ?_ | refine Sound.within ?_
    | refine Sound.ite ?_ ?_ | refine Sound.loop (fun _ => ?_) _ _ | refine Sound.bind ?_ fun _ => ?_

theorem vuiRestriction_sound (he : Code.error ∈ cs) : Sound cs w vuiRestriction := by
  unfold vuiRestriction
  with_reducible repeat' first
    | exact Sound.elemU he _ _ | exact Sound.elemFlag he _ | exact Sound.elemUe he _ | exact Sound.elemUeMax he _ _
    | exact Sound.elemSe he _ | exact Sound.elemSeRange he _ _ _ | exact Sound.put _ | exact Sound.pure _
    | exact Sound.look | exact Sound.require he | refine Sound.whenever ?_ | refine Sound.within ?_
    | refine Sound.ite ?_ ?_ | refine Sound.loop (fun _ => ?_) _ _ | refine Sound.bind ?_ fun _ => ?_

theorem vuiParameters_sound (he : Code.error ∈ cs) : Sound cs true vuiParameters :=
  (Sound.put _).bind fun _ => (vuiAspect_sound he).bind fun _ => (vuiSignal_sound he).bind fun _ =>
    (vuiTiming_sound he).bind fun _ => (vuiHrd_sound he).bind fun _ => vuiRestriction_sound he

theorem spsIdentity_sound (he : Code.error ∈ cs) : Sound cs w spsIdentity := by
  unfold spsIdentity
  with_reducible repeat' first
    | exact Sound.getU he _
    | exact Sound.elemU he _ _ | exact Sound.elemFlag he _ | exact Sound.elemUe he _ | exact Sound.elemUeMax he _ _
    | exact Sound.elemSe he _ | exact Sound.elemSeRange he _ _ _ | exact Sound.put _ | exact Sound.pure _
    | exact Sound.look | exact Sound.require he | refine Sound.whenever ?_ | refine Sound.within ?_
    | refine Sound.ite ?_ ?_ | refine Sound.loop (fun _ => ?_) _ _ | refine Sound.bind ?_ fun _ => ?_

theorem spsChroma_sound (he : Code.error ∈ cs) : Sound cs w spsChroma := by
  unfold spsChroma
  with_reducible repeat' first
    | exact scalingMatrix_sound he _ _
    | exact Sound.elemU he _ _ | exact Sound.elemFlag he _ | exact Sound.elemUe he _ | exact Sound.elemUeMax he _ _
    | exact Sound.elemSe he _ | exact Sound.elemSeRange he _ _ _ | exact Sound.put _ | exact Sound.pure _
    | exact Sound.look | exact Sound.require he | refine Sound.whenever ?_ | refine Sound.within ?_
    | refine Sound.ite ?_ ?_ | refine Sound.loop (fun _ => ?_) _ _ | refine Sound.bind ?_ fun _ => ?_

theorem offsetForRefFrame_sound (he : Code.error ∈ cs) (i : Nat) : Sound cs w (offsetForRefFrame i) := by
  unfold offsetForRefFrame
  with_reducible repeat' first
    | exact Sound.elemU he _ _ | exact Sound.elemFlag he _ | exact Sound.elemUe he _ | exact Sound.elemUeMax he _ _
    | exact Sound.elemSe he _ | exact Sound.elemSeRange he _ _ _ | exact Sound.put _ | exact Sound.pure _
    | exact Sound.look | exact Sound.require he | refine Sound.whenever ?_ | refine Sound.within ?_
    | refine Sound.ite ?_ ?_ | refine Sound.loop (fun _ => ?_) _ _ | refine Sound.bind ?_ fun _ => ?_

theorem spsPicOrderCount_sound (he : Code.error ∈ cs) : Sound cs w spsPicOrderCount := by
  unfold spsPicOrderCount
  with_reducible repeat' first
    | exact offsetForRefFrame_sound he _
    | exact Sound.elemU he _ _ | exact Sound.elemFlag he _ | exact Sound.elemUe he _ | exact Sound.elemUeMax he _ _
    | exact Sound.elemSe he _ | exact Sound.elemSeRange he _ _ _ | exact Sound.put _ | exact Sound.pure _
    | exact Sound.look | exact Sound.require he | refine Sound.whenever ?_ | refine Sound.within ?_
    | refine Sound.ite ?_ ?_ | refine Sound.loop (fun _ => ?_) _ _ | refine Sound.bind ?_ fun _ => ?_

theorem spsFrame_sound (he : Code.error ∈ cs) : Sound cs w spsFrame := by
  unfold spsFrame
  with_reducible repeat' first
    | exact spsPicOrderCount_sound he
    | exact Sound.elemU he _ _ | exact Sound.elemFlag he _ | exact Sound.elemUe he _ | exact Sound.elemUeMax he _ _
    | exact Sound.elemSe he _ | exact Sound.elemSeRange he _ _ _ | exact Sound.put _ | exact Sound.pure _
    | exact Sound.look | exact Sound.require he | refine Sound.whenever ?_ | refine Sound.within ?_
    | refine Sound.ite ?_ ?_ | refine Sound.loop (fun _ => ?_) _ _ | refine Sound.bind ?_ fun _ => ?_

theorem spsData_sound (he : Code.error ∈ cs) (v : Bool) : Sound cs v (spsData v) := by
  unfold spsData
  refine (spsIdentity_sound he).bind fun _ => (spsChroma_sound he).bind fun _ => (spsFrame_sound he).bind fun _ =>
    Sound.look.bind fun _ => Sound.wheneverTrue fun h => Sound.within ?_
  obtain rfl : v = true := by simp at h; exact h.2
  exact vuiParameters_sound he

theorem spsDerivations_sound (he : Code.error ∈ cs) : Sound cs w spsDerivations := by
  unfold spsDerivations
  with_reducible repeat' first
    | exact Sound.elemU he _ _ | exact Sound.elemFlag he _ | exact Sound.elemUe he _ | exact Sound.elemUeMax he _ _
    | exact Sound.elemSe he _ | exact Sound.elemSeRange he _ _ _ | exact Sound.put _ | exact Sound.pure _
    | exact Sound.look | exact Sound.require he | refine Sound.whenever ?_ | refine Sound.within ?_
    | refine Sound.ite ?_ ?_ | refine Sound.loop (fun _ => ?_) _ _ | refine Sound.bind ?_ fun _ => ?_

theorem mvcRefs_sound (he : Code.error ∈ cs) (wn : MvcView → Nat → MvcView) (n : MvcView → Nat)
    (wr : MvcView → Nat → Nat → MvcView) : Sound cs w (mvcRefs wn n wr) :=
  (Sound.elemUeMax he _ _).bind fun _ => Sound.look.bind fun _ => Sound.loop (fun _ => Sound.elemUeMax he _ _) _ _

theorem inView_sound {m : Parse MvcView Unit} (h : Sound cs w m) (i : Nat) : Sound cs w (inView m i) := Sound.within h

theorem mvcAnchorRefs_sound (he : Code.error ∈ cs) : Sound cs w mvcAnchorRefs :=
  (mvcRefs_sound he _ _ _).bind fun _ => mvcRefs_sound he _ _ _

theorem mvcNonAnchorRefs_sound (he : Code.error ∈ cs) : Sound cs w mvcNonAnchorRefs :=
  (mvcRefs_sound he _ _ _).bind fun _ => mvcRefs_sound he _ _ _

theorem mvcOp_sound (he : Code.error ∈ cs) (j : Nat) : Sound cs w (mvcOp j) := by
  unfold mvcOp
  with_reducible repeat' first
    | exact Sound.elemU he _ _ | exact Sound.elemFlag he _ | exact Sound.elemUe he _ | exact Sound.elemUeMax he _ _
    | exact Sound.elemSe he _ | exact Sound.elemSeRange he _ _ _ | exact Sound.put _ | exact Sound.pure _
    | exact Sound.look | exact Sound.require he | refine Sound.whenever ?_ | refine Sound.within ?_
    | refine Sound.ite ?_ ?_ | refine Sound.loop (fun _ => ?_) _ _ | refine Sound.bind ?_ fun _ => ?_

theorem mvcLevel_sound (he : Code.error ∈ cs) (i : Nat) : Sound cs w (mvcLevel i) := by
  unfold mvcLevel
  with_reducible repeat' first
    | exact mvcOp_sound he _
    | exact Sound.elemU he _ _ | exact Sound.elemFlag he _ | exact Sound.elemUe he _ | exact Sound.elemUeMax he _ _
    | exact Sound.elemSe he _ | exact Sound.elemSeRange he _ _ _ | exact Sound.put _ | exact Sound.pure _
    | exact Sound.look | exact Sound.require he | refine Sound.whenever ?_ | refine Sound.within ?_
    | refine Sound.ite ?_ ?_ | refine Sound.loop (fun _ => ?_) _ _ | refine Sound.bind ?_ fun _ => ?_

theorem mvcExtension_sound (he : Code.error ∈ cs) : Sound cs w mvcExtension := by
  unfold mvcExtension
  with_reducible repeat' first
    | exact mvcLevel_sound he _ | exact inView_sound (mvcAnchorRefs_sound he) _ | exact inView_sound (mvcNonAnchorRefs_sound he) _ | exact inView_sound (Sound.elemUeMax he _ _) _
    | exact Sound.elemU he _ _ | exact Sound.elemFlag he _ | exact Sound.elemUe he _ | exact Sound.elemUeMax he _ _
    | exact Sound.elemSe he _ | exact Sound.elemSeRange he _ _ _ | exact Sound.put _ | exact Sound.pure _
    | exact Sound.look | exact Sound.require he | refine Sound.whenever ?_ | refine Sound.within ?_
    | refine Sound.ite ?_ ?_ | refine Sound.loop (fun _ => ?_) _ _ | refine Sound.bind ?_ fun _ => ?_

theorem subsetBody_sound (he : Code.error ∈ cs) : Sound cs w subsetBody := by
  unfold subsetBody
  with_reducible repeat' first
    | exact mvcExtension_sound he | exact Sound.getU he _
    | exact Sound.elemU he _ _ | exact Sound.elemFlag he _ | exact Sound.elemUe he _ | exact Sound.elemUeMax he _ _
    | exact Sound.elemSe he _ | exact Sound.elemSeRange he _ _ _ | exact Sound.put _ | exact Sound.pure _
    | exact Sound.look | exact Sound.require he | refine Sound.whenever ?_ | refine Sound.within ?_
    | refine Sound.ite ?_ ?_ | refine Sound.loop (fun _ => ?_) _ _ | refine Sound.bind ?_ fun _ => ?_

theorem spsSyntax_sound (he : Code.error ∈ cs) (v : Bool) : Sound cs v (spsSyntax v) :=
  (spsData_sound he v).bind fun _ => (spsDerivations_sound he).bind fun _ => Sound.put _

theorem subsetSpsSyntax_sound (he : Code.error ∈ cs) : Sound cs true subsetSpsSyntax :=
  (spsData_sound he true).bind fun _ => (subsetBody_sound he).bind fun _ =>
    (spsDerivations_sound he).bind fun _ => Sound.put _

/-! ## PPS -/

theorem log2_le {x n : Nat} (h : x < 2 ^ (n + 1)) : x.log2 ≤ n := by
  rcases Nat.eq_zero_or_pos x with rfl | hx
  · simp
  · have := (Nat.log2_lt (by omega)).2 h; omega

/-- Slice-group ids have at most 3 bits (R243). -/
theorem idWidth_le (x : BitVec 3) : ceilLog2 (x.toNat + 1) ≤ 32 := by
  unfold ceilLog2
  split
  · omega
  · have := @log2_le (x.toNat + 1 - 1) 2 (by have := x.isLt; omega)
    omega

theorem ppsSliceGroupIds_sound (he : Code.error ∈ cs) (n : Nat) : Sound cs w (ppsSliceGroupIds n) :=
  (Sound.elemUe he _).bind fun _ => Sound.look.bind fun r => (Sound.require he).bind fun _ =>
    Sound.loop (fun _ => Sound.elemU he _ _ (idWidth_le r.num_slice_groups_minus1)) _ _

theorem ppsRectangle_sound (he : Code.error ∈ cs) (g : Nat) : Sound cs w (ppsRectangle g) := by
  unfold ppsRectangle
  with_reducible repeat' first
    | exact Sound.elemU he _ _ | exact Sound.elemFlag he _ | exact Sound.elemUe he _ | exact Sound.elemUeMax he _ _
    | exact Sound.elemSe he _ | exact Sound.elemSeRange he _ _ _ | exact Sound.put _ | exact Sound.pure _
    | exact Sound.look | exact Sound.require he | refine Sound.whenever ?_ | refine Sound.within ?_
    | refine Sound.ite ?_ ?_ | refine Sound.loop (fun _ => ?_) _ _ | refine Sound.bind ?_ fun _ => ?_

theorem ppsSliceGroups_sound (he : Code.error ∈ cs) (n : Nat) : Sound cs w (ppsSliceGroups n) := by
  unfold ppsSliceGroups
  with_reducible repeat' first
    | exact ppsSliceGroupIds_sound he _ | exact ppsRectangle_sound he _
    | exact Sound.elemU he _ _ | exact Sound.elemFlag he _ | exact Sound.elemUe he _ | exact Sound.elemUeMax he _ _
    | exact Sound.elemSe he _ | exact Sound.elemSeRange he _ _ _ | exact Sound.put _ | exact Sound.pure _
    | exact Sound.look | exact Sound.require he | refine Sound.whenever ?_ | refine Sound.within ?_
    | refine Sound.ite ?_ ?_ | refine Sound.loop (fun _ => ?_) _ _ | refine Sound.bind ?_ fun _ => ?_

theorem ppsBody_sound (he : Code.error ∈ cs) (n : Nat) (q : Sps) : Sound cs w (ppsBody n q) := by
  unfold ppsBody
  with_reducible repeat' first
    | exact ppsSliceGroups_sound he _
    | exact Sound.elemU he _ _ | exact Sound.elemFlag he _ | exact Sound.elemUe he _ | exact Sound.elemUeMax he _ _
    | exact Sound.elemSe he _ | exact Sound.elemSeRange he _ _ _ | exact Sound.put _ | exact Sound.pure _
    | exact Sound.look | exact Sound.require he | refine Sound.whenever ?_ | refine Sound.within ?_
    | refine Sound.ite ?_ ?_ | refine Sound.loop (fun _ => ?_) _ _ | refine Sound.bind ?_ fun _ => ?_

theorem ppsTail_sound (he : Code.error ∈ cs) (q : Sps) : Sound cs w (ppsTail q) := by
  unfold ppsTail
  with_reducible repeat' first
    | exact scalingMatrix_sound he _ _ | exact Sound.moreData
    | exact Sound.elemU he _ _ | exact Sound.elemFlag he _ | exact Sound.elemUe he _ | exact Sound.elemUeMax he _ _
    | exact Sound.elemSe he _ | exact Sound.elemSeRange he _ _ _ | exact Sound.put _ | exact Sound.pure _
    | exact Sound.look | exact Sound.require he | refine Sound.whenever ?_ | refine Sound.within ?_
    | refine Sound.ite ?_ ?_ | refine Sound.loop (fun _ => ?_) _ _ | refine Sound.bind ?_ fun _ => ?_

theorem ppsSyntax_sound (he : Code.error ∈ cs) (hl : Code.brokenLink ∈ cs) (n : Nat) (t : Table Sps) :
    Sound cs w (ppsSyntax n t) :=
  (Sound.elemUeMax he _ _).bind fun _ => (Sound.elemUeMax he _ _).bind fun _ => Sound.look.bind fun _ =>
    (Sound.require hl).bind fun _ => (Sound.put _).bind fun _ => (ppsBody_sound he _ _).bind fun _ =>
    (ppsTail_sound he _).bind fun _ => Sound.put _

/-! ## Slice header -/

theorem rplmLoop_sound (he : Code.error ∈ cs) (mvc : Bool) (m room n : Nat) : Sound cs w (rplmLoop mvc m room n) := by
  induction room generalizing n with
  | zero =>
    unfold rplmLoop
    exact (Sound.getUe he).bind fun _ => (Sound.require he).bind fun _ => Sound.ite (Sound.put _)
      ((Sound.require he).bind fun _ => Sound.raise he)
  | succ room ih =>
    unfold rplmLoop
    exact (Sound.getUe he).bind fun _ => (Sound.require he).bind fun _ => Sound.ite (Sound.put _)
      ((Sound.require he).bind fun _ => (Sound.getUe he).bind fun _ => (Sound.require he).bind fun _ =>
        (Sound.put _).bind fun _ => ih _)

theorem rplmList_sound (he : Code.error ∈ cs) (mvc : Bool) (m : Nat) : Sound cs w (rplmList mvc m) :=
  (Sound.elemFlag he _).bind fun _ => Sound.look.bind fun _ => Sound.whenever (rplmLoop_sound he _ _ _ _)

theorem ueWhere_sound {R : Type} (he : Code.error ∈ cs) (b : Bool) : Sound cs w (ueWhere b : Parse R Nat) :=
  Sound.ite (Sound.getUe he) (Sound.pure 0)

theorem mmcoLoop_sound (he : Code.error ∈ cs) (room n : Nat) : Sound cs w (mmcoLoop room n) := by
  induction room generalizing n with
  | zero =>
    unfold mmcoLoop
    exact (Sound.getUe he).bind fun _ => (Sound.require he).bind fun _ => Sound.ite (Sound.put _) (Sound.raise he)
  | succ room ih =>
    unfold mmcoLoop
    exact (Sound.getUe he).bind fun _ => (Sound.require he).bind fun _ => Sound.ite (Sound.put _)
      ((ueWhere_sound he _).bind fun _ => (ueWhere_sound he _).bind fun _ => (ueWhere_sound he _).bind fun _ =>
        (ueWhere_sound he _).bind fun _ => (Sound.put _).bind fun _ => ih _)

theorem refPicMarking_sound (he : Code.error ∈ cs) (b : Bool) : Sound cs w (refPicMarking b) := by
  unfold refPicMarking
  with_reducible repeat' first
    | exact mmcoLoop_sound he _ _
    | exact Sound.elemU he _ _ | exact Sound.elemFlag he _ | exact Sound.elemUe he _ | exact Sound.elemUeMax he _ _
    | exact Sound.elemSe he _ | exact Sound.elemSeRange he _ _ _ | exact Sound.put _ | exact Sound.pure _
    | exact Sound.look | exact Sound.require he | refine Sound.whenever ?_ | refine Sound.within ?_
    | refine Sound.ite ?_ ?_ | refine Sound.loop (fun _ => ?_) _ _ | refine Sound.bind ?_ fun _ => ?_

theorem pwtChroma_sound (he : Code.error ∈ cs) (i j : Nat) : Sound cs w (pwtChroma i j) := by
  unfold pwtChroma
  with_reducible repeat' first
    | exact Sound.elemU he _ _ | exact Sound.elemFlag he _ | exact Sound.elemUe he _ | exact Sound.elemUeMax he _ _
    | exact Sound.elemSe he _ | exact Sound.elemSeRange he _ _ _ | exact Sound.put _ | exact Sound.pure _
    | exact Sound.look | exact Sound.require he | refine Sound.whenever ?_ | refine Sound.within ?_
    | refine Sound.ite ?_ ?_ | refine Sound.loop (fun _ => ?_) _ _ | refine Sound.bind ?_ fun _ => ?_

theorem pwtEntry_sound (he : Code.error ∈ cs) (c : Bool) (i : Nat) : Sound cs w (pwtEntry c i) := by
  unfold pwtEntry
  with_reducible repeat' first
    | exact Sound.getU he _ | exact pwtChroma_sound he _ _
    | exact Sound.elemU he _ _ | exact Sound.elemFlag he _ | exact Sound.elemUe he _ | exact Sound.elemUeMax he _ _
    | exact Sound.elemSe he _ | exact Sound.elemSeRange he _ _ _ | exact Sound.put _ | exact Sound.pure _
    | exact Sound.look | exact Sound.require he | refine Sound.whenever ?_ | refine Sound.within ?_
    | refine Sound.ite ?_ ?_ | refine Sound.loop (fun _ => ?_) _ _ | refine Sound.bind ?_ fun _ => ?_

theorem pwtList_sound (he : Code.error ∈ cs) (l c : Nat) (b : Bool) (n : Nat) : Sound cs w (pwtList l c b n) :=
  (Sound.loop (fun _ => Sound.put _) _ _).bind fun _ => Sound.loop (fun _ => pwtEntry_sound he _ _) _ _

theorem predWeightTable_sound (he : Code.error ∈ cs) (c b : Bool) (m n : Nat) : Sound cs w (predWeightTable c b m n) := by
  unfold predWeightTable
  with_reducible repeat' first
    | exact pwtList_sound he _ _ _ _
    | exact Sound.elemU he _ _ | exact Sound.elemFlag he _ | exact Sound.elemUe he _ | exact Sound.elemUeMax he _ _
    | exact Sound.elemSe he _ | exact Sound.elemSeRange he _ _ _ | exact Sound.put _ | exact Sound.pure _
    | exact Sound.look | exact Sound.require he | refine Sound.whenever ?_ | refine Sound.within ?_
    | refine Sound.ite ?_ ?_ | refine Sound.loop (fun _ => ?_) _ _ | refine Sound.bind ?_ fun _ => ?_

theorem sliceFrameNum_sound (he : Code.error ∈ cs) (q : Sps) : Sound cs w (sliceFrameNum q) := by
  unfold sliceFrameNum
  with_reducible repeat' first
    | exact Sound.elemU he _ _ | exact Sound.elemFlag he _ | exact Sound.elemUe he _ | exact Sound.elemUeMax he _ _
    | exact Sound.elemSe he _ | exact Sound.elemSeRange he _ _ _ | exact Sound.put _ | exact Sound.pure _
    | exact Sound.look | exact Sound.require he | refine Sound.whenever ?_ | refine Sound.within ?_
    | refine Sound.ite ?_ ?_ | refine Sound.loop (fun _ => ?_) _ _ | refine Sound.bind ?_ fun _ => ?_

theorem slicePicOrder_sound (he : Code.error ∈ cs) (n : Nalu) (p : Pps) (q : Sps) : Sound cs w (slicePicOrder n p q) := by
  unfold slicePicOrder
  with_reducible repeat' first
    | exact Sound.elemU he _ _ | exact Sound.elemFlag he _ | exact Sound.elemUe he _ | exact Sound.elemUeMax he _ _
    | exact Sound.elemSe he _ | exact Sound.elemSeRange he _ _ _ | exact Sound.put _ | exact Sound.pure _
    | exact Sound.look | exact Sound.require he | refine Sound.whenever ?_ | refine Sound.within ?_
    | refine Sound.ite ?_ ?_ | refine Sound.loop (fun _ => ?_) _ _ | refine Sound.bind ?_ fun _ => ?_

theorem sliceRefCounts_sound (he : Code.error ∈ cs) (p : Pps) : Sound cs w (sliceRefCounts p) := by
  unfold sliceRefCounts
  with_reducible repeat' first
    | exact Sound.elemU he _ _ | exact Sound.elemFlag he _ | exact Sound.elemUe he _ | exact Sound.elemUeMax he _ _
    | exact Sound.elemSe he _ | exact Sound.elemSeRange he _ _ _ | exact Sound.put _ | exact Sound.pure _
    | exact Sound.look | exact Sound.require he | refine Sound.whenever ?_ | refine Sound.within ?_
    | refine Sound.ite ?_ ?_ | refine Sound.loop (fun _ => ?_) _ _ | refine Sound.bind ?_ fun _ => ?_

theorem sliceModification_sound (he : Code.error ∈ cs) (n : Nalu) : Sound cs w (sliceModification n) := by
  unfold sliceModification
  with_reducible repeat' first
    | exact rplmList_sound he _ _
    | exact Sound.elemU he _ _ | exact Sound.elemFlag he _ | exact Sound.elemUe he _ | exact Sound.elemUeMax he _ _
    | exact Sound.elemSe he _ | exact Sound.elemSeRange he _ _ _ | exact Sound.put _ | exact Sound.pure _
    | exact Sound.look | exact Sound.require he | refine Sound.whenever ?_ | refine Sound.within ?_
    | refine Sound.ite ?_ ?_ | refine Sound.loop (fun _ => ?_) _ _ | refine Sound.bind ?_ fun _ => ?_

theorem sliceWeights_sound (he : Code.error ∈ cs) (p : Pps) (q : Sps) : Sound cs w (sliceWeights p q) := by
  unfold sliceWeights
  with_reducible repeat' first
    | exact predWeightTable_sound he _ _ _ _
    | exact Sound.elemU he _ _ | exact Sound.elemFlag he _ | exact Sound.elemUe he _ | exact Sound.elemUeMax he _ _
    | exact Sound.elemSe he _ | exact Sound.elemSeRange he _ _ _ | exact Sound.put _ | exact Sound.pure _
    | exact Sound.look | exact Sound.require he | refine Sound.whenever ?_ | refine Sound.within ?_
    | refine Sound.ite ?_ ?_ | refine Sound.loop (fun _ => ?_) _ _ | refine Sound.bind ?_ fun _ => ?_

theorem sliceQuant_sound (he : Code.error ∈ cs) (p : Pps) : Sound cs w (sliceQuant p) := by
  unfold sliceQuant
  with_reducible repeat' first
    | exact Sound.elemU he _ _ | exact Sound.elemFlag he _ | exact Sound.elemUe he _ | exact Sound.elemUeMax he _ _
    | exact Sound.elemSe he _ | exact Sound.elemSeRange he _ _ _ | exact Sound.put _ | exact Sound.pure _
    | exact Sound.look | exact Sound.require he | refine Sound.whenever ?_ | refine Sound.within ?_
    | refine Sound.ite ?_ ?_ | refine Sound.loop (fun _ => ?_) _ _ | refine Sound.bind ?_ fun _ => ?_

theorem sliceChangeCycle_sound (he : Code.error ∈ cs) (p : Pps) (q : Sps) : Sound cs w (sliceChangeCycle p q) :=
  Sound.whenever <| Sound.required he fun h => Sound.elemU he _ _ (of_decide_eq_true h)

theorem sliceHeader_sound (he : Code.error ∈ cs) (n : Nalu) (p : Pps) (q : Sps) : Sound cs w (sliceHeader n p q) :=
  (sliceFrameNum_sound he q).bind fun _ => (slicePicOrder_sound he n p q).bind fun _ =>
    (sliceRefCounts_sound he p).bind fun _ => (sliceModification_sound he n).bind fun _ =>
    (sliceWeights_sound he p q).bind fun _ =>
    (Sound.whenever (Sound.within (refPicMarking_sound he _))).bind fun _ => (sliceQuant_sound he p).bind fun _ =>
    sliceChangeCycle_sound he p q

theorem sliceSyntax_sound (he : Code.error ∈ cs) (hl : Code.brokenLink ∈ cs) (hd : Code.brokenData ∈ cs) (n : Nalu)
    (t : Table Sps) (u : Table Pps) (st : Stream) : Sound cs w (sliceSyntax n t u st) :=
  (Sound.elemUe he _).bind fun _ => (Sound.elemUeMax he _ _).bind fun _ => (Sound.elemUeMax he _ _).bind fun _ =>
    Sound.look.bind fun _ => (Sound.require hl).bind fun _ => (Sound.require hl).bind fun _ =>
    (Sound.require hd).bind fun _ => (sliceHeader_sound he _ _ _).bind fun _ => Sound.reader.bind fun _ => Sound.put _

/-! ## SEI -/

theorem bpDelays_sound (he : Code.error ∈ cs) (h : Hrd) (a b : BufferingPeriod → Nat → Nat → BufferingPeriod) : Sound cs w (bpDelays h a b) := by
  unfold bpDelays
  with_reducible repeat' first
    | exact Sound.elemU he _ _ | exact Sound.elemFlag he _ | exact Sound.elemUe he _ | exact Sound.elemUeMax he _ _
    | exact Sound.elemSe he _ | exact Sound.elemSeRange he _ _ _ | exact Sound.put _ | exact Sound.pure _
    | exact Sound.look | exact Sound.require he | refine Sound.whenever ?_ | refine Sound.within ?_
    | refine Sound.ite ?_ ?_ | refine Sound.loop (fun _ => ?_) _ _ | refine Sound.bind ?_ fun _ => ?_

theorem bufferingPeriod_sound (he : Code.error ∈ cs) (hl : Code.brokenLink ∈ cs) (t : Table Sps) :
    Sound cs w (bufferingPeriod t) :=
  (Sound.elemUeMax he _ _).bind fun _ => Sound.look.bind fun _ => (Sound.require hl).bind fun _ =>
    (Sound.whenever (bpDelays_sound he _ _ _)).bind fun _ => Sound.whenever (bpDelays_sound he _ _ _)

theorem clockTimestamp_sound (he : Code.error ∈ cs) {n : Nat} (hn : n ≤ 32) : Sound cs w (clockTimestamp n) := by
  unfold clockTimestamp
  with_reducible repeat' first
    | exact Sound.elemU he _ _ | exact Sound.elemFlag he _ | exact Sound.elemUe he _ | exact Sound.elemUeMax he _ _
    | exact Sound.elemSe he _ | exact Sound.elemSeRange he _ _ _ | exact Sound.put _ | exact Sound.pure _
    | exact Sound.look | exact Sound.require he | refine Sound.whenever ?_ | refine Sound.within ?_
    | refine Sound.ite ?_ ?_ | refine Sound.loop (fun _ => ?_) _ _ | refine Sound.bind ?_ fun _ => ?_

theorem ptTimestamp_sound (he : Code.error ∈ cs) {n : Nat} (hn : n ≤ 32) (i : Nat) : Sound cs w (ptTimestamp n i) := by
  unfold ptTimestamp
  with_reducible repeat' first
    | exact clockTimestamp_sound he hn
    | exact Sound.elemU he _ _ | exact Sound.elemFlag he _ | exact Sound.elemUe he _ | exact Sound.elemUeMax he _ _
    | exact Sound.elemSe he _ | exact Sound.elemSeRange he _ _ _ | exact Sound.put _ | exact Sound.pure _
    | exact Sound.look | exact Sound.require he | refine Sound.whenever ?_ | refine Sound.within ?_
    | refine Sound.ite ?_ ?_ | refine Sound.loop (fun _ => ?_) _ _ | refine Sound.bind ?_ fun _ => ?_

theorem ptDelays_sound (he : Code.error ∈ cs) (h : Option Hrd) : Sound cs w (ptDelays h) := by
  cases h with
  | none => exact Sound.pure ()
  | some h => exact (Sound.elemU he _ _).bind fun _ => Sound.elemU he _ _

theorem timeOffsetLength_le (h : Option Hrd) : timeOffsetLength h ≤ 32 := by
  cases h with
  | none => exact Nat.le_of_ble_eq_true rfl
  | some h => have := h.time_offset_length.isLt; simp only [timeOffsetLength]; omega

theorem picTiming_sound (he : Code.error ∈ cs) (hl : Code.brokenLink ∈ cs) (t : Table Sps) (l : BitVec 6) :
    Sound cs w (picTiming t l) :=
  (Sound.require hl).bind fun _ => (ptDelays_sound he _).bind fun _ => Sound.whenever <|
    (Sound.elemU he _ _).bind fun _ => Sound.look.bind fun _ => (Sound.require he).bind fun _ =>
    Sound.loop (fun _ => ptTimestamp_sound he (timeOffsetLength_le _) _) _ _

theorem recoveryPoint_sound (he : Code.error ∈ cs) (hl : Code.brokenLink ∈ cs) (t : Table Sps) (l : BitVec 6) :
    Sound cs w (recoveryPoint t l) :=
  (Sound.require hl).bind fun _ => (Sound.elemUeMax he _ _).bind fun _ => (Sound.elemFlag he _).bind fun _ =>
    (Sound.elemFlag he _).bind fun _ => Sound.elemU he _ _

theorem stereoVideo_sound (he : Code.error ∈ cs) : Sound cs w stereoVideo := by
  unfold stereoVideo
  with_reducible repeat' first
    | exact Sound.elemU he _ _ | exact Sound.elemFlag he _ | exact Sound.elemUe he _ | exact Sound.elemUeMax he _ _
    | exact Sound.elemSe he _ | exact Sound.elemSeRange he _ _ _ | exact Sound.put _ | exact Sound.pure _
    | exact Sound.look | exact Sound.require he | refine Sound.whenever ?_ | refine Sound.within ?_
    | refine Sound.ite ?_ ?_ | refine Sound.loop (fun _ => ?_) _ _ | refine Sound.bind ?_ fun _ => ?_

theorem fpaArrangement_sound (he : Code.error ∈ cs) : Sound cs w fpaArrangement := by
  unfold fpaArrangement
  with_reducible repeat' first
    | exact Sound.elemU he _ _ | exact Sound.elemFlag he _ | exact Sound.elemUe he _ | exact Sound.elemUeMax he _ _
    | exact Sound.elemSe he _ | exact Sound.elemSeRange he _ _ _ | exact Sound.put _ | exact Sound.pure _
    | exact Sound.look | exact Sound.require he | refine Sound.whenever ?_ | refine Sound.within ?_
    | refine Sound.ite ?_ ?_ | refine Sound.loop (fun _ => ?_) _ _ | refine Sound.bind ?_ fun _ => ?_

theorem fpaFields_sound (he : Code.error ∈ cs) : Sound cs w fpaFields := by
  unfold fpaFields
  with_reducible repeat' first
    | exact fpaArrangement_sound he
    | exact Sound.elemU he _ _ | exact Sound.elemFlag he _ | exact Sound.elemUe he _ | exact Sound.elemUeMax he _ _
    | exact Sound.elemSe he _ | exact Sound.elemSeRange he _ _ _ | exact Sound.put _ | exact Sound.pure _
    | exact Sound.look | exact Sound.require he | refine Sound.whenever ?_ | refine Sound.within ?_
    | refine Sound.ite ?_ ?_ | refine Sound.loop (fun _ => ?_) _ _ | refine Sound.bind ?_ fun _ => ?_

/-- The bits to skip are there: the arrangement has used some of the `bits` that stood after `start`. -/
theorem framePacking_sound (he : Code.error ∈ cs) {bits : Nat} {st : PState FramePacking} (hb : bits ≤ st.rd.rest.length) :
    SoundAt cs w (framePacking st.rd.p bits) st := by
  have h := fpaFields_sound (w := w) he st
  refine h.bind fun _ e he' => ?_
  unfold SoundAt at h; rw [he'] at h
  obtain ⟨⟨k, hk, hr, hp⟩, -⟩ := h
  refine (Sound.look e).bind fun r e1 h1 => ?_
  obtain ⟨rfl, rfl⟩ : r = e.out ∧ e1 = e := by cases h1; exact ⟨rfl, rfl⟩
  cases e1.out.extension_flag
  · exact Sound.pure () _
  refine (Sound.reader _).bind fun rd e2 h2 => ?_
  obtain ⟨rfl, rfl⟩ : rd = e1.rd ∧ e2 = e1 := by cases h2; exact ⟨rfl, rfl⟩
  refine (Sound.require he _).bind fun _ e3 h3 => ?_
  unfold require at h3
  split at h3
  · rename_i hu
    cases h3
    have hu := of_decide_eq_true hu
    exact SoundAt.skipLong (by rw [hr, List.length_drop]; omega)
  · cases h3

theorem codeSum_sound (he : Code.error ∈ cs) (k acc : Nat) : Sound cs w (codeSum k acc) := by
  induction k generalizing acc with
  | zero => exact (Sound.getU he 8).bind fun _ => Sound.pure _
  | succ k ih => exact (Sound.getU he 8).bind fun _ => Sound.ite (ih _) (Sound.pure _)

theorem seiCode_sound (he : Code.error ∈ cs) : Sound cs w seiCode := Sound.reader.bind fun _ => codeSum_sound he _ _

theorem seiPayload_sound (he : Code.error ∈ cs) (hl : Code.brokenLink ∈ cs) (t : Table Sps) (l : BitVec 6) (n : Nat)
    {bits : Nat} {st : PState SeiMsg} (hb : bits ≤ st.rd.rest.length) :
    SoundAt cs w (seiPayload t l st.rd.p bits n) st := by
  unfold seiPayload
  have kind (k : SeiKind) {m : Parse SeiMsg Unit} (hm : ∀ e : PState SeiMsg, e.rd = st.rd → SoundAt cs w m e) :
      SoundAt cs w (put (fun r => { r with kind := k }) >>= fun _ => m) st :=
    (Sound.put _ st).bind fun _ e h => hm e (by cases h; rfl)
  split
  · exact kind _ fun e _ => SoundAt.within (bufferingPeriod_sound he hl _ _)
  split
  · exact kind _ fun e _ => SoundAt.within (picTiming_sound he hl _ _ _)
  split
  · exact kind _ fun e _ => SoundAt.within (recoveryPoint_sound he hl _ _ _)
  split
  · exact kind _ fun e _ => SoundAt.within (stereoVideo_sound he _)
  split
  · refine kind _ fun e h => SoundAt.within ?_
    rw [← h] at hb ⊢
    exact framePacking_sound (st := { rd := e.rd, out := e.out.fpa }) he hb
  · exact kind _ fun e h => SoundAt.skipLong (by rw [h]; exact hb)

theorem padBits_sound (he : Code.error ∈ cs) (k : Nat) : Sound cs true (padBits k) := by
  induction k with
  | zero => exact Sound.pure ()
  | succ k ih => exact (Sound.getU he 1).bind fun _ => (Sound.warnIf _).bind fun _ => ih

theorem trailingAlignment_sound (he : Code.error ∈ cs) : Sound cs true trailingAlignment := by
  refine Sound.reader.bind fun r => ?_
  cases bitsToAlign r.p with
  | zero => exact Sound.pure ()
  | succ k => exact (Sound.getU he 1).bind fun _ => (Sound.warnIf _).bind fun _ => padBits_sound he k

theorem seiMessage_sound (he : Code.error ∈ cs) (hl : Code.brokenLink ∈ cs) (t : Table Sps) (l : BitVec 6) :
    Sound cs true (seiMessage t l) :=
  (seiCode_sound he).bind fun _ => (Sound.require he).bind fun _ => (seiCode_sound he).bind fun _ =>
    (Sound.require he).bind fun _ => (Sound.put _).bind fun _ => fun st => (Sound.reader st).bind fun rd e h => by
      obtain ⟨rfl, rfl⟩ : rd = st.rd ∧ e = st := by cases h; exact ⟨rfl, rfl⟩
      exact (seiPayload_sound he hl _ _ _ (Nat.min_le_right _ _)).bind fun _ _ _ => trailingAlignment_sound he _

theorem seiLoop_sound (he : Code.error ∈ cs) (hl : Code.brokenLink ∈ cs) (t : Table Sps) (l : BitVec 6) (room : Nat) :
    Sound cs true (seiLoop t l room) := by
  induction room with
  | zero => exact Sound.raise he
  | succ room ih =>
    exact Sound.look.bind fun _ => (Sound.within (seiMessage_sound he hl _ _)).bind fun _ =>
      (Sound.put _).bind fun _ => Sound.moreData.bind fun _ => Sound.ite ih (Sound.pure ())

end Sys2Proof.Machine
end

