-- ==== Sys2Proof/Laws/Parse.lean ====
section
/-! SUPPORT. Sys2Proof/Laws/Parse.lean: everything a parse command can do, said once (42_sps.md R180): it is turned
away without a usable NALU record, it ends well, or a check of its syntax ends it. -/

namespace Sys2Proof.Machine

variable {R : Type} {zero : R} {body : Stream → Parse R Unit} {write store : State → R → State} {s : State}

/-- The reader and the record a parse command's syntax starts from. -/
def State.parseStart (s : State) (zero : R) : PState R :=
  { rd := { rest := logicalBits s.payloadStream }, out := zero }

theorem State.parse_notReady (h : naluReady s.nalu = false) : s.parse zero body write store = s.finish .error false := by
  simp [State.parse, h]

theorem State.parse_ok (h : naluReady s.nalu = true) {e : PState R}
    (hb : body s.payloadStream (s.parseStart zero) = .ok () e) :
    s.parse zero body write store = (store (write (s.withReader (payloadBase s.nalu) (payloadSize s.nalu) s.payloadStream e.rd)
      e.out) e.out).finish .ok e.rd.warn := by
  unfold State.parseStart at hb
  simp only [State.parse, h, hb, if_true]

theorem State.parse_error (h : naluReady s.nalu = true) {c : Code} {e : PState R}
    (hb : body s.payloadStream (s.parseStart zero) = .error c e) :
    s.parse zero body write store = (write (s.withReader (payloadBase s.nalu) (payloadSize s.nalu) s.payloadStream e.rd)
      e.out).finish c e.rd.warn := by
  unfold State.parseStart at hb
  simp only [State.parse, h, hb, if_true]

/-- The three ways a parse command ends. -/
theorem State.parse_cases (s : State) (zero : R) (body : Stream → Parse R Unit) (write store : State → R → State) :
    (naluReady s.nalu = false ∧ s.parse zero body write store = s.finish .error false) ∨
    (naluReady s.nalu = true ∧ ∃ e, body s.payloadStream (s.parseStart zero) = .ok () e ∧
      s.parse zero body write store = (store (write (s.withReader (payloadBase s.nalu) (payloadSize s.nalu) s.payloadStream e.rd)
        e.out) e.out).finish .ok e.rd.warn) ∨
    (naluReady s.nalu = true ∧ ∃ c e, body s.payloadStream (s.parseStart zero) = .error c e ∧
      s.parse zero body write store = (write (s.withReader (payloadBase s.nalu) (payloadSize s.nalu) s.payloadStream e.rd)
        e.out).finish c e.rd.warn) := by
  cases h : naluReady s.nalu with
  | false => exact .inl ⟨rfl, State.parse_notReady h⟩
  | true =>
    cases hb : body s.payloadStream (s.parseStart zero) with
    | ok a e => exact .inr (.inl ⟨rfl, e, rfl, State.parse_ok h hb⟩)
    | error c e => exact .inr (.inr ⟨rfl, c, e, rfl, State.parse_error h hb⟩)

/-- The syntax over coded bits ends the command well, with the reader at their end. -/
theorem State.parse_runs {r : R} {bits rest : List Bool} {w : Bool} (h : naluReady s.nalu = true)
    (hb : s.payloadBits = bits ++ rest) (run : Runs (body s.payloadStream) 0 bits rest () zero r w) :
    s.parse zero body write store = (store (write (s.withReader (payloadBase s.nalu) (payloadSize s.nalu) s.payloadStream
      { rest := rest, p := bits.length, warn := w }) r) r).finish .ok w := by
  have e := run false false
  rw [← hb, Nat.zero_add, Bool.false_or] at e
  exact State.parse_ok h e

/-- Where the syntax leaves the reader; where `BR_FAIL` is set a read can fail there. -/
theorem Sound.reader_at {cs : List Code} {w : Bool} (h : Sound cs w (body s.payloadStream)) :
    match body s.payloadStream (s.parseStart zero) with
    | .ok _ e => e.rd.p ≤ s.payloadBits.length ∧ e.rd.fail = false ∧ (w = false → e.rd.warn = false)
    | .error c e => e.rd.p ≤ s.payloadBits.length ∧ c ∈ cs ∧
      (e.rd.fail = true → c = .error ∧ Stuck (s.payloadBits.drop e.rd.p)) ∧ (w = false → e.rd.warn = false) := by
  have h := h (s.parseStart zero)
  unfold SoundAt at h
  cases hb : body s.payloadStream (s.parseStart zero) with
  | ok a e =>
    rw [hb] at h
    obtain ⟨⟨k, hk, -, hp⟩, hf, hw⟩ := h
    exact ⟨by rw [hp]; simpa [State.parseStart, State.payloadBits] using hk, hf, hw⟩
  | error c e =>
    rw [hb] at h
    obtain ⟨⟨k, hk, hr, hp⟩, hc, hf, hw⟩ := h
    have hp : e.rd.p = k := by simpa [State.parseStart] using hp
    refine ⟨by rw [hp]; simpa [State.parseStart, State.payloadBits] using hk, hc, fun x => ?_, hw⟩
    have := (hf x).resolve_left (by simp [State.parseStart])
    rw [hr, ← hp] at this
    exact this

end Sys2Proof.Machine
end

