-- ==== Sys2Proof/Laws/ScalingCodes.lean ====
section
/-! SUPPORT. Sys2Proof/Laws/ScalingCodes.lean: the parse of a scaling matrix reads its coding back
(42_sps.md R191 to R193). -/

namespace Sys2Proof.Machine

-- One theorem at a time: a thread for each, with check.sh's stack size, passes its memory limit.
set_option Elab.async false

theorem Lists.list_setList_same {x : Lists} {i : Nat} {l : ScalingList} (h : l ≠ []) : (x.setList i l).list i = l := by
  unfold Lists.setList Lists.list; split <;> exact Table.read_write_of_ne h

theorem Lists.setList_setList {x : Lists} {i : Nat} {l l' : ScalingList} (h : l ≠ []) :
    (x.setList i l).setList i l' = x.setList i l' := by
  unfold Lists.setList; split <;> simp [Table.write_write_of_ne h]

/-- List `i` with the entries `vs` written from `j` on. -/
def writeEntries (i : Nat) : Nat → List (BitVec 8) → Lists → Lists
  | _, [], x => x
  | j, v :: vs, x => writeEntries i (j + 1) vs (x.setList i (Table.write (x.list i) 0 j v))

theorem writeEntries_append (i : Nat) (as bs : List (BitVec 8)) (j : Nat) (x : Lists) :
    writeEntries i j (as ++ bs) x = writeEntries i (j + as.length) bs (writeEntries i j as x) := by
  induction as generalizing j x with
  | nil => simp [writeEntries]
  | cons a as ih => simp [writeEntries, ih]; congr 1; omega

/-- Entries, none 0, written one by one are the list written at once. -/
theorem writeEntries_eq {i j : Nat} {vs : List (BitVec 8)} (x : Lists) (ne : vs ≠ []) (nz : ∀ v ∈ vs, v ≠ 0) :
    writeEntries i j vs x =
      x.setList i ((vs.zipIdx j).foldl (fun t e => Table.write t 0 e.2 e.1) (x.list i)) := by
  induction vs generalizing j x with
  | nil => exact absurd rfl ne
  | cons v vs ih =>
    have hv := Table.write_ne_nil (i := j) (t := x.list i) (nz v (by simp))
    by_cases e : vs = []
    · subst e; rfl
    · rw [writeEntries, ih _ e (fun u hu => nz u (by simp [hu])), Lists.list_setList_same hv, Lists.setList_setList hv]
      rfl

theorem scaleDelta_range (a b : Nat) : -128 ≤ scaleDelta a b ∧ scaleDelta a b ≤ 127 := by
  unfold scaleDelta; omega

theorem scaleDelta_step {a b : Nat} (h : b < 256) : (((a : Int) + scaleDelta a b + 256) % 256).toNat = b := by
  unfold scaleDelta; omega

/-- After a zero scale the last entry repeats and nothing is read (42_sps.md R192). -/
theorem scalingEntries_rest (i k j last : Nat) (x : Lists) :
    Codes (scalingEntries i k j last 0) [] () x
      (writeEntries i j (List.replicate k (BitVec.ofNat 8 last)) x) false := by
  induction k generalizing j x with
  | zero => exact Codes.pure ()
  | succ k ih =>
    rw [scalingEntries, if_neg (by simp)]
    exact Codes.putThen (ih (j + 1) _)

/-- Coded entries from entry `j` on, then `k` more rounds. -/
theorem scalingEntries_codes (i k : Nat) (vs : List (BitVec 8)) (nz : ∀ v ∈ vs, v ≠ 0) (last next j : Nat) (hn : next ≠ 0)
    (hj : vs ≠ [] ∨ j ≠ 0) (hl : last < 256) (x x' : Lists) (bits : List Bool)
    (h : Codes (scalingEntries i k (j + vs.length) (vs.getLastD (BitVec.ofNat 8 last)).toNat
      (if vs = [] then next else (vs.getLastD (BitVec.ofNat 8 last)).toNat)) bits () (writeEntries i j vs x) x' false) :
    Codes (scalingEntries i (vs.length + k) j last next) (deltaBits last vs ++ bits) () x x' false := by
  induction vs generalizing last next j x with
  | nil =>
    simp [deltaBits] at h ⊢
    simpa [Nat.mod_eq_of_lt hl, writeEntries] using h
  | cons v vs ih =>
    have hv : v.toNat ≠ 0 := fun e => nz v (by simp) (BitVec.eq_of_toNat_eq (by simpa using e))
    rw [List.length_cons, Nat.add_right_comm, scalingEntries, if_pos hn, deltaBits, List.append_assoc]
    refine (Codes.getSe (by have := scaleDelta_range last v.toNat; omega)
      (by have := scaleDelta_range last v.toNat; omega)).seq <| Codes.required (by simp [scaleDelta_range]) ?_
    rw [scaleDelta_step v.isLt]
    rw [if_neg (by simp [hv])]
    refine Codes.putThen ?_
    rw [if_neg hv]
    simp only [BitVec.ofNat_toNat, BitVec.setWidth_eq]
    refine ih (fun u hu => nz u (by simp [hu])) v.toNat v.toNat (j + 1) hv (Or.inr (by omega)) v.isLt _ ?_
    simp only [List.length_cons, writeEntries] at h
    rw [show j + 1 + vs.length = j + (vs.length + 1) by omega]
    simp only [BitVec.ofNat_toNat, BitVec.setWidth_eq]
    by_cases e : vs = []
    · subst e; simpa using h
    · obtain ⟨u, us, rfl⟩ := List.exists_cons_of_ne_nil e
      simpa [List.getLastD] using h

/-- A coded list is read back (R191, R192). -/
theorem scalingMatrixList_codes {nLists i : Nat} {inh : Option Lists} {c : ListCoding} (x : Lists)
    (ok : c.codable (listSize i) = true) (hi : i < nLists) :
    Codes (scalingMatrixList nLists inh i) (c.bits (listSize i)) () x (x.setList i (c.value inh x i)) false := by
  unfold scalingMatrixList
  rw [if_pos hi]
  have hs : 0 < listSize i := by unfold listSize; split <;> omega
  cases c with
  | absent => exact (Codes.getFlag false).seq (b2 := []) (Codes.put fun x : Lists => x.setList i (fallbackList inh x i))
  | useDefault =>
    refine (Codes.getFlag true).seq (b2 := seBits (scaleDelta 8 0)) ?_
    change Codes (scalingEntries i (listSize i) 0 8 8) _ _ _ _ _
    obtain ⟨k, hk⟩ := Nat.exists_eq_succ_of_ne_zero (Nat.pos_iff_ne_zero.1 hs)
    rw [hk, scalingEntries, if_pos (by decide)]
    refine ((Codes.getSe (by decide) (by decide)).seq <| Codes.required (by decide) ?_).congr (List.append_nil _) rfl rfl rfl
    exact (Codes.put fun x : Lists => x.setList i (defaultList i))
  | entries vs =>
    simp only [ListCoding.codable, Bool.and_eq_true, Bool.not_eq_true', List.isEmpty_eq_false_iff, decide_eq_true_eq,
      List.all_eq_true, bne_iff_ne, ne_eq] at ok
    obtain ⟨⟨ne, le⟩, nz⟩ := ok
    refine (Codes.getFlag true).seq (b2 := deltaBits 8 vs ++ _) ?_
    change Codes (scalingEntries i (listSize i) 0 8 8) _ _ _ _ _
    have hl : (vs.getLastD 8) ≠ 0 := by
      obtain ⟨u, us, rfl⟩ := List.exists_cons_of_ne_nil ne
      exact nz _ (by simp [List.getLastD])
    have hval : x.setList i ((ListCoding.entries vs).value inh x i) =
        writeEntries i 0 (vs ++ List.replicate (listSize i - vs.length) (vs.getLastD 8)) x := by
      rw [writeEntries_eq x (by simp [ne])]
      · rfl
      · intro v hv
        rcases List.mem_append.1 hv with h | h
        · exact nz v h
        · rw [List.eq_of_mem_replicate h]; exact hl
    rw [hval, writeEntries_append]
    obtain ⟨k, hk⟩ : ∃ k, listSize i = vs.length + k := ⟨_, (Nat.add_sub_cancel' le).symm⟩
    have e8 : BitVec.ofNat 8 8 = (8 : BitVec 8) := rfl
    rw [hk]
    refine scalingEntries_codes i k vs nz 8 8 0 (by decide) (Or.inl ne) (by decide) _ _ _ ?_
    rw [if_neg ne, e8]
    cases k with
    | zero =>
      rw [show decide (vs.length < vs.length + 0) = false by simp,
        show vs.length + 0 - vs.length = 0 by omega]
      exact Codes.pure ()
    | succ k =>
      have hlt : vs.length < vs.length + (k + 1) := by omega
      have hz : (vs.getLastD 8).toNat ≠ 0 := fun e => hl (BitVec.eq_of_toNat_eq (by simpa using e))
      simp only [hlt, decide_true, optBits, if_true]
      rw [scalingEntries, if_pos hz]
      refine ((Codes.getSe (by have := scaleDelta_range (vs.getLastD 8).toNat 0; omega)
        (by have := scaleDelta_range (vs.getLastD 8).toNat 0; omega)).seq <| Codes.required (by simp [scaleDelta_range]) ?_).congr
        (List.append_nil _) rfl rfl rfl
      rw [scaleDelta_step (by decide)]
      rw [if_neg (by simpa using List.length_pos_iff.2 ne |>.ne')]
      refine (Codes.putThen (scalingEntries_rest i k _ _ _)).congr rfl rfl ?_ rfl
      simp [List.replicate_succ, writeEntries]

theorem rowBits_extend {n m : Nat} (h : n ≤ m) (g : Nat → List Bool) :
    rowBits n g = rowBits m fun i => if i < n then g i else [] := by
  obtain ⟨k, rfl⟩ := Nat.exists_eq_add_of_le h
  unfold rowBits
  rw [List.range_add, List.flatMap_append]
  have a : (List.range n).flatMap (fun i => if i < n then g i else []) = (List.range n).flatMap g :=
    List.flatMap_congr fun i hi => if_pos (List.mem_range.1 hi)
  have b : ((List.range k).map (n + ·)).flatMap (fun i => if i < n then g i else []) = [] := by
    simp [List.flatMap_map]
  rw [a, b, List.append_nil]

/-- A coded matrix is read back (R191). -/
theorem scalingMatrix_codes {nLists : Nat} {inh : Option Lists} {c : List ListCoding} (x : Lists) (n : nLists ≤ 12)
    (ok : matrixOk nLists c = true) :
    Codes (scalingMatrix nLists inh) (matrixBits nLists c) () x (matrixLists nLists inh c x) false := by
  rw [matrixOk, rowOk_iff] at ok
  rw [matrixBits, rowBits_extend n]
  refine Codes.rows (fun k => (List.range k).foldl
    (fun x i => x.setList i ((codingOf nLists c i).value inh x i)) x) 12 fun i _ => ?_
  simp only [List.range_succ, List.foldl_append, List.foldl_cons, List.foldl_nil]
  by_cases h : i < nLists
  · rw [if_pos h]; exact scalingMatrixList_codes _ (ok i h) h
  · rw [if_neg h]
    simp only [scalingMatrixList, h, if_false, codingOf]
    exact Codes.put fun x : Lists => x.setList i (fallbackList inh x i)

end Sys2Proof.Machine
end

