-- ==== Sys2Proof/Laws/PpsCodes.lean ====
section
/-! SUPPORT. Sys2Proof/Laws/PpsCodes.lean: the parse of a PPS reads the bits of `Machine/Coding.lean` back
(43_pps.md). -/

namespace Sys2Proof.Machine

-- One theorem at a time: a thread for each, with check.sh's stack size, passes its memory limit.
set_option Elab.async false

theorem ppsSliceGroupIds_codes {p r : Pps} {cap : Nat} (h : r.num_slice_groups_minus1 = p.num_slice_groups_minus1)
    (h0 : r.slice_group_id = []) (ok : ueOk p.pic_size_in_map_units_minus1 = true) (hc : p.mapUnits ≤ cap)
    (hw : ∀ u < p.mapUnits, (Table.read p.slice_group_id 0 u).toNat < 2 ^ p.idWidth) :
    Codes (ppsSliceGroupIds cap) (ueField p.pic_size_in_map_units_minus1 ++
      rowBits p.mapUnits fun u => uBits p.idWidth (Table.read p.slice_group_id 0 u).toNat) () r
      { r with
        pic_size_in_map_units_minus1 := p.pic_size_in_map_units_minus1
        slice_group_id := firstEntries 0 p.mapUnits p.slice_group_id } false := by
  unfold ppsSliceGroupIds
  refine (ueOk_code ok).seq <| Codes.look ?_
  simp only [BitVec.ofNat_toNat, BitVec.setWidth_eq, h0]
  refine Codes.required (by simpa [Pps.mapUnits] using hc) ?_
  refine Codes.rows (fun n => ({ r with
    pic_size_in_map_units_minus1 := p.pic_size_in_map_units_minus1
    slice_group_id := firstEntries 0 n p.slice_group_id } : Pps)) _ fun u hu => ?_
  rw [h]
  refine (Codes.elemU (hw u hu)).congr rfl rfl ?_ rfl
  simp [write_firstEntries]

/-- What the slice-group map writes (R243). -/
def Pps.withGroups (p r : Pps) : Pps :=
  { r with
    slice_group_map_type := given p.grouped p.slice_group_map_type r.slice_group_map_type
    run_length_minus1 := given (p.hasMap 0)
      (firstEntries 0 (p.num_slice_groups_minus1.toNat + 1) p.run_length_minus1) r.run_length_minus1
    top_left := given (p.hasMap 2) (firstEntries 0 p.num_slice_groups_minus1.toNat p.top_left) r.top_left
    bottom_right := given (p.hasMap 2) (firstEntries 0 p.num_slice_groups_minus1.toNat p.bottom_right) r.bottom_right
    slice_group_change_direction_flag :=
      given p.changing p.slice_group_change_direction_flag r.slice_group_change_direction_flag
    slice_group_change_rate_minus1 := given p.changing p.slice_group_change_rate_minus1 r.slice_group_change_rate_minus1
    pic_size_in_map_units_minus1 := given (p.hasMap 6) p.pic_size_in_map_units_minus1 r.pic_size_in_map_units_minus1
    slice_group_id := given (p.hasMap 6) (firstEntries 0 p.mapUnits p.slice_group_id) r.slice_group_id }

theorem ppsSliceGroups_codes {p r : Pps} {cap : Nat} (hg : p.grouped = true)
    (h : r.num_slice_groups_minus1 = p.num_slice_groups_minus1) (e1 : r.run_length_minus1 = [])
    (e2 : r.top_left = []) (e3 : r.bottom_right = []) (e4 : r.slice_group_id = [])
    (ht : p.slice_group_map_type.toNat ≤ 6)
    (hu : ∀ g < p.num_slice_groups_minus1.toNat + 1, ueOk (Table.read p.run_length_minus1 0 g) = true ∧
      ueOk (Table.read p.top_left 0 g) = true ∧ ueOk (Table.read p.bottom_right 0 g) = true)
    (hr : ueOk p.slice_group_change_rate_minus1 = true) (hp : ueOk p.pic_size_in_map_units_minus1 = true)
    (h6 : p.hasMap 6 = true → p.mapUnits ≤ cap ∧
      ∀ u < p.mapUnits, (Table.read p.slice_group_id 0 u).toNat < 2 ^ p.idWidth) :
    Codes (ppsSliceGroups cap) p.groupBits () r (p.withGroups r) false := by
  unfold ppsSliceGroups Pps.groupBits
  simp only [hg, List.append_assoc]
  refine (ueField_code (by omega) (by omega)).seq <| Codes.look ?_
  simp only [BitVec.ofNat_toNat, BitVec.setWidth_eq]
  rw [h]
  have hm (t : Nat) : p.hasMap t = (p.slice_group_map_type.toNat == t) := by simp [Pps.hasMap, hg]
  have hc : p.changing = decide (3 ≤ p.slice_group_map_type.toNat ∧ p.slice_group_map_type.toNat ≤ 5) := by
    simp [Pps.changing, hg]
  rw [hm] at h6
  by_cases t0 : p.slice_group_map_type.toNat = 0
  · rw [if_pos t0]
    simp only [e1]
    refine Codes.congr (Codes.rows (g := fun g => ueField (Table.read p.run_length_minus1 0 g)) (fun n => ({ r with
      num_slice_groups_minus1 := p.num_slice_groups_minus1
      slice_group_map_type := p.slice_group_map_type
      run_length_minus1 := firstEntries 0 n p.run_length_minus1 } : Pps)) (p.num_slice_groups_minus1.toNat + 1) ?_)
      (by simp [hm, hc, t0, optBits]) rfl (by simp [Pps.withGroups, hm, hc, t0, hg, h]) rfl
    · intro g hg
      refine (ueOk_code (hu g hg).1).congr rfl rfl ?_ rfl
      simp [write_firstEntries]
  · rw [if_neg t0]
    by_cases t2 : p.slice_group_map_type.toNat = 2
    · rw [if_pos t2]
      simp only [e2, e3]
      refine Codes.congr (Codes.rows (g := fun g => ueField (Table.read p.top_left 0 g) ++
        ueField (Table.read p.bottom_right 0 g)) (fun n => ({ r with
        num_slice_groups_minus1 := p.num_slice_groups_minus1
        slice_group_map_type := p.slice_group_map_type
        top_left := firstEntries 0 n p.top_left
        bottom_right := firstEntries 0 n p.bottom_right } : Pps)) p.num_slice_groups_minus1.toNat ?_)
        (by simp [hm, hc, t2, optBits]) rfl (by simp [Pps.withGroups, hm, hc, t2, hg, h]) rfl
      · intro g hg
        unfold ppsRectangle
        refine (ueOk_code (hu g (by omega)).2.1).seq <| (ueOk_code (hu g (by omega)).2.2).congr rfl rfl ?_ rfl
        simp [write_firstEntries]
    · rw [if_neg t2]
      have b0 := beq_false_of_ne t0
      have b2 := beq_false_of_ne t2
      by_cases t3 : 3 ≤ p.slice_group_map_type.toNat ∧ p.slice_group_map_type.toNat ≤ 5
      · rw [if_pos t3]
        have b6 : (p.slice_group_map_type.toNat == 6) = false := beq_false_of_ne (by omega)
        refine Codes.congr ((Codes.elemFlag p.slice_group_change_direction_flag).seq <| ueOk_code hr)
          (by simp [hm, hc, b0, b2, t3, b6, optBits]) rfl (by simp [Pps.withGroups, hm, hc, b0, b2, t3, b6, hg, h]) rfl
      · rw [if_neg t3]
        refine Codes.congr (Codes.optEnd (fun b (r : Pps) => { r with
          pic_size_in_map_units_minus1 := given b p.pic_size_in_map_units_minus1 r.pic_size_in_map_units_minus1
          slice_group_id := given b (firstEntries 0 p.mapUnits p.slice_group_id) r.slice_group_id })
          (fun e => ppsSliceGroupIds_codes (p := p) rfl e4 hp (h6 e).1 (h6 e).2) rfl)
          (by simp [hm, hc, b0, b2, t3, optBits]) rfl (by simp [Pps.withGroups, hm, hc, b0, b2, t3, hg, h]) rfl

/-- What rows 3 to 16 write (R240). -/
def Pps.withBody (p r : Pps) : Pps :=
  { p.withGroups r with
    entropy_coding_mode_flag := p.entropy_coding_mode_flag
    bottom_field_pic_order_in_frame_present_flag := p.bottom_field_pic_order_in_frame_present_flag
    num_slice_groups_minus1 := p.num_slice_groups_minus1
    num_ref_idx_l0_default_active_minus1 := p.num_ref_idx_l0_default_active_minus1
    num_ref_idx_l1_default_active_minus1 := p.num_ref_idx_l1_default_active_minus1
    weighted_pred_flag := p.weighted_pred_flag
    weighted_bipred_idc := p.weighted_bipred_idc
    pic_init_qp_minus26 := p.pic_init_qp_minus26
    pic_init_qs_minus26 := p.pic_init_qs_minus26
    chroma_qp_index_offset := p.chroma_qp_index_offset
    deblocking_filter_control_present_flag := p.deblocking_filter_control_present_flag
    constrained_intra_pred_flag := p.constrained_intra_pred_flag
    redundant_pic_cnt_present_flag := p.redundant_pic_cnt_present_flag }

theorem ppsBody_codes {p r : Pps} {q : Sps} {cap : Nat} (e1 : r.run_length_minus1 = [])
    (e2 : r.top_left = []) (e3 : r.bottom_right = []) (e4 : r.slice_group_id = [])
    (ht : p.slice_group_map_type.toNat ≤ 6)
    (hu : ∀ g < p.num_slice_groups_minus1.toNat + 1, ueOk (Table.read p.run_length_minus1 0 g) = true ∧
      ueOk (Table.read p.top_left 0 g) = true ∧ ueOk (Table.read p.bottom_right 0 g) = true)
    (hr : ueOk p.slice_group_change_rate_minus1 = true) (hp : ueOk p.pic_size_in_map_units_minus1 = true)
    (h6 : p.hasMap 6 = true → p.mapUnits ≤ cap ∧
      ∀ u < p.mapUnits, (Table.read p.slice_group_id 0 u).toNat < 2 ^ p.idWidth)
    (hb : p.weighted_bipred_idc.toNat ≤ 2) (h7 : seIn (-(26 + qpBdOffset q)) 25 p.pic_init_qp_minus26 = true)
    (h8 : seIn (-26) 25 p.pic_init_qs_minus26 = true) (h9 : seIn (-12) 12 p.chroma_qp_index_offset = true) :
    Codes (ppsBody cap q) ([p.entropy_coding_mode_flag] ++ ([p.bottom_field_pic_order_in_frame_present_flag] ++
      (ueField p.num_slice_groups_minus1 ++ (p.groupBits ++ (ueField p.num_ref_idx_l0_default_active_minus1 ++
      (ueField p.num_ref_idx_l1_default_active_minus1 ++ ([p.weighted_pred_flag] ++ (uField p.weighted_bipred_idc ++
      (seField p.pic_init_qp_minus26 ++ (seField p.pic_init_qs_minus26 ++ (seField p.chroma_qp_index_offset ++
      ([p.deblocking_filter_control_present_flag] ++ ([p.constrained_intra_pred_flag] ++
      [p.redundant_pic_cnt_present_flag]))))))))))))) () r (p.withBody r) false := by
  unfold ppsBody
  have hq : qpBdOffset q ≤ 48 := by
    have := q.bit_depth_luma_minus8.isLt
    unfold qpBdOffset; cases q.separate_colour_plane_flag <;> simp <;> omega
  refine (Codes.elemFlag _).seq <| (Codes.elemFlag _).seq <| (ueField_code (by omega) (by omega)).seq <| Codes.look ?_
  simp only [BitVec.ofNat_toNat, BitVec.setWidth_eq]
  change Codes (whenever p.grouped _ >>= _) _ _ _ _ _
  refine Codes.seq (a := ()) (b1 := p.groupBits) (r' := p.withGroups { r with
    entropy_coding_mode_flag := p.entropy_coding_mode_flag
    bottom_field_pic_order_in_frame_present_flag := p.bottom_field_pic_order_in_frame_present_flag
    num_slice_groups_minus1 := p.num_slice_groups_minus1 }) ?_ <|
    (ueField_code (by omega) (by omega)).seq <| (ueField_code (by omega) (by omega)).seq <| (Codes.elemFlag _).seq <|
    (uField_code _).seq <| Codes.look ?_
  · cases hg : p.grouped
    · refine (Codes.pure ()).congr ?_ rfl ?_ rfl <;> simp [Pps.groupBits, Pps.withGroups, Pps.hasMap, Pps.changing, hg, optBits]
    · exact ppsSliceGroups_codes hg rfl e1 e2 e3 e4 ht hu hr hp h6
  · simp only [BitVec.ofNat_toNat, BitVec.setWidth_eq]
    refine Codes.required (by simpa using hb) <| (seIn_code h7 (by omega) (by omega)).seq <|
      (seIn_code h8 (by omega) (by omega)).seq <| (seIn_code h9 (by omega) (by omega)).seq <|
      (Codes.elemFlag _).seq <| (Codes.elemFlag _).seq <| (Codes.elemFlag _).congr rfl rfl ?_ rfl
    simp [Pps.withBody, Pps.withGroups]

/-- The optional tail before `rest` (R245). -/
theorem ppsTail_runs {p r : Pps} {q : Sps} {c : List ListCoding} {tail : Bool} {rest : List Bool} (at_ : Nat)
    (hl : r.lists = q.lists) (hm : matrixOk (ppsListCount q p.transform_8x8_mode_flag) c = true)
    (h : seIn (-12) 12 p.second_chroma_qp_index_offset = true)
    (more : moreRbspData (optBits tail (p.tailBits q c) ++ rest) = tail) :
    Runs (ppsTail q) at_ (optBits tail (p.tailBits q c)) rest () r
      { r with
        transform_8x8_mode_flag := tail && p.transform_8x8_mode_flag
        pic_scaling_matrix_present_flag := tail && p.pic_scaling_matrix_present_flag
        lists := given (tail && p.pic_scaling_matrix_present_flag)
          (matrixLists (ppsListCount q p.transform_8x8_mode_flag) (ppsInherited q) c q.lists) q.lists
        second_chroma_qp_index_offset := given tail p.second_chroma_qp_index_offset r.chroma_qp_index_offset } false := by
  unfold ppsTail
  refine Runs.moreData ?_
  rw [more]
  cases tail with
  | false =>
    rw [if_neg (by simp)]
    refine Runs.congr ((Codes.put _).runs _ _) rfl ?_ rfl
    simp [← hl]
  | true =>
    refine Codes.runs ?_ _ _
    simp only [if_true, optBits, Pps.tailBits, List.append_assoc]
    refine (Codes.elemFlag _).seq <| (Codes.elemFlag _).seq <| Codes.look ?_
    have n12 : ppsListCount q p.transform_8x8_mode_flag ≤ 12 := by
      unfold ppsListCount; have := Bool.toNat_le p.transform_8x8_mode_flag; split <;> omega
    refine Codes.opt (fun b (r : Pps) => { r with
        lists := given b (matrixLists (ppsListCount q p.transform_8x8_mode_flag) (ppsInherited q) c q.lists) r.lists })
      (fun _ => ?_) rfl <| (seIn_code h (by omega) (by omega)).congr rfl rfl ?_ rfl
    · refine Codes.within (get := fun r : Pps => r.lists) (set := fun r l => { r with lists := l }) ?_
      simp only [hl]
      exact scalingMatrix_codes _ n12 hm
    · simp [hl]

@[simp] theorem Pps.coded_id (p : Pps) (q : Sps) (tail : Bool) (c : List ListCoding) : (p.coded q tail c).id = p.id := by
  simp only [Pps.coded]

/-- `PARSE_PPS` reads its bits back before `rest` (R240 to R245). -/
theorem ppsSyntax_runs {p : Pps} {sps : Table Sps} {cap : Nat} {c : List ListCoding} {tail : Bool} {rest : List Bool}
    (valid : (spsSlot sps p.sps_id.toNat).valid = true)
    (ok : p.codable (spsSlot sps p.sps_id.toNat) cap c = true)
    (more : moreRbspData (optBits tail (p.tailBits (spsSlot sps p.sps_id.toNat) c) ++ rest) = tail) :
    Runs (ppsSyntax cap sps) 0 (p.bodyBits ++ optBits tail (p.tailBits (spsSlot sps p.sps_id.toNat) c)) rest () {}
      (p.coded (spsSlot sps p.sps_id.toNat) tail c) false := by
  simp only [Pps.codable, Bool.and_eq_true, decide_eq_true_eq, rowOk_iff, Bool.or_eq_true, Bool.not_eq_true'] at ok
  obtain ⟨⟨⟨⟨⟨⟨⟨⟨⟨⟨ht, hu⟩, hr⟩, hp⟩, h6⟩, hb⟩, h7⟩, h8⟩, h9⟩, hm⟩, h10⟩ := ok
  unfold ppsSyntax
  simp only [Pps.bodyBits, List.append_assoc]
  refine (ueField_code (by omega) (by omega)).run <| (ueField_code (by omega) (by omega)).run <| Runs.look ?_
  simp only [BitVec.ofNat_toNat, BitVec.setWidth_eq]
  refine Runs.required valid <| Runs.putThen ?_
  generalize spsSlot sps p.sps_id.toNat = q at *
  have body := ppsBody_codes (p := p) (r := { id := p.id, sps_id := p.sps_id, lists := q.lists }) (q := q) (cap := cap)
    rfl rfl rfl rfl ht (fun g hg => ⟨(hu g hg).1.1, (hu g hg).1.2, (hu g hg).2⟩) hr hp
    (fun e => h6.resolve_left (by simp [e])) hb h7 h8 h9
  refine Runs.congr ((body.runs _ _).bind <| (ppsTail_runs _ rfl hm h10 more).bind <|
    (Codes.put fun r : Pps => { r with valid := true }).runs _ rest) (by simp) ?_ rfl
  simp [Pps.coded, Pps.withBody, Pps.withGroups]

end Sys2Proof.Machine
end

