-- ==== Sys2Proof/Laws/SeiCodes.lean ====
section
/-! SUPPORT. Sys2Proof/Laws/SeiCodes.lean: the parse of SEI messages reads the bits of `Machine/Coding.lean` back
(45_sei.md). -/

namespace Sys2Proof.Machine

-- One theorem at a time: a thread for each, with check.sh's stack size, passes its memory limit.
set_option Elab.async false

/-! ## Type and size codes (R331) -/

theorem codeSum_runs (n k acc v p : Nat) (rest : List Bool) {r : SeiMsg} (hv : v < 255) (hk : n ≤ k) :
    Runs (codeSum k acc) p (List.replicate (8 * n) true ++ uBits 8 v) rest (acc + 255 * n + v) r r false := by
  induction n generalizing k acc p with
  | zero =>
    cases k with
    | zero =>
      unfold codeSum
      exact Runs.congr ((Codes.getU (n := 8) (v := v) (by omega)).run (b2 := []) ((Codes.pure _).runs _ _)) (by simp) rfl rfl
    | succ k =>
      unfold codeSum
      refine Runs.congr ((Codes.getU (n := 8) (v := v) (by omega)).run (b2 := []) ?_) (by simp) rfl rfl
      rw [if_neg (by omega)]
      exact (Codes.pure _).runs _ _
  | succ n ih =>
    obtain ⟨k, rfl⟩ : ∃ j, k = j + 1 := ⟨k - 1, by omega⟩
    unfold codeSum
    refine Runs.congr ((Codes.getU (n := 8) (v := 255) (by omega)).run (b2 := List.replicate (8 * n) true ++ uBits 8 v) ?_)
      ?_ rfl rfl
    · rw [if_pos rfl]
      have := ih k (acc + 255) (p + (uBits 8 255).length) (by omega)
      rw [show acc + 255 + 255 * n + v = acc + 255 * (n + 1) + v by omega] at this
      exact this
    · rw [← List.append_assoc, show uBits 8 255 = List.replicate 8 true from rfl, List.replicate_append_replicate,
        show 8 + 8 * n = 8 * (n + 1) by omega]

theorem Runs.reader {R α : Type} {r r' : R} {k : Reader → Parse R α} {p : Nat} {b rest : List Bool} {a : α} {w : Bool}
    (h : ∀ f wn, Runs (k ⟨b ++ rest, p, f, wn⟩) p b rest a r r' w) : Runs (Machine.reader >>= k) p b rest a r r' w :=
  fun f wn => h f wn f wn

theorem seiCode_runs (v p : Nat) (rest : List Bool) {r : SeiMsg} :
    Runs seiCode p (seiCodeBits v) rest v r r false := by
  unfold seiCode
  refine Runs.reader fun f wn => ?_
  have := codeSum_runs (v / 255) (((seiCodeBits v) ++ rest).length / 8) 0 (v % 255) p rest (r := r)
    (Nat.mod_lt _ (by omega)) (by simp [seiCodeBits]; omega)
  rw [show 0 + 255 * (v / 255) + v % 255 = v by omega] at this
  exact this

/-! ## Payloads -/

theorem bpDelays_codes {h : Hrd} {wd wo : BufferingPeriod → Nat → Nat → BufferingPeriod} {d o : Table (BitVec 32)}
    (x : Nat → BufferingPeriod) (ok : delayOk h d o = true)
    (hx : ∀ i, wo (wd (x i) i (Table.read d 0 i).toNat) i (Table.read o 0 i).toNat = x (i + 1)) :
    Codes (bpDelays h wd wo) (delayBits h d o) () (x 0) (x h.entries) false := by
  simp only [delayOk, rowOk_iff, Bool.and_eq_true, decide_eq_true_eq] at ok
  unfold bpDelays delayBits
  refine Codes.rows x h.entries fun i hi => ?_
  exact (Codes.elemU (ok i hi).1).seq ((Codes.elemU (ok i hi).2).congr rfl rfl (hx i) rfl)

theorem bufferingPeriod_codes {b : BufferingPeriod} {sps : Table Sps} (ok : b.codable sps = true) :
    Codes (bufferingPeriod sps) (b.bits sps) () {} (b.coded sps) false := by
  simp only [BufferingPeriod.codable, Bool.and_eq_true, Bool.or_eq_true, Bool.not_eq_true'] at ok
  obtain ⟨⟨valid, hn⟩, hv⟩ := ok
  unfold bufferingPeriod BufferingPeriod.bits BufferingPeriod.coded
  simp only [List.append_assoc]
  refine (ueField_code (x := b.sps_id) (by omega) (by omega)).seq <| Codes.look ?_
  simp only [BitVec.ofNat_toNat, BitVec.setWidth_eq]
  generalize spsSlot sps b.sps_id.toNat = q at *
  refine Codes.required valid ?_
  refine Codes.opt (fun c (r : BufferingPeriod) => { r with
      nal_initial_cpb_removal_delay := given c (firstEntries 0 q.vui.nal_hrd.entries b.nal_initial_cpb_removal_delay)
        r.nal_initial_cpb_removal_delay
      nal_initial_cpb_removal_delay_offset := given c
        (firstEntries 0 q.vui.nal_hrd.entries b.nal_initial_cpb_removal_delay_offset) r.nal_initial_cpb_removal_delay_offset })
    (fun e => ?_) (by exact rfl) ?_
  · refine bpDelays_codes (fun i => ({ sps_id := b.sps_id
                                       nal_initial_cpb_removal_delay := firstEntries 0 i b.nal_initial_cpb_removal_delay
                                       nal_initial_cpb_removal_delay_offset :=
                                         firstEntries 0 i b.nal_initial_cpb_removal_delay_offset } : BufferingPeriod))
      (hn.resolve_left (by simp [e])) fun i => ?_
    simp [write_firstEntries]
  · refine Codes.congr (Codes.optEnd (bits := delayBits q.vui.vcl_hrd b.vcl_initial_cpb_removal_delay b.vcl_initial_cpb_removal_delay_offset)
      (fun c (r : BufferingPeriod) => { r with
      vcl_initial_cpb_removal_delay := given c (firstEntries 0 q.vui.vcl_hrd.entries b.vcl_initial_cpb_removal_delay)
        r.vcl_initial_cpb_removal_delay
      vcl_initial_cpb_removal_delay_offset := given c
        (firstEntries 0 q.vui.vcl_hrd.entries b.vcl_initial_cpb_removal_delay_offset) r.vcl_initial_cpb_removal_delay_offset })
      (fun e => ?_) ?_) rfl rfl ?_ rfl
    · refine bpDelays_codes (fun i => ({ sps_id := b.sps_id
                                         nal_initial_cpb_removal_delay := _
                                         nal_initial_cpb_removal_delay_offset := _
                                         vcl_initial_cpb_removal_delay := firstEntries 0 i b.vcl_initial_cpb_removal_delay
                                         vcl_initial_cpb_removal_delay_offset :=
                                           firstEntries 0 i b.vcl_initial_cpb_removal_delay_offset } : BufferingPeriod))
        (hv.resolve_left (by simp [e])) fun i => ?_
      simp [write_firstEntries]
    · rfl
    · rfl

theorem uBits_mod (n v : Nat) : uBits n (v % 2 ^ n) = uBits n v := by
  suffices h : ∀ m ≤ n, uBits m (v % 2 ^ n) = uBits m v from h n (Nat.le_refl n)
  intro m hm
  induction m with
  | zero => rfl
  | succ m ih => rw [uBits, uBits, ih (by omega), Nat.testBit_mod_two_pow]; simp [show m < n by omega]

theorem sextField_mod (n v : Nat) : sextField n (v % 2 ^ n) = sextField n v := by
  unfold sextField
  congr 1
  apply BitVec.eq_of_toNat_eq
  simp

theorem clockTimestamp_codes {c : ClockTimestamp} {tlen : Nat} (ok : c.codable tlen = true) :
    Codes (clockTimestamp tlen) (c.bits tlen) () {} (c.coded tlen) false := by
  unfold clockTimestamp ClockTimestamp.bits
  simp only [List.append_assoc]
  refine (uField_code c.ct_type).seq <| (Codes.elemFlag _).seq <| (uField_code c.counting_type).seq <|
    (Codes.elemFlag c.full_timestamp_flag).seq <| (Codes.elemFlag _).seq <| (Codes.elemFlag _).seq <|
    (uField_code c.n_frames).seq <| Codes.look ?_
  simp only [BitVec.ofNat_toNat, BitVec.setWidth_eq]
  have offset {r : ClockTimestamp} (e : r.time_offset = 0) : Codes (whenever (decide (0 < tlen)) (elemU tlen fun r v =>
      { r with time_offset := sextField tlen v })) (uBits tlen c.time_offset.toNat) () r
      { r with time_offset := given (tlen != 0) c.time_offset 0 } false := by
    by_cases h : tlen = 0
    · subst h; exact (Codes.pure ()).congr rfl rfl (by simp [← e]) rfl
    · have ok := ok
      simp only [ClockTimestamp.codable, Bool.or_eq_true, beq_iff_eq, h, false_or] at ok
      rw [show decide (0 < tlen) = true by simp; omega, ← uBits_mod]
      refine (Codes.elemU (Nat.mod_lt _ (Nat.two_pow_pos _))).congr rfl rfl ?_ rfl
      rw [sextField_mod, ← ok, show (tlen != 0) = true by simp [h]]
      rfl
  cases hf : c.full_timestamp_flag
  · simp only [Bool.false_eq_true, if_false, List.append_assoc]
    refine (Codes.elemFlag c.seconds_flag).seq <| Codes.look ?_
    refine Codes.opt (fun b (r : ClockTimestamp) => { r with
      seconds_value := given b c.seconds_value r.seconds_value
      minutes_flag := given b c.minutes_flag r.minutes_flag
      minutes_value := given (b && c.minutes_flag) c.minutes_value r.minutes_value
      hours_flag := given (b && c.minutes_flag) c.hours_flag r.hours_flag
      hours_value := given (b && c.minutes_flag && c.hours_flag) c.hours_value r.hours_value }) (fun _ => ?_) (by exact rfl) ?_
    · refine (uField_code c.seconds_value).seq <| (Codes.elemFlag c.minutes_flag).seq <| Codes.look ?_
      refine Codes.congr (Codes.optEnd (bits := uField c.minutes_value ++ ([c.hours_flag] ++ optBits c.hours_flag (uField c.hours_value)))
        (fun b (r : ClockTimestamp) => { r with
          minutes_value := given b c.minutes_value r.minutes_value
          hours_flag := given b c.hours_flag r.hours_flag
          hours_value := given (b && c.hours_flag) c.hours_value r.hours_value }) (fun _ => ?_) ?_) rfl rfl ?_ rfl
      · refine (uField_code c.minutes_value).seq <| (Codes.elemFlag c.hours_flag).seq <| Codes.look ?_
        refine Codes.congr (Codes.optEnd (bits := uField c.hours_value) (fun b (r : ClockTimestamp) => { r with
          hours_value := given b c.hours_value r.hours_value }) (fun _ => ?_) ?_) rfl rfl ?_ rfl
        · exact (uField_code c.hours_value).congr rfl rfl (by simp) rfl
        · rfl
        · simp
      · rfl
      · simp
    · refine (offset ?_).congr rfl rfl ?_ rfl
      · rfl
      · simp [ClockTimestamp.coded, hf]
  · simp only [if_true, List.append_assoc]
    refine (uField_code c.seconds_value).seq <| (uField_code c.minutes_value).seq <| (uField_code c.hours_value).seq <|
      (offset (by rfl)).congr rfl rfl ?_ rfl
    simp [ClockTimestamp.coded, hf]

theorem ptTimestamp_codes {t r : PicTiming} {tlen i : Nat} (ok : (Table.read t.clock_timestamp {} i).codable tlen = true)
    (hf : r.clock_timestamp_flag = firstEntries false i t.clock_timestamp_flag)
    (hc : r.clock_timestamp = tabulate {} i fun i => given (Table.read t.clock_timestamp_flag false i)
      ((Table.read t.clock_timestamp {} i).coded tlen) {}) :
    Codes (ptTimestamp tlen i) ([Table.read t.clock_timestamp_flag false i] ++
      optBits (Table.read t.clock_timestamp_flag false i) ((Table.read t.clock_timestamp {} i).bits tlen)) () r
      { r with
        clock_timestamp_flag := firstEntries false (i + 1) t.clock_timestamp_flag
        clock_timestamp := tabulate {} (i + 1) fun i => given (Table.read t.clock_timestamp_flag false i)
          ((Table.read t.clock_timestamp {} i).coded tlen) {} } false := by
  unfold ptTimestamp
  refine (Codes.elemFlag (Table.read t.clock_timestamp_flag false i)).seq <| Codes.look ?_
  simp only [hf, write_firstEntries]
  have hr : Table.read (firstEntries false (i + 1) t.clock_timestamp_flag) false i =
      Table.read t.clock_timestamp_flag false i := by rw [firstEntries, read_tabulate, if_pos (by omega)]
  rw [hr]
  refine Codes.congr (Codes.optEnd (bits := (Table.read t.clock_timestamp {} i).bits tlen) (fun b (r : PicTiming) => { r with
    clock_timestamp := given b (Table.write r.clock_timestamp {} i ((Table.read t.clock_timestamp {} i).coded tlen))
      r.clock_timestamp }) (fun _ => ?_) ?_) rfl rfl ?_ rfl
  · refine Codes.within ?_
    simp only [hc]
    rw [read_tabulate, if_neg (by omega)]
    exact clockTimestamp_codes ok
  · rfl
  · rw [PicTiming.mk.injEq]
    refine ⟨rfl, rfl, rfl, rfl, ?_⟩
    simp only [hc]
    have := write_tabulate (d := ({} : ClockTimestamp)) i fun i => given (Table.read t.clock_timestamp_flag false i)
      ((Table.read t.clock_timestamp {} i).coded tlen) {}
    rw [← this]
    cases h : Table.read t.clock_timestamp_flag false i
    · simp only [given_false]
      refine Table.ext_of_wf (wf_tabulate _ _) (Table.wf_write (wf_tabulate _ _)) fun j => ?_
      by_cases e : j = i
      · subst e; rw [Table.read_write_same (lo := 0) (wf_tabulate _ _), read_tabulate, if_neg (by omega)]
      · rw [Table.read_write_other e]
    · rfl

theorem ptDelays_codes {t : PicTiming} {h : Option Hrd} (ok : t.delayOk h = true) :
    Codes (ptDelays h) (t.delayBits h) () {}
      { cpb_removal_delay := given h.isSome t.cpb_removal_delay 0, dpb_output_delay := given h.isSome t.dpb_output_delay 0 }
      false := by
  cases h with
  | none => exact Codes.pure ()
  | some h =>
    simp only [PicTiming.delayOk, Bool.and_eq_true, decide_eq_true_eq] at ok
    exact (Codes.elemU ok.1).seq ((Codes.elemU ok.2).congr rfl rfl (by simp) rfl)

theorem picTiming_codes {t : PicTiming} {sps : Table Sps} {last : BitVec 6} (hl : noLastSps last = false)
    (ok : t.codable (spsSlot sps last.toNat).vui = true) :
    Codes (picTiming sps last) (t.bits (spsSlot sps last.toNat).vui) () {} (t.coded (spsSlot sps last.toNat).vui)
      false := by
  unfold picTiming PicTiming.bits PicTiming.coded
  generalize spsSlot sps last.toNat = q at *
  simp only [PicTiming.codable, Bool.and_eq_true, decide_eq_true_eq, rowOk_iff] at ok
  refine Codes.required (by simp [hl]) <| (ptDelays_codes ok.1.1).seq ?_
  refine Codes.congr (Codes.optEnd (bits := uField t.pic_struct ++ rowBits (numClockTs t.pic_struct.toNat) fun i =>
    [Table.read t.clock_timestamp_flag false i] ++ optBits (Table.read t.clock_timestamp_flag false i)
      ((Table.read t.clock_timestamp {} i).bits (timeOffsetLength (timingHrd q.vui)))) (fun b (r : PicTiming) => { r with
    pic_struct := given b t.pic_struct r.pic_struct
    clock_timestamp_flag := given b (firstEntries false (numClockTs t.pic_struct.toNat) t.clock_timestamp_flag) r.clock_timestamp_flag
    clock_timestamp := given b (tabulate {} (numClockTs t.pic_struct.toNat) fun i => given (Table.read t.clock_timestamp_flag false i)
      ((Table.read t.clock_timestamp {} i).coded (timeOffsetLength (timingHrd q.vui))) {}) r.clock_timestamp }) (fun _ => ?_) ?_) rfl rfl ?_ rfl
  · refine (uField_code t.pic_struct).seq <| Codes.look ?_
    simp only [BitVec.ofNat_toNat, BitVec.setWidth_eq]
    refine Codes.required (decide_eq_true ok.1.2) ?_
    refine (Codes.rows (fun n => ({
      cpb_removal_delay := _, dpb_output_delay := _
      pic_struct := t.pic_struct
      clock_timestamp_flag := firstEntries false n t.clock_timestamp_flag
      clock_timestamp := tabulate {} n fun i => given (Table.read t.clock_timestamp_flag false i)
        ((Table.read t.clock_timestamp {} i).coded (timeOffsetLength (timingHrd q.vui))) {} } : PicTiming)) _ fun i hi => ?_).congr
        rfl rfl rfl rfl
    exact ptTimestamp_codes (ok.2 i hi) rfl rfl
  · rfl
  · cases q.vui.pic_struct_present_flag <;> simp

theorem recoveryPoint_codes {t : RecoveryPoint} {sps : Table Sps} {last : BitVec 6} (hl : noLastSps last = false)
    (ok : t.recovery_frame_cnt.toNat + 1 ≤ (spsSlot sps last.toNat).max_frame_num.toNat) :
    Codes (recoveryPoint sps last) t.bits () {} t false := by
  unfold recoveryPoint RecoveryPoint.bits
  simp only [List.append_assoc]
  refine Codes.required (by simp [hl]) <| (ueField_code (x := t.recovery_frame_cnt) (by omega) (by omega)).seq <|
    (Codes.elemFlag t.exact_match_flag).seq <| (Codes.elemFlag t.broken_link_flag).seq <|
    (uField_code t.changing_slice_group_idc).congr rfl rfl (by simp) rfl

theorem stereoVideo_codes (v : StereoVideo) : Codes stereoVideo v.bits () {} v.coded false := by
  unfold stereoVideo StereoVideo.bits StereoVideo.coded
  simp only [List.append_assoc]
  refine (Codes.elemFlag v.field_views_flag).seq <| Codes.look ?_
  cases hf : v.field_views_flag
  · simp only [Bool.false_eq_true, if_false, List.append_assoc]
    refine (Codes.elemFlag _).seq <| (Codes.elemFlag _).seq <| (Codes.elemFlag _).seq <|
      (Codes.elemFlag v.right_view_self_contained_flag).congr rfl rfl (by simp) rfl
  · simp only [if_true]
    refine (Codes.elemFlag _).seq <| (Codes.elemFlag _).seq <|
      (Codes.elemFlag v.right_view_self_contained_flag).congr rfl rfl (by simp) rfl

theorem fpaArrangement_codes {f r : FramePacking} (ok : ueOk f.repetition_period = true)
    (e : r.frame0_grid_position_x = 0 ∧ r.frame0_grid_position_y = 0 ∧ r.frame1_grid_position_x = 0 ∧
      r.frame1_grid_position_y = 0) :
    Codes fpaArrangement (uField f.arrangement_type ++ ([f.quincunx_sampling_flag] ++
      (uField f.content_interpretation_type ++ ([f.spatial_flipping_flag] ++ ([f.frame0_flipped_flag] ++
      ([f.field_views_flag] ++ ([f.current_frame_is_frame0_flag] ++ ([f.frame0_self_contained_flag] ++
      ([f.frame1_self_contained_flag] ++
      (optBits (!f.quincunx_sampling_flag && f.arrangement_type != 5) (uField f.frame0_grid_position_x ++
        (uField f.frame0_grid_position_y ++ (uField f.frame1_grid_position_x ++ uField f.frame1_grid_position_y))) ++
      (uField f.reserved_byte ++ ueField f.repetition_period))))))))))) () r { r with
        arrangement_type := f.arrangement_type
        quincunx_sampling_flag := f.quincunx_sampling_flag
        content_interpretation_type := f.content_interpretation_type
        spatial_flipping_flag := f.spatial_flipping_flag
        frame0_flipped_flag := f.frame0_flipped_flag
        field_views_flag := f.field_views_flag
        current_frame_is_frame0_flag := f.current_frame_is_frame0_flag
        frame0_self_contained_flag := f.frame0_self_contained_flag
        frame1_self_contained_flag := f.frame1_self_contained_flag
        frame0_grid_position_x := given (!f.quincunx_sampling_flag && f.arrangement_type != 5) f.frame0_grid_position_x 0
        frame0_grid_position_y := given (!f.quincunx_sampling_flag && f.arrangement_type != 5) f.frame0_grid_position_y 0
        frame1_grid_position_x := given (!f.quincunx_sampling_flag && f.arrangement_type != 5) f.frame1_grid_position_x 0
        frame1_grid_position_y := given (!f.quincunx_sampling_flag && f.arrangement_type != 5) f.frame1_grid_position_y 0
        reserved_byte := f.reserved_byte
        repetition_period := f.repetition_period } false := by
  unfold fpaArrangement
  refine (uField_code f.arrangement_type).seq <| (Codes.elemFlag f.quincunx_sampling_flag).seq <|
    (uField_code f.content_interpretation_type).seq <| (Codes.elemFlag _).seq <| (Codes.elemFlag _).seq <|
    (Codes.elemFlag _).seq <| (Codes.elemFlag _).seq <| (Codes.elemFlag _).seq <| (Codes.elemFlag _).seq <| Codes.look ?_
  simp only [BitVec.ofNat_toNat, BitVec.setWidth_eq]
  refine Codes.opt (fun b (r : FramePacking) => { r with
      frame0_grid_position_x := given b f.frame0_grid_position_x r.frame0_grid_position_x
      frame0_grid_position_y := given b f.frame0_grid_position_y r.frame0_grid_position_y
      frame1_grid_position_x := given b f.frame1_grid_position_x r.frame1_grid_position_x
      frame1_grid_position_y := given b f.frame1_grid_position_y r.frame1_grid_position_y }) (fun _ => ?_) (by exact rfl) ?_
  · refine (uField_code f.frame0_grid_position_x).seq <| (uField_code f.frame0_grid_position_y).seq <|
      (uField_code f.frame1_grid_position_x).seq <| (uField_code f.frame1_grid_position_y).congr rfl rfl (by simp) rfl
  · refine (uField_code f.reserved_byte).seq <| (ueOk_code ok).congr rfl rfl ?_ rfl
    simp [e]

theorem fpaFields_codes {f : FramePacking} (ok : f.codable = true) : Codes fpaFields f.bits () {} f.coded false := by
  simp only [FramePacking.codable, Bool.and_eq_true] at ok
  unfold fpaFields
  unfold FramePacking.bits
  simp only [List.append_assoc]
  refine (ueOk_code ok.1).seq <| (Codes.elemFlag f.cancel_flag).seq <| Codes.look ?_
  simp only [BitVec.ofNat_toNat, BitVec.setWidth_eq]
  generalize hg : (!f.quincunx_sampling_flag && f.arrangement_type != 5) = g
  refine Codes.opt (fun b (r : FramePacking) => { r with
      arrangement_type := given b f.arrangement_type r.arrangement_type
      quincunx_sampling_flag := given b f.quincunx_sampling_flag r.quincunx_sampling_flag
      content_interpretation_type := given b f.content_interpretation_type r.content_interpretation_type
      spatial_flipping_flag := given b f.spatial_flipping_flag r.spatial_flipping_flag
      frame0_flipped_flag := given b f.frame0_flipped_flag r.frame0_flipped_flag
      field_views_flag := given b f.field_views_flag r.field_views_flag
      current_frame_is_frame0_flag := given b f.current_frame_is_frame0_flag r.current_frame_is_frame0_flag
      frame0_self_contained_flag := given b f.frame0_self_contained_flag r.frame0_self_contained_flag
      frame1_self_contained_flag := given b f.frame1_self_contained_flag r.frame1_self_contained_flag
      frame0_grid_position_x := given (b && g) f.frame0_grid_position_x r.frame0_grid_position_x
      frame0_grid_position_y := given (b && g) f.frame0_grid_position_y r.frame0_grid_position_y
      frame1_grid_position_x := given (b && g) f.frame1_grid_position_x r.frame1_grid_position_x
      frame1_grid_position_y := given (b && g) f.frame1_grid_position_y r.frame1_grid_position_y
      reserved_byte := given b f.reserved_byte r.reserved_byte
      repetition_period := given b f.repetition_period r.repetition_period }) (fun _ => ?_) (by exact rfl) ?_
  · rw [← hg]
    exact (fpaArrangement_codes ok.2 ⟨rfl, rfl, rfl, rfl⟩).congr rfl rfl (by simp) rfl
  · refine (Codes.elemFlag f.extension_flag).congr rfl rfl ?_ rfl
    simp [FramePacking.coded, FramePacking.hasGrid, ← hg, Bool.and_assoc]

theorem framePacking_runs {f : FramePacking} {start bits : Nat} {skip rest : List Bool} (ok : f.codable = true)
    (hs : if f.extension_flag then f.bits.length + skip.length = bits else skip = []) :
    Runs (framePacking start bits) start (f.bits ++ skip) rest () {} f.coded false := by
  unfold framePacking
  refine (fpaFields_codes ok).run <| Runs.look ?_
  rw [show f.coded.extension_flag = f.extension_flag from rfl]
  cases he : f.extension_flag
  · simp only [he, Bool.false_eq_true, if_false] at hs
    subst hs
    exact (Codes.pure ()).runs _ _
  · simp only [he, if_true] at hs
    refine Runs.reader fun fl w => ?_
    simp only [Nat.add_sub_cancel_left]
    refine Runs.required (decide_eq_true (by omega)) ?_
    rw [show bits - f.bits.length = skip.length by omega]
    exact (Codes.skipLong skip).runs _ _

/-! ## Messages -/

theorem padBits_codes (pad : List Bool) {r : SeiMsg} :
    Codes (padBits pad.length) pad () r r (pad.any id) := by
  induction pad with
  | nil => exact Codes.pure ()
  | cons b bs ih =>
    refine Codes.congr ((Codes.getFlag b).seq (b2 := bs) (Codes.warned ih)) rfl rfl rfl ?_
    cases b <;> simp [padBitWarns]

theorem trailingAlignment_runs {p : Nat} {pad rest : List Bool} {r : SeiMsg} (h : pad.length = bitsToAlign p) :
    Runs trailingAlignment p pad rest () r r (padWarns pad) := by
  unfold trailingAlignment
  refine Runs.reader fun f w => ?_
  simp only [← h]
  cases pad with
  | nil => exact (Codes.pure ()).runs _ _
  | cons b bs =>
    refine Codes.runs (Codes.congr ((Codes.getFlag b).seq (b2 := bs) (Codes.warned (padBits_codes bs))) rfl rfl rfl ?_) _ _
    cases b <;> simp [stopBitWarns, padWarns]

/-- The payload of a message, with the bits that are skipped (R340 to R356). -/
theorem seiPayload_runs {m r : SeiMsg} {x : SeiContext} {start n : Nat} {skip rest : List Bool}
    (ok : m.codable x = true) (hs : if m.skips then (m.bits x).length + skip.length = n else skip = [])
    (hr : r = { payload_type := m.payload_type, payload_size := m.payload_size }) :
    Runs (seiPayload x.sps x.last_sps start n m.payload_type.toNat) start (m.bits x ++ skip) rest () r (m.coded x)
      false := by
  subst hr
  unfold seiPayload
  unfold SeiMsg.codable at ok
  unfold SeiMsg.skips at hs
  unfold SeiMsg.coded
  unfold SeiMsg.bits at hs ⊢
  by_cases t0 : m.payload_type.toNat = 0
  · have k : kindOf m.payload_type.toNat = .bufferingPeriod := by simp [kindOf, t0]
    rw [k] at ok hs ⊢
    rw [if_pos t0]
    obtain rfl : skip = [] := by simpa using hs
    rw [List.append_nil]
    exact Runs.putThen <| Runs.within ((bufferingPeriod_codes ok).runs _ _)
  rw [if_neg t0]
  by_cases t1 : m.payload_type.toNat = 1
  · have k : kindOf m.payload_type.toNat = .picTiming := by simp [kindOf, t1]
    rw [k] at ok hs ⊢
    rw [if_pos t1]
    obtain rfl : skip = [] := by simpa using hs
    simp only [Bool.and_eq_true, Bool.not_eq_true'] at ok
    rw [List.append_nil]
    exact Runs.putThen <| Runs.within ((picTiming_codes ok.1 ok.2).runs _ _)
  rw [if_neg t1]
  by_cases t6 : m.payload_type.toNat = 6
  · have k : kindOf m.payload_type.toNat = .recoveryPoint := by simp [kindOf, t6]
    rw [k] at ok hs ⊢
    rw [if_pos t6]
    obtain rfl : skip = [] := by simpa using hs
    simp only [Bool.and_eq_true, Bool.not_eq_true', decide_eq_true_eq] at ok
    rw [List.append_nil]
    exact Runs.putThen <| Runs.within ((recoveryPoint_codes ok.1 ok.2).runs _ _)
  rw [if_neg t6]
  by_cases t21 : m.payload_type.toNat = 21
  · have k : kindOf m.payload_type.toNat = .stereoVideo := by simp [kindOf, t21]
    rw [k] at ok hs ⊢
    rw [if_pos t21]
    obtain rfl : skip = [] := by simpa using hs
    rw [List.append_nil]
    exact Runs.putThen <| Runs.within ((stereoVideo_codes m.sv).runs _ _)
  rw [if_neg t21]
  by_cases t45 : m.payload_type.toNat = 45
  · have k : kindOf m.payload_type.toNat = .framePacking := by simp [kindOf, t45]
    rw [k] at ok hs ⊢
    rw [if_pos t45]
    exact Runs.putThen <| Runs.within (framePacking_runs ok hs)
  rw [if_neg t45]
  have k : kindOf m.payload_type.toNat = .skipped := by simp [kindOf, t0, t1, t6, t21, t45]
  rw [k] at ok hs ⊢
  refine Runs.putThen ?_
  have h : skip.length = n := by simpa using hs
  rw [← h, List.nil_append]
  exact (Codes.skipLong skip).runs _ _

theorem seiMessage_runs {c : SeiCoding} {x : SeiContext} {p : Nat} {rest : List Bool} (hp : p % 8 = 0)
    (ok : c.codable x rest = true) :
    Runs (seiMessage x.sps x.last_sps) p (c.bits x) rest () {} (c.msg.coded x) (padWarns c.pad) := by
  simp only [SeiCoding.codable, Bool.and_eq_true, decide_eq_true_eq] at ok
  obtain ⟨⟨hm, hs⟩, hpad⟩ := ok
  unfold seiMessage SeiCoding.bits
  have ht := c.msg.payload_type.isLt
  have hz := c.msg.payload_size.isLt
  have hlen (v : Nat) : (seiCodeBits v).length % 8 = 0 := by simp [seiCodeBits]
  have payload (start : Nat) (f w : Bool) (hst : start % 8 = 0) : Runs (seiPayload x.sps x.last_sps start
      (min (8 * c.msg.payload_size.toNat) ((c.msg.bits x ++ c.skip ++ c.pad) ++ rest).length) c.msg.payload_type.toNat >>=
      fun _ => trailingAlignment) start (c.msg.bits x ++ c.skip ++ c.pad) rest ()
      { payload_type := c.msg.payload_type, payload_size := c.msg.payload_size } (c.msg.coded x) (padWarns c.pad) := by
    have h : if c.msg.skips then (c.msg.bits x).length + c.skip.length = min (8 * c.msg.payload_size.toNat)
        ((c.msg.bits x ++ c.skip ++ c.pad) ++ rest).length else c.skip = [] := by
      cases e : c.msg.skips
      · simpa [e] using hs
      · simpa [e, Nat.add_assoc] using hs
    refine Runs.congr ((seiPayload_runs hm h rfl).bind (trailingAlignment_runs ?_)) rfl rfl (by simp)
    rw [hpad, List.length_append]
    unfold bitsToAlign; omega
  simp only [List.append_assoc]
  refine Runs.congr (w := false || (false || padWarns c.pad)) ((seiCode_runs _ p _).bind <| Runs.required (decide_eq_true ht) <|
    Runs.bind (seiCode_runs _ _ _) <| Runs.required (decide_eq_true hz) <| Runs.putThen <| Runs.reader fun f w => ?_) rfl rfl ?_
  · simp only [BitVec.ofNat_toNat, BitVec.setWidth_eq]
    have := payload (p + (seiCodeBits c.msg.payload_type.toNat).length + (seiCodeBits c.msg.payload_size.toNat).length) f w
      (by have := hlen c.msg.payload_type.toNat; have := hlen c.msg.payload_size.toNat; omega)
    simp only [List.append_assoc] at this ⊢
    exact this
  · simp

theorem seiBits_cons (x : SeiContext) (c : SeiCoding) (cs : List SeiCoding) :
    seiBits x (c :: cs) = c.bits x ++ seiBits x cs := by simp [seiBits]

theorem SeiCoding.length_bits {c : SeiCoding} {x : SeiContext} {rest : List Bool} (ok : c.codable x rest = true) :
    (c.bits x).length % 8 = 0 := by
  simp only [SeiCoding.codable, Bool.and_eq_true, decide_eq_true_eq] at ok
  have h := ok.2
  have hlen (v : Nat) : (seiCodeBits v).length % 8 = 0 := by simp [seiCodeBits]
  have := hlen c.msg.payload_type.toNat
  have := hlen c.msg.payload_size.toNat
  unfold bitsToAlign at h
  simp only [SeiCoding.bits, List.length_append]
  omega

theorem write_ofList {α : Type} [DecidableEq α] {d : α} (l : List α) (v : α) :
    Table.write (Table.ofList d 0 l) d l.length v = Table.ofList d 0 (l ++ [v]) := by
  refine Table.ext_of_wf (Table.wf_write (Table.wf_ofList _)) (Table.wf_ofList _) fun j => ?_
  by_cases e : j = l.length
  · subst e; rw [Table.read_write_same (lo := 0) (Table.wf_ofList _), Table.read_ofList]; simp
  · rw [Table.read_write_other e, Table.read_ofList, Table.read_ofList, if_pos (Nat.zero_le _), if_pos (Nat.zero_le _)]
    rcases Nat.lt_or_gt_of_ne e with h | h
    · simp [List.getElem?_append, h]
    · simp [List.getElem?_append, show ¬ j < l.length by omega,
        List.getElem?_eq_none (l := [v]) (show [v].length ≤ j - l.length by simp; omega)]

theorem seiLoop_runs {x : SeiContext} (cs : List SeiCoding) (hne : cs ≠ []) {room p : Nat} {rest : List Bool} {r : SeiList}
    (done : List SeiCoding) (hp : p % 8 = 0) (hr : r = seiCoded x done) (hroom : cs.length ≤ room)
    (ok : seiCodable x cs rest = true) :
    Runs (seiLoop x.sps x.last_sps room) p (seiBits x cs) rest () r (seiCoded x (done ++ cs))
      (cs.any fun c => padWarns c.pad) := by
  induction cs generalizing room p r done with
  | nil => exact absurd rfl hne
  | cons c cs ih =>
    obtain ⟨room, rfl⟩ : ∃ k, room = k + 1 := ⟨room - 1, by simp at hroom; omega⟩
    simp only [seiCodable, Bool.and_eq_true, beq_iff_eq] at ok
    obtain ⟨⟨hc, hm⟩, hcs⟩ := ok
    unfold seiLoop
    rw [seiBits_cons]
    have step : ({ count := r.count + 1, msgs := Table.write r.msgs {} r.count (c.msg.coded x) } : SeiList) =
        seiCoded x (done ++ [c]) := by
      subst hr
      rw [seiCoded, seiCoded, SeiList.mk.injEq]
      refine ⟨by simp, ?_⟩
      rw [List.map_append, List.map_cons, List.map_nil, ← write_ofList, List.length_map]
    refine Runs.congr (w := padWarns c.pad || cs.any fun c => padWarns c.pad) (Runs.look ?_) rfl rfl rfl
    refine Runs.bind (a := ()) (r' := { r with msgs := Table.write r.msgs {} r.count (c.msg.coded x) })
      (Runs.within (get := fun _ : SeiList => ({} : SeiMsg))
        (set := fun (s : SeiList) m => { s with msgs := Table.write s.msgs {} r.count m }) (seiMessage_runs hp hc)) ?_
    refine Runs.putThen <| Runs.moreData ?_
    rw [hm]
    simp only [step]
    cases cs with
    | nil => exact (Codes.pure ()).runs _ _
    | cons d ds =>
      have := ih (by simp) (room := room) (p := p + (c.bits x).length) (done ++ [c])
        (by have := SeiCoding.length_bits hc; omega) rfl (by simpa using hroom) hcs
      simpa using this

end Sys2Proof.Machine
end

