-- ==== Sys2Proof/Laws/SliceCodes.lean ====
section
/-! SUPPORT. Sys2Proof/Laws/SliceCodes.lean: the parse of a slice header reads the bits of `Machine/Coding.lean`
back (44_slice.md). -/

namespace Sys2Proof.Machine

-- One theorem at a time: a thread for each, with check.sh's stack size, passes its memory limit.
set_option Elab.async false

/-! ## Modification lists (R280) -/

theorem ueOk_lt {x : BitVec 32} (h : ueOk x = true) : x.toNat < 4294967295 := by
  have : x.toNat ≠ 4294967295 := fun e => by
    simp only [ueOk, bne_iff_ne, ne_eq] at h; exact h (BitVec.eq_of_toNat_eq e)
  omega

/-- One entry of a modification list, while one more fits. -/
theorem rplmLoop_leads {mvc : Bool} {m n room : Nat} {x : Rplm} {r : RplmList} (ok : x.codable mvc m = true) :
    Leads (rplmLoop mvc m (room + 1) n) (ueField x.idc ++ ueField x.value) r (rplmLoop mvc m room (n + 1))
      { r with rplm := Table.write r.rplm {} n x } := by
  simp only [Rplm.codable, Bool.and_eq_true, Bool.or_eq_true, decide_eq_true_eq, beq_iff_eq] at ok
  have hi : x.idc.toNat ≤ 5 ∧ x.idc.toNat ≠ 3 ∧ (mvc = true ∨ x.idc.toNat ≤ 3) := by
    rcases ok.2 with (h | h) | ⟨h1, h | h⟩
    · omega
    · rw [h]; simp
    · rw [h]; simp [h1]
    · rw [h]; simp [h1]
  have hv : x.idc.toNat = 0 ∨ x.idc.toNat = 1 → (x.value.toNat : Int) ≤ (m : Int) - 1 := by
    rcases ok.2 with (h | h) | ⟨h1, h | h⟩
    · omega
    · rw [h]; simp
    · rw [h]; simp
    · rw [h]; simp
  rw [rplmLoop]
  refine (Codes.getUe (by omega)).leads <| Leads.required (by simpa using hi.1) ?_
  rw [if_neg hi.2.1]
  refine Leads.required (by simpa using hi.2.2) ?_
  refine Leads.congr ((Codes.getUe (ueOk_lt ok.1)).leads <| Leads.required (decide_eq_true hv) <| Leads.putThen <|
    Leads.refl _) (by simp [ueField]) (by simp)

theorem rplmLoop_codes {mvc : Bool} {m : Nat} {l r : RplmList} (n k room : Nat) (hk : k ≤ room)
    (ok : ∀ i, n ≤ i → i < n + k → (Table.read l.rplm {} i).codable mvc m = true)
    (hr : r.rplm = firstEntries {} n l.rplm) :
    Codes (rplmLoop mvc m room n) ((List.range' n k).flatMap (fun i =>
      ueField (Table.read l.rplm {} i).idc ++ ueField (Table.read l.rplm {} i).value) ++ ueBits 3) () r
      { r with n_ref_pic_list_modification := BitVec.ofNat 6 (n + k), rplm := firstEntries {} (n + k) l.rplm } false := by
  induction k generalizing n room r with
  | zero =>
    unfold rplmLoop
    refine Codes.seq (b1 := ueBits 3) (Codes.getUe (k := 3) (by omega)) <| Codes.required (by rfl) ?_
    rw [if_pos rfl]
    exact (Codes.put _).congr rfl rfl (by simp; exact hr) rfl
  | succ k ih =>
    obtain ⟨room, rfl⟩ : ∃ x, room = x + 1 := ⟨room - 1, by omega⟩
    rw [List.range'_succ, List.flatMap_cons, List.append_assoc]
    refine (rplmLoop_leads (ok n (by omega) (by omega))).codes ?_
    rw [hr, write_firstEntries]
    refine (ih (n + 1) room (by omega) (fun i a b => ok i (by omega) (by omega)) rfl).congr rfl rfl ?_ rfl
    simp [show n + 1 + k = n + (k + 1) by omega]

theorem rplmList_codes {mvc : Bool} {m : Nat} {l : RplmList} (ok : l.codable mvc m = true) :
    Codes (rplmList mvc m) l.bits () {} l.coded false := by
  simp only [RplmList.codable, Bool.and_eq_true, decide_eq_true_eq, rowOk_iff] at ok
  unfold rplmList RplmList.bits RplmList.entryBits
  refine (Codes.elemFlag _).seq <| Codes.look ?_
  refine (Codes.optEnd (fun b (r : RplmList) => { r with
    n_ref_pic_list_modification := given b l.n_ref_pic_list_modification r.n_ref_pic_list_modification
    rplm := given b (firstEntries {} l.n_ref_pic_list_modification.toNat l.rplm) r.rplm }) (fun _ => ?_) rfl).congr
      rfl rfl ?_ rfl
  · rw [rowBits, List.range_eq_range']
    refine (rplmLoop_codes (l := l) 0 l.n_ref_pic_list_modification.toNat _ ok.1
      (fun i _ h => ok.2 i (by omega)) rfl).congr rfl rfl ?_ rfl
    simp
  · unfold RplmList.coded
    cases h : l.ref_pic_list_modification_flag <;> simp

/-! ## Marking (R290) -/

theorem ueWhere_code {R : Type} {r : R} {b : Bool} {x : BitVec 32} (h : ueOk x = true) :
    Codes (ueWhere b) (optBits b (ueField x)) (given b x 0).toNat r r false := by
  cases b
  · exact Codes.pure 0
  · exact Codes.getUe (ueOk_lt h)

/-- One memory-management operation, while one more fits. -/
theorem mmcoLoop_leads {n room : Nat} {x : Mmco} {r : Drpm} (ok : x.codable = true) :
    Leads (mmcoLoop (room + 1) n) x.bits r (mmcoLoop room (n + 1)) { r with mmco := Table.write r.mmco {} n x.coded } := by
  simp only [Mmco.codable, Bool.and_eq_true, decide_eq_true_eq] at ok
  obtain ⟨⟨⟨⟨⟨h1, h6⟩, hd⟩, hp⟩, hf⟩, hm⟩ := ok
  rw [mmcoLoop]
  simp only [Mmco.bits, List.append_assoc]
  have e (v : Nat) (hv : v < 8) : (x.op.toNat == v) = (x.op == BitVec.ofNat 3 v) := by
    rw [Bool.eq_iff_iff]; simp only [beq_iff_eq]
    constructor
    · intro h; apply BitVec.eq_of_toNat_eq; simp; omega
    · intro h; rw [h]; simp; omega
  refine (Codes.getUe (by omega)).leads <| Leads.required (by simpa using h6) ?_
  rw [if_neg (by omega)]
  simp only [e 1 (by omega), e 2 (by omega), e 3 (by omega), e 4 (by omega), e 6 (by omega)]
  refine Leads.congr ((ueWhere_code hd).leads <| (ueWhere_code hp).leads <| (ueWhere_code hf).leads <|
    (ueWhere_code hm).leads <| Leads.putThen <| Leads.refl _) (by simp) (by simp [Mmco.coded])

theorem mmcoLoop_codes {d r : Drpm} (n k room : Nat) (hk : k ≤ room)
    (ok : ∀ i, n ≤ i → i < n + k → (Table.read d.mmco {} i).codable = true)
    (hr : r.mmco = tabulate {} n fun i => (Table.read d.mmco {} i).coded) :
    Codes (mmcoLoop room n) ((List.range' n k).flatMap (fun i => (Table.read d.mmco {} i).bits) ++ ueBits 0) () r
      { r with n_ref_pic_marking := BitVec.ofNat 4 (n + k)
               mmco := tabulate {} (n + k) fun i => (Table.read d.mmco {} i).coded } false := by
  induction k generalizing n room r with
  | zero =>
    unfold mmcoLoop
    refine Codes.seq (b1 := ueBits 0) (Codes.getUe (k := 0) (by omega)) <| Codes.required (by rfl) ?_
    rw [if_pos rfl]
    exact (Codes.put _).congr rfl rfl (by simp; exact hr) rfl
  | succ k ih =>
    obtain ⟨room, rfl⟩ : ∃ x, room = x + 1 := ⟨room - 1, by omega⟩
    rw [List.range'_succ, List.flatMap_cons, List.append_assoc]
    refine (mmcoLoop_leads (ok n (by omega) (by omega))).codes ?_
    refine (ih (r := { r with mmco := Table.write r.mmco {} n (Table.read d.mmco {} n).coded }) (n + 1) room (by omega)
      (fun i a b => ok i (by omega) (by omega)) (by rw [hr]; exact write_tabulate n _)).congr rfl rfl ?_ rfl
    simp [show n + 1 + k = n + (k + 1) by omega]

theorem refPicMarking_codes {d : Drpm} {idr : Bool} (ok : d.codable = true) :
    Codes (refPicMarking idr) (d.bits idr) () {} (d.coded idr) false := by
  simp only [Drpm.codable, Bool.and_eq_true, decide_eq_true_eq, rowOk_iff] at ok
  unfold refPicMarking Drpm.bits Drpm.opBits Drpm.coded
  cases idr
  · simp only [Bool.false_eq_true, if_false]
    refine (Codes.elemFlag _).seq <| Codes.look ?_
    refine (Codes.optEnd (fun b (r : Drpm) => { r with
      n_ref_pic_marking := given b d.n_ref_pic_marking r.n_ref_pic_marking
      mmco := given b (tabulate {} d.n_ref_pic_marking.toNat fun i => (Table.read d.mmco {} i).coded) r.mmco })
        (fun _ => ?_) rfl).congr rfl rfl ?_ rfl
    · rw [rowBits, List.range_eq_range']
      refine (mmcoLoop_codes (d := d) 0 d.n_ref_pic_marking.toNat _ ok.1
        (fun i _ h => ok.2 i (by omega)) rfl).congr rfl rfl ?_ rfl
      simp
    · cases h : d.adaptive_ref_pic_marking_mode_flag <;> simp
  · simp only [if_true]
    exact Codes.seq (b1 := [d.no_output_of_prior_pics_flag]) (Codes.elemFlag _) (Codes.elemFlag _)

/-! ## Weights (R285) -/

theorem seIn_of_width {x : BitVec 8} : seIn (-128) 127 x = true := by
  have := @BitVec.le_toInt 8 x
  have := @BitVec.toInt_lt 8 x
  exact decide_eq_true (by omega)

/-- The defaults of every entry. -/
theorem pwtDefaults_codes (ld cd n : Nat) :
    Codes (loopFrom (pwtDefault ld cd) n 0) [] () {}
      { luma_weight := tabulate 0 n fun _ => BitVec.ofNat 16 (2 ^ ld)
        luma_offset := tabulate 0 n fun _ => 0
        chroma_weight := tabulate [] n fun _ => tabulate 0 2 fun _ => BitVec.ofNat 16 (2 ^ cd)
        chroma_offset := tabulate [] n fun _ => tabulate 0 2 fun _ => 0 } false := by
  refine (Codes.rows (g := fun _ => []) (fun n => ({
        luma_weight := tabulate 0 n fun _ => BitVec.ofNat 16 (2 ^ ld)
        luma_offset := tabulate 0 n fun _ => 0
        chroma_weight := tabulate [] n fun _ => tabulate 0 2 fun _ => BitVec.ofNat 16 (2 ^ cd)
        chroma_offset := tabulate [] n fun _ => tabulate 0 2 fun _ => 0 } : PwtList)) n fun i hi => ?_).congr
    (by simp [rowBits]) rfl rfl rfl
  refine (Codes.put _).congr rfl rfl ?_ rfl
  rw [PwtList.mk.injEq]
  exact ⟨write_tabulate i _, write_tabulate i _, write_tabulate i _, write_tabulate i _⟩

theorem beq_one_toNat (b : Bool) : (b.toNat == 1) = b := by cases b <;> rfl

/-- The weights of the first `k` of `n` entries, the defaults for the others. -/
def PwtList.upTo (l : PwtList) (f : WeightFlags) (ld cd : Nat) (c : Bool) (n k : Nat) : PwtList :=
  { luma_weight := tabulate 0 n fun i =>
      given (decide (i < k) && f.luma.getD i false) (Table.read l.luma_weight 0 i) (BitVec.ofNat 16 (2 ^ ld))
    luma_offset := tabulate 0 n fun i => given (decide (i < k) && f.luma.getD i false) (Table.read l.luma_offset 0 i) 0
    chroma_weight := tabulate [] n fun i => tabulate 0 2 fun j =>
      given (decide (i < k) && c && f.chroma.getD i false) (rowEntry l.chroma_weight i j) (BitVec.ofNat 16 (2 ^ cd))
    chroma_offset := tabulate [] n fun i => tabulate 0 2 fun j =>
      given (decide (i < k) && c && f.chroma.getD i false) (rowEntry l.chroma_offset i j) 0 }

/-- A write of entry `k`, made where `b` holds. -/
theorem write_upTo {α : Type} [DecidableEq α] {d : α} {n k : Nat} (hk : k < n) (b : Bool) (g : Nat → Bool) (v e : Nat → α)
    (hb : g k = b) :
    given b (Table.write (tabulate d n fun i => given (decide (i < k) && g i) (v i) (e i)) d k (v k))
        (tabulate d n fun i => given (decide (i < k) && g i) (v i) (e i)) =
      tabulate d n fun i => given (decide (i < k + 1) && g i) (v i) (e i) := by
  subst hb
  cases h : g k
  · refine tabulate_congr fun i hi => ?_
    by_cases hik : i = k
    · subst hik; simp [h]
    · simp [show (i < k + 1) = (i < k) by simp; omega]
  · rw [given_true, write_tabulate_at _ _ hk]
    refine tabulate_congr fun i hi => ?_
    by_cases hik : i = k
    · subst hik; simp [h]
    · simp [hik, show (i < k + 1) = (i < k) by simp; omega]

theorem writeRow_writeRow {w k : Nat} {a : Table (Table (BitVec w))} {u v : BitVec w} (h : Table.wf [] a = true) :
    writeRow (writeRow a k 0 u) k 1 v =
      Table.write a [] k (Table.write (Table.write (Table.read a [] k) 0 0 u) 0 1 v) := by
  unfold writeRow
  rw [Table.read_write_same (lo := 0) h, Table.write_write h]

/-- A row of two entries. -/
theorem write_pair {w : Nat} {g : Nat → BitVec w} {t : Table (BitVec w)} (e : Nat → BitVec w) (h : t = tabulate 0 2 e) :
    Table.write (Table.write t 0 0 (g 0)) 0 1 (g 1) = tabulate 0 2 g := by
  rw [h, write_tabulate_at _ _ (by omega), write_tabulate_at _ _ (by omega)]
  refine tabulate_congr fun i hi => ?_
  obtain rfl | rfl : i = 0 ∨ i = 1 := by omega
  · simp
  · simp

theorem tabulate_given {w : Nat} (b : Bool) (n : Nat) (v e : Nat → BitVec w) :
    (tabulate 0 n fun j => given b (v j) (e j)) = given b (tabulate 0 n v) (tabulate 0 n e) := by cases b <;> rfl

theorem pwtEntry_codes {l : PwtList} {f : WeightFlags} {ld cd n k : Nat} {c : Bool} (hk : k < n)
    (h1 : seIn (-128) 127 (Table.read l.luma_weight 0 k) = true) (h2 : seIn (-128) 127 (rowEntry l.chroma_weight k 0) = true)
    (h3 : seIn (-128) 127 (rowEntry l.chroma_weight k 1) = true) :
    Codes (pwtEntry c k) ([f.luma.getD k false] ++
      (optBits (f.luma.getD k false) (seField (Table.read l.luma_weight 0 k) ++ seField (Table.read l.luma_offset 0 k)) ++
      optBits c ([f.chroma.getD k false] ++ optBits (f.chroma.getD k false)
      (seField (rowEntry l.chroma_weight k 0) ++ (seField (rowEntry l.chroma_offset k 0) ++
        (seField (rowEntry l.chroma_weight k 1) ++ seField (rowEntry l.chroma_offset k 1))))))) ()
      (l.upTo f ld cd c n k) (l.upTo f ld cd c n (k + 1)) false := by
  unfold pwtEntry
  refine (Codes.getFlag _).seq ?_
  simp only [beq_one_toNat]
  refine Codes.opt (fun b (r : PwtList) => { r with
      luma_weight := given b (Table.write r.luma_weight 0 k (Table.read l.luma_weight 0 k)) r.luma_weight
      luma_offset := given b (Table.write r.luma_offset 0 k (Table.read l.luma_offset 0 k)) r.luma_offset })
    (fun _ => ?_) rfl ?_
  · refine (seIn_code h1 (by omega) (by omega)).seq <| (seIn_code seIn_of_width (by omega) (by omega)).congr rfl rfl ?_ rfl
    simp
  · refine (Codes.optEnd (fun b (r : PwtList) => { r with
        chroma_weight := given (b && f.chroma.getD k false) (Table.write r.chroma_weight [] k
          (tabulate 0 2 fun j => rowEntry l.chroma_weight k j)) r.chroma_weight
        chroma_offset := given (b && f.chroma.getD k false) (Table.write r.chroma_offset [] k
          (tabulate 0 2 fun j => rowEntry l.chroma_offset k j)) r.chroma_offset }) (fun _ => ?_) (by rfl)).congr rfl rfl ?_ rfl
    · refine (Codes.getFlag _).seq ?_
      simp only [beq_one_toNat]
      refine (Codes.optEnd (fun b (r : PwtList) => { r with
        chroma_weight := given b (Table.write r.chroma_weight [] k
          (tabulate 0 2 fun j => rowEntry l.chroma_weight k j)) r.chroma_weight
        chroma_offset := given b (Table.write r.chroma_offset [] k
          (tabulate 0 2 fun j => rowEntry l.chroma_offset k j)) r.chroma_offset }) (fun _ => ?_) (by rfl)).congr rfl rfl
          (by simp) rfl
      refine Codes.congr (((seIn_code h2 (by omega) (by omega)).seq
        (seIn_code (x := rowEntry l.chroma_offset k 0) seIn_of_width (by omega) (by omega))).seq
        ((seIn_code h3 (by omega) (by omega)).seq
          (seIn_code (x := rowEntry l.chroma_offset k 1) seIn_of_width (by omega) (by omega)))) (by simp) rfl ?_ rfl
      simp only [BitVec.ofInt_toInt, given_true, PwtList.upTo]
      rw [writeRow_writeRow (wf_tabulate _ _), writeRow_writeRow (wf_tabulate _ _), read_tabulate, read_tabulate,
        if_pos hk, if_pos hk, write_pair (g := fun j => rowEntry l.chroma_weight k j) _ rfl,
        write_pair (g := fun j => rowEntry l.chroma_offset k j) _ rfl]
    · rw [PwtList.upTo, PwtList.upTo, PwtList.mk.injEq]
      refine ⟨write_upTo hk _ _ _ _ rfl, write_upTo hk _ _ _ _ rfl, ?_, ?_⟩
      · simp only [tabulate_given, Bool.and_assoc]
        exact write_upTo hk _ _ _ _ rfl
      · simp only [tabulate_given, Bool.and_assoc]
        exact write_upTo hk _ _ _ _ rfl

theorem pwtList_codes {l : PwtList} {f : WeightFlags} {ld cd n : Nat} {c : Bool} (ok : l.codable n = true) :
    Codes (pwtList ld cd c n) (l.bits f c n) () {} (l.coded f ld cd c n) false := by
  simp only [PwtList.codable, Bool.and_eq_true, rowOk_iff] at ok
  unfold pwtList PwtList.bits
  refine Codes.congr ((pwtDefaults_codes ld cd n).seq <| (Codes.rows (fun k => l.upTo f ld cd c n k) n fun k hk =>
    pwtEntry_codes hk (ok k hk).1.1 (ok k hk).1.2 (ok k hk).2).congr rfl rfl ?_ rfl) (by simp) rfl rfl rfl
  rw [PwtList.upTo, PwtList.coded, PwtList.mk.injEq]
  refine ⟨?_, ?_, ?_, ?_⟩ <;> exact tabulate_congr fun i hi => by simp [hi]

theorem predWeightTable_codes {t : Pwt} {f : WeightFlagPair} {c isB : Bool} {n0 n1 : Nat}
    (ok0 : t.l0.codable n0 = true) (ok1 : t.l1.codable n1 = true) :
    Codes (predWeightTable c isB n0 n1) (t.bits f c isB n0 n1) () {} (t.coded f c isB n0 n1) false := by
  unfold predWeightTable Pwt.bits Pwt.coded
  simp only [List.append_assoc]
  refine (ueField_code (by omega) (by omega)).seq <| Codes.opt (fun b (r : Pwt) => { r with
    chroma_log2_weight_denom := given b t.chroma_log2_weight_denom r.chroma_log2_weight_denom }) (fun _ => ?_) (by rfl) <|
    Codes.look ?_
  · refine (ueField_code (by omega) (by omega)).congr rfl rfl ?_ rfl
    simp
  simp only [BitVec.ofNat_toNat, BitVec.setWidth_eq]
  refine Codes.seq (a := ()) (Codes.within (pwtList_codes ok0)) ?_
  refine Codes.congr (Codes.optEnd (fun b (r : Pwt) => { r with
    l1 := given b (t.l1.coded f.l1 t.luma_log2_weight_denom.toNat
      (given c t.chroma_log2_weight_denom 0).toNat c n1) r.l1 }) (fun _ => ?_) ?_) rfl rfl rfl rfl
  · exact Codes.within (pwtList_codes ok1)
  · rfl

/-! ## The header (R274) -/

theorem sliceFrameNum_codes {r s : Slice} {x : SliceContext} (hc : r.colour_plane_id.toNat ≤ 2)
    (hf : r.frame_num.toNat < 2 ^ (x.sps.log2_max_frame_num_minus4.toNat + 4)) (e1 : s.colour_plane_id = 0)
    (e2 : s.field_pic_flag = false) (e3 : s.bottom_field_flag = false) :
    Codes (sliceFrameNum x.sps) (r.frameBits x) () s { s with
      colour_plane_id := given x.sps.separate_colour_plane_flag r.colour_plane_id 0
      frame_num := r.frame_num
      field_pic_flag := r.isField x
      max_pic_num := r.maxPicNum x
      bottom_field_flag := r.isField x && r.bottom_field_flag } false := by
  unfold sliceFrameNum Slice.frameBits
  simp only [List.append_assoc]
  refine Codes.opt (fun b (s : Slice) => { s with colour_plane_id := given b r.colour_plane_id s.colour_plane_id })
    (fun _ => ?_) (by exact rfl) <| (Codes.elemU hf).seq <| Codes.opt (fun b (s : Slice) => { s with
      field_pic_flag := given b r.field_pic_flag s.field_pic_flag }) (fun _ => ?_) (by exact rfl) <| Codes.putThen <|
      Codes.look ?_
  · refine Codes.congr ((uField_code r.colour_plane_id).seq <| Codes.look <| Codes.require _ (by simpa using hc))
      (by simp) rfl (by simp) rfl
  · refine (Codes.elemFlag r.field_pic_flag).congr rfl rfl rfl rfl
  · simp only [e1, e2, given_bool_false, BitVec.ofNat_toNat, BitVec.setWidth_eq]
    refine Codes.congr (Codes.optEnd (bits := [r.bottom_field_flag]) (fun b (s : Slice) => { s with
      bottom_field_flag := given b r.bottom_field_flag s.bottom_field_flag }) (fun _ => ?_) ?_) rfl rfl ?_ rfl
    · exact Codes.elemFlag _
    · rfl
    · simp [Slice.isField, Slice.maxPicNum, e3]

theorem slicePicOrder_codes {r s : Slice} {x : SliceContext} (hs : s.field_pic_flag = r.isField x)
    (ht : s.slice_type = r.slice_type)
    (hl : r.pic_order_cnt_lsb.toNat < 2 ^ (x.sps.log2_max_pic_order_cnt_lsb_minus4.toNat + 4))
    (hb : seOk r.delta_pic_order_cnt_bottom = true) (h0 : seOk (Table.read r.delta_pic_order_cnt 0 0) = true)
    (h1 : seOk (Table.read r.delta_pic_order_cnt 0 1) = true) (e1 : s.idr_pic_id = 0) (e2 : s.pic_order_cnt_lsb = 0)
    (e3 : s.delta_pic_order_cnt_bottom = 0) (e4 : s.delta_pic_order_cnt = []) (e5 : s.redundant_pic_cnt = 0)
    (e6 : s.direct_spatial_mv_pred_flag = false) :
    Codes (slicePicOrder x.nalu x.pps x.sps) (r.orderBits x) () s { s with
      idr_pic_id := given x.nalu.idr_pic_flag r.idr_pic_id 0
      pic_order_cnt_lsb := given (x.sps.pic_order_cnt_type == 0) r.pic_order_cnt_lsb 0
      delta_pic_order_cnt_bottom := given (x.sps.pic_order_cnt_type == 0 && r.bothFields x) r.delta_pic_order_cnt_bottom 0
      delta_pic_order_cnt := tabulate 0 2 fun i =>
        given (x.deltas && (i == 0 || r.bothFields x)) (Table.read r.delta_pic_order_cnt 0 i) 0
      redundant_pic_cnt := given x.pps.redundant_pic_cnt_present_flag r.redundant_pic_cnt 0
      direct_spatial_mv_pred_flag := r.isB && r.direct_spatial_mv_pred_flag } false := by
  unfold slicePicOrder Slice.orderBits
  simp only [List.append_assoc]
  refine Codes.opt (fun b (s : Slice) => { s with idr_pic_id := given b r.idr_pic_id s.idr_pic_id })
    (fun _ => ?_) (by exact rfl) <| Codes.look ?_
  · exact (ueField_code (x := r.idr_pic_id) (by omega) (by omega)).congr rfl rfl (by simp) rfl
  have hbf : (x.pps.bottom_field_pic_order_in_frame_present_flag && !s.field_pic_flag) = r.bothFields x := by
    rw [hs]; rfl
  simp only [hbf]
  refine Codes.opt (fun b (s : Slice) => { s with
      pic_order_cnt_lsb := given b r.pic_order_cnt_lsb s.pic_order_cnt_lsb
      delta_pic_order_cnt_bottom := given (b && r.bothFields x) r.delta_pic_order_cnt_bottom s.delta_pic_order_cnt_bottom })
    (fun _ => ?_) (by exact rfl) <| Codes.opt (fun b (s : Slice) => { s with
      delta_pic_order_cnt := given b (tabulate 0 2 fun i =>
        given (i == 0 || r.bothFields x) (Table.read r.delta_pic_order_cnt 0 i) 0) s.delta_pic_order_cnt })
    (fun _ => ?_) (by exact rfl) <| Codes.opt (fun b (s : Slice) => { s with
      redundant_pic_cnt := given b r.redundant_pic_cnt s.redundant_pic_cnt }) (fun _ => ?_) (by exact rfl) <| Codes.look ?_
  · refine (Codes.elemU hl).seq <| (Codes.optEnd (fun b (s : Slice) => { s with
      delta_pic_order_cnt_bottom := given b r.delta_pic_order_cnt_bottom s.delta_pic_order_cnt_bottom })
      (fun _ => ?_) (by exact rfl)).congr rfl rfl (by simp) rfl
    exact (seOk_code hb).congr rfl rfl (by simp) rfl
  · refine (seOk_code h0).seq <| Codes.congr (Codes.optEnd (bits := seField (Table.read r.delta_pic_order_cnt 0 1))
      (fun b (s : Slice) => { s with
      delta_pic_order_cnt := given b (Table.write s.delta_pic_order_cnt 0 1 (Table.read r.delta_pic_order_cnt 0 1))
        s.delta_pic_order_cnt }) (fun _ => ?_) ?_) rfl rfl ?_ rfl
    · exact (seOk_code h1).congr rfl rfl (by simp) rfl
    · rfl
    · simp only [e4, BitVec.ofInt_toInt, given_true, Slice.mk.injEq, and_true, true_and]
      cases r.bothFields x
      · rfl
      · simp only [Bool.or_true, given_true]
        exact write_pair (g := fun i => Table.read r.delta_pic_order_cnt 0 i) (fun _ => 0) rfl
  · exact (ueField_code (x := r.redundant_pic_cnt) (by omega) (by omega)).congr rfl rfl (by simp) rfl
  · have hB : s.isB = r.isB := by simp [Slice.isB, ht]
    refine Codes.congr (Codes.optEnd (bits := [r.direct_spatial_mv_pred_flag]) (fun b (s : Slice) => { s with
      direct_spatial_mv_pred_flag := given b r.direct_spatial_mv_pred_flag s.direct_spatial_mv_pred_flag })
      (fun _ => ?_) ?_) ?_ rfl ?_ rfl
    · exact Codes.elemFlag _
    · rfl
    · change optBits s.isB _ = _
      rw [hB]
    · simp only [e1, e2, e3, e4, e5, e6, given_bool_false, Slice.mk.injEq, and_true, true_and]
      refine ⟨?_, ?_⟩
      · change given x.deltas _ _ = _
        cases x.deltas
        · rfl
        · simp
      · change (s.isB && _) = _
        rw [hB]

/-- The slice type decides the type classes. -/
theorem Slice.classes {r s : Slice} (h : s.slice_type = r.slice_type) :
    s.isP = r.isP ∧ s.isB = r.isB ∧ s.isI = r.isI ∧ s.isSP = r.isSP ∧ s.isSI = r.isSI := by
  simp [Slice.isP, Slice.isB, Slice.isI, Slice.isSP, Slice.isSI, h]

theorem sliceRefCounts_codes {r s : Slice} {x : SliceContext} (ht : s.slice_type = r.slice_type)
    (e1 : s.num_ref_idx_active_override_flag = false) :
    Codes (sliceRefCounts x.pps) (optBits r.inter ([r.num_ref_idx_active_override_flag] ++
      optBits r.num_ref_idx_active_override_flag
        (ueField r.num_ref_idx_l0_active_minus1 ++ optBits r.isB (ueField r.num_ref_idx_l1_active_minus1)))) () s { s with
      num_ref_idx_active_override_flag := r.overrides
      num_ref_idx_l0_active_minus1 := r.count0 x
      num_ref_idx_l1_active_minus1 := r.count1 x } false := by
  unfold sliceRefCounts
  refine Codes.putThen <| Codes.look ?_
  obtain ⟨hP, hB, -, hSP, -⟩ := Slice.classes ht
  change Codes (whenever (s.isP || s.isSP || s.isB) _) _ _ _ _ _
  rw [hP, hB, hSP]
  refine Codes.congr (Codes.optEnd (fun b (s : Slice) => { s with
    num_ref_idx_active_override_flag := given b r.num_ref_idx_active_override_flag s.num_ref_idx_active_override_flag
    num_ref_idx_l0_active_minus1 := given (b && r.num_ref_idx_active_override_flag) r.num_ref_idx_l0_active_minus1
      s.num_ref_idx_l0_active_minus1
    num_ref_idx_l1_active_minus1 := given (b && r.num_ref_idx_active_override_flag && r.isB)
      r.num_ref_idx_l1_active_minus1 s.num_ref_idx_l1_active_minus1 }) (fun _ => ?_) ?_) rfl rfl ?_ rfl
  · refine (Codes.elemFlag r.num_ref_idx_active_override_flag).seq <| Codes.look ?_
    refine (Codes.optEnd (fun b (s : Slice) => { s with
      num_ref_idx_l0_active_minus1 := given b r.num_ref_idx_l0_active_minus1 s.num_ref_idx_l0_active_minus1
      num_ref_idx_l1_active_minus1 := given (b && r.isB) r.num_ref_idx_l1_active_minus1 s.num_ref_idx_l1_active_minus1 })
      (fun _ => ?_) (by exact rfl)).congr rfl rfl (by simp) rfl
    refine (ueField_code (by omega) (by omega)).seq ?_
    change Codes (whenever s.isB _) _ _ _ _ _
    rw [hB]
    refine Codes.congr (Codes.optEnd (bits := ueField r.num_ref_idx_l1_active_minus1) (fun b (s : Slice) => { s with
      num_ref_idx_l1_active_minus1 := given b r.num_ref_idx_l1_active_minus1 s.num_ref_idx_l1_active_minus1 })
      (fun _ => ?_) ?_) rfl rfl ?_ rfl
    · exact (ueField_code (by omega) (by omega)).congr rfl rfl (by simp) rfl
    · rfl
    · simp
  · rfl
  · simp [e1, Slice.overrides, Slice.inter, Slice.count0, Slice.count1]

theorem sliceModification_codes {r s : Slice} {n : Nalu} {m : Nat} (ht : s.slice_type = r.slice_type)
    (hm : s.max_pic_num.toNat = m) (h0 : r.mod_l0.codable (n.extension_type == .mvc) m = true)
    (h1 : r.mod_l1.codable (n.extension_type == .mvc) m = true) (e1 : s.mod_l0 = {}) (e2 : s.mod_l1 = {}) :
    Codes (sliceModification n) (optBits (!r.isI && !r.isSI) r.mod_l0.bits ++ optBits r.isB r.mod_l1.bits) () s { s with
      mod_l0 := given (!r.isI && !r.isSI) r.mod_l0.coded {}
      mod_l1 := given r.isB r.mod_l1.coded {} } false := by
  unfold sliceModification
  refine Codes.look ?_
  obtain ⟨-, hB, hI, -, hSI⟩ := Slice.classes ht
  simp only [hB, hI, hSI, hm]
  refine Codes.opt (fun b (s : Slice) => { s with mod_l0 := given b r.mod_l0.coded s.mod_l0 }) (fun _ => ?_)
    (by exact rfl) ?_
  · refine Codes.within ?_
    simp only [e1]
    exact rplmList_codes h0
  · refine Codes.congr (Codes.optEnd (bits := r.mod_l1.bits) (fun b (s : Slice) => { s with
      mod_l1 := given b r.mod_l1.coded s.mod_l1 }) (fun _ => ?_) ?_) rfl rfl ?_ rfl
    · refine Codes.within ?_
      simp only [e2]
      exact rplmList_codes h1
    · rfl
    · simp [e1, e2]

theorem sliceWeights_codes {r s : Slice} {x : SliceContext} {f : WeightFlagPair} (ht : s.slice_type = r.slice_type)
    (c0 : s.num_ref_idx_l0_active_minus1 = r.count0 x) (c1 : s.num_ref_idx_l1_active_minus1 = r.count1 x)
    (h0 : r.pwt.l0.codable ((r.count0 x).toNat + 1) = true) (h1 : r.pwt.l1.codable ((r.count1 x).toNat + 1) = true)
    (e : s.pwt = {}) :
    Codes (sliceWeights x.pps x.sps) (optBits (r.weighted x)
      (r.pwt.bits f x.hasChroma r.isB ((r.count0 x).toNat + 1) ((r.count1 x).toNat + 1))) () s { s with
      pwt := given (r.weighted x)
        (r.pwt.coded f x.hasChroma r.isB ((r.count0 x).toNat + 1) ((r.count1 x).toNat + 1)) {} } false := by
  unfold sliceWeights
  refine Codes.look ?_
  obtain ⟨hP, hB, -, hSP, -⟩ := Slice.classes ht
  simp only [hP, hB, hSP, c0, c1]
  refine Codes.congr (Codes.optEnd (fun b (s : Slice) => { s with
    pwt := given b (r.pwt.coded f x.hasChroma r.isB ((r.count0 x).toNat + 1) ((r.count1 x).toNat + 1)) s.pwt })
    (fun _ => ?_) ?_) rfl rfl ?_ rfl
  · refine Codes.within ?_
    simp only [e]
    exact predWeightTable_codes h0 h1
  · rfl
  · simp [e, c0, c1, Slice.weighted]

theorem sliceQuant_codes {r s : Slice} {x : SliceContext} (ht : s.slice_type = r.slice_type)
    (hc : r.cabac_init_idc.toNat ≤ 2) (h1 : seIn (-87) 77 r.slice_qp_delta = true)
    (h2 : seIn (-51) 51 r.slice_qs_delta = true) (h3 : r.disable_deblocking_filter_idc.toNat ≤ 2)
    (h4 : seIn (-6) 6 r.slice_alpha_c0_offset_div2 = true) (h5 : seIn (-6) 6 r.slice_beta_offset_div2 = true)
    (e1 : s.cabac_init_idc = 0) (e2 : s.sp_for_switch_flag = false) (e3 : s.slice_qs_delta = 0)
    (e4 : s.disable_deblocking_filter_idc = 0) (e5 : s.slice_alpha_c0_offset_div2 = 0)
    (e6 : s.slice_beta_offset_div2 = 0) :
    Codes (sliceQuant x.pps) (optBits (r.cabac x) (ueField r.cabac_init_idc) ++ (seField r.slice_qp_delta ++
      (optBits r.isSP [r.sp_for_switch_flag] ++ (optBits (r.isSP || r.isSI) (seField r.slice_qs_delta) ++
      optBits x.pps.deblocking_filter_control_present_flag (ueField r.disable_deblocking_filter_idc ++
        optBits (r.disable_deblocking_filter_idc != 1)
          (seField r.slice_alpha_c0_offset_div2 ++ seField r.slice_beta_offset_div2)))))) () s { s with
      cabac_init_idc := given (r.cabac x) r.cabac_init_idc 0
      slice_qp_delta := r.slice_qp_delta
      sp_for_switch_flag := r.isSP && r.sp_for_switch_flag
      slice_qs_delta := given (r.isSP || r.isSI) r.slice_qs_delta 0
      disable_deblocking_filter_idc :=
        given x.pps.deblocking_filter_control_present_flag r.disable_deblocking_filter_idc 0
      slice_alpha_c0_offset_div2 := given (r.deblocks x) r.slice_alpha_c0_offset_div2 0
      slice_beta_offset_div2 := given (r.deblocks x) r.slice_beta_offset_div2 0 } false := by
  unfold sliceQuant
  refine Codes.look ?_
  obtain ⟨-, -, hI, hSP, hSI⟩ := Slice.classes ht
  simp only [hI, hSP, hSI]
  refine Codes.opt (fun b (s : Slice) => { s with cabac_init_idc := given b r.cabac_init_idc s.cabac_init_idc })
    (fun _ => ?_) (by exact rfl) <| (seIn_code h1 (by omega) (by omega)).seq <| Codes.opt (fun b (s : Slice) => { s with
      sp_for_switch_flag := given b r.sp_for_switch_flag s.sp_for_switch_flag }) (fun _ => ?_) (by exact rfl) <|
    Codes.opt (fun b (s : Slice) => { s with slice_qs_delta := given b r.slice_qs_delta s.slice_qs_delta })
      (fun _ => ?_) (by exact rfl) ?_
  · exact (ueField_code (x := r.cabac_init_idc) (by omega) (by omega)).congr rfl rfl (by simp) rfl
  · exact Codes.elemFlag _
  · exact (seIn_code h2 (by omega) (by omega)).congr rfl rfl (by simp) rfl
  · refine Codes.congr (Codes.optEnd (bits := ueField r.disable_deblocking_filter_idc ++
        optBits (r.disable_deblocking_filter_idc != 1)
          (seField r.slice_alpha_c0_offset_div2 ++ seField r.slice_beta_offset_div2)) (fun b (s : Slice) => { s with
      disable_deblocking_filter_idc := given b r.disable_deblocking_filter_idc s.disable_deblocking_filter_idc
      slice_alpha_c0_offset_div2 := given (b && r.disable_deblocking_filter_idc != 1) r.slice_alpha_c0_offset_div2
        s.slice_alpha_c0_offset_div2
      slice_beta_offset_div2 := given (b && r.disable_deblocking_filter_idc != 1) r.slice_beta_offset_div2
        s.slice_beta_offset_div2 }) (fun _ => ?_) ?_) rfl rfl ?_ rfl
    · refine (ueField_code (by omega) (by omega)).seq <| Codes.look ?_
      simp only [BitVec.ofNat_toNat, BitVec.setWidth_eq]
      refine Codes.congr (Codes.optEnd (bits := seField r.slice_alpha_c0_offset_div2 ++ seField r.slice_beta_offset_div2)
        (fun b (s : Slice) => { s with
        slice_alpha_c0_offset_div2 := given b r.slice_alpha_c0_offset_div2 s.slice_alpha_c0_offset_div2
        slice_beta_offset_div2 := given b r.slice_beta_offset_div2 s.slice_beta_offset_div2 }) (fun _ => ?_) ?_)
        rfl rfl ?_ rfl
      · exact (seIn_code h4 (by omega) (by omega)).seq ((seIn_code h5 (by omega) (by omega)).congr rfl rfl (by simp) rfl)
      · rfl
      · simp
    · rfl
    · simp [e1, e2, e3, e4, e5, e6, Slice.cabac, Slice.deblocks]

theorem sliceChangeCycle_codes {r s : Slice} {x : SliceContext} (h : x.cycles = true → changeCycleWidth x.pps x.sps ≤ 32 ∧
      r.slice_group_change_cycle.toNat < 2 ^ changeCycleWidth x.pps x.sps) (e : s.slice_group_change_cycle = 0) :
    Codes (sliceChangeCycle x.pps x.sps) (optBits x.cycles
      (uBits (changeCycleWidth x.pps x.sps) r.slice_group_change_cycle.toNat)) () s { s with
      slice_group_change_cycle := given x.cycles r.slice_group_change_cycle 0 } false := by
  unfold sliceChangeCycle
  change Codes (whenever x.cycles _) _ _ _ _ _
  refine Codes.congr (Codes.optEnd (fun b (s : Slice) => { s with
    slice_group_change_cycle := given b r.slice_group_change_cycle s.slice_group_change_cycle }) (fun hc => ?_) ?_)
    rfl rfl ?_ rfl
  · refine Codes.required (decide_eq_true (h hc).1) ?_
    exact (Codes.elemU (h hc).2).congr rfl rfl (by simp) rfl
  · rfl
  · simp [e]

theorem sliceHeader_codes {r s : Slice} {x : SliceContext} {f : WeightFlagPair} (ok : r.codable x = true)
    (hs : s = { first_mb_in_slice := r.first_mb_in_slice, slice_type := r.slice_type, pps_id := r.pps_id }) :
    Codes (sliceHeader x.nalu x.pps x.sps) (r.frameBits x ++ (r.orderBits x ++ (r.refBits x f ++ r.quantBits x))) () s
      (r.headerCoded x f) false := by
  subst hs
  simp only [Slice.codable, Bool.and_eq_true, decide_eq_true_eq, Bool.or_eq_true, Bool.not_eq_true'] at ok
  obtain ⟨⟨⟨⟨⟨⟨⟨⟨⟨⟨⟨⟨⟨⟨⟨⟨⟨⟨⟨-, -⟩, h1⟩, h2⟩, h3⟩, h4⟩, h5⟩, h6⟩, h7⟩, h8⟩, h9⟩, h10⟩, h11⟩, h12⟩, h13⟩, h14⟩, h15⟩, h16⟩, h17⟩, h18⟩ := ok
  unfold sliceHeader Slice.refBits Slice.overrideBits Slice.listBits Slice.weightBits Slice.quantBits
  simp only [List.append_assoc]
  refine Codes.seq (a := ()) (sliceFrameNum_codes (r := r) h1 h2 (by rfl) (by rfl) (by rfl)) ?_
  refine Codes.seq (a := ()) (slicePicOrder_codes (r := r) (by rfl) (by rfl) h3 h4 h5 h6 (by rfl) (by rfl) (by rfl)
    (by rfl) (by rfl) (by rfl)) ?_
  rw [← List.append_assoc (optBits (!r.isI && !r.isSI) r.mod_l0.bits)]
  refine Codes.congr (Codes.seq (a := ()) (sliceRefCounts_codes (r := r) (x := x) (by rfl) (by rfl)) <|
    Codes.seq (a := ()) (sliceModification_codes (r := r) (n := x.nalu) (by rfl) (by rfl) h7 h8 (by rfl) (by rfl)) <|
    Codes.seq (a := ()) (sliceWeights_codes (r := r) (x := x) (f := f) (by rfl) (by rfl) (by rfl) h9 h10 (by rfl)) <|
    Codes.opt (bits := r.drpm.bits x.nalu.idr_pic_flag) (fun b (s : Slice) =>
      { s with drpm := given b (r.drpm.coded x.nalu.idr_pic_flag) s.drpm }) (fun _ => ?_) (by rfl) <|
    Codes.seq (a := ()) (sliceQuant_codes (r := r) (x := x) (by rfl) h12 h13 h14 h15 h16 h17 (by rfl) (by rfl) (by rfl)
      (by rfl) (by rfl) (by rfl)) <|
    sliceChangeCycle_codes (r := r) (x := x) (fun e => h18.resolve_left (by simp [e])) (by rfl)) ?_ rfl ?_ rfl
  · exact Codes.within (refPicMarking_codes h11)
  · simp only [List.append_assoc, List.cons_append, List.nil_append]; rfl
  · simp [Slice.headerCoded, SliceContext.marked]

/-- `PARSE_SLICE_HDR` reads its bits back before `rest` (R270 to R318). -/
theorem sliceSyntax_runs {r : Slice} {x : SliceContext} {f : WeightFlagPair} {sps : Table Sps} {pps : Table Pps}
    {st : Stream} {rest : List Bool} (hp : ppsSlot pps r.pps_id.toNat = x.pps) (hq : spsSlot sps x.pps.sps_id.toNat = x.sps)
    (vp : x.pps.valid = true) (vq : x.sps.valid = true) (ext : x.sps.extension_type ≠ .other) (ok : r.codable x = true) :
    Runs (sliceSyntax x.nalu sps pps st) 0 (r.bits x f) rest () {} (r.coded x f st) false := by
  have ok1 : ueOk r.first_mb_in_slice = true ∧ r.slice_type.toNat ≤ 9 := by
    simp only [Slice.codable, Bool.and_eq_true, decide_eq_true_eq] at ok
    obtain ⟨⟨⟨⟨⟨⟨⟨⟨⟨⟨⟨⟨⟨⟨⟨⟨⟨⟨⟨h1, h2⟩, _⟩, _⟩, _⟩, _⟩, _⟩, _⟩, _⟩, _⟩, _⟩, _⟩, _⟩, _⟩, _⟩, _⟩, _⟩, _⟩, _⟩, _⟩ := ok
    exact ⟨h1, h2⟩
  unfold sliceSyntax
  have head := sliceHeader_codes (f := f) ok rfl
  refine Runs.congr ((ueOk_code ok1.1).run <| (ueField_code (x := r.slice_type) (by omega) (by omega)).run <|
    (ueField_code (x := r.pps_id) (by omega) (by omega)).run <| Runs.look
      (b := (r.frameBits x ++ (r.orderBits x ++ (r.refBits x f ++ r.quantBits x))) ++ []) (r' := r.coded x f st) (w := false) ?_) ?_ rfl rfl
  · simp only [BitVec.ofNat_toNat, BitVec.setWidth_eq, hp, hq]
    refine Runs.required vp <| Runs.required vq <| Runs.required (by simpa using ext) <| head.run ?_
    intro fl w
    simp only [sliceEnd, Parse.bind_ok (m := reader) rfl, put, List.nil_append, List.length_nil, Bool.or_false, Nat.add_zero]
    have e : 0 + (ueField r.first_mb_in_slice).length + (ueField r.slice_type).length + (ueField r.pps_id).length +
        (r.frameBits x ++ (r.orderBits x ++ (r.refBits x f ++ r.quantBits x))).length = (r.bits x f).length := by
      simp [Slice.bits]; omega
    rw [e, Slice.coded]
  · simp [Slice.bits]

end Sys2Proof.Machine
end

