-- ==== Sys2Proof/Laws/SpsCodes.lean ====
section
/-! SUPPORT. Sys2Proof/Laws/SpsCodes.lean: the parses of HRD, VUI, scaling lists, SPS data and the MVC extension read
the bits of `Machine/Coding.lean` back (42_sps.md). -/

namespace Sys2Proof.Machine

-- One theorem at a time: a thread for each, with check.sh's stack size, passes its memory limit.
set_option Elab.async false

/-! ## HRD -/

theorem hrdEntry_codes {h r : Hrd} {i : Nat} (a : ueOk (Table.read h.bit_rate_value_minus1 0 i) = true)
    (b : ueOk (Table.read h.cpb_size_value_minus1 0 i) = true) :
    Codes (hrdEntry i) (ueField (Table.read h.bit_rate_value_minus1 0 i) ++
      ueField (Table.read h.cpb_size_value_minus1 0 i) ++ [Table.read h.cbr_flag false i]) () r
      { r with
        bit_rate_value_minus1 := Table.write r.bit_rate_value_minus1 0 i (Table.read h.bit_rate_value_minus1 0 i)
        cpb_size_value_minus1 := Table.write r.cpb_size_value_minus1 0 i (Table.read h.cpb_size_value_minus1 0 i)
        cbr_flag := Table.write r.cbr_flag false i (Table.read h.cbr_flag false i) } false := by
  rw [List.append_assoc]
  refine (ueOk_code a).seq <| (ueOk_code b).seq <| (Codes.elemFlag _).congr rfl rfl ?_ rfl
  simp

theorem hrdParameters_codes {h : Hrd} (ok : h.codable = true) : Codes hrdParameters h.bits () {} h.coded false := by
  simp only [Hrd.codable, rowOk_iff, Bool.and_eq_true] at ok
  simp only [Hrd.bits, List.append_assoc]
  refine (ueField_code (by omega) (by omega)).seq <| (uField_code _).seq <| (uField_code _).seq <| Codes.look ?_
  simp only [BitVec.ofNat_toNat, BitVec.setWidth_eq]
  refine (Codes.rows (fun n => ({
    cpb_cnt_minus1 := h.cpb_cnt_minus1, bit_rate_scale := h.bit_rate_scale, cpb_size_scale := h.cpb_size_scale
    bit_rate_value_minus1 := firstEntries 0 n h.bit_rate_value_minus1
    cpb_size_value_minus1 := firstEntries 0 n h.cpb_size_value_minus1
    cbr_flag := firstEntries false n h.cbr_flag } : Hrd)) _ fun j hj => ?_).seq ?_
  · refine (hrdEntry_codes (ok j hj).1 (ok j hj).2).congr (by simp) rfl ?_ rfl
    simp [write_firstEntries]
  · refine (uField_code _).seq <| (uField_code _).seq <| (uField_code _).seq <| (uField_code _).congr rfl rfl ?_ rfl
    simp [Hrd.coded, Hrd.entries]

/-! ## VUI -/

theorem vuiAspect_codes (v r : Vui) : Codes vuiAspect v.aspectBits () r
    { r with
      aspect_ratio_info_present_flag := v.aspect_ratio_info_present_flag
      aspect_ratio_idc := given v.aspect_ratio_info_present_flag v.aspect_ratio_idc r.aspect_ratio_idc
      sar_width := given v.extendedSar v.sar_width r.sar_width
      sar_height := given v.extendedSar v.sar_height r.sar_height
      overscan_info_present_flag := v.overscan_info_present_flag
      overscan_appropriate_flag :=
        given v.overscan_info_present_flag v.overscan_appropriate_flag r.overscan_appropriate_flag } false := by
  simp only [Vui.aspectBits, List.append_assoc]
  refine (Codes.elemFlag _).seq <| Codes.look <| Codes.opt (fun b (r : Vui) => { r with
      aspect_ratio_idc := given b v.aspect_ratio_idc r.aspect_ratio_idc
      sar_width := given (b && v.aspect_ratio_idc == 255) v.sar_width r.sar_width
      sar_height := given (b && v.aspect_ratio_idc == 255) v.sar_height r.sar_height }) (fun _ => ?_) rfl <|
    (Codes.elemFlag _).seq <| Codes.look <| Codes.optEnd (fun b (r : Vui) => { r with
      overscan_appropriate_flag := given b v.overscan_appropriate_flag r.overscan_appropriate_flag })
      (fun _ => Codes.elemFlag _) rfl
  refine (uField_code _).seq <| Codes.look ?_
  simp only [BitVec.ofNat_toNat, BitVec.setWidth_eq]
  refine Codes.optEnd (fun b (r : Vui) => { r with
      sar_width := given b v.sar_width r.sar_width
      sar_height := given b v.sar_height r.sar_height }) (fun _ => ?_) rfl
  refine (uField_code _).seq <| (uField_code _).congr rfl rfl ?_ rfl
  simp

theorem vuiSignal_codes (v r : Vui) (h0 : v.chroma_sample_loc_type_top_field.toNat ≤ 5)
    (h1 : v.chroma_sample_loc_type_bottom_field.toNat ≤ 5) : Codes vuiSignal v.signalBits () r
    { r with
      video_signal_type_present_flag := v.video_signal_type_present_flag
      video_format := given v.video_signal_type_present_flag v.video_format r.video_format
      video_full_range_flag := given v.video_signal_type_present_flag v.video_full_range_flag r.video_full_range_flag
      colour_description_present_flag :=
        given v.video_signal_type_present_flag v.colour_description_present_flag r.colour_description_present_flag
      colour_primaries := given v.colourDescription v.colour_primaries r.colour_primaries
      transfer_characteristics := given v.colourDescription v.transfer_characteristics r.transfer_characteristics
      matrix_coefficients := given v.colourDescription v.matrix_coefficients r.matrix_coefficients
      chroma_loc_info_present_flag := v.chroma_loc_info_present_flag
      chroma_sample_loc_type_top_field :=
        given v.chroma_loc_info_present_flag v.chroma_sample_loc_type_top_field r.chroma_sample_loc_type_top_field
      chroma_sample_loc_type_bottom_field :=
        given v.chroma_loc_info_present_flag v.chroma_sample_loc_type_bottom_field
          r.chroma_sample_loc_type_bottom_field } false := by
  simp only [Vui.signalBits, List.append_assoc]
  refine (Codes.elemFlag _).seq <| Codes.look <| Codes.opt (fun b (r : Vui) => { r with
      video_format := given b v.video_format r.video_format
      video_full_range_flag := given b v.video_full_range_flag r.video_full_range_flag
      colour_description_present_flag := given b v.colour_description_present_flag r.colour_description_present_flag
      colour_primaries := given (b && v.colour_description_present_flag) v.colour_primaries r.colour_primaries
      transfer_characteristics :=
        given (b && v.colour_description_present_flag) v.transfer_characteristics r.transfer_characteristics
      matrix_coefficients :=
        given (b && v.colour_description_present_flag) v.matrix_coefficients r.matrix_coefficients })
      (fun _ => ?_) rfl <|
    (Codes.elemFlag _).seq <| Codes.look <| Codes.optEnd (fun b (r : Vui) => { r with
      chroma_sample_loc_type_top_field := given b v.chroma_sample_loc_type_top_field r.chroma_sample_loc_type_top_field
      chroma_sample_loc_type_bottom_field :=
        given b v.chroma_sample_loc_type_bottom_field r.chroma_sample_loc_type_bottom_field }) (fun _ => ?_) rfl
  · refine (uField_code _).seq <| (Codes.elemFlag _).seq <| (Codes.elemFlag _).seq <| Codes.look ?_
    simp only [BitVec.ofNat_toNat, BitVec.setWidth_eq]
    refine Codes.optEnd (fun b (r : Vui) => { r with
      colour_primaries := given b v.colour_primaries r.colour_primaries
      transfer_characteristics := given b v.transfer_characteristics r.transfer_characteristics
      matrix_coefficients := given b v.matrix_coefficients r.matrix_coefficients }) (fun _ => ?_) rfl
    refine (uField_code _).seq <| (uField_code _).seq <| (uField_code _).congr rfl rfl ?_ rfl
    simp
  · refine (ueField_code (by omega) (by omega)).seq <| (ueField_code (by omega) (by omega)).congr rfl rfl ?_ rfl
    simp

theorem vuiTiming_codes (v r : Vui) : Codes vuiTiming v.timingBits () r
    { r with
      timing_info_present_flag := v.timing_info_present_flag
      num_units_in_tick := given v.timing_info_present_flag v.num_units_in_tick r.num_units_in_tick
      time_scale := given v.timing_info_present_flag v.time_scale r.time_scale
      fixed_frame_rate_flag := given v.timing_info_present_flag v.fixed_frame_rate_flag r.fixed_frame_rate_flag }
    v.warns := by
  simp only [Vui.timingBits, List.append_assoc]
  refine (Codes.elemFlag _).seq <| Codes.look <| Codes.optWarn (fun b (r : Vui) => { r with
      num_units_in_tick := given b v.num_units_in_tick r.num_units_in_tick
      time_scale := given b v.time_scale r.time_scale
      fixed_frame_rate_flag := given b v.fixed_frame_rate_flag r.fixed_frame_rate_flag }) (fun _ => ?_) rfl
  refine (uField_code _).seq <| (uField_code _).seq <| Codes.look <|
    (Codes.warned (Codes.elemFlag _)).congr rfl rfl ?_ ?_ <;> simp

theorem vuiHrd_codes (v r : Vui) (n : v.nal_hrd.codable = true) (c : v.vcl_hrd.codable = true)
    (rn : r.nal_hrd = {}) (rc : r.vcl_hrd = {}) : Codes vuiHrd v.hrdBits () r
    { r with
      nal_hrd_parameters_present_flag := v.nal_hrd_parameters_present_flag
      nal_hrd := given v.nal_hrd_parameters_present_flag v.nal_hrd.coded {}
      vcl_hrd_parameters_present_flag := v.vcl_hrd_parameters_present_flag
      vcl_hrd := given v.vcl_hrd_parameters_present_flag v.vcl_hrd.coded {}
      low_delay_hrd_flag := given v.anyHrd v.low_delay_hrd_flag r.low_delay_hrd_flag
      pic_struct_present_flag := v.pic_struct_present_flag } false := by
  simp only [Vui.hrdBits, List.append_assoc]
  refine (Codes.elemFlag _).seq <| Codes.look <| Codes.opt (fun b (r : Vui) => { r with
      nal_hrd := given b v.nal_hrd.coded r.nal_hrd })
      (fun _ => Codes.within (by simp only [rn]; exact hrdParameters_codes n)) rfl <|
    (Codes.elemFlag _).seq <| Codes.look <| Codes.opt (fun b (r : Vui) => { r with
      vcl_hrd := given b v.vcl_hrd.coded r.vcl_hrd })
      (fun _ => Codes.within (by simp only [rc]; exact hrdParameters_codes c)) rfl <|
    Codes.look <| Codes.opt (fun b (r : Vui) => { r with
      low_delay_hrd_flag := given b v.low_delay_hrd_flag r.low_delay_hrd_flag })
      (fun _ => Codes.elemFlag _) rfl <|
    (Codes.elemFlag _).congr rfl rfl ?_ rfl
  simp only [rn, rc]; rfl

theorem vuiRestriction_codes (v r : Vui) (h0 : v.max_bytes_per_pic_denom.toNat ≤ 16)
    (h1 : v.max_bits_per_mb_denom.toNat ≤ 16) (h2 : v.log2_max_mv_length_horizontal.toNat ≤ 16)
    (h3 : v.log2_max_mv_length_vertical.toNat ≤ 16) (h4 : ueOk v.max_num_reorder_frames = true)
    (h5 : ueOk v.max_dec_frame_buffering = true) : Codes vuiRestriction v.restrictionBits () r
    { r with
      bitstream_restriction_flag := v.bitstream_restriction_flag
      motion_vectors_over_pic_boundaries_flag := given v.bitstream_restriction_flag
        v.motion_vectors_over_pic_boundaries_flag r.motion_vectors_over_pic_boundaries_flag
      max_bytes_per_pic_denom := given v.bitstream_restriction_flag v.max_bytes_per_pic_denom r.max_bytes_per_pic_denom
      max_bits_per_mb_denom := given v.bitstream_restriction_flag v.max_bits_per_mb_denom r.max_bits_per_mb_denom
      log2_max_mv_length_horizontal := given v.bitstream_restriction_flag
        v.log2_max_mv_length_horizontal r.log2_max_mv_length_horizontal
      log2_max_mv_length_vertical := given v.bitstream_restriction_flag
        v.log2_max_mv_length_vertical r.log2_max_mv_length_vertical
      max_num_reorder_frames := given v.bitstream_restriction_flag v.max_num_reorder_frames r.max_num_reorder_frames
      max_dec_frame_buffering := given v.bitstream_restriction_flag
        v.max_dec_frame_buffering r.max_dec_frame_buffering } false := by
  simp only [Vui.restrictionBits, List.append_assoc]
  refine (Codes.elemFlag _).seq <| Codes.look <| Codes.optEnd (fun b (r : Vui) => { r with
      motion_vectors_over_pic_boundaries_flag := given b
        v.motion_vectors_over_pic_boundaries_flag r.motion_vectors_over_pic_boundaries_flag
      max_bytes_per_pic_denom := given b v.max_bytes_per_pic_denom r.max_bytes_per_pic_denom
      max_bits_per_mb_denom := given b v.max_bits_per_mb_denom r.max_bits_per_mb_denom
      log2_max_mv_length_horizontal := given b v.log2_max_mv_length_horizontal r.log2_max_mv_length_horizontal
      log2_max_mv_length_vertical := given b v.log2_max_mv_length_vertical r.log2_max_mv_length_vertical
      max_num_reorder_frames := given b v.max_num_reorder_frames r.max_num_reorder_frames
      max_dec_frame_buffering := given b v.max_dec_frame_buffering r.max_dec_frame_buffering }) (fun _ => ?_) rfl
  refine (Codes.elemFlag _).seq <| (ueField_code (by omega) (by omega)).seq <|
    (ueField_code (by omega) (by omega)).seq <| (ueField_code (by omega) (by omega)).seq <|
    (ueField_code (by omega) (by omega)).seq <| (ueOk_code h4).seq <| (ueOk_code h5).congr rfl rfl ?_ rfl
  simp

theorem vuiParameters_codes {v : Vui} (ok : v.codable = true) :
    Codes vuiParameters v.bits () {} v.coded v.warns := by
  simp only [Vui.codable, Bool.and_eq_true, decide_eq_true_eq] at ok
  obtain ⟨⟨⟨⟨⟨⟨⟨⟨⟨a, b⟩, c⟩, d⟩, e⟩, f⟩, g⟩, h⟩, i⟩, j⟩ := ok
  simp only [Vui.bits, List.append_assoc]
  refine Codes.putThen <| (vuiAspect_codes v _).seq <| (vuiSignal_codes v _ a b).seq <|
    Codes.congr ((vuiTiming_codes v _).bind <| (vuiHrd_codes v _ c d rfl rfl).seq <|
      vuiRestriction_codes v _ e f g h i j) rfl rfl ?_ (by simp)
  simp [Vui.coded, Vui.colourDescription]

/-! ## SPS data -/

theorem spsIdentity_codes (q r : Sps) (reserved : BitVec 2) : Codes spsIdentity (q.identityBits reserved) () r
    { r with
      profile_idc := q.profile_idc, constraint_set0_flag := q.constraint_set0_flag
      constraint_set1_flag := q.constraint_set1_flag, constraint_set2_flag := q.constraint_set2_flag
      constraint_set3_flag := q.constraint_set3_flag, constraint_set4_flag := q.constraint_set4_flag
      constraint_set5_flag := q.constraint_set5_flag, level_idc := q.level_idc, id := q.id } false := by
  simp only [Sps.identityBits, List.append_assoc]
  refine (uField_code _).seq <| (Codes.elemFlag _).seq <| (Codes.elemFlag _).seq <| (Codes.elemFlag _).seq <|
    (Codes.elemFlag _).seq <| (Codes.elemFlag _).seq <| (Codes.elemFlag _).seq <| (Codes.getU reserved.isLt).seq <|
    (uField_code _).seq <| (ueField_code (by omega) (by omega)).congr rfl rfl ?_ rfl
  simp

theorem spsChroma_codes {q r : Sps} {c : List ListCoding} (hp : r.profile_idc = q.profile_idc)
    (hl : r.lists = {}) (h0 : q.bit_depth_luma_minus8.toNat ≤ 6) (h1 : q.bit_depth_chroma_minus8.toNat ≤ 6)
    (hm : matrixOk q.listCount c = true) : Codes spsChroma (q.chromaBits c) () r
    { r with
      chroma_format_idc := given q.high q.chroma_format_idc 1
      separate_colour_plane_flag := given q.hasPlane q.separate_colour_plane_flag r.separate_colour_plane_flag
      bit_depth_luma_minus8 := given q.high q.bit_depth_luma_minus8 r.bit_depth_luma_minus8
      bit_depth_chroma_minus8 := given q.high q.bit_depth_chroma_minus8 r.bit_depth_chroma_minus8
      qpprime_y_zero_transform_bypass_flag :=
        given q.high q.qpprime_y_zero_transform_bypass_flag r.qpprime_y_zero_transform_bypass_flag
      scaling_matrix_present_flag := given q.high q.scaling_matrix_present_flag r.scaling_matrix_present_flag
      lists := given q.hasMatrix (matrixLists q.listCount none c {}) flatLists } false := by
  unfold spsChroma Sps.chromaBits
  refine Codes.look ?_
  rw [hp]
  by_cases hh : q.high = true
  · rw [if_pos (by exact hh)]
    simp only [hh, optBits, if_true, List.append_assoc]
    refine (ueField_code (by omega) (by omega)).seq <| Codes.look ?_
    simp only [BitVec.ofNat_toNat, BitVec.setWidth_eq]
    refine Codes.opt (fun b (r : Sps) => { r with
        separate_colour_plane_flag := given b q.separate_colour_plane_flag r.separate_colour_plane_flag })
        (fun _ => Codes.elemFlag _) rfl <|
      (ueField_code (by omega) (by omega)).seq <| (ueField_code (by omega) (by omega)).seq <|
      (Codes.elemFlag _).seq <| (Codes.elemFlag _).seq <| Codes.look ?_
    simp only [BitVec.ofNat_toNat, BitVec.setWidth_eq]
    by_cases hx : q.scaling_matrix_present_flag = true
    · rw [if_pos hx]
      simp only [hx, if_true]
      refine (Codes.within (x := matrixLists q.listCount none c {}) ?_).congr rfl rfl ?_ rfl
      · simp only [hl]; exact scalingMatrix_codes _ (by split <;> decide) hm
      · simp [Sps.hasPlane, Sps.hasMatrix, hh, hx, hp]
    · rw [Bool.not_eq_true] at hx
      rw [if_neg (by simp [hx])]
      simp only [hx]
      refine (Codes.put _).congr rfl rfl ?_ rfl
      simp [Sps.hasPlane, Sps.hasMatrix, hh, hx, hp]
  · rw [if_neg (by exact hh)]
    rw [Bool.not_eq_true] at hh
    simp only [hh, optBits]
    refine (Codes.put _).congr rfl rfl ?_ rfl
    simp [Sps.hasPlane, Sps.hasMatrix, hh, hp]

theorem spsPicOrderCount_codes {q r : Sps} (ht : r.pic_order_cnt_type = q.pic_order_cnt_type)
    (h0 : q.log2_max_pic_order_cnt_lsb_minus4.toNat ≤ 12) (h1 : seOk q.offset_for_non_ref_pic = true)
    (h2 : seOk q.offset_for_top_to_bottom_field = true) (h3 : r.offset_for_ref_frame = [])
    (h4 : ∀ i < q.num_ref_frames_in_pic_order_cnt_cycle.toNat, seOk (Table.read q.offset_for_ref_frame 0 i) = true) :
    Codes spsPicOrderCount q.orderBits () r
    { r with
      log2_max_pic_order_cnt_lsb_minus4 :=
        given (q.pic_order_cnt_type == 0) q.log2_max_pic_order_cnt_lsb_minus4 r.log2_max_pic_order_cnt_lsb_minus4
      delta_pic_order_always_zero_flag :=
        given (q.pic_order_cnt_type == 1) q.delta_pic_order_always_zero_flag r.delta_pic_order_always_zero_flag
      offset_for_non_ref_pic := given (q.pic_order_cnt_type == 1) q.offset_for_non_ref_pic r.offset_for_non_ref_pic
      offset_for_top_to_bottom_field :=
        given (q.pic_order_cnt_type == 1) q.offset_for_top_to_bottom_field r.offset_for_top_to_bottom_field
      num_ref_frames_in_pic_order_cnt_cycle := given (q.pic_order_cnt_type == 1)
        q.num_ref_frames_in_pic_order_cnt_cycle r.num_ref_frames_in_pic_order_cnt_cycle
      offset_for_ref_frame := given (q.pic_order_cnt_type == 1)
        (firstEntries 0 q.num_ref_frames_in_pic_order_cnt_cycle.toNat q.offset_for_ref_frame)
        r.offset_for_ref_frame } false := by
  unfold spsPicOrderCount Sps.orderBits
  refine Codes.look ?_
  rw [ht]
  cases e0 : q.pic_order_cnt_type == 0 with
  | true =>
    have e1 : (q.pic_order_cnt_type == 1) = false := by rw [eq_of_beq e0]; rfl
    rw [if_pos (eq_of_beq e0)]
    simp only [e1, optBits, if_true, Bool.false_eq_true, if_false, List.append_nil]
    refine (ueField_code (by omega) (by omega)).congr rfl rfl ?_ rfl
    simp [ht]
  | false =>
    rw [if_neg (by simpa using e0)]
    refine Codes.congr (b := optBits (q.pic_order_cnt_type == 1) _) ?_ rfl rfl rfl rfl
    refine (Codes.optEnd (fun b (r : Sps) => { r with
        delta_pic_order_always_zero_flag := given b q.delta_pic_order_always_zero_flag r.delta_pic_order_always_zero_flag
        offset_for_non_ref_pic := given b q.offset_for_non_ref_pic r.offset_for_non_ref_pic
        offset_for_top_to_bottom_field := given b q.offset_for_top_to_bottom_field r.offset_for_top_to_bottom_field
        num_ref_frames_in_pic_order_cnt_cycle :=
          given b q.num_ref_frames_in_pic_order_cnt_cycle r.num_ref_frames_in_pic_order_cnt_cycle
        offset_for_ref_frame := given b
          (firstEntries 0 q.num_ref_frames_in_pic_order_cnt_cycle.toNat q.offset_for_ref_frame)
          r.offset_for_ref_frame }) (fun _ => ?_) rfl).congr rfl rfl (by simp [ht]) rfl
    simp only [List.append_assoc]
    refine (Codes.elemFlag _).seq <| (seOk_code h1).seq <| (seOk_code h2).seq <|
      (ueField_code (by omega) (by omega)).seq <| Codes.look ?_
    simp only [BitVec.ofNat_toNat, BitVec.setWidth_eq, BitVec.ofInt_toInt, h3]
    refine (Codes.rows (fun n => ({ r with
        delta_pic_order_always_zero_flag := q.delta_pic_order_always_zero_flag
        offset_for_non_ref_pic := q.offset_for_non_ref_pic
        offset_for_top_to_bottom_field := q.offset_for_top_to_bottom_field
        num_ref_frames_in_pic_order_cnt_cycle := q.num_ref_frames_in_pic_order_cnt_cycle
        offset_for_ref_frame := firstEntries 0 n q.offset_for_ref_frame } : Sps)) _ fun j hj => ?_).congr rfl rfl ?_ rfl
    · unfold offsetForRefFrame
      have := q.num_ref_frames_in_pic_order_cnt_cycle.isLt
      refine Codes.required (by simp [Config.pocCycleCap]; omega) <| (seOk_code (h4 j hj)).congr rfl rfl ?_ rfl
      simp [write_firstEntries]
    · simp

theorem spsFrame_codes {q r : Sps} (ht : r.offset_for_ref_frame = []) (h : q.log2_max_frame_num_minus4.toNat ≤ 12)
    (h' : q.pic_order_cnt_type.toNat ≤ 2) (h0 : q.log2_max_pic_order_cnt_lsb_minus4.toNat ≤ 12)
    (h1 : seOk q.offset_for_non_ref_pic = true) (h2 : seOk q.offset_for_top_to_bottom_field = true)
    (h4 : ∀ i < q.num_ref_frames_in_pic_order_cnt_cycle.toNat, seOk (Table.read q.offset_for_ref_frame 0 i) = true)
    (h5 : q.num_ref_frames.toNat ≤ 16) (h6 : ueOk q.pic_width_in_mbs_minus1 = true)
    (h7 : ueOk q.pic_height_in_map_units_minus1 = true) (h8 : ueOk q.frame_crop_left_offset = true)
    (h9 : ueOk q.frame_crop_right_offset = true) (h10 : ueOk q.frame_crop_top_offset = true)
    (h11 : ueOk q.frame_crop_bottom_offset = true) : Codes spsFrame q.frameBits () r
    { r with
      log2_max_frame_num_minus4 := q.log2_max_frame_num_minus4
      pic_order_cnt_type := q.pic_order_cnt_type
      log2_max_pic_order_cnt_lsb_minus4 :=
        given (q.pic_order_cnt_type == 0) q.log2_max_pic_order_cnt_lsb_minus4 r.log2_max_pic_order_cnt_lsb_minus4
      delta_pic_order_always_zero_flag :=
        given (q.pic_order_cnt_type == 1) q.delta_pic_order_always_zero_flag r.delta_pic_order_always_zero_flag
      offset_for_non_ref_pic := given (q.pic_order_cnt_type == 1) q.offset_for_non_ref_pic r.offset_for_non_ref_pic
      offset_for_top_to_bottom_field :=
        given (q.pic_order_cnt_type == 1) q.offset_for_top_to_bottom_field r.offset_for_top_to_bottom_field
      num_ref_frames_in_pic_order_cnt_cycle := given (q.pic_order_cnt_type == 1)
        q.num_ref_frames_in_pic_order_cnt_cycle r.num_ref_frames_in_pic_order_cnt_cycle
      offset_for_ref_frame := given (q.pic_order_cnt_type == 1)
        (firstEntries 0 q.num_ref_frames_in_pic_order_cnt_cycle.toNat q.offset_for_ref_frame) r.offset_for_ref_frame
      num_ref_frames := q.num_ref_frames
      gaps_in_frame_num_value_allowed_flag := q.gaps_in_frame_num_value_allowed_flag
      pic_width_in_mbs_minus1 := q.pic_width_in_mbs_minus1
      pic_height_in_map_units_minus1 := q.pic_height_in_map_units_minus1
      frame_mbs_only_flag := q.frame_mbs_only_flag
      mb_adaptive_frame_field_flag :=
        given (!q.frame_mbs_only_flag) q.mb_adaptive_frame_field_flag r.mb_adaptive_frame_field_flag
      direct_8x8_inference_flag := q.direct_8x8_inference_flag
      frame_cropping_flag := q.frame_cropping_flag
      frame_crop_left_offset := given q.frame_cropping_flag q.frame_crop_left_offset r.frame_crop_left_offset
      frame_crop_right_offset := given q.frame_cropping_flag q.frame_crop_right_offset r.frame_crop_right_offset
      frame_crop_top_offset := given q.frame_cropping_flag q.frame_crop_top_offset r.frame_crop_top_offset
      frame_crop_bottom_offset := given q.frame_cropping_flag q.frame_crop_bottom_offset r.frame_crop_bottom_offset
      vui_parameters_present_flag := q.vui_parameters_present_flag } false := by
  simp only [Sps.frameBits, List.append_assoc]
  refine (ueField_code (by omega) (by omega)).seq <| (ueField_code (by omega) (by omega)).seq ?_
  simp only [BitVec.ofNat_toNat, BitVec.setWidth_eq]
  refine (spsPicOrderCount_codes (q := q) (by rfl) h0 h1 h2 (by exact ht) h4).seq <| (ueField_code (x := q.num_ref_frames) (by omega) (by omega)).seq <|
    (Codes.elemFlag _).seq <| (ueOk_code h6).seq <| (ueOk_code h7).seq <| (Codes.elemFlag _).seq <| Codes.look <|
    Codes.opt (fun b (r : Sps) => { r with
      mb_adaptive_frame_field_flag := given b q.mb_adaptive_frame_field_flag r.mb_adaptive_frame_field_flag })
      (fun _ => Codes.elemFlag _) rfl <|
    (Codes.elemFlag _).seq <| (Codes.elemFlag _).seq <| Codes.look <| Codes.opt (fun b (r : Sps) => { r with
      frame_crop_left_offset := given b q.frame_crop_left_offset r.frame_crop_left_offset
      frame_crop_right_offset := given b q.frame_crop_right_offset r.frame_crop_right_offset
      frame_crop_top_offset := given b q.frame_crop_top_offset r.frame_crop_top_offset
      frame_crop_bottom_offset := given b q.frame_crop_bottom_offset r.frame_crop_bottom_offset })
      (fun _ => ?_) rfl <|
    (Codes.elemFlag _).congr rfl rfl ?_ rfl
  · refine (ueOk_code h8).seq <| (ueOk_code h9).seq <| (ueOk_code h10).seq <| (ueOk_code h11).congr rfl rfl ?_ rfl
    simp
  · simp

/-- `seq_parameter_set_data` reads its bits back (R181). -/
theorem spsData_codes {q : Sps} {vuiRequested : Bool} {reserved : BitVec 2} {c : List ListCoding}
    (ok : q.codable c = true) :
    Codes (spsData vuiRequested) (q.bits vuiRequested reserved c) () {} (q.dataCoded vuiRequested c)
      (q.warns vuiRequested) := by
  simp only [Sps.codable, Bool.and_eq_true, decide_eq_true_eq, rowOk_iff] at ok
  obtain ⟨⟨⟨⟨⟨⟨⟨⟨⟨⟨⟨⟨⟨⟨⟨⟨a, b⟩, m⟩, h⟩, h'⟩, h0⟩, h1⟩, h2⟩, h4⟩, h5⟩, h6⟩, h7⟩, h8⟩, h9⟩, h10⟩, h11⟩, v⟩ := ok
  simp only [Sps.bits, List.append_assoc]
  refine (spsIdentity_codes q _ reserved).seq ?_
  refine (spsChroma_codes (q := q) (by rfl) (by rfl) a b m).seq ?_
  unfold Sps.dataCoded
  generalize given q.hasMatrix (matrixLists q.listCount none c {}) flatLists = lists
  refine (spsFrame_codes (q := q) (by rfl) h h' h0 h1 h2 h4 h5 h6 h7 h8 h9 h10 h11).seq ?_
  refine Codes.look ?_
  refine (Codes.optWarn (fun b (r : Sps) => { r with vui := given b q.vui.coded r.vui })
      (fun _ => Codes.within (get := fun r : Sps => r.vui) (set := fun r x => { r with vui := x })
        (vuiParameters_codes v)) rfl).congr rfl rfl ?_ rfl
  simp [Sps.hasVui, Sps.hasMatrix]

/-- The derivations pass where the size check does (R189, R190). -/
theorem spsDerivations_codes {r : Sps} (h : r.derived.sizeOk = true) :
    Codes spsDerivations [] () r r.derived false :=
  Codes.putThen <| Codes.look <| Codes.require _ h

/-- `PARSE_SPS` reads its bits back (R230). -/
theorem spsSyntax_codes {q : Sps} {vuiRequested : Bool} {reserved : BitVec 2} {c : List ListCoding}
    (ok : q.codable c = true) (size : (q.coded vuiRequested c).sizeOk = true) :
    Codes (spsSyntax vuiRequested) (q.bits vuiRequested reserved c) () {} (q.coded vuiRequested c)
      (q.warns vuiRequested) := by
  unfold spsSyntax
  exact ((spsData_codes (reserved := reserved) ok).bind <| (spsDerivations_codes size).bind <|
    Codes.put fun r : Sps => { r with extension_type := .none, valid := true }).congr (by simp) rfl rfl (by simp)

/-! ## The MVC extension -/

theorem mvcRefs_codes {wn : MvcView → Nat → MvcView} {n : MvcView → Nat} {wr : MvcView → Nat → Nat → MvcView}
    {r : MvcView} (k : BitVec 4) (t : Table (BitVec 10)) (x : Nat → MvcView) (h0 : x 0 = wn r k.toNat)
    (hn : n (wn r k.toNat) = k.toNat) (hx : ∀ j, x (j + 1) = wr (x j) j (Table.read t 0 j).toNat) :
    Codes (mvcRefs wn n wr) (refsBits k t) () r (x k.toNat) false := by
  unfold mvcRefs refsBits
  refine (ueField_code (by omega) (by omega)).seq <| Codes.look ?_
  rw [hn, ← h0]
  exact Codes.rows x _ fun j _ => (ueField_code (by omega) (by omega)).congr rfl rfl (hx j).symm rfl

theorem mvcAnchorRefs_codes {v r : MvcView} (h0 : r.anchor_ref_l0 = []) (h1 : r.anchor_ref_l1 = []) :
    Codes mvcAnchorRefs v.anchorBits () r
      { r with
        num_anchor_refs_l0 := v.num_anchor_refs_l0
        anchor_ref_l0 := firstEntries 0 v.num_anchor_refs_l0.toNat v.anchor_ref_l0
        num_anchor_refs_l1 := v.num_anchor_refs_l1
        anchor_ref_l1 := firstEntries 0 v.num_anchor_refs_l1.toNat v.anchor_ref_l1 } false := by
  unfold mvcAnchorRefs MvcView.anchorBits
  refine (mvcRefs_codes v.num_anchor_refs_l0 v.anchor_ref_l0 (fun j => { r with
      num_anchor_refs_l0 := v.num_anchor_refs_l0, anchor_ref_l0 := firstEntries 0 j v.anchor_ref_l0 })
      (by simp [h0]) (by simp) (fun j => by simp [write_firstEntries])).seq <|
    (mvcRefs_codes v.num_anchor_refs_l1 v.anchor_ref_l1 (fun j => { r with
      num_anchor_refs_l0 := v.num_anchor_refs_l0
      anchor_ref_l0 := firstEntries 0 v.num_anchor_refs_l0.toNat v.anchor_ref_l0
      num_anchor_refs_l1 := v.num_anchor_refs_l1, anchor_ref_l1 := firstEntries 0 j v.anchor_ref_l1 })
      (by simp [h1]) (by simp) (fun j => by simp [write_firstEntries]))

theorem mvcNonAnchorRefs_codes {v r : MvcView} (h0 : r.non_anchor_ref_l0 = []) (h1 : r.non_anchor_ref_l1 = []) :
    Codes mvcNonAnchorRefs v.nonAnchorBits () r
      { r with
        num_non_anchor_refs_l0 := v.num_non_anchor_refs_l0
        non_anchor_ref_l0 := firstEntries 0 v.num_non_anchor_refs_l0.toNat v.non_anchor_ref_l0
        num_non_anchor_refs_l1 := v.num_non_anchor_refs_l1
        non_anchor_ref_l1 := firstEntries 0 v.num_non_anchor_refs_l1.toNat v.non_anchor_ref_l1 } false := by
  unfold mvcNonAnchorRefs MvcView.nonAnchorBits
  refine (mvcRefs_codes v.num_non_anchor_refs_l0 v.non_anchor_ref_l0 (fun j => { r with
      num_non_anchor_refs_l0 := v.num_non_anchor_refs_l0, non_anchor_ref_l0 := firstEntries 0 j v.non_anchor_ref_l0 })
      (by simp [h0]) (by simp) (fun j => by simp [write_firstEntries])).seq <|
    (mvcRefs_codes v.num_non_anchor_refs_l1 v.non_anchor_ref_l1 (fun j => { r with
      num_non_anchor_refs_l0 := v.num_non_anchor_refs_l0
      non_anchor_ref_l0 := firstEntries 0 v.num_non_anchor_refs_l0.toNat v.non_anchor_ref_l0
      num_non_anchor_refs_l1 := v.num_non_anchor_refs_l1, non_anchor_ref_l1 := firstEntries 0 j v.non_anchor_ref_l1 })
      (by simp [h1]) (by simp) (fun j => by simp [write_firstEntries]))

theorem mvcOp_codes {o : MvcOp} {r : MvcLevel} {j : Nat} (h : Table.read r.op {} j = {}) :
    Codes (mvcOp j) o.bits () r { r with op := Table.write r.op {} j o.coded } false := by
  unfold mvcOp
  refine Codes.within (x := o.coded) ?_
  simp only [h, MvcOp.bits, List.append_assoc]
  refine (uField_code _).seq <| (ueField_code (by omega) (by omega)).seq <| Codes.look ?_
  simp only [BitVec.ofNat_toNat, BitVec.setWidth_eq]
  refine (Codes.rows (fun n => ({
    temporal_id := o.temporal_id, num_target_views_minus1 := o.num_target_views_minus1
    target_view_id := firstEntries 0 n o.target_view_id } : MvcOp)) _ fun k _ => ?_).seq <|
    (ueField_code (by omega) (by omega)).congr rfl rfl ?_ rfl
  · refine (ueField_code (by omega) (by omega)).congr rfl rfl ?_ rfl
    simp [write_firstEntries]
  · simp [MvcOp.coded]

theorem mvcLevel_codes {l : MvcLevel} {r : Mvc} {i : Nat} (h : Table.read r.level_value {} i = {}) :
    Codes (mvcLevel i) l.bits () r { r with level_value := Table.write r.level_value {} i l.coded } false := by
  unfold mvcLevel
  refine Codes.within (x := l.coded) ?_
  simp only [h, MvcLevel.bits, List.append_assoc]
  refine (uField_code _).seq <| (ueField_code (by omega) (by omega)).seq <| Codes.look ?_
  simp only [BitVec.ofNat_toNat, BitVec.setWidth_eq]
  refine (Codes.rows (fun n => ({
    level_idc := l.level_idc, num_applicable_ops_minus1 := l.num_applicable_ops_minus1
    op := tabulate {} n fun j => (Table.read l.op {} j).coded } : MvcLevel)) _ fun j _ => ?_).congr rfl rfl ?_ rfl
  · refine (mvcOp_codes (by simp [read_tabulate])).congr rfl rfl ?_ rfl
    simp [write_tabulate]
  · simp [MvcLevel.coded]

theorem rowBits_shift (n : Nat) (g : Nat → List Bool) :
    rowBits n (fun i => g (i + 1)) = (List.range' 1 n).flatMap g := by
  rw [rowBits, List.range_eq_range', show List.range' 1 n = (List.range' 0 n).map (1 + ·) by simp [List.map_add_range'],
    List.flatMap_map]
  simp only [Nat.add_comm 1]

/-- A pass over the views 1 to `n` that turns view `j` from `a j` into `b j`. -/
theorem inView_loop {m : Parse MvcView Unit} {g : Nat → List Bool} {r : Mvc} (n : Nat) (a b : Nat → MvcView)
    (h0 : b 0 = a 0) (h : ∀ j, 1 ≤ j → Codes m (g j) () (a j) (b j) false) :
    Codes (loopFrom (inView m) n 1) (rowBits n fun i => g (i + 1)) ()
      { r with view := tabulate {} (n + 1) a } { r with view := tabulate {} (n + 1) b } false := by
  rw [rowBits_shift n g]
  have e : tabulate {} (n + 1) a = tabulate {} (n + 1) fun j => if j < 1 then b j else a j :=
    tabulate_congr fun i _ => by
      by_cases z : i = 0
      · subst z; simp [h0]
      · rw [if_neg (by omega)]
  have e' : tabulate {} (n + 1) b = tabulate {} (n + 1) fun j => if j < 1 + n then b j else a j :=
    tabulate_congr fun i _ => (if_pos (by omega)).symm
  rw [e, e']
  refine Codes.loop (fun i => ({ r with view := tabulate {} (n + 1) fun j => if j < i then b j else a j } : Mvc)) 1 n
    fun j hj hn => ?_
  unfold inView
  refine (Codes.within (x := b j) ?_).congr rfl rfl ?_ rfl
  · simp only [read_tabulate, Nat.lt_irrefl, if_false]
    rw [if_pos (by omega)]
    exact h j hj
  · simp only [Mvc.mk.injEq, and_true, true_and]
    rw [write_tabulate_at _ _ (by omega)]
    refine tabulate_congr fun i hi => ?_
    by_cases e : i = j
    · subst e; simp
    · simp only [e, if_false]
      by_cases l : i < j
      · rw [if_pos l, if_pos (by omega)]
      · rw [if_neg l, if_neg (by omega)]

/-- The MVC extension reads its bits back (R220). -/
theorem mvcExtension_codes (m : Mvc) : Codes mvcExtension m.bits () {} m.coded false := by
  unfold mvcExtension
  simp only [Mvc.bits, List.append_assoc]
  refine (ueField_code (by omega) (by omega)).seq <| Codes.look ?_
  simp only [BitVec.ofNat_toNat, BitVec.setWidth_eq]
  let ids (i : Nat) : MvcView := { view_id := (Table.read m.view {} i).view_id }
  let anchors (i : Nat) : MvcView := if i = 0 then ids i else
    { ids i with
      num_anchor_refs_l0 := (Table.read m.view {} i).num_anchor_refs_l0
      anchor_ref_l0 := firstEntries 0 (Table.read m.view {} i).num_anchor_refs_l0.toNat (Table.read m.view {} i).anchor_ref_l0
      num_anchor_refs_l1 := (Table.read m.view {} i).num_anchor_refs_l1
      anchor_ref_l1 := firstEntries 0 (Table.read m.view {} i).num_anchor_refs_l1.toNat (Table.read m.view {} i).anchor_ref_l1 }
  refine (Codes.rows (fun n => ({ num_views_minus1 := m.num_views_minus1, view := tabulate {} n ids } : Mvc)) _
    fun j _ => ?_).seq ?_
  · unfold inView
    refine (Codes.within (x := ids j) ?_).congr rfl rfl ?_ rfl
    · simp only [read_tabulate, Nat.lt_irrefl, if_false]
      refine (ueField_code (by omega) (by omega)).congr rfl rfl ?_ rfl
      simp [ids]
    · simp only [write_tabulate]
  refine Codes.seq (inView_loop (m := mvcAnchorRefs) (g := fun i => (Table.read m.view {} i).anchorBits)
    (r := { num_views_minus1 := m.num_views_minus1 }) _ ids anchors (by simp [anchors]) fun j hj => ?_) ?_
  · refine (mvcAnchorRefs_codes (v := Table.read m.view {} j) rfl rfl).congr rfl rfl ?_ rfl
    have : j ≠ 0 := by omega
    simp [anchors, ids, this]
  refine Codes.seq (inView_loop (m := mvcNonAnchorRefs) (g := fun i => (Table.read m.view {} i).nonAnchorBits)
    (r := { num_views_minus1 := m.num_views_minus1 }) _ anchors
    (fun i => (Table.read m.view {} i).coded i) (by simp [anchors, ids, MvcView.coded]) fun j hj => ?_) ?_
  · refine (mvcNonAnchorRefs_codes (v := Table.read m.view {} j) ?_ ?_).congr rfl rfl ?_ rfl
    all_goals
      have : j ≠ 0 := by omega
      simp [anchors, ids, this, MvcView.coded]
  refine (ueField_code (by omega) (by omega)).seq <| Codes.look ?_
  simp only [BitVec.ofNat_toNat, BitVec.setWidth_eq]
  refine (Codes.rows (fun n => ({
    num_views_minus1 := m.num_views_minus1
    view := tabulate {} (m.num_views_minus1.toNat + 1) fun i => (Table.read m.view {} i).coded i
    num_level_values_signalled_minus1 := m.num_level_values_signalled_minus1
    level_value := tabulate {} n fun i => (Table.read m.level_value {} i).coded } : Mvc)) _ fun j _ => ?_).congr rfl rfl ?_ rfl
  · refine (mvcLevel_codes (by simp [read_tabulate])).congr rfl rfl ?_ rfl
    simp only [write_tabulate]
  · simp [Mvc.coded]

/-- The size check looks at the coded fields alone. -/
theorem Sps.sizeOk_extended (d : Sps) (v v' : Bool) (e e' : SpsExt) (m m' : Mvc) :
    ({ d.derived with valid := v, extension_type := e, mvc := m } : Sps).sizeOk =
      ({ d with valid := v', extension_type := e', mvc := m' } : Sps).derived.sizeOk := by
  simp only [Sps.sizeOk, Sps.widthOf, Sps.heightOf, Sps.fieldFactor, Sps.cropWidth, Sps.cropHeight, Sps.cropX, Sps.cropY,
    Sps.cropUnitX, Sps.cropUnitY, Sps.derived]
  exact decide_eq_decide.2 Iff.rfl

/-- `PARSE_SUBSET_SPS` reads its bits back (R231). -/
theorem subsetSpsSyntax_codes {q : Sps} {reserved : BitVec 2} {c : List ListCoding} (ok : q.codable c = true)
    (size : (q.subsetCoded c).sizeOk = true) :
    Codes subsetSpsSyntax (q.subsetBits reserved c) () {} (q.subsetCoded c) (q.warns true) := by
  unfold subsetSpsSyntax
  have data := spsData_codes (vuiRequested := true) (reserved := reserved) ok
  have hp : mvcProfile (q.dataCoded true c).profile_idc = mvcProfile q.profile_idc := rfl
  have hm : (q.dataCoded true c).mvc = {} := rfl
  unfold Sps.subsetCoded at size ⊢
  unfold Sps.subsetBits
  generalize mvcProfile q.profile_idc = b at size hp ⊢
  generalize q.dataCoded true c = d at data size hp hm ⊢
  have body : Codes subsetBody (optBits b ([true] ++ q.mvc.bits)) () d
      { d with extension_type := if b then .mvc else .other, mvc := given b q.mvc.coded {} } false := by
    unfold subsetBody
    refine Codes.look ?_
    rw [hp]
    cases b with
    | true =>
      refine (Codes.getFlag true).seq <| Codes.required rfl <| Codes.putThen ?_
      refine Codes.within (get := fun r : Sps => r.mvc) (set := fun r x => { r with mvc := x }) (x := q.mvc.coded) ?_
      simp only [hm]
      exact mvcExtension_codes q.mvc
    | false =>
      refine (Codes.put fun r : Sps => { r with extension_type := .other }).congr rfl rfl ?_ rfl
      simp [hm]
  rw [Sps.sizeOk_extended (v' := d.valid) (e' := if b then .mvc else .other) (m' := given b q.mvc.coded {})] at size
  exact (data.bind <| body.bind <| (spsDerivations_codes size).bind <|
    Codes.put fun r : Sps => { r with valid := true }).congr (by simp) rfl rfl (by simp)

end Sys2Proof.Machine
end

