-- ==== Sys2Proof/Laws/Fails.lean ====
section
/-! SUPPORT. Sys2Proof/Laws/Fails.lean: where a parse stops with `ERROR` (60_exceptions.md R406): how a failure of a
part is a failure of the whole, the failures of one element, and the capacity checks of the loops. -/

namespace Sys2Proof.Machine

-- One theorem at a time: a thread for each, with check.sh's stack size, passes its memory limit.
set_option Elab.async false

/-! ## Where no code stands -/

theorem readUe_eq_none {bits : List Bool} : readUe bits = none ↔ noUeCode bits := by
  refine ⟨fun h k rest hk e => ?_, fun h => ?_⟩
  · rw [e, readUe_ueBits (by omega)] at h
    exact Option.some_ne_none _ h
  · cases e : readUe bits with
    | none => rfl
    | some x =>
      obtain ⟨hv, -, rest, rfl⟩ := readUe_spec (v := x.1) (n := x.2) e
      exact absurd rfl (h x.1 rest (by omega))

theorem Stuck.unreadable {bits : List Bool} (h : Stuck bits) : unreadable bits := h.imp id readUe_eq_none.1

/-! ## A parse that fails -/

/-- At `p` and from the record `r`, `m` ends with `ERROR` when it has read exactly `bits`, before `rest`, and leaves
`BR_FAIL` at `fail`. -/
def Fails {R α : Type} (m : Parse R α) (p : Nat) (bits rest : List Bool) (r : R) (fail : Bool) : Prop :=
  ∀ w, ∃ w' r', m ⟨⟨bits ++ rest, p, false, w⟩, r⟩ = .error .error ⟨⟨rest, p + bits.length, fail, w'⟩, r'⟩

variable {R A α β : Type} {r r' : R} {p : Nat} {rest : List Bool} {fail : Bool}

theorem Fails.congr {m : Parse R α} {b b' : List Bool} (h : Fails m p b rest r fail) (hb : b = b') :
    Fails m p b' rest r fail := by
  subst hb; exact h

/-- The first part fails. -/
theorem Fails.first {m : Parse R α} {k : α → Parse R β} {bits : List Bool} (h : Fails m p bits rest r fail) :
    Fails (m >>= k) p bits rest r fail := fun w => by
  obtain ⟨w', r', e⟩ := h w
  exact ⟨w', r', Parse.bind_error e⟩

/-- What follows fails. -/
theorem Runs.fails {m : Parse R α} {k : α → Parse R β} {b1 b2 : List Bool} {a : α} {w : Bool}
    (h1 : Runs m p b1 (b2 ++ rest) a r r' w) (h2 : Fails (k a) (p + b1.length) b2 rest r' fail) :
    Fails (m >>= k) p (b1 ++ b2) rest r fail := fun wn => by
  obtain ⟨w', r', e⟩ := h2 (wn || w)
  exact ⟨w', r', by rw [List.append_assoc, Parse.bind_ok (h1 false wn), e]; simp [Nat.add_assoc]⟩

theorem Codes.fails {m : Parse R α} {k : α → Parse R β} {b1 b2 : List Bool} {a : α} {w : Bool} (h1 : Codes m b1 a r r' w)
    (h2 : Fails (k a) (p + b1.length) b2 rest r' fail) : Fails (m >>= k) p (b1 ++ b2) rest r fail :=
  (h1.runs p _).fails h2

theorem Leads.fails {m m' : Parse R α} {b1 b2 : List Bool} (h1 : Leads m b1 r m' r')
    (h2 : Fails m' (p + b1.length) b2 rest r' fail) : Fails m p (b1 ++ b2) rest r fail := fun w => by
  obtain ⟨w', r', e⟩ := h2 w
  exact ⟨w', r', by rw [List.append_assoc, h1, e]; simp [Nat.add_assoc]⟩

theorem Fails.look {k : R → Parse R α} {bits : List Bool} (h : Fails (k r) p bits rest r fail) :
    Fails (Machine.look >>= k) p bits rest r fail := fun w => h w

theorem Fails.putThen {f : R → R} {k : Unit → Parse R α} {bits : List Bool} (h : Fails (k ()) p bits rest (f r) fail) :
    Fails (Machine.put f >>= k) p bits rest r fail := fun w => h w

theorem Fails.required {b : Bool} {c : Code} {k : Unit → Parse R α} {bits : List Bool} (h : b = true)
    (hk : Fails (k ()) p bits rest r fail) : Fails (Machine.require b c >>= k) p bits rest r fail := by
  subst h; exact hk

theorem Fails.whenever {b : Bool} {m : Parse R Unit} {bits : List Bool} (h : b = true) (hm : Fails m p bits rest r fail) :
    Fails (Machine.whenever b m) p bits rest r fail := by
  subst h; exact hm

theorem Fails.within {get : R → A} {set : R → A → R} {m : Parse A α} {bits : List Bool}
    (h : Fails m p bits rest (get r) fail) : Fails (Machine.within get set m) p bits rest r fail := fun w => by
  obtain ⟨w', x, e⟩ := h w
  exact ⟨w', set r x, by simp [Machine.within, e]⟩

theorem Fails.raise : Fails (raiseCode .error : Parse R α) p [] rest r false := fun w => ⟨w, r, rfl⟩

/-! ## One element -/

theorem Fails.require {b : Bool} (h : b = false) : Fails (Machine.require b .error : Parse R Unit) p [] rest r false := by
  subst h; exact Fails.raise

theorem Fails.getU {n : Nat} (h : rest.length < n) : Fails (Machine.getU n : Parse R Nat) p [] rest r true := fun w =>
  ⟨w, r, by simp [Machine.getU, readU_eq_none.2 h, readFailure]⟩

theorem Fails.getUe (h : noUeCode rest) : Fails (Machine.getUe : Parse R Nat) p [] rest r true := fun w =>
  ⟨w, r, by simp [Machine.getUe, readUe_eq_none.2 h, readFailure]⟩

/-- A value above the greatest: `BR_FAIL` stays 0 and the reader stands behind the element. -/
theorem Fails.elemUeMax {m : Int} {w : R → Nat → R} {k : Nat} (hk : k ≤ 4294967294) (h : m < k) :
    Fails (Machine.elemUeMax m w) p (ueBits k) rest r false :=
  ((Codes.getUe (k := k) (by omega)).fails (Fails.putThen (Fails.require (by simpa using h)))).congr (by simp)

theorem Fails.elemUeMax_read {m : Int} {w : R → Nat → R} (h : noUeCode rest) :
    Fails (Machine.elemUeMax m w) p [] rest r true := (Fails.getUe h).first

/-! ## The commands -/

/-- A command whose syntax fails ends with `ERROR`, its reader where the failure left it. -/
theorem Fails.command {zero : R} {body : Stream → Parse R Unit} {write store : State → R → State} {s : State}
    {bits : List Bool} (ready : naluReady s.nalu = true) (hb : s.payloadBits = bits ++ rest)
    (h : Fails (body s.payloadStream) 0 bits rest zero fail)
    (hw : ∀ s r, (write s r).br_pos = s.br_pos ∧ (write s r).br_fail = s.br_fail) :
    endsInError (.next (s.parse zero body write store)) bits.length fail := by
  obtain ⟨w, r, e⟩ := h false
  rw [← hb, Nat.zero_add] at e
  refine ⟨_, rfl, ?_⟩
  rw [State.parse_error ready e]
  exact ⟨rfl, (hw _ r).1, (hw _ r).2⟩

/-! ## The first rows of an SPS (42_sps.md R181) -/

theorem exists_uBits (bits : List Bool) : ∃ v, v < 2 ^ bits.length ∧ bits = uBits bits.length v := by
  obtain ⟨v, hv⟩ := Option.isSome_iff_exists.1 (readU_isSome.2 (Nat.le_refl bits.length))
  obtain ⟨h, rest, e⟩ := readU_spec hv
  refine ⟨v, h, ?_⟩
  have : rest = [] := by
    have := congrArg List.length e
    simp only [List.length_append, uBits_length] at this
    exact List.eq_nil_of_length_eq_zero (by omega)
  rw [this, List.append_nil] at e
  exact e

/-- Whatever 24 bits come first, the id's failure is the command's. -/
theorem spsIdentity_fails {r : Sps} {head bits : List Bool} (hl : head.length = 24)
    (h : ∀ (r : Sps) (w : Sps → Nat → Sps), Fails (elemUeMax 31 w) (p + 24) bits rest r fail) :
    Fails spsIdentity p (head ++ bits) rest r fail := by
  obtain ⟨v, -, e⟩ := exists_uBits head
  rw [hl] at e
  subst e
  let q : Sps := { profile_idc := BitVec.ofNat 8 (v >>> 16), constraint_set0_flag := v.testBit 15
                   constraint_set1_flag := v.testBit 14, constraint_set2_flag := v.testBit 13
                   constraint_set3_flag := v.testBit 12, constraint_set4_flag := v.testBit 11
                   constraint_set5_flag := v.testBit 10, level_idc := BitVec.ofNat 8 v }
  have parts : uBits 24 v = uField q.profile_idc ++ ([v.testBit 15] ++ ([v.testBit 14] ++ ([v.testBit 13] ++ ([v.testBit 12] ++
      ([v.testBit 11] ++ ([v.testBit 10] ++ (uField (BitVec.ofNat 2 (v >>> 8)) ++ uField q.level_idc))))))) := by
    have m8 (x i : Nat) : (x % 256).testBit i = (decide (i < 8) && x.testBit i) := Nat.testBit_mod_two_pow x 8 i
    have m2 (x i : Nat) : (x % 4).testBit i = (decide (i < 2) && x.testBit i) := Nat.testBit_mod_two_pow x 2 i
    simp [uBits, uField, q, m8, m2, Nat.testBit_shiftRight]
  rw [parts]
  simp only [List.append_assoc]
  unfold spsIdentity
  refine (uField_code q.profile_idc).fails <| (Codes.elemFlag _).fails <| (Codes.elemFlag _).fails <|
    (Codes.elemFlag _).fails <| (Codes.elemFlag _).fails <| (Codes.elemFlag _).fails <| (Codes.elemFlag _).fails <|
    (Codes.getU (BitVec.ofNat 2 (v >>> 8)).isLt).fails <| (uField_code q.level_idc).fails ?_
  simpa [uField, Nat.add_assoc] using h _ _

/-- The size check fails after the last element (R189). -/
theorem spsSyntax_tooBig {q : Sps} {vui : Bool} {reserved : BitVec 2} {c : List ListCoding} (ok : q.codable c = true)
    (size : (q.coded vui c).sizeOk = false) : Fails (spsSyntax vui) p (q.bits vui reserved c) rest {} false := by
  unfold spsSyntax
  refine Fails.congr ((spsData_codes (reserved := reserved) ok).fails (b2 := []) <| Fails.first <| Fails.putThen <|
    Fails.look <| Fails.require ?_) (by simp)
  exact size

/-! ## The slice-group map of a PPS (43_pps.md R243) -/

theorem ppsSyntax_tooManyUnits {q : Pps} {sps : Table Sps} {cap : Nat} (valid : (spsSlot sps q.sps_id.toNat).valid = true)
    (six : q.hasMap 6 = true) (ok : ueOk q.pic_size_in_map_units_minus1 = true) (h : cap < q.mapUnits) :
    Fails (ppsSyntax cap sps) p q.mapHeadBits rest {} false := by
  simp only [Pps.hasMap, Pps.grouped, Bool.and_eq_true, decide_eq_true_eq, beq_iff_eq] at six
  unfold ppsSyntax
  simp only [Pps.mapHeadBits, List.append_assoc]
  refine (ueField_code (by omega) (by omega)).fails <| (ueField_code (by omega) (by omega)).fails <| Fails.look ?_
  simp only [BitVec.ofNat_toNat, BitVec.setWidth_eq]
  refine Fails.required valid <| Fails.putThen <| Fails.first ?_
  unfold ppsBody
  refine (Codes.elemFlag _).fails <| (Codes.elemFlag _).fails <| (ueField_code (by omega) (by omega)).fails <| Fails.look <|
    Fails.first <| Fails.whenever (by simpa using six.1) ?_
  unfold ppsSliceGroups
  refine (ueField_code (by omega) (by omega)).fails <| Fails.look ?_
  simp only [BitVec.ofNat_toNat, BitVec.setWidth_eq, six.2]
  rw [if_neg (by decide), if_neg (by decide), if_neg (by decide)]
  refine Fails.whenever rfl ?_
  unfold ppsSliceGroupIds
  refine Fails.congr ((ueOk_code ok).fails (b2 := []) <| Fails.look <| Fails.first <| Fails.require ?_) (by simp)
  simpa [Pps.mapUnits] using h

/-! ## The capacity of the lists of a slice header (44_slice.md R280, R290) -/

/-- One entry more than fits fails at its code. -/
theorem rplmLoop_full {mvc : Bool} {m n code : Nat} {r : RplmList} (h : entryCode mvc code) :
    Fails (rplmLoop mvc m 0 n) p (ueBits code) rest r false := by
  have h5 : code ≤ 5 ∧ code ≠ 3 ∧ (mvc = true ∨ code ≤ 3) := by
    rcases h with h | ⟨h, h' | h'⟩
    · exact ⟨by omega, by omega, .inr (by omega)⟩
    · exact ⟨by omega, by omega, .inl h⟩
    · exact ⟨by omega, by omega, .inl h⟩
  rw [rplmLoop]
  refine Fails.congr ((Codes.getUe (k := code) (by omega)).fails (b2 := []) <| Fails.required (decide_eq_true h5.1) ?_)
    (by simp)
  rw [if_neg h5.2.1]
  exact Fails.required (by simpa using h5.2.2) Fails.raise

theorem rplmLoop_overflows {mvc : Bool} {m code : Nat} {l r : RplmList} (n k p : Nat) (h : entryCode mvc code)
    (ok : ∀ i, n ≤ i → i < n + k → (Table.read l.rplm {} i).codable mvc m = true) :
    Fails (rplmLoop mvc m k n) p ((List.range' n k).flatMap (fun i =>
      ueField (Table.read l.rplm {} i).idc ++ ueField (Table.read l.rplm {} i).value) ++ ueBits code) rest r false := by
  induction k generalizing n p r with
  | zero => exact rplmLoop_full h
  | succ k ih =>
    rw [List.range'_succ, List.flatMap_cons, List.append_assoc]
    exact (rplmLoop_leads (ok n (by omega) (by omega))).fails (ih (n + 1) _ fun i a b => ok i (by omega) (by omega))

theorem rplmList_overflows {mvc : Bool} {m code : Nat} {l : RplmList} (h : entryCode mvc code)
    (ok : l.codable mvc m = true) (full : l.n_ref_pic_list_modification = 32) :
    Fails (rplmList mvc m) p (true :: l.entryBits 32 ++ ueBits code) rest {} false := by
  simp only [RplmList.codable, full, Bool.and_eq_true, rowOk_iff] at ok
  unfold rplmList RplmList.entryBits rowBits
  refine (Codes.elemFlag true).fails <| Fails.look <| Fails.whenever rfl ?_
  rw [List.range_eq_range']
  exact rplmLoop_overflows 0 32 _ h fun i _ hi => ok.2 i hi

theorem mmcoLoop_overflows {code : Nat} {d r : Drpm} (n k p : Nat) (h1 : 1 ≤ code) (h6 : code ≤ 6)
    (ok : ∀ i, n ≤ i → i < n + k → (Table.read d.mmco {} i).codable = true) :
    Fails (mmcoLoop k n) p ((List.range' n k).flatMap (fun i => (Table.read d.mmco {} i).bits) ++ ueBits code) rest r
      false := by
  induction k generalizing n p r with
  | zero =>
    rw [mmcoLoop]
    refine Fails.congr ((Codes.getUe (k := code) (by omega)).fails (b2 := []) <| Fails.required (decide_eq_true h6) ?_)
      (by simp)
    rw [if_neg (by omega)]
    exact Fails.raise
  | succ k ih =>
    rw [List.range'_succ, List.flatMap_cons, List.append_assoc]
    exact (mmcoLoop_leads (ok n (by omega) (by omega))).fails (ih (n + 1) _ fun i a b => ok i (by omega) (by omega))

theorem refPicMarking_overflows {code : Nat} {d : Drpm} (h1 : 1 ≤ code) (h6 : code ≤ 6) (ok : d.codable = true)
    (full : d.n_ref_pic_marking = 10) :
    Fails (refPicMarking false) p (true :: d.opBits 10 ++ ueBits code) rest {} false := by
  simp only [Drpm.codable, full, Bool.and_eq_true, rowOk_iff] at ok
  unfold refPicMarking Drpm.opBits rowBits
  refine (Codes.elemFlag true).fails <| Fails.look <| Fails.whenever rfl ?_
  rw [List.range_eq_range']
  exact mmcoLoop_overflows 0 10 _ h1 h6 fun i _ hi => ok.2 i hi

/-- A failure after the links have been resolved (R270). -/
theorem sliceSyntax_fails {r : Slice} {x : SliceContext} {sps : Table Sps} {pps : Table Pps} {st : Stream}
    {bits : List Bool} (hp : ppsSlot pps r.pps_id.toNat = x.pps) (hq : spsSlot sps x.pps.sps_id.toNat = x.sps)
    (vp : x.pps.valid = true) (vq : x.sps.valid = true) (ext : x.sps.extension_type ≠ .other) (ok : r.codable x = true)
    (h : ∀ p, Fails (sliceHeader x.nalu x.pps x.sps) p bits rest
      { first_mb_in_slice := r.first_mb_in_slice, slice_type := r.slice_type, pps_id := r.pps_id } fail) :
    Fails (sliceSyntax x.nalu sps pps st) p
      (ueField r.first_mb_in_slice ++ (ueField r.slice_type ++ (ueField r.pps_id ++ bits))) rest {} fail := by
  have ok1 : ueOk r.first_mb_in_slice = true ∧ r.slice_type.toNat ≤ 9 := by
    simp only [Slice.codable, Bool.and_eq_true, decide_eq_true_eq] at ok
    obtain ⟨⟨⟨⟨⟨⟨⟨⟨⟨⟨⟨⟨⟨⟨⟨⟨⟨⟨⟨h1, h2⟩, _⟩, _⟩, _⟩, _⟩, _⟩, _⟩, _⟩, _⟩, _⟩, _⟩, _⟩, _⟩, _⟩, _⟩, _⟩, _⟩, _⟩, _⟩ := ok
    exact ⟨h1, h2⟩
  unfold sliceSyntax
  refine (ueOk_code ok1.1).fails <| (ueField_code (x := r.slice_type) (by omega) (by omega)).fails <|
    (ueField_code (x := r.pps_id) (by omega) (by omega)).fails <| Fails.look ?_
  simp only [BitVec.ofNat_toNat, BitVec.setWidth_eq, hp, hq]
  exact Fails.required vp <| Fails.required vq <| Fails.required (by simpa using ext) <| Fails.first (h _)

/-- The rows before the modification lists, then a failure there. -/
theorem sliceHeader_fails {r s : Slice} {x : SliceContext} {bits : List Bool} (ok : r.codable x = true)
    (hs : s = { first_mb_in_slice := r.first_mb_in_slice, slice_type := r.slice_type, pps_id := r.pps_id })
    (h : ∀ (s : Slice) (p : Nat), s.slice_type = r.slice_type → s.max_pic_num = r.maxPicNum x → s.mod_l0 = {} →
      s.mod_l1 = {} → s.pwt = {} → s.drpm = {} → s.num_ref_idx_l0_active_minus1 = r.count0 x →
      s.num_ref_idx_l1_active_minus1 = r.count1 x →
      Fails (do sliceModification x.nalu; sliceWeights x.pps x.sps
                whenever (x.nalu.ref_idc != 0)
                  (within (·.drpm) (fun r x => { r with drpm := x }) (refPicMarking x.nalu.idr_pic_flag))
                sliceQuant x.pps; sliceChangeCycle x.pps x.sps) p bits rest s fail) :
    Fails (sliceHeader x.nalu x.pps x.sps) p (r.frameBits x ++ (r.orderBits x ++ (r.overrideBits ++ bits))) rest s
      fail := by
  subst hs
  simp only [Slice.codable, Bool.and_eq_true, decide_eq_true_eq, Bool.or_eq_true, Bool.not_eq_true'] at ok
  obtain ⟨⟨⟨⟨⟨⟨⟨⟨⟨⟨⟨⟨⟨⟨⟨⟨⟨⟨⟨-, -⟩, h1⟩, h2⟩, h3⟩, h4⟩, h5⟩, h6⟩, -⟩, -⟩, -⟩, -⟩, -⟩, -⟩, -⟩, -⟩, -⟩, -⟩, -⟩, -⟩ := ok
  unfold sliceHeader
  refine Codes.fails (a := ()) (sliceFrameNum_codes (r := r) h1 h2 (by rfl) (by rfl) (by rfl)) ?_
  refine Codes.fails (a := ()) (slicePicOrder_codes (r := r) (by rfl) (by rfl) h3 h4 h5 h6 (by rfl) (by rfl) (by rfl)
    (by rfl) (by rfl) (by rfl)) ?_
  refine Codes.fails (a := ()) (sliceRefCounts_codes (r := r) (x := x) (by rfl) (by rfl)) ?_
  exact h _ _ rfl rfl rfl rfl rfl rfl rfl rfl

theorem sliceModification_overflows0 {r s : Slice} {n : Nalu} {m code : Nat} (ht : s.slice_type = r.slice_type)
    (hm : s.max_pic_num.toNat = m) (h0 : r.mod_l0.codable (n.extension_type == .mvc) m = true) (e : s.mod_l0 = {})
    (hI : r.isI = false) (hSI : r.isSI = false) (full : r.mod_l0.n_ref_pic_list_modification = 32)
    (hc : entryCode (n.extension_type == .mvc) code) :
    Fails (sliceModification n) p (true :: r.mod_l0.entryBits 32 ++ ueBits code) rest s false := by
  obtain ⟨-, -, eI, -, eSI⟩ := Slice.classes ht
  unfold sliceModification
  refine Fails.look <| Fails.first <| Fails.whenever (by simp [eI, eSI, hI, hSI]) <| Fails.within ?_
  rw [e, hm]
  exact rplmList_overflows hc h0 full

theorem sliceModification_overflows1 {r s : Slice} {n : Nalu} {m code : Nat} (ht : s.slice_type = r.slice_type)
    (hm : s.max_pic_num.toNat = m) (h0 : r.mod_l0.codable (n.extension_type == .mvc) m = true)
    (h1 : r.mod_l1.codable (n.extension_type == .mvc) m = true) (e0 : s.mod_l0 = {}) (e1 : s.mod_l1 = {})
    (hB : r.isB = true) (full : r.mod_l1.n_ref_pic_list_modification = 32)
    (hc : entryCode (n.extension_type == .mvc) code) :
    Fails (sliceModification n) p (r.mod_l0.bits ++ (true :: r.mod_l1.entryBits 32 ++ ueBits code)) rest s false := by
  obtain ⟨-, eB, eI, -, eSI⟩ := Slice.classes ht
  have h : (!r.isI && !r.isSI) = true := by
    simp only [Slice.isB, beq_iff_eq] at hB
    simp [Slice.isI, Slice.isSI, hB]
  unfold sliceModification
  refine Fails.look ?_
  simp only [eB, eI, eSI, hm, h, hB]
  have list0 := Codes.within (r := s) (get := (·.mod_l0)) (set := fun r x => { r with mod_l0 := x })
    (by rw [e0]; exact rplmList_codes h0)
  refine Codes.fails (a := ()) list0 <| Fails.whenever rfl <| Fails.within ?_
  change Fails _ _ _ _ s.mod_l1 _
  rw [e1]
  exact rplmList_overflows hc h1 full

/-- A failure at row 13. -/
theorem sliceSyntax_list {r : Slice} {x : SliceContext} {sps : Table Sps} {pps : Table Pps} {st : Stream}
    {bits : List Bool} (hp : ppsSlot pps r.pps_id.toNat = x.pps) (hq : spsSlot sps x.pps.sps_id.toNat = x.sps)
    (vp : x.pps.valid = true) (vq : x.sps.valid = true) (ext : x.sps.extension_type ≠ .other) (ok : r.codable x = true)
    (h : ∀ (s : Slice) (p : Nat), s.slice_type = r.slice_type → s.max_pic_num = r.maxPicNum x → s.mod_l0 = {} →
      s.mod_l1 = {} → Fails (sliceModification x.nalu) p bits rest s fail) :
    Fails (sliceSyntax x.nalu sps pps st) p (r.headBits x ++ bits) rest {} fail := by
  refine Fails.congr (sliceSyntax_fails (p := p) hp hq vp vq ext ok fun p => sliceHeader_fails (bits := bits) ok rfl
    fun s p t m e0 e1 _ _ _ _ => (h s p t m e0 e1).first) ?_
  simp only [Slice.headBits, List.append_assoc]

theorem Slice.codable_lists {r : Slice} {x : SliceContext} (ok : r.codable x = true) :
    r.mod_l0.codable (x.nalu.extension_type == .mvc) (r.maxPicNum x).toNat = true ∧
    r.mod_l1.codable (x.nalu.extension_type == .mvc) (r.maxPicNum x).toNat = true ∧
    r.pwt.l0.codable ((r.count0 x).toNat + 1) = true ∧ r.pwt.l1.codable ((r.count1 x).toNat + 1) = true ∧
    r.drpm.codable = true := by
  simp only [Slice.codable, Bool.and_eq_true] at ok
  obtain ⟨⟨⟨⟨⟨⟨⟨⟨⟨⟨⟨⟨-, h7⟩, h8⟩, h9⟩, h10⟩, h11⟩, -⟩, -⟩, -⟩, -⟩, -⟩, -⟩, -⟩ := ok
  exact ⟨h7, h8, h9, h10, h11⟩

/-- The first list holds 32 entries and another code follows (R280). -/
theorem sliceSyntax_overflows0 {r : Slice} {x : SliceContext} {sps : Table Sps} {pps : Table Pps} {st : Stream}
    {code : Nat} (hp : ppsSlot pps r.pps_id.toNat = x.pps) (hq : spsSlot sps x.pps.sps_id.toNat = x.sps)
    (vp : x.pps.valid = true) (vq : x.sps.valid = true) (ext : x.sps.extension_type ≠ .other) (ok : r.codable x = true)
    (hI : r.isI = false) (hSI : r.isSI = false) (full : r.mod_l0.n_ref_pic_list_modification = 32)
    (hc : entryCode (x.nalu.extension_type == .mvc) code) :
    Fails (sliceSyntax x.nalu sps pps st) p (r.headBits x ++ (true :: r.mod_l0.entryBits 32 ++ ueBits code)) rest {}
      false :=
  sliceSyntax_list hp hq vp vq ext ok fun _ _ t m e0 _ =>
    sliceModification_overflows0 t (by rw [m]) (Slice.codable_lists ok).1 e0 hI hSI full hc

/-- The second list holds 32 entries and another code follows (R280). -/
theorem sliceSyntax_overflows1 {r : Slice} {x : SliceContext} {sps : Table Sps} {pps : Table Pps} {st : Stream}
    {code : Nat} (hp : ppsSlot pps r.pps_id.toNat = x.pps) (hq : spsSlot sps x.pps.sps_id.toNat = x.sps)
    (vp : x.pps.valid = true) (vq : x.sps.valid = true) (ext : x.sps.extension_type ≠ .other) (ok : r.codable x = true)
    (hB : r.isB = true) (full : r.mod_l1.n_ref_pic_list_modification = 32)
    (hc : entryCode (x.nalu.extension_type == .mvc) code) :
    Fails (sliceSyntax x.nalu sps pps st) p
      (r.headBits x ++ (r.mod_l0.bits ++ (true :: r.mod_l1.entryBits 32 ++ ueBits code))) rest {} false :=
  sliceSyntax_list hp hq vp vq ext ok fun _ _ t m e0 e1 => sliceModification_overflows1 t (by rw [m])
    (Slice.codable_lists ok).1 (Slice.codable_lists ok).2.1 e0 e1 hB full hc

/-- Ten operations are in and another one follows (R290). -/
theorem sliceSyntax_overflowsMarking {r : Slice} {x : SliceContext} {sps : Table Sps} {pps : Table Pps} {st : Stream}
    {f : WeightFlagPair} {code : Nat} (hp : ppsSlot pps r.pps_id.toNat = x.pps)
    (hq : spsSlot sps x.pps.sps_id.toNat = x.sps) (vp : x.pps.valid = true) (vq : x.sps.valid = true)
    (ext : x.sps.extension_type ≠ .other) (ok : r.codable x = true) (href : x.nalu.ref_idc ≠ 0)
    (hidr : x.nalu.idr_pic_flag = false) (full : r.drpm.n_ref_pic_marking = 10) (h1 : 1 ≤ code) (h6 : code ≤ 6) :
    Fails (sliceSyntax x.nalu sps pps st) p
      (r.headBits x ++ (r.listBits ++ (r.weightBits x f ++ (true :: r.drpm.opBits 10 ++ ueBits code)))) rest {} false := by
  obtain ⟨k0, k1, k2, k3, k4⟩ := Slice.codable_lists ok
  refine Fails.congr (sliceSyntax_fails (p := p) hp hq vp vq ext ok fun p => sliceHeader_fails (bits :=
    r.listBits ++ (r.weightBits x f ++ (true :: r.drpm.opBits 10 ++ ueBits code))) ok rfl
    fun s p t m e0 e1 e2 e3 c0 c1 => ?_) (by simp only [Slice.headBits, List.append_assoc])
  refine Codes.fails (a := ()) (sliceModification_codes t (by rw [m]) k0 k1 e0 e1) <|
    Codes.fails (a := ()) (sliceWeights_codes (f := f) t c0 c1 k2 k3 e2) <| Fails.first <|
    Fails.whenever (by simpa using href) <| Fails.within ?_
  change Fails _ _ _ _ s.drpm _
  rw [e3, hidr]
  exact refPicMarking_overflows h1 h6 k4 full

/-! ## SEI (45_sei.md R330, R331) -/

theorem Fails.reader {k : Reader → Parse R α} {bits : List Bool}
    (h : ∀ w, Fails (k ⟨bits ++ rest, p, false, w⟩) p bits rest r fail) : Fails (Machine.reader >>= k) p bits rest r fail :=
  fun w => h w w

/-- The bytes of a type or a size end before its code does. -/
theorem codeSum_fails (n acc : Nat) {r : SeiMsg} (h : rest.length < 8) :
    Fails (codeSum n acc) p (List.replicate (8 * n) true) rest r true := by
  induction n generalizing p acc with
  | zero =>
    unfold codeSum
    exact (Fails.getU h).first
  | succ n ih =>
    unfold codeSum
    refine Fails.congr ((Codes.getU (n := 8) (v := 255) (by omega)).fails (b2 := List.replicate (8 * n) true) ?_) ?_
    · rw [if_pos rfl]
      exact ih _
    · rw [show uBits 8 255 = List.replicate 8 true from rfl, List.replicate_append_replicate,
        show 8 + 8 * n = 8 * (n + 1) by omega]

theorem seiCode_fails (n : Nat) {r : SeiMsg} (h : rest.length < 8) :
    Fails seiCode p (List.replicate (8 * n) true) rest r true := by
  unfold seiCode
  refine Fails.reader fun w => ?_
  rw [show (List.replicate (8 * n) true ++ rest).length / 8 = n by simp; omega]
  exact codeSum_fails n 0 h

theorem seiMessage_typeTooBig {x : SeiContext} {t : Nat} {r : SeiMsg} (h : 4294967296 ≤ t) :
    Fails (seiMessage x.sps x.last_sps) p (seiCodeBits t) rest r false := by
  unfold seiMessage
  refine Fails.congr ((seiCode_runs t p _).fails (b2 := []) <| Fails.first <| Fails.require ?_) (by simp)
  exact decide_eq_false (by omega)

theorem seiMessage_sizeTooBig {x : SeiContext} {t size : Nat} {r : SeiMsg} (ht : t < 4294967296) (h : 4294967296 ≤ size) :
    Fails (seiMessage x.sps x.last_sps) p (seiCodeBits t ++ seiCodeBits size) rest r false := by
  unfold seiMessage
  refine (seiCode_runs t p _).fails <| Fails.required (decide_eq_true ht) <|
    Fails.congr ((seiCode_runs size _ _).fails (b2 := []) <| Fails.first <| Fails.require ?_) (by simp)
  exact decide_eq_false (by omega)

/-- The first message fails. -/
theorem seiLoop_first {x : SeiContext} {room : Nat} {bits : List Bool} {r : SeiList} (h : 1 ≤ room)
    (hm : Fails (seiMessage x.sps x.last_sps) p bits rest {} fail) :
    Fails (seiLoop x.sps x.last_sps room) p bits rest r fail := by
  obtain ⟨room, rfl⟩ : ∃ k, room = k + 1 := ⟨room - 1, by omega⟩
  rw [seiLoop]
  exact Fails.look <| Fails.first <| Fails.within hm

/-- More messages than `room` admits fail where the first of them begins. -/
theorem seiLoop_overflows {x : SeiContext} {c : SeiCoding} (cs : List SeiCoding) {r : SeiList} (hp : p % 8 = 0)
    (ok : seiCodable x (cs ++ [c]) rest = true) :
    Fails (seiLoop x.sps x.last_sps cs.length) p (seiBits x cs) (c.bits x ++ rest) r false := by
  induction cs generalizing p r with
  | nil => exact Fails.raise
  | cons d ds ih =>
    simp only [List.cons_append, seiCodable, Bool.and_eq_true, beq_iff_eq] at ok
    obtain ⟨⟨hd, hm⟩, hds⟩ := ok
    have e : seiBits x (ds ++ [c]) ++ rest = seiBits x ds ++ (c.bits x ++ rest) := by simp [seiBits]
    rw [e] at hd hm
    rw [List.length_cons, seiLoop, seiBits_cons]
    refine Fails.look ?_
    refine Runs.fails (Runs.within (get := fun _ : SeiList => ({} : SeiMsg))
        (set := fun (s : SeiList) m => { s with msgs := Table.write s.msgs {} r.count m }) (seiMessage_runs hp hd)) ?_
    refine Fails.putThen fun w => ?_
    rw [Parse.bind_ok (m := moreData) rfl, hm]
    rw [show (ds ++ [c]).isEmpty = false by simp]
    exact ih (by have := SeiCoding.length_bits hd; omega) hds w

end Sys2Proof.Machine
end

