-- ==== Sys2Proof/Laws/Memory.lean ====
section
/-! SUPPORT. Sys2Proof/Laws/Memory.lean: the input buffer: reading after a host write, and the canonical form, which
every operation on it keeps. -/

namespace Sys2Proof.Machine

theorem Memory.wf_iff {m : Memory} :
    m.wf = true ↔ Table.wf unwrittenByte m = true ∧ Table.below Config.bufferBytes m = true := by
  simp [Memory.wf]

/-- A byte reads as the value the host wrote to it. -/
theorem Memory.byte_store_same {m : Memory} (h : m.wf = true) (a : Word) (b : Byte) : (m.store a b).byte a = b :=
  Table.read_write_same (lo := 0) (Memory.wf_iff.1 h).1

/-- A host write leaves every other byte alone. -/
theorem Memory.byte_store_other (m : Memory) {a c : Word} (b : Byte) (h : c ≠ a) : (m.store a b).byte c = m.byte c :=
  Table.read_write_other fun e => h (BitVec.eq_of_toNat_eq e)

/-- A host write keeps the canonical form; nothing else writes the buffer. -/
theorem Memory.wf_store {m : Memory} (h : m.wf = true) (a : Word) (b : Byte) : (m.store a b).wf = true :=
  Memory.wf_iff.2 ⟨Table.wf_write (Memory.wf_iff.1 h).1, Table.below_write (Memory.wf_iff.1 h).2 a.isLt⟩

theorem Memory.wf_reset : State.reset.mem.wf = true := rfl

theorem State.wf_hostAccess {s : State} (h : s.mem.wf = true) (op : HostOp) : (s.hostAccess op).mem.wf = true := by
  cases op with
  | cmd w => exact h
  | arg k v => rw [State.hostAccess, State.writeArg_mem]; exact h
  | buf a b => exact Memory.wf_store h a b
  | reset => exact h

/-- A window depends on its own bytes only. -/
theorem Memory.window_congr {m m' : Memory} {a : Word} {n : Nat}
    (h : ∀ k < n, m'.byte (a + BitVec.ofNat 32 k) = m.byte (a + BitVec.ofNat 32 k)) : m'.window a n = m.window a n := by
  unfold Memory.window
  exact List.map_congr_left fun k hk => h k (List.mem_range.1 hk)

@[simp] theorem Memory.window_length (m : Memory) (a : Word) (n : Nat) : (m.window a n).length = n := by
  simp [Memory.window]

end Sys2Proof.Machine
end

