-- ==== Sys2Proof/Laws/PerInstr.lean ====
section
/-! SUPPORT. Sys2Proof/Laws/PerInstr.lean: what holds of every command as syntax, one lemma per constructor: its
word is of the row that spec/opcode_table.json gives it (30_encoding.md R82). -/

namespace Sys2Proof.Laws.TableRow

open Sys2Proof.Machine

/-- The position of a command's row in the opcode table. -/
def row : Instr → Nat
  | .brInit => 0
  | .brRead _ => 1
  | .brPeek _ => 2
  | .brSkip _ => 3
  | .brSkipLong => 4
  | .brReadUe => 5
  | .brReadSe => 6
  | .brByteAligned => 7
  | .brMoreRbspData => 8
  | .scanStartCode => 9
  | .identifyAnnexb => 10
  | .identifyAvc _ => 11
  | .parseSps _ => 12
  | .parseSubsetSps => 13
  | .parsePps => 14
  | .parseSliceHdr => 15
  | .parseSei => 16

/-- Whether a word matches row `k` under its mask. -/
def matchesRow (w : Word) (k : Nat) : Bool := w &&& (opcodeRows.getD k (0, 0)).1 == (opcodeRows.getD k (0, 0)).2

/-- The command's word matches its row, and no other row. -/
def Statement (i : Instr) : Prop := ((List.range 17).all fun k => matchesRow (encode i) k == (k == row i)) = true

theorem brInit : Statement .brInit := by unfold Statement; decide
theorem brRead (n : BitVec 8) : Statement (.brRead n) := by unfold Statement; revert n; decide +kernel
theorem brPeek (n : BitVec 8) : Statement (.brPeek n) := by unfold Statement; revert n; decide +kernel
theorem brSkip (n : BitVec 8) : Statement (.brSkip n) := by unfold Statement; revert n; decide +kernel
theorem brSkipLong : Statement .brSkipLong := by unfold Statement; decide
theorem brReadUe : Statement .brReadUe := by unfold Statement; decide
theorem brReadSe : Statement .brReadSe := by unfold Statement; decide
theorem brByteAligned : Statement .brByteAligned := by unfold Statement; decide
theorem brMoreRbspData : Statement .brMoreRbspData := by unfold Statement; decide
theorem scanStartCode : Statement .scanStartCode := by unfold Statement; decide
theorem identifyAnnexb : Statement .identifyAnnexb := by unfold Statement; decide
theorem identifyAvc (m : BitVec 8) : Statement (.identifyAvc m) := by unfold Statement; revert m; decide +kernel
theorem parseSps (v : Bool) : Statement (.parseSps v) := by cases v <;> (unfold Statement; decide)
theorem parseSubsetSps : Statement .parseSubsetSps := by unfold Statement; decide
theorem parsePps : Statement .parsePps := by unfold Statement; decide
theorem parseSliceHdr : Statement .parseSliceHdr := by unfold Statement; decide
theorem parseSei : Statement .parseSei := by unfold Statement; decide

end Sys2Proof.Laws.TableRow
end

