-- ==== Sys2Proof/Tests/Slice0.lean ====
section
/-! SUPPORT. Sys2Proof/Tests/Slice0.lean: the model's own tests. A word is written out from 30_encoding.md R80 and
R82; an expected result is the one 95_test_vectors.md gives, named by its id. The last part shows, for each statement
that has hypotheses, a state and operands that meet them. -/

namespace Sys2Proof.Tests

open Sys2Proof.Machine

-- One theorem at a time: a thread for each, with check.sh's stack size, passes its memory limit.
set_option Elab.async false

/-! ## States -/

/-- A buffer that holds the bytes `l` from address `a` on. -/
def buffer (a : Nat) (l : List Byte) : Memory := Table.ofList 0 a l

/-- A NAL unit at address 0 with its header decoded (the notation paragraph of 95_test_vectors.md). -/
def place (l : List Byte) : State :=
  { mem := buffer 0 l, nalu := (parseHeader (buffer 0 l) { valid := true, size := BitVec.ofNat 32 l.length }).2 }

/-- The reader at bit `p` of the window `l`, which stands at address 0. -/
def reading (l : List Byte) (p : Nat) : State := { mem := buffer 0 l, br_size := BitVec.ofNat 32 l.length, br_pos := p }

/-- The window of T-BR-1. -/
def window1 (p : Nat) : State := reading [0xA5, 0x00, 0x00, 0x03, 0x01, 0x80] p

/-- The buffer `l` at address `a` as a locator command's operands name it, from the offset `off` on. -/
def located (a : Nat) (l : List Byte) (off : Nat) : State :=
  { mem := buffer a l, arg0 := BitVec.ofNat 32 a, arg1 := BitVec.ofNat 32 off, arg2 := BitVec.ofNat 32 l.length }

/-- B17 of section 3. -/
def b17 : List Byte :=
  [0x00, 0x00, 0x00, 0x01, 0x09, 0xF0, 0x00, 0x00, 0x01, 0x65, 0x88, 0x84, 0x00, 0x00, 0x00, 0x01, 0x0B]

/-- As much of T-SPS-1 as slices, PPSs and recovery points look at. -/
def sps0 : Sps :=
  { valid := true, max_frame_num := 16, pic_order_cnt_type := 2, frame_mbs_only_flag := true, chroma_format_idc := 1
    chroma_array_type := 1, lists := flatLists }

/-- As much of T-SPS-2's VUI as picture timings look at. -/
def vui1 : Vui :=
  { nal_hrd_parameters_present_flag := true, pic_struct_present_flag := true
    nal_hrd := { initial_cpb_removal_delay_length_minus1 := 23, cpb_removal_delay_length_minus1 := 23
                 dpb_output_delay_length_minus1 := 23, time_offset_length := 24 } }

/-- As much of T-SPS-2 as is looked at. -/
def sps1 : Sps := { valid := true, id := 1, max_frame_num := 16, vui := vui1 }

/-- T-PPS-1. -/
def pps0 : Pps := { valid := true, deblocking_filter_control_present_flag := true, lists := flatLists }

/-- A store with SPS 0, SPS 1 and PPS 0. -/
def stored (s : State) : State := { s with sps := [(0, sps0), (1, sps1)], pps := [(0, pps0)], last_sps := 1, last_pps := 0 }

/-- The state a command ends in. -/
def after : Host.Outcome State Fault Refusal → State
  | .next s => s
  | .fault f => nomatch f
  | .refused _ => State.reset

/-- The payload bits left after the first `n`. -/
def bitsFrom (s : State) (n : Nat) : List Bool := s.payloadBits.drop n

/-! ## Well-formedness: each check refuses an ill-formed command -/

theorem test_wf_bit_counts : (∀ n ∈ [(0 : BitVec 8), 33, 255],
    (Instr.brRead n).wf = false ∧ (Instr.brPeek n).wf = false ∧ (Instr.brSkip n).wf = false) ∧
    (Instr.brRead 1).wf = true ∧ (Instr.brRead 32).wf = true := by decide

theorem test_wf_length_size : (∀ m ∈ [(0 : BitVec 8), 5, 255], (Instr.identifyAvc m).wf = false) ∧
    (Instr.identifyAvc 1).wf = true ∧ (Instr.identifyAvc 4).wf = true := by decide

/-! ## Decoding: `0x0000`, `imm8`, opcode -/

theorem test_decode_bit_reader :
    decode 0b00000000000000000000000000000001 = .ok .brInit ∧
    decode 0b00000000000000000000100000000010 = .ok (.brRead 8) ∧
    decode 0b00000000000000000000010000000011 = .ok (.brPeek 4) ∧
    decode 0b00000000000000000001100000000100 = .ok (.brSkip 24) ∧
    decode 0b00000000000000000000000000000101 = .ok .brSkipLong ∧
    decode 0b00000000000000000000000000000110 = .ok .brReadUe ∧
    decode 0b00000000000000000000000000000111 = .ok .brReadSe ∧
    decode 0b00000000000000000000000000001000 = .ok .brByteAligned ∧
    decode 0b00000000000000000000000000001001 = .ok .brMoreRbspData := by decide

theorem test_decode_locator :
    decode 0b00000000000000000000000000010000 = .ok .scanStartCode ∧
    decode 0b00000000000000000000000000010001 = .ok .identifyAnnexb ∧
    decode 0b00000000000000000000010000010010 = .ok (.identifyAvc 4) := by decide

theorem test_decode_parse :
    decode 0b00000000000000000000000100100000 = .ok (.parseSps true) ∧
    decode 0b00000000000000000000000000100000 = .ok (.parseSps false) ∧
    decode 0b00000000000000000000000000100001 = .ok .parseSubsetSps ∧
    decode 0b00000000000000000000000000100010 = .ok .parsePps ∧
    decode 0b00000000000000000000000000100011 = .ok .parseSliceHdr ∧
    decode 0b00000000000000000000000000100100 = .ok .parseSei := by decide

/-- T-BR-20 and T-SPS-14. -/
theorem test_decode_rejects :
    decode 0x00000101 = .error .unusedImm8Set ∧ decode 0x00010802 = .error .zeroFieldSet ∧
    decode 0x00000220 = .error .unusedImm8Set ∧ decode 0x00000121 = .error .unusedImm8Set ∧
    decode 0x0000000A = .error .unknownOpcode ∧ decodeTableWord 32 0x412 = some (.identifyAvc 4) ∧
    decodeTableWord 32 0x25 = none := by decide

/-! ## The bit reader (section 2) -/

theorem test_destuff_T_BR_11 : (destuff [0, 0, 3, 0, 0, 3, 3]).map (·.2) = [0, 0, 0, 0, 3] := by decide
theorem test_destuff_T_BR_25 : (destuff [0, 0, 3, 0, 3]).map (·.2) = [0, 0, 0, 3] := by decide

theorem test_brInit_T_BR_1 : (after (exec .brInit { (window1 9) with arg0 := 0x1000, arg1 := 6, br_fail := true })) =
    { window1 0 with arg0 := 0x1000, arg1 := 6, br_base := 0x1000, br_size := 6 } := by decide +kernel
theorem test_brInit_T_BR_21 :
    (after (exec .brInit { (window1 9) with arg0 := 0xFFFFFFFC, arg1 := 5 })).status.code = .illegal := by decide +kernel

theorem test_brRead_T_BR_4 : let t := after (exec (.brRead 32) (window1 0))
    t.result = 0xA5000001 ∧ t.br_pos = 32 ∧ t.br_epb = 1 := by decide +kernel
theorem test_brRead_T_BR_16 : let t := after (exec (.brRead 8) (window1 33))
    t.status.code = .insufficientData ∧ t.br_pos = 33 ∧ t.br_fail = true := by decide +kernel

theorem test_brPeek_T_BR_2 : let t := after (exec (.brPeek 4) (window1 0)); t.result = 0xA ∧ t.br_pos = 0 := by decide +kernel
theorem test_brPeek_T_BR_17 : let t := after (exec (.brPeek 8) (window1 33))
    t.status.code = .insufficientData ∧ t.br_fail = false := by decide +kernel

theorem test_brSkip_T_BR_5 : let t := after (exec (.brSkip 24) (window1 0)); t.br_pos = 24 ∧ t.br_epb = 0 := by decide +kernel
theorem test_brSkip_T_BR_5_next : let t := after (exec (.brSkip 1) (window1 24)); t.br_pos = 25 ∧ t.br_epb = 1 := by decide +kernel

theorem test_brSkipLong_T_BR_18 : let t := after (exec .brSkipLong { window1 0 with arg0 := 40 })
    t.br_pos = 40 ∧ t.br_epb = 1 := by decide +kernel
theorem test_brSkipLong_T_BR_18_past : let t := after (exec .brSkipLong { window1 40 with arg0 := 1 })
    t.br_pos = 40 ∧ t.br_fail = true := by decide +kernel

theorem test_brReadUe_T_BR_6j : let t := after (exec .brReadUe (reading [0, 0, 0, 1, 255, 255, 255, 255] 0))
    t.result = 0xFFFFFFFE ∧ t.br_pos = 63 := by decide +kernel
theorem test_brReadUe_T_BR_6k : let t := after (exec .brReadUe (reading [0, 0, 0, 0, 0x80, 0, 0, 0, 0] 0))
    t.status.code = .insufficientData ∧ t.br_pos = 0 := by decide +kernel

theorem test_brReadSe_T_BR_7c : let t := after (exec .brReadSe (reading [0x60] 0))
    t.result = 0xFFFFFFFF ∧ t.br_pos = 3 := by decide +kernel
theorem test_brReadSe_T_BR_7i : (after (exec .brReadSe (reading [0, 0, 0, 1, 255, 255, 255, 255] 0))).result = 0x80000001 := by
  decide +kernel

theorem test_brByteAligned_T_BR_19 : (after (exec .brByteAligned { window1 3 with result := 7 })).result = 0 := by decide +kernel
theorem test_brByteAligned_T_BR_9 : let t := after (exec .brByteAligned { window1 8 with br_fail := true, result := 7 })
    t.status.code = .insufficientData ∧ t.result = 7 := by decide +kernel

theorem test_brMoreRbspData_T_BR_13 : (after (exec .brMoreRbspData (window1 31))).result = 1 := by decide +kernel
theorem test_brMoreRbspData_T_BR_14 : (after (exec .brMoreRbspData { window1 32 with result := 7 })).result = 0 := by decide +kernel

/-! ## The locator (section 3) -/

theorem test_scanStartCode_T_NAL_1 :
    (after (exec .scanStartCode { mem := buffer 0x100 b17, arg0 := 0x100, arg1 := 17 })).result = 1 := by decide +kernel
theorem test_scanStartCode_T_NAL_5 : let t := after (exec .scanStartCode { mem := buffer 0 [0x12, 0, 0, 1], arg1 := 4 })
    t.status.code = .noNal ∧ t.result = 0xFFFFFFFF := by decide +kernel

theorem test_identifyAnnexb_T_NAL_7 : (after (exec .identifyAnnexb (located 0x100 b17 0))).nalu =
    { valid := true, base := 0x100, offset := 4, size := 2, type := 9, header_bytes := 1 } := by decide +kernel
theorem test_identifyAnnexb_T_NAL_20 :
    (after (exec .identifyAnnexb (located 0 [0, 0, 1, 0x74, 0, 0, 0x87, 0xAA, 0xBB, 0, 0, 1, 9] 0))).nalu =
    { valid := true, offset := 3, size := 6, type := 20, ref_idc := 3, header_bytes := 4, extension_type := .mvc
      mvc := { view_id := 2, anchor_pic_flag := true, inter_view_flag := true }, idr_pic_flag := true } := by decide +kernel

theorem test_identifyAvc_T_NAL_29 : (after (exec (.identifyAvc 1) (located 0 [2, 9, 0xF0, 1, 0x0A] 3))).nalu =
    { valid := true, sc_offset := 3, offset := 4, size := 1, type := 10, header_bytes := 1 } := by decide +kernel
theorem test_identifyAvc_T_NAL_25 : let t := after (exec (.identifyAvc 4) (located 0 [0, 0, 0, 5, 9, 0xF0] 0))
    t.status.code = .noNalEnd ∧ t.nalu = { offset := 4 } := by decide +kernel

/-! ## Parameter sets (sections 4 and 5) -/

/-- T-SPS-1. -/
def tSps1 : State := place [0x67, 0x42, 0xC0, 0x1F, 0xDA, 0x01, 0x40, 0x16, 0xE4]

/-- T-SPS-3. -/
def tSps3 : State := place (
  [0x67, 0x64, 0x00, 0x28, 0x4B, 0x61, 0x14, 0x20, 0x08, 0x64, 0x0A, 0x86, 0xCA, 0x03, 0xC0, 0x11, 0x3F, 0x2E, 0x02, 0xD4] ++
  [0x04, 0x04, 0x05, 0x00, 0x00, 0x03, 0x03, 0xE9, 0x00, 0x00, 0x03, 0x00, 0x00, 0xE8, 0x60, 0x00, 0xC3, 0x50, 0x00, 0x4E] ++
  [0x22, 0xF7, 0xBE, 0x0A])

/-- T-SPS-10. -/
def tSps10 : State := place [0x6F, 0x76, 0x00, 0x28, 0xAC, 0xB6, 0x02, 0x80, 0x2D, 0xCA, 0xA5, 0x55, 0x59, 0x44, 0x2A, 0x50]

theorem test_parseSps_T_SPS_1 : let t := after (exec (.parseSps true) tSps1)
    (spsSlot t.sps 0).width = 1280 ∧ (spsSlot t.sps 0).height = 720 ∧ t.last_sps = 0 ∧ t.br_pos = 61 := by decide +kernel
theorem test_parseSps_T_SPS_3 : let t := after (exec (.parseSps true) tSps3)
    t.status = { code := .ok, warn := true } ∧ t.br_pos = 326 ∧ t.br_epb = 2 ∧ (spsSlot t.sps 1).crop_rect_height = 1080 := by
  decide +kernel

theorem test_parseSubsetSps_T_SPS_10 : let t := after (exec .parseSubsetSps tSps10)
    t.status.code = .ok ∧ (spsSlot t.sps 0).extension_type = .mvc ∧
    (Table.read (spsSlot t.sps 0).mvc.view {} 1).view_id = 1 := by decide +kernel
theorem test_parseSubsetSps_T_SPS_12 :
    let t := after (exec .parseSubsetSps (place [0x6F, 0x76, 0x00, 0x28, 0xAC, 0xB6, 0x02, 0x80, 0x2D, 0xC8]))
    t.status.code = .error ∧ t.br_pos = 69 ∧ t.br_fail = true ∧ t.sps = [] := by decide +kernel

/-- T-PPS-1, in a store with its SPS. -/
def tPps1 : State := stored (place [0x68, 0xCE, 0x3C, 0x80])

theorem test_parsePps_T_PPS_1 : let t := after (exec .parsePps { tPps1 with pps := [] })
    ppsSlot t.pps 0 = pps0 ∧ t.br_pos = 16 := by decide +kernel
theorem test_parsePps_T_PPS_9 : let t := after (exec .parsePps (stored (place [0x68, 0x24, 0x47, 0x23, 0x63, 0x88])))
    (ppsSlot t.pps 3).slice_group_id = [(1, 1), (2, 1)] ∧ t.last_pps = 3 := by decide +kernel

/-! ## Slice headers (section 6) -/

/-- T-SL-1. -/
def tSl1 : State := stored (place [0x65, 0x88, 0x84, 0x13, 0xC0, 0xB8])

theorem test_parseSliceHdr_T_SL_2 :
    let t := after (exec .parseSliceHdr (stored (place [0x41, 0x9A, 0x37, 0xD9, 0x09, 0x53, 0xA9, 0x10, 0x9A])))
    t.slice.mod_l0.n_ref_pic_list_modification = 2 ∧ t.slice.drpm.n_ref_pic_marking = 2 ∧ t.slice.header_size = 53 ∧
    t.slice.slice_qp_delta = 2 := by decide +kernel
theorem test_parseSliceHdr_T_SL_3b :
    let t := after (exec .parseSliceHdr (stored (place [0x41, 0xE4, 0xFF, 0xFF, 0xFF, 0xFF, 0xFF, 0xFF, 0xFF, 0xFF, 0xEA, 0x80, 0x12])))
    t.status.code = .error ∧ t.br_pos = 74 ∧ t.br_fail = false := by decide +kernel

/-! ## SEI (section 7) -/

/-- T-SEI-1. -/
def tSei1 : State := stored (place [0x06, 0x06, 0x01, 0xC4, 0x80])

theorem test_parseSei_T_SEI_5 :
    let t := after (exec .parseSei (place [0x06, 0x2D, 0x08, 0x81, 0x81, 0x00, 0x00, 0x03, 0x00, 0x01, 0x40, 0x00, 0x80]))
    t.status.code = .ok ∧ t.br_pos = 80 ∧ t.br_epb = 1 ∧
    (Table.read t.sei.msgs {} 0).fpa = { arrangement_type := 3, content_interpretation_type := 1, repetition_period := 1, extension_flag := true } := by
  decide +kernel
theorem test_parseSei_T_SEI_9 :
    let t := after (exec .parseSei (stored (place
      [0x06, 0x01, 0x0F, 0x00, 0x00, 0x03, 0x02, 0x00, 0x00, 0x04, 0x08, 0x04, 0x0C, 0x78, 0xF0, 0xFF, 0xFF, 0xFD, 0xC0, 0x80])))
    (Table.read t.sei.msgs {} 0).pt.dpb_output_delay = 4 ∧ t.br_pos = 136 ∧
    (Table.read (Table.read t.sei.msgs {} 0).pt.clock_timestamp {} 0).time_offset = BitVec.ofInt 32 (-5) := by decide +kernel

/-! ## A step -/

theorem test_step_runs_the_word : (after (step (State.reset.withFetchWord 32 0x802))).status.code = .insufficientData ∧
    (after (step (State.reset.withFetchWord 32 0x2102))).status.code = .illegal := by decide +kernel

/-- R25, R103: the host overwrites a zero byte before the emulation-prevention byte. -/
theorem test_step_buf_write_recounts_epb :
    (after (step { window1 32 with br_epb := 1, host := [.buf 1 5] })).readReg .brEpb = 0 ∧
    (after (step { window1 32 with br_epb := 1, host := [.buf 9 5] })).readReg .brEpb = 1 := by decide +kernel

/-! ## Witnesses: each statement's hypotheses hold together, clause by clause, at the ends of their ranges -/

theorem witness_EncodeOfDecode : ∃ w i, decode w = .ok i := ⟨0x00002002, .brRead 32, by decide⟩

theorem witness_StepRunsTheCommand : ∃ (s : State) (w : Word) (i : Instr) (rest : List HostOp),
    decode w = .ok i ∧ s.host = .cmd w :: rest := ⟨{ host := [.cmd 0x24, .reset] }, 0x24, .parseSei, [.reset], by decide, rfl⟩

/-- No row; `imm8` out of range, from below and above; a legal command. -/
theorem witness_IllegalCommandWord : (∀ r ∈ opcodeRows, (0x00010001 : Word) &&& r.1 ≠ r.2) ∧
    (decode 0x00000002 = .ok (.brRead 0) ∧ operandsIllegal (.brRead 0) State.reset = true) ∧
    (decode 0x00002102 = .ok (.brRead 33) ∧ operandsIllegal (.brRead 33) State.reset = true) ∧
    (decode 0x00002002 = .ok (.brRead 32) ∧ operandsIllegal (.brRead 32) State.reset = false) := by
  have h : (opcodeRows.all fun r => decide ((0x00010001 : Word) &&& r.1 ≠ r.2)) = true := by decide
  exact ⟨fun r hr => of_decide_eq_true (List.all_eq_true.1 h r hr), by decide⟩

theorem witness_HostAccesses : ∃ s : State, s.mem.wf = true ∧
    s.host = [.arg 3 7, .buf 0xFFFFFFFF 1, .reset] ∧ s.host.drop 1 = [.buf 0xFFFFFFFF 1, .reset] ∧ s.host.drop 3 = [] :=
  ⟨{ host := [.arg 3 7, .buf 0xFFFFFFFF 1, .reset] }, by decide, rfl, rfl, rfl⟩

/-- A write of the buffer that leaves `p` at the end of the stream. -/
theorem witness_HostAccesses_epb : let s := { window1 40 with host := [.buf 5 3] }
    let t := after (step s)
    s.mem.wf = true ∧ step s = .next t ∧ t.br_pos = t.bitLength := ⟨by decide +kernel, rfl, by decide +kernel⟩

/-- `exec` answers a next state: the hypothesis of StatusCodes, BitReaderFrame, LocatorFrame, ParseFrame,
ParseIsIdempotent, OnlySuccessStores and NoCommandClearsASlot, with one command of each family. -/
theorem witness_next : (∃ t, exec (.brRead 1) (window1 0) = .next t) ∧ (∃ t, exec .brInit (window1 0) = .next t) ∧
    (readsBits (.brRead 1) = true ∧ operandsIllegal .identifyAnnexb (located 0x100 b17 0) = false) ∧
    (∃ t, exec .scanStartCode (window1 0) = .next t) ∧ (∃ t, exec .identifyAnnexb (located 0x100 b17 0) = .next t) ∧
    (∃ t, exec (.parseSps true) tSps1 = .next t) ∧ (∃ t, exec .parsePps tPps1 = .next t) ∧
    ∃ t, exec .parseSei tSei1 = .next t :=
  ⟨⟨_, rfl⟩, ⟨_, rfl⟩, by decide, ⟨_, rfl⟩, ⟨_, rfl⟩, ⟨_, rfl⟩, ⟨_, rfl⟩, ⟨_, rfl⟩⟩

theorem witness_WarnOnlyFromVuiAndSei : ∃ t, exec (.parseSps true) tSps3 = .next t ∧ t.status.warn = true :=
  ⟨_, rfl, by decide +kernel⟩

/-- A buffer that differs outside the window, and has it. -/
theorem witness_ReadsOnlyItsWindow : let s := window1 0
    let m := s.mem.store 6 0xFF
    m ≠ s.mem ∧ ∀ k < (windowOf s (.brRead 8)).2,
      m.byte ((windowOf s (.brRead 8)).1 + BitVec.ofNat 32 k) = s.mem.byte ((windowOf s (.brRead 8)).1 + BitVec.ofNat 32 k) := by
  decide +kernel

/-- A state with a full store and a valid NALU record, whose next access runs a command. -/
def running : State := { tPps1 with host := [.cmd 0x22] }

theorem witness_StepKeepsInv : running.Inv ∧ ∃ t, step running = .next t := ⟨by unfold State.Inv; decide +kernel, _, rfl⟩
/-- A command, and a host write of the buffer. -/
theorem witness_StepKeepsReader :
    (running.ReaderOk ∧ (∀ a b rest, running.host ≠ .buf a b :: rest) ∧ ∃ t, step running = .next t) ∧
    (let s := { running with host := [.buf 1 0] }
     s.EpbOk ∧ ∃ t, step s = .next t) :=
  ⟨⟨by unfold State.ReaderOk State.EpbOk; decide +kernel, fun _ _ _ h => by simp [running] at h, _, rfl⟩,
    by unfold State.EpbOk; decide +kernel, _, rfl⟩

theorem witness_StepKeepsCapacity : running.CapacityOk ∧ ∃ t, step running = .next t :=
  ⟨by unfold State.CapacityOk; decide +kernel, _, rfl⟩

theorem witness_EmulationPrevention : isEpb [0, 0, 3, 0, 0, 3] 2 = true ∧ isEpb [0, 0, 3, 0, 0, 3] 5 = true := by decide

/-- The first and the last bit. -/
theorem witness_LogicalBits : 0 < 8 * (destuff [0, 0, 3, 1]).length ∧ 23 < 8 * (destuff [0, 0, 3, 1]).length := by decide

theorem witness_EpbCount : let w : List Byte := [0, 0, 3, 1]
    0 ≤ 8 * (destuff w).length ∧ 17 ≤ 8 * (destuff w).length ∧ 24 = 8 * (destuff w).length := by decide

theorem witness_SplittingLaw : ∃ bits : List Bool, 32 ≤ bits.length ∧ 1 ≤ 1 ∧ 31 ≤ 31 :=
  ⟨List.replicate 32 true, by simp, by decide, by decide⟩

/-- The largest code, both ends of the signed range, and no code at the end of the stream. -/
theorem witness_ExpGolombCodes : (4294967294 : Nat) ≤ 4294967294 ∧ (-2147483647 : Int) ≤ -2147483647 ∧
    (2147483647 : Int) ≤ 2147483647 ∧ ∀ k rest, k ≤ 4294967294 → [] ≠ ueBits k ++ rest :=
  ⟨by decide, by decide, by decide, fun k rest _ h => by simp [ueBits] at h⟩

/-- A window that ends at 2^32, and one byte beyond it. -/
theorem witness_BrInit : (∃ s : State, s.arg0.toNat + s.arg1.toNat = 2 ^ 32) ∧
    (∃ s : State, s.arg0.toNat + s.arg1.toNat = 2 ^ 32 + 1) ∧ ∃ s : State, s.arg0 = 0xFFFFFFFF ∧ s.arg1 = 0 :=
  ⟨⟨{ arg0 := 0xFFFFFFFC, arg1 := 4 }, by decide⟩, ⟨{ arg0 := 0xFFFFFFFC, arg1 := 5 }, by decide⟩,
    ⟨{ arg0 := 0xFFFFFFFF, arg1 := 0 }, rfl, rfl⟩⟩

/-- BrRead, BrPeek, BrSkip: 32 bits up to the end, 1 bit past it, 0 and 33 bits. -/
theorem witness_bit_counts : ((window1 8).br_fail = false ∧ (window1 8).br_pos + 32 = (window1 8).bitLength) ∧
    (window1 40).bitLength < (window1 40).br_pos + 1 ∧ ((0 : BitVec 8).toNat = 0) ∧ 32 < (33 : BitVec 8).toNat := by
  decide +kernel

/-- The last bits skipped; none skipped at the end; one past it. -/
theorem witness_BrSkipLong :
    (let s := { window1 0 with arg0 := 40 }; s.br_fail = false ∧ s.br_pos + s.arg0.toNat = s.bitLength ∧ s.arg0 ≠ 0) ∧
    (let s := window1 40; s.br_pos = s.bitLength ∧ s.arg0 = 0) ∧
    (let s := { window1 40 with arg0 := 1 }; s.bitLength < s.br_pos + s.arg0.toNat) := by decide +kernel

/-- The largest code, and a stream that ends. -/
theorem witness_BrReadUe : (reading [0, 0, 0, 1, 255, 255, 255, 255] 0).unread = ueBits 4294967294 ++ [true] ∧
    (reading [] 0).unread = [] ∧ (reading [] 0).br_fail = false ∧ ∀ k rest, k ≤ 4294967294 → [] ≠ ueBits k ++ rest :=
  ⟨by decide +kernel, by decide, by decide, fun k rest _ h => by simp [ueBits] at h⟩

theorem witness_BrReadSe : (reading [0, 0, 0, 1, 255, 255, 255, 255] 0).unread = seBits (-2147483647) ++ [true] ∧
    (reading [0, 0, 0, 1, 255, 255, 255, 252] 0).unread = seBits 2147483647 ++ [false] ∧
    ∀ (v : Int) rest, -2147483647 ≤ v → v ≤ 2147483647 → [] ≠ seBits v ++ rest :=
  ⟨by decide +kernel, by decide +kernel, fun v rest _ _ h => by simp [seBits, ueBits] at h⟩

theorem witness_BrByteAligned : (window1 8).br_fail = false ∧ (window1 3).br_fail = false := by decide

/-- T-BR-13 and T-BR-14: a later 1 bit, and none. -/
theorem witness_BrMoreRbspData :
    (31 < (window1 31).bitLength ∧ 31 < 32 ∧ 32 < (window1 31).bitLength ∧ logicalBit (window1 31).stream 32 = true) ∧
    logicalBit (window1 32).stream 32 = true ∧ ∀ b < (window1 32).bitLength, 32 < b → logicalBit (window1 32).stream b = false := by
  decide +kernel

theorem witness_StickyFailure : ∃ s : State, readsBits (.brPeek 32) = true ∧ operandsIllegal (.brPeek 32) s = false ∧
    s.br_fail = true := ⟨{ window1 0 with br_fail := true }, by decide⟩

/-- T-NAL-1; T-NAL-5, the pattern in the last three bytes; the operands of T-NAL-6. -/
theorem witness_ScanStartCode : isFirstStartCode (buffer 0x100 b17) 0x100 17 1 ∧ noStartCode (buffer 0 [0x12, 0, 0, 1]) 0 4 ∧
    2 ^ 32 < (0xFFFFFFF0 : Word).toNat + (0x20 : Word).toNat := by
  refine ⟨by unfold isFirstStartCode; decide +kernel, fun j h => ?_, by decide⟩
  obtain rfl : j = 0 := by omega
  decide +kernel

/-- No byte; type 31; type 20 in 3 bytes; types 14 and 20 in 4 bytes with the flag set and clear. -/
theorem witness_HeaderParse :
    (({} : Nalu).size = 0) ∧
    (((buffer 0 [0x7F]).byte (0 + 0)).extractLsb' 0 5 ≠ 14 ∧ ((buffer 0 [0x7F]).byte (0 + 0)).extractLsb' 0 5 ≠ 20) ∧
    (((buffer 0 [0x74]).byte (0 + 0)).extractLsb' 0 5 = 20 ∧ (3 : Word) ≠ 0 ∧ (3 : Word).toNat < 4) ∧
    (((buffer 0 [0x6E, 0x80]).byte (0 + 0)).extractLsb' 0 5 = 14 ∧ 4 ≤ (4 : Word).toNat ∧
      ((buffer 0 [0x6E, 0x80]).byte (0 + 0 + 1)).getLsbD 7 = true) ∧
    (((buffer 0 [0x74, 0x40]).byte (0 + 0)).extractLsb' 0 5 = 20 ∧
      ((buffer 0 [0x74, 0x40]).byte (0 + 0 + 1)).getLsbD 7 = false) := by decide +kernel

/-- The clauses of IdentifyAnnexb before a start code: T-NAL-15, T-NAL-16, T-NAL-11. -/
theorem witness_IdentifyAnnexb :
    (let s := located 0 [0, 0, 1] 0
     s.arg0.toNat + s.arg2.toNat ≤ 2 ^ 32 ∧ s.arg1.toNat ≤ s.arg2.toNat ∧ s.arg2.toNat < s.arg1.toNat + 4) ∧
    (let s := located 0 [0x12, 0, 0, 1] 0
     s.arg1.toNat + 4 = s.arg2.toNat ∧ noStartCode s.mem (s.arg0 + s.arg1) (s.arg2.toNat - s.arg1.toNat)) ∧
    (let s := located 0x100 b17 18; s.arg2.toNat < s.arg1.toNat) ∧
    2 ^ 32 < (0xFFFFFFFC : Word).toNat + (5 : Word).toNat := by
  refine ⟨by decide +kernel, ⟨by decide +kernel, fun j h => ?_⟩, by decide +kernel, by decide⟩
  obtain rfl : j = 0 := by simp [located] at h; omega
  decide +kernel

/-- A start code found and the header broken; the header of an end of stream; no end; an end with two bytes before it. -/
theorem witness_IdentifyAnnexb_found :
    (let m := buffer 0 [0, 0, 1, 0x74]
     isFirstStartCode m (0 + 0) 4 0 ∧ (parseHeader m { offset := 3, size := 1 }).1 = false) ∧
    (let m := buffer 0 [0, 0, 1, 0x0B]
     isFirstStartCode m (0 + 0) 4 0 ∧ (parseHeader m { offset := 3, size := 1 }).1 = true ∧
       (parseHeader m { offset := 3, size := 1 }).2.type = 11) ∧
    (let m := buffer 0 [0x12, 0, 0, 1, 9]
     isFirstStartCode m (0 + 0) 5 1 ∧ (parseHeader m { offset := 4, size := 1 }).2.type = 9 ∧ noStartCode m (0 + (0 + 1 + 3)) 1) ∧
    (let m := buffer 0 [0, 0, 1, 9, 0xF0, 0, 0, 0, 1, 9]
     isFirstStartCode m (0 + (0 + 3)) 7 3 ∧ (∀ k, 2 ≤ k → k < 3 → m.byte (0 + (0 + 3) + BitVec.ofNat 32 k) = 0) ∧
       m.byte (0 + (0 + 3) + BitVec.ofNat 32 (2 - 1)) ≠ 0) := by
  refine ⟨?_, ?_, ⟨?_, ?_, ?_⟩, ?_, ?_, ?_⟩
  · unfold isFirstStartCode; decide +kernel
  · unfold isFirstStartCode; decide +kernel
  · unfold isFirstStartCode; decide +kernel
  · decide +kernel
  · intro j h; omega
  · unfold isFirstStartCode; decide +kernel
  · intro k a b
    obtain rfl : k = 2 := by omega
    decide +kernel
  · decide +kernel

/-- T-NAL-26, T-NAL-25, T-NAL-27, T-NAL-24 and T-NAL-31. -/
theorem witness_IdentifyAvc :
    (let s := located 0 [0, 0, 0] 0; s.arg1.toNat ≤ s.arg2.toNat ∧ s.arg2.toNat < s.arg1.toNat + (4 : BitVec 8).toNat) ∧
    (let s := located 0 [0, 0, 0, 5, 9, 0xF0] 0
     s.arg1.toNat + 4 ≤ s.arg2.toNat ∧ s.arg2.toNat - s.arg1.toNat < 5 + 4 ∧
       ∀ j < 4, (s.mem.byte (s.arg0 + s.arg1 + BitVec.ofNat 32 j)).toNat = 5 / 256 ^ (4 - 1 - j) % 256) ∧
    (let s := located 0 [0, 0, 0, 0, 9] 0
     0 + 4 ≤ s.arg2.toNat - s.arg1.toNat ∧ (parseHeader s.mem { offset := 4 }).1 = false ∧
       ∀ j < 4, (s.mem.byte (s.arg0 + s.arg1 + BitVec.ofNat 32 j)).toNat = 0 / 256 ^ (4 - 1 - j) % 256) ∧
    (let s := located 0 [0, 0, 0, 2, 9, 0xF0] 0
     2 + 4 = s.arg2.toNat - s.arg1.toNat ∧ (parseHeader s.mem { offset := 4, size := 2 }).1 = true ∧
       ∀ j < 4, (s.mem.byte (s.arg0 + s.arg1 + BitVec.ofNat 32 j)).toNat = 2 / 256 ^ (4 - 1 - j) % 256) ∧
    (0 : BitVec 8).toNat = 0 ∧ 4 < (5 : BitVec 8).toNat := by decide +kernel

/-- T-SPS-13, and the record of T-NAL-22. -/
theorem witness_ParseNeedsARecord : parses .parseSei = true ∧ ({} : Nalu).valid = false ∧
    ({ valid := true, header_bytes := 4, size := 3 } : Nalu).size.toNat < 4 := by decide

/-- DestinationIsZeroed, ReaderAfterParse. -/
theorem witness_naluReady : parses (.parseSps true) = true ∧ naluReady tSps1.nalu = true ∧
    ∃ t, exec (.parseSps true) tSps1 = .next t := ⟨by decide, by decide +kernel, _, rfl⟩

/-- T-SPS-5. -/
theorem witness_BrFailOnlyWithError : let s := place [0x67, 0x42, 0xC0, 0x1F, 0xDA, 0x01]
    naluReady s.nalu = true ∧ ∃ t, exec (.parseSps true) s = .next t ∧ t.br_fail = true :=
  ⟨by decide +kernel, _, rfl, by decide +kernel⟩

/-- A picture of 16 by 16 with 16 samples cropped from the left (R189). -/
def spsCropped : Sps :=
  { profile_idc := 66, level_idc := 31, frame_mbs_only_flag := true, frame_cropping_flag := true, frame_crop_left_offset := 8 }

/-- No byte; 24 bits and no more; the id 32; a crop rectangle without width. -/
theorem witness_spsErrors : (place [0x67]).payloadBits.length < 8 ∧
    (let s := place [0x67, 0x42, 0xC0, 0x1F]
     naluReady s.nalu = true ∧ s.payloadBits.length = 24 ∧ readUe [] = none) ∧
    (let s := place [0x67, 0x42, 0xC0, 0x1F, 0x04, 0x20]
     (s.payloadBits.take 24).length = 24 ∧ s.payloadBits = s.payloadBits.take 24 ++ ueBits 32 ++ bitsFrom s 35) ∧
    (let s := place [0x67, 0x42, 0x00, 0x1F, 0xFB, 0xA2, 0x78]
     spsCropped.codable [] = true ∧ (spsCropped.coded true []).sizeOk = false ∧
     s.payloadBits = spsCropped.bits true 0 [] ++ bitsFrom s (spsCropped.bits true 0 []).length) := by decide +kernel

/-- No bit; the id 256; one map unit where none fits. -/
theorem witness_ppsErrors : (let s := place [0x68]
     naluReady s.nalu = true ∧ readUe s.payloadBits = none) ∧
    (let s := place [0x68, 0x00, 0x80, 0x80]
     s.payloadBits = ueBits 256 ++ bitsFrom s 17) ∧
    (let s := { stored (place [0x68, 0xC4, 0x78]) with params := { sgidCap := 0, seiCap := 0 } }
     let p : Pps := { num_slice_groups_minus1 := 1, slice_group_map_type := 6 }
     (spsSlot s.sps p.sps_id.toNat).valid = true ∧ p.hasMap 6 = true ∧ ueOk p.pic_size_in_map_units_minus1 = true ∧
     s.params.sgidCap < p.mapUnits ∧ s.payloadBits = p.mapHeadBits ++ bitsFrom s 13) := by decide +kernel

/-- The largest `first_mb_in_slice` without a code after it, and the type 10; a 33rd entry of list 0 and of list 1; an
eleventh operation. -/
theorem witness_sliceErrors : (let s := place [0x65, 0x00, 0x00, 0x00, 0x01, 0xFF, 0xFF, 0xFF, 0xFE]
     naluReady s.nalu = true ∧ ueOk 4294967294 = true ∧ readUe [false] = none ∧
     s.payloadBits = ueField (4294967294 : BitVec 32) ++ [false]) ∧
    (let s := place [0x65, 0x8B]
     s.payloadBits = ueField (0 : BitVec 32) ++ ueBits 10 ++ []) ∧
    (let s := stored (place [0x41, 0xE0, 0xFF, 0xFF, 0xFF, 0xFF, 0xFF, 0xFF, 0xFF, 0xFF, 0xC0])
     let r : Slice := { mod_l0 := { n_ref_pic_list_modification := 32 } }
     let x := s.sliceContext r.pps_id
     x.pps.valid = true ∧ x.sps.valid = true ∧ x.sps.extension_type ≠ .other ∧ r.codable x = true ∧ r.isI = false ∧
     r.isSI = false ∧ s.payloadBits = (r.headBits x ++ true :: r.mod_l0.entryBits 32 ++ ueBits 0) ++ bitsFrom s 74) ∧
    (let s := stored (place [0x41, 0xA8, 0x0F, 0xFF, 0xFF, 0xFF, 0xFF, 0xFF, 0xFF, 0xFF, 0xFC])
     let r : Slice := { slice_type := 1, mod_l1 := { n_ref_pic_list_modification := 32 } }
     let x := s.sliceContext r.pps_id
     r.codable x = true ∧ r.isB = true ∧
     s.payloadBits = (r.headBits x ++ r.mod_l0.bits ++ true :: r.mod_l1.entryBits 32 ++ ueBits 0) ++ bitsFrom s 78) ∧
    (let s := stored (place [0x61, 0xB8, 0x55, 0x55, 0x55, 0x55, 0x55, 0x50])
     let r : Slice := { slice_type := 2, drpm :=
       { n_ref_pic_marking := 10, mmco := (List.range 10).map fun i => (i, { op := 1 }) } }
     let x := s.sliceContext r.pps_id
     r.codable x = true ∧ x.nalu.ref_idc ≠ 0 ∧ x.nalu.idr_pic_flag = false ∧
     s.payloadBits = (r.headBits x ++ r.listBits ++ r.weightBits x {} ++ true :: r.drpm.opBits 10 ++ ueBits 1) ++
       bitsFrom s 53) := by decide +kernel

/-- The codes 0 and 2 name an entry of any slice, 4 and 5 one of an MVC slice. -/
theorem witness_entryCode : entryCode false 0 ∧ entryCode false 2 ∧ entryCode true 4 ∧ entryCode true 5 := by unfold entryCode; decide

/-- A payload that ends within a type code, of 0 bytes and of two; more messages than fit, where none and where one does. -/
theorem witness_seiErrors : (let s := place [0x06]
     naluReady s.nalu = true ∧ 1 ≤ s.params.seiCap ∧ s.payloadBits = List.replicate (8 * 0) true ++ []) ∧
    (let s := place [0x06, 0xFF, 0xFF]
     s.payloadBits = List.replicate (8 * 2) true ++ []) ∧
    (let c : SeiCoding := { msg := { payload_type := 6, payload_size := 1, rp := { exact_match_flag := true } }
                            pad := [true, false, false] }
     let s := { stored (place [0x06, 0x06, 0x01, 0xC4, 0x80]) with params := { sgidCap := 0, seiCap := 0 } }
     let u := { stored (place [0x06, 0x06, 0x01, 0xC4, 0x06, 0x01, 0xC4, 0x80]) with params := { sgidCap := 0, seiCap := 1 } }
     ([] : List SeiCoding).length = s.params.seiCap ∧ seiCodable s.seiContext ([] ++ [c]) (bitsFrom s 24) = true ∧
     s.payloadBits = seiBits s.seiContext ([] ++ [c]) ++ bitsFrom s 24 ∧
     [c].length = u.params.seiCap ∧ seiCodable u.seiContext ([c] ++ [c]) (bitsFrom u 48) = true ∧
     u.payloadBits = seiBits u.seiContext ([c] ++ [c]) ++ bitsFrom u 48) := by decide +kernel

/-- A NAL unit whose payload is `l`. -/
def payload (l : List Byte) : State :=
  { mem := buffer 1 l, nalu := { valid := true, header_bytes := 1, size := BitVec.ofNat 32 (l.length + 1) } }

theorem destuffFrom_nonzero (l : List Byte) (i : Nat) (h : ∀ b ∈ l, b ≠ 0) : (destuffFrom i 0 l).map (·.2) = l := by
  induction l generalizing i with
  | nil => rfl
  | cons b l ih =>
    have hb : b ≠ 0 := h b (by simp)
    rw [destuffFrom, if_neg (by simp), if_neg hb, List.map_cons, ih (i + 1) fun b hb => h b (by simp [hb])]

theorem payload_bits {l : List Byte} (h : ∀ b ∈ l, b ≠ 0) (hl : l.length < 4294967295) :
    (payload l).payloadBits = l.flatMap byteBits := by
  have size : (payloadSize (payload l).nalu).toNat = l.length := by
    simp [payload, payloadSize]; omega
  have window : (payload l).mem.window (payloadBase (payload l).nalu) l.length = l := by
    refine List.ext_getElem (by simp [Memory.window]) fun i h1 h2 => ?_
    simp only [Memory.window, List.getElem_map, List.getElem_range, Memory.byte, payload, buffer, payloadBase]
    rw [show ((0 : Word) + 0 + (1 : BitVec 3).setWidth 32 + BitVec.ofNat 32 i).toNat = i + 1 by simp; omega]
    exact (Table.read_ofList l 1 (i + 1)).trans (by simp [h2])
  rw [State.payloadBits, State.payloadStream, size, window, logicalBits, destuff]
  conv_rhs => rw [← destuffFrom_nonzero l 0 h]
  rw [List.flatMap_map]

theorem seiCodeBits_bytes (n : Nat) :
    seiCodeBits (255 * n + 1) = (List.replicate n (0xFF : Byte) ++ [1]).flatMap byteBits := by
  have bits : (List.replicate n (0xFF : Byte)).flatMap byteBits = List.replicate (8 * n) true := by
    induction n with
    | zero => rfl
    | succ n ih =>
      rw [List.replicate_succ, List.flatMap_cons, ih, show byteBits 0xFF = List.replicate 8 true by decide,
        List.replicate_append_replicate, show 8 + 8 * n = 8 * (n + 1) by omega]
  rw [List.flatMap_append, bits, seiCodeBits, show (255 * n + 1) / 255 = n by omega, show (255 * n + 1) % 255 = 1 by omega]
  rfl

/-- The code stands in a buffer, behind any bytes but zeros. -/
theorem exists_seiCode (n : Nat) (head : List Byte) (hn : n + head.length < 4294967294) (h : ∀ b ∈ head, b ≠ 0) :
    ∃ s : State, naluReady s.nalu = true ∧ s.payloadBits = head.flatMap byteBits ++ seiCodeBits (255 * n + 1) := by
  have ne : ∀ b ∈ head ++ (List.replicate n (0xFF : Byte) ++ [1]), b ≠ 0 := by
    intro b hb
    simp only [List.mem_append, List.mem_replicate, List.mem_singleton] at hb
    rcases hb with hb | ⟨-, rfl⟩ | rfl
    · exact h b hb
    · decide
    · decide
  refine ⟨payload (head ++ (List.replicate n (0xFF : Byte) ++ [1])), ?_, ?_⟩
  · simp [payload, naluReady]; omega
  · rw [payload_bits ne (by simp; omega), List.flatMap_append, seiCodeBits_bytes]

/-- A type of 2^32, and a size of 2^32 after the type 6: 16843009 bytes 0xFF and one byte 1 each (R331). -/
theorem witness_seiErrors_sums :
    (∃ s : State, naluReady s.nalu = true ∧ s.payloadBits = [] ++ seiCodeBits (255 * 16843009 + 1)) ∧
    (∃ s : State, naluReady s.nalu = true ∧ s.payloadBits = [6].flatMap byteBits ++ seiCodeBits (255 * 16843009 + 1)) ∧
    255 * 16843009 + 1 = 4294967296 ∧ [6].flatMap byteBits = seiCodeBits 6 :=
  ⟨exists_seiCode 16843009 [] (by decide) (by simp), exists_seiCode 16843009 [6] (by decide) (by simp), rfl, by decide⟩

theorem witness_ValidIsTheGate : parsesSps .parseSubsetSps = true ∧ naluReady tSps10.nalu = true ∧
    naluReady tPps1.nalu = true ∧ operandsIllegal (.identifyAvc 4) (located 0 [0, 0, 0, 2, 9, 0xF0] 0) = false ∧
    operandsIllegal .identifyAnnexb (located 0x100 b17 0) = false ∧
    (after (exec .identifyAnnexb (located 0x100 b17 0))).status.code = .ok ∧
    (after (exec .identifyAnnexb (located 0 [0x12, 0, 0, 1, 9] 0))).status.code = .noNalEnd ∧
    (after (exec .identifyAnnexb (located 0 [0, 0, 1] 0))).status.code = .error ∧
    (after (exec .identifyAnnexb (located 0 [0x12, 0, 0, 1] 0))).status.code = .noNal := by decide +kernel

/-- OnlySuccessStores with a failure; SuccessStores, DerivedSpsFields and ListsWithoutAMatrix with a success. -/
theorem witness_stores : (∃ t, exec .parsePps (place [0x68, 0xCE, 0x3C, 0x80]) = .next t ∧ t.status.code ≠ .ok) ∧
    (∃ t, exec (.parseSps true) tSps1 = .next t ∧ t.status.code = .ok ∧ t.wsps.frame_cropping_flag = false ∧
      t.wsps.scaling_matrix_present_flag = false) ∧
    (∃ t, exec .parsePps tPps1 = .next t ∧ t.status.code = .ok ∧ t.wpps.pic_scaling_matrix_present_flag = false) ∧
    ∃ t, exec (.parseSps true) tSps3 = .next t ∧ t.status.code = .ok ∧ t.wsps.frame_cropping_flag = true :=
  ⟨⟨_, rfl, by decide +kernel⟩, ⟨_, rfl, by decide +kernel⟩, ⟨_, rfl, by decide +kernel⟩, _, rfl, by decide +kernel⟩

theorem witness_NoCommandClearsASlot : (spsSlot tPps1.sps 1).valid = true ∧ (ppsSlot tPps1.pps 0).valid = true ∧
    ∃ t, exec .parsePps tPps1 = .next t := ⟨by decide, by decide, _, rfl⟩

/-- The record of T-SPS-1. -/
def sps1280 : Sps :=
  { profile_idc := 66, constraint_set0_flag := true, constraint_set1_flag := true, level_idc := 31
    pic_order_cnt_type := 2, num_ref_frames := 1, pic_width_in_mbs_minus1 := 79, pic_height_in_map_units_minus1 := 44
    frame_mbs_only_flag := true, direct_8x8_inference_flag := true }

theorem witness_ParseSps : naluReady tSps1.nalu = true ∧ sps1280.codable [] = true ∧
    (sps1280.coded true []).sizeOk = true ∧ tSps1.payloadBits = sps1280.bits true 0 [] ++ bitsFrom tSps1 61 := by decide +kernel

/-- T-SPS-10's MVC record: one reference in each list of view 1, one operation point of two views. -/
def mvcTwoViews : Mvc :=
  { num_views_minus1 := 1
    view := [(1, { view_id := 1, num_anchor_refs_l0 := 1, num_anchor_refs_l1 := 1, num_non_anchor_refs_l0 := 1, num_non_anchor_refs_l1 := 1 })]
    level_value := [(0, { level_idc := 40, op := [(0, { num_target_views_minus1 := 1, target_view_id := [(1, 1)], num_views_minus1 := 1 })] })] }

/-- The record of T-SPS-10. -/
def spsMvc : Sps :=
  { sps1280 with
    profile_idc := 118, constraint_set0_flag := false, constraint_set1_flag := false, level_idc := 40
    num_ref_frames := 2, chroma_format_idc := 1, mvc := mvcTwoViews }

theorem witness_ParseSubsetSps : naluReady tSps10.nalu = true ∧ spsMvc.codable [] = true ∧
    (spsMvc.subsetCoded []).sizeOk = true ∧
    tSps10.payloadBits = spsMvc.subsetBits 0 [] ++ bitsFrom tSps10 (spsMvc.subsetBits 0 []).length := by decide +kernel

/-- T-PPS-1 has no tail. -/
theorem witness_ParsePps : let q := spsSlot tPps1.sps 0
    let rest := [true, false, false, false, false, false, false, false]
    naluReady tPps1.nalu = true ∧ q.valid = true ∧ pps0.codable q tPps1.params.sgidCap [] = true ∧
    moreRbspData (optBits false (pps0.tailBits q []) ++ rest) = false ∧
    tPps1.payloadBits = (pps0.bodyBits ++ optBits false (pps0.tailBits q [])) ++ rest := by decide +kernel

/-- The record of T-PPS-4. -/
def pps1 : Pps :=
  { id := 1, sps_id := 1, entropy_coding_mode_flag := true, num_ref_idx_l0_default_active_minus1 := 2
    weighted_pred_flag := true, pic_init_qp_minus26 := -3, chroma_qp_index_offset := 2
    deblocking_filter_control_present_flag := true, transform_8x8_mode_flag := true
    pic_scaling_matrix_present_flag := true, second_chroma_qp_index_offset := -2 }

/-- T-PPS-4 has a tail. -/
theorem witness_ParsePps_tail : let s := stored (place [0x68, 0x4A, 0xBC, 0x3C, 0x93, 0x00, 0x2C])
    let q := spsSlot s.sps 1
    naluReady s.nalu = true ∧ q.valid = true ∧ pps1.codable q s.params.sgidCap [] = true ∧
    moreRbspData (optBits true (pps1.tailBits q []) ++ bitsFrom s 45) = true ∧
    s.payloadBits = (pps1.bodyBits ++ optBits true (pps1.tailBits q [])) ++ bitsFrom s 45 := by decide +kernel

/-- T-PPS-2. -/
theorem witness_PpsBrokenLink : let s := place [0x68, 0xCE, 0x3C, 0x80]
    naluReady s.nalu = true ∧ (spsSlot s.sps (0 : BitVec 5).toNat).valid = false ∧
    s.payloadBits = ueField (0 : BitVec 8) ++ ueField (0 : BitVec 5) ++ bitsFrom s 2 := by decide +kernel

/-- T-SL-1. -/
theorem witness_ParseSliceHdr : let r : Slice := { slice_type := 7, slice_qp_delta := -4 }
    let x := tSl1.sliceContext r.pps_id
    naluReady tSl1.nalu = true ∧ x.pps.valid = true ∧ x.sps.valid = true ∧ x.sps.extension_type ≠ .other ∧
    r.codable x = true ∧ tSl1.payloadBits = r.bits x {} ++ bitsFrom tSl1 26 := by decide +kernel

/-- T-SL-4, a PPS that is not stored; T-SL-1 without its SPS; T-SL-1 with an SPS as T-SL-14 stores it. -/
theorem witness_SliceBroken :
    (let s := stored (place [0x65, 0x88, 0x30, 0x40])
     naluReady s.nalu = true ∧ (s.sliceContext 5).pps.valid = false ∧
     s.payloadBits = ueField (0 : BitVec 32) ++ ueField (7 : BitVec 4) ++ ueField (5 : BitVec 8) ++ bitsFrom s 13) ∧
    (let s := { tSl1 with sps := [] }
     (s.sliceContext 0).pps.valid = true ∧ (s.sliceContext 0).sps.valid = false ∧
     s.payloadBits = ueField (0 : BitVec 32) ++ ueField (7 : BitVec 4) ++ ueField (0 : BitVec 8) ++ bitsFrom s 9) ∧
    (let s := { tSl1 with sps := [(0, { sps0 with extension_type := .other })] }
     (s.sliceContext 0).pps.valid = true ∧ (s.sliceContext 0).sps.valid = true ∧
     (s.sliceContext 0).sps.extension_type = .other) ∧
    ueOk 0 = true ∧ (7 : BitVec 4).toNat ≤ 9 := by decide +kernel

theorem witness_DerivedSliceFields : ∃ t, exec .parseSliceHdr tSl1 = .next t ∧ t.status.code = .ok :=
  ⟨_, rfl, by decide +kernel⟩

/-- T-SEI-1. -/
theorem witness_ParseSei :
    let cs : List SeiCoding :=
      [{ msg := { payload_type := 6, payload_size := 1, rp := { exact_match_flag := true } }, pad := [true, false, false] }]
    naluReady tSei1.nalu = true ∧ cs ≠ [] ∧ cs.length ≤ tSei1.params.seiCap ∧
    seiCodable tSei1.seiContext cs (bitsFrom tSei1 24) = true ∧
    tSei1.payloadBits = seiBits tSei1.seiContext cs ++ bitsFrom tSei1 24 := by decide +kernel

/-- T-SEI-8; T-SEI-3; T-SEI-1e. -/
theorem witness_SeiBrokenLink :
    (let s := stored (place [0x06, 0x00, 0x01, 0x34])
     naluReady s.nalu = true ∧ 1 ≤ s.params.seiCap ∧ (spsSlot s.sps (5 : BitVec 5).toNat).valid = false ∧
     s.payloadBits = seiCodeBits 0 ++ seiCodeBits (1 : BitVec 32).toNat ++ ueField (5 : BitVec 5) ++ bitsFrom s 21) ∧
    (let s := place [0x06, 0x01, 0x01, 0x00, 0x80]
     naluReady s.nalu = true ∧ noLastSps s.last_sps = true ∧ s.payloadBits = seiCodeBits 1 ++ seiCodeBits 1 ++ bitsFrom s 16) ∧
    (let s := place [0x06, 0x06, 0x01, 0xC4, 0x80]
     noLastSps s.last_sps = true ∧ s.payloadBits = seiCodeBits 6 ++ seiCodeBits 1 ++ bitsFrom s 16) := by decide +kernel

end Sys2Proof.Tests
end

section
/-! What one step does (10_state.md R20): an equation for each access of the host, and all of them as one inversion. -/

namespace Sys2Proof.Machine

variable {s t : State} {w : Word} {rest : List HostOp}

theorem State.popHost_eq {op : HostOp} (h : s.host = op :: rest) : s.popHost = { s with host := rest } := by
  rw [State.popHost, h, List.tail_cons]

@[simp] theorem State.popHost_withFetchWord (s : State) (nbits w : Nat) : (s.withFetchWord nbits w).popHost = s := rfl

theorem step_idle (h : s.host = []) : step s = .next s := by
  rw [step, h]

theorem step_cmd {i : Instr} (h : s.host = .cmd w :: rest) (hd : decode w = .ok i) : step s = exec i s.popHost := by
  simp only [step, h, hd]

theorem step_illegalWord {e : DecodeError} (h : s.host = .cmd w :: rest) (hd : decode w = .error e) :
    step s = .next s.popHost.illegal := by
  simp only [step, h, hd]

theorem step_access {op : HostOp} (h : s.host = op :: rest) (hop : ∀ w, op ≠ .cmd w) :
    step s = .next (s.popHost.hostAccess op) := by
  cases op with
  | cmd w => exact absurd rfl (hop w)
  | _ => simp only [step, h]

/-- Everything a step can do. -/
theorem step_cases (h : step s = .next t) :
    (s.host = [] ∧ t = s) ∨
    (∃ w rest i, s.host = .cmd w :: rest ∧ decode w = .ok i ∧ exec i s.popHost = .next t) ∨
    (∃ w rest e, s.host = .cmd w :: rest ∧ decode w = .error e ∧ t = s.popHost.illegal) ∨
    (∃ op rest, s.host = op :: rest ∧ (∀ w, op ≠ .cmd w) ∧ t = s.popHost.hostAccess op) := by
  have ends {u : State} (hu : step s = .next u) : t = u := Host.Outcome.next.inj (h.symm.trans hu)
  cases hs : s.host with
  | nil => exact .inl ⟨rfl, ends (step_idle hs)⟩
  | cons op rest =>
    by_cases hop : ∃ w, op = .cmd w
    · obtain ⟨w, rfl⟩ := hop
      cases hd : decode w with
      | ok i => exact .inr (.inl ⟨w, rest, i, rfl, hd, (step_cmd hs hd).symm.trans h⟩)
      | error e => exact .inr (.inr (.inl ⟨w, rest, e, rfl, hd, ends (step_illegalWord hs hd)⟩))
    · have hop := not_exists.1 hop
      exact .inr (.inr (.inr ⟨op, rest, rfl, hop, ends (step_access hs hop)⟩))

end Sys2Proof.Machine
end

section
/-! Everything a command can do, said once: the ways the commands of the three families end. -/

namespace Sys2Proof.Machine

/-! ## Lengths of the logical stream -/

@[simp] theorem length_byteBits (b : Byte) : (byteBits b).length = 8 := rfl

@[simp] theorem length_logicalBits (st : Stream) : (logicalBits st).length = 8 * st.length := by
  simp [logicalBits, List.length_flatMap, Nat.mul_comm]

@[simp] theorem State.length_unread (s : State) : s.unread.length = s.bitLength - s.br_pos := by
  simp [State.unread, State.bitLength]

/-- An Exp-Golomb code has at least its 1 bit. -/
theorem readUe_pos {bits : List Bool} {v n : Nat} (h : readUe bits = some (v, n)) : 0 < n := by
  obtain ⟨-, rfl, -⟩ := readUe_spec h
  rw [ueBits_length]; omega

theorem readSe_pos {bits : List Bool} {v : Int} {n : Nat} (h : readSe bits = some (v, n)) : 0 < n := by
  unfold readSe at h
  split at h
  · cases h
  · rename_i hu; cases h; exact readUe_pos hu

/-! ## How a command ends -/

/-- A command that may set `WARN` (10_state.md R23, 60_exceptions.md R403). -/
def mayWarn : Instr → Bool
  | .parseSps v => v
  | .parseSubsetSps | .parseSei => true
  | _ => false

/-- The buffer and the reader's window, position and count of the two states are the same. -/
def State.SameReader (s t : State) : Prop :=
  t.mem = s.mem ∧ t.br_base = s.br_base ∧ t.br_size = s.br_size ∧ t.br_pos = s.br_pos ∧ t.br_epb = s.br_epb

theorem State.SameReader.refl (s : State) : State.SameReader s s := ⟨rfl, rfl, rfl, rfl, rfl⟩

/-- The ways a command ends. A parse's body is sound, and its writes of records and store leave the reader alone. -/
inductive EndsAs (i : Instr) (s : State) : State → Prop where
  | illegal : EndsAs i s s.illegal
  | insufficient : EndsAs i s (s.finish .insufficientData false)
  | readFails : EndsAs i s s.readFails
  | reads {n : Nat} (v : Word) (h : s.br_pos + n ≤ s.bitLength) : EndsAs i s (s.readEnds n v)
  | answers (v : Word) : EndsAs i s (s.queryEnds v)
  | inits (base size : Word) : EndsAs i s ((s.brInit base size).queryEnds 0)
  | noStartCode : EndsAs i s ({ s with result := 0xFFFFFFFF }.finish .noNal false)
  | located (r : Code × Nalu) : EndsAs i s (s.located r)
  | parsed {R : Type} {zero : R} {body : Stream → Parse R Unit} {write store : State → R → State}
      (sound : Sound (codesOf i) (mayWarn i) (body s.payloadStream))
      (hw : ∀ t r, State.SameReader t (write t r)) (hs : ∀ t r, State.SameReader t (store t r)) :
      EndsAs i s (s.parse zero body write store)

section
variable {i : Instr} {s t : State}

theorem EndsAs.ite {p : Prop} [Decidable p] {a b : State} (ha : p → EndsAs i s a) (hb : ¬p → EndsAs i s b) :
    EndsAs i s (if p then a else b) := by
  split
  · exact ha ‹_›
  · exact hb ‹_›

theorem EndsAs.unlessFailed (h : EndsAs i s t) : EndsAs i s (s.unlessFailed t) :=
  .ite (fun _ => .insufficient) fun _ => h

theorem EndsAs.skipBits (n : Nat) : EndsAs i s (s.skipBits n) :=
  .ite (fun _ => .readFails) fun h => .reads 0 (Nat.le_of_not_lt h)

/-- A read of some of the unread bits stays within the stream. -/
theorem State.read_within {n : Nat} (h0 : 0 < n) (h : n ≤ s.unread.length) : s.br_pos + n ≤ s.bitLength := by
  rw [State.length_unread] at h; omega

theorem execBrRead_ends (n : BitVec 8) : ∃ t, execBrRead n s = .next t ∧ EndsAs i s t := by
  refine ⟨_, rfl, .ite (fun hn => .unlessFailed ?_) fun _ => .illegal⟩
  cases h : readU n.toNat s.unread with
  | none => exact .readFails
  | some v =>
    have h0 : 0 < n.toNat := by simp at hn; omega
    exact .reads _ (State.read_within h0 (readU_length h))

theorem execBrPeek_ends (n : BitVec 8) : ∃ t, execBrPeek n s = .next t ∧ EndsAs i s t := by
  refine ⟨_, rfl, .ite (fun _ => .unlessFailed ?_) fun _ => .illegal⟩
  cases readU n.toNat s.unread with
  | none => exact .insufficient
  | some v => exact .answers _

theorem execBrReadUe_ends : ∃ t, execBrReadUe s = .next t ∧ EndsAs i s t := by
  refine ⟨_, rfl, .unlessFailed ?_⟩
  cases h : readUe s.unread with
  | none => exact .readFails
  | some x => exact .reads _ (State.read_within (readUe_pos (v := x.1) h) (readUe_length (v := x.1) h))

theorem execBrReadSe_ends : ∃ t, execBrReadSe s = .next t ∧ EndsAs i s t := by
  refine ⟨_, rfl, .unlessFailed ?_⟩
  cases h : readSe s.unread with
  | none => exact .readFails
  | some x => exact .reads _ (State.read_within (readSe_pos (v := x.1) h) (readSe_length (v := x.1) h))

theorem execScanStartCode_ends : ∃ t, execScanStartCode s = .next t ∧ EndsAs i s t := by
  refine ⟨_, rfl, .ite (fun _ => .illegal) fun _ => ?_⟩
  cases scanStartCode s.mem s.arg0 s.arg1.toNat with
  | none => exact .noStartCode
  | some k => exact .answers _

end

/-- Every command ends, in one of the ways. -/
theorem exec_ends (i : Instr) (s : State) : ∃ t, exec i s = .next t ∧ EndsAs i s t := by
  cases i with
  | brInit => exact ⟨_, rfl, .ite (fun _ => .illegal) fun _ => .inits _ _⟩
  | brRead n => exact execBrRead_ends n
  | brPeek n => exact execBrPeek_ends n
  | brSkip n => exact ⟨_, rfl, .ite (fun _ => .unlessFailed (.skipBits _)) fun _ => .illegal⟩
  | brSkipLong => exact ⟨_, rfl, .unlessFailed (.skipBits _)⟩
  | brReadUe => exact execBrReadUe_ends
  | brReadSe => exact execBrReadSe_ends
  | brByteAligned => exact ⟨_, rfl, .unlessFailed (.answers _)⟩
  | brMoreRbspData => exact ⟨_, rfl, .unlessFailed (.answers _)⟩
  | scanStartCode => exact execScanStartCode_ends
  | identifyAnnexb => exact ⟨_, rfl, .ite (fun _ => .illegal) fun _ => .located _⟩
  | identifyAvc m => exact ⟨_, rfl, .ite (fun _ => .located _) fun _ => .illegal⟩
  | parseSps v =>
    exact ⟨_, rfl, .parsed (spsSyntax_sound (by simp [codesOf]) v) (fun t _ => .refl t) fun t _ => .refl t⟩
  | parseSubsetSps =>
    exact ⟨_, rfl, .parsed (subsetSpsSyntax_sound (by decide)) (fun t _ => .refl t) fun t _ => .refl t⟩
  | parsePps =>
    exact ⟨_, rfl, .parsed (ppsSyntax_sound (by decide) (by decide) _ _) (fun t _ => .refl t) fun t _ => .refl t⟩
  | parseSliceHdr =>
    exact ⟨_, rfl, .parsed (sliceSyntax_sound (by decide) (by decide) (by decide) _ _ _ _) (fun t _ => .refl t)
      fun t _ => .refl t⟩
  | parseSei =>
    exact ⟨_, rfl, .parsed (seiLoop_sound (by decide) (by decide) _ _ _) (fun t _ => .refl t) fun t _ => .refl t⟩

theorem endsAs_of_exec {i : Instr} {s t : State} (h : exec i s = .next t) : EndsAs i s t := by
  obtain ⟨u, hu, he⟩ := exec_ends i s
  rwa [Host.Outcome.next.inj (h.symm.trans hu)]

end Sys2Proof.Machine
end

section
/-! What the ways a command ends do to `WARN`, and to the reader's position and count. -/

namespace Sys2Proof.Machine

/-! ## The reader after each operation -/

section
variable {s t u : State}

theorem State.SameReader.trans (h : State.SameReader s t) (k : State.SameReader t u) : State.SameReader s u := by
  obtain ⟨hm, hb, hz, hp, he⟩ := h
  obtain ⟨km, kb, kz, kp, ke⟩ := k
  exact ⟨km.trans hm, kb.trans hb, kz.trans hz, kp.trans hp, ke.trans he⟩

theorem State.SameReader.stream_eq (h : State.SameReader s t) : t.stream = s.stream := by
  obtain ⟨hm, hb, hz, -, -⟩ := h
  rw [State.stream, hm, hb, hz, State.stream]

theorem State.SameReader.epbOk (h : State.SameReader s t) (hs : s.EpbOk) : t.EpbOk := by
  have hst := h.stream_eq
  obtain ⟨-, -, -, hp, he⟩ := h
  unfold State.EpbOk State.bitLength
  rw [hst, hp, he]
  exact hs

theorem State.SameReader.readerOk (h : State.SameReader s t) (hs : s.ReaderOk) : t.ReaderOk := by
  refine ⟨?_, h.epbOk hs.2⟩
  have hst := h.stream_eq
  obtain ⟨-, -, -, hp, -⟩ := h
  rw [hp, State.bitLength, hst]
  exact hs.1

/-- Skipping no bit recomputes nothing, so the count has to be right before. -/
theorem State.advance_epbOk (h : s.EpbOk) (n : Nat) : (s.advance n).EpbOk := by
  intro _
  rcases Nat.eq_zero_or_pos n with rfl | hn
  · exact h ‹_›
  · rw [State.advance_br_epb s n (by omega), State.stream_advance, State.advance_br_pos]

@[simp] theorem epbCount_zero (st : Stream) : epbCount st 0 = 0 := rfl

theorem State.brInit_readerOk (s : State) (base size : Word) : (s.brInit base size).ReaderOk :=
  ⟨Nat.zero_le _, fun _ => by simp⟩

theorem State.writeByte_epbOk (s : State) (a : Word) (b : Byte) : (s.writeByte a b).EpbOk := fun h => by
  rw [State.writeByte_br_epb, State.epbByRule, if_pos h]

theorem State.powerOn_readerOk (s : State) : s.powerOn.ReaderOk :=
  ⟨Nat.zero_le _, fun _ => by simp [State.reset]⟩

theorem State.writeArg_sameReader (s : State) (k : Fin 4) (v : Word) : State.SameReader s (s.writeArg k v) := by
  simp [State.SameReader]

/-- The reader a parse leaves is over its payload, and its count is recomputed. -/
theorem State.withReader_readerOk {r : Reader} (h : r.p ≤ s.payloadBits.length) :
    (s.withReader (payloadBase s.nalu) (payloadSize s.nalu) s.payloadStream r).ReaderOk := by
  rw [State.payloadBits, length_logicalBits] at h
  exact ⟨h, fun _ => rfl⟩

/-! ## A parse command -/

variable {R : Type} {zero : R} {body : Stream → Parse R Unit} {write store : State → R → State}
variable {cs : List Code} {w : Bool}

theorem State.parse_warn (sound : Sound cs w (body s.payloadStream))
    (h : (s.parse zero body write store).status.warn = true) : w = true := by
  by_contra hw
  have hr := sound.reader_at (zero := zero)
  rcases State.parse_cases s zero body write store with ⟨-, e⟩ | ⟨-, p, hb, e⟩ | ⟨-, c, p, hb, e⟩
  · simp [e] at h
  · simp only [hb] at hr
    obtain ⟨-, -, hq⟩ := hr
    simp [e, hq (by simpa using hw)] at h
  · simp only [hb] at hr
    obtain ⟨-, -, -, hq⟩ := hr
    simp [e, hq (by simpa using hw)] at h

/-- A parse command is turned away, or leaves its reader within its payload. -/
theorem State.parse_reader (sound : Sound cs w (body s.payloadStream)) (hw : ∀ t r, State.SameReader t (write t r))
    (hs : ∀ t r, State.SameReader t (store t r)) :
    s.parse zero body write store = s.finish .error false ∨ (s.parse zero body write store).ReaderOk := by
  have hr := sound.reader_at (zero := zero)
  rcases State.parse_cases s zero body write store with ⟨-, e⟩ | ⟨-, p, hb, e⟩ | ⟨-, c, p, hb, e⟩
  · exact .inl e
  · simp only [hb] at hr
    rw [e]
    exact .inr (((hw _ _).trans (hs _ _)).readerOk (State.withReader_readerOk hr.1))
  · simp only [hb] at hr
    rw [e]
    exact .inr ((hw _ _).readerOk (State.withReader_readerOk hr.1))

end

/-! ## Every command -/

section
variable {i : Instr} {s t : State}

theorem EndsAs.mayWarn_of_warn (h : EndsAs i s t) (hw : t.status.warn = true) : mayWarn i = true := by
  cases h with
  | parsed sound _ _ => exact State.parse_warn sound hw
  | _ => simp at hw

theorem EndsAs.epbOk (h : EndsAs i s t) (hs : s.EpbOk) : t.EpbOk := by
  cases h with
  | reads _ _ => exact State.advance_epbOk hs _
  | inits base size => exact (State.brInit_readerOk s base size).2
  | parsed sound hw hst =>
    rcases State.parse_reader sound hw hst with e | ok
    · rw [e]; exact hs
    · exact ok.2
  | _ => exact hs

theorem EndsAs.readerOk (h : EndsAs i s t) (hs : s.ReaderOk) : t.ReaderOk := by
  refine ⟨?_, h.epbOk hs.2⟩
  cases h with
  | reads _ h => simpa [State.bitLength] using h
  | inits base size => exact (State.brInit_readerOk s base size).1
  | parsed sound hw hst =>
    rcases State.parse_reader sound hw hst with e | ok
    · rw [e]; exact hs.1
    · exact ok.1
  | _ => exact hs.1

end

/-- A host access keeps the count right; a buffer write recomputes it. -/
theorem State.hostAccess_epbOk {s : State} (h : s.EpbOk) (op : HostOp) : (s.hostAccess op).EpbOk := by
  cases op with
  | cmd w => exact h
  | arg k v => exact (s.writeArg_sameReader k v).epbOk h
  | buf a b => exact s.writeByte_epbOk a b
  | reset => exact s.powerOn_readerOk.2

theorem State.hostAccess_readerOk {s : State} (h : s.ReaderOk) {op : HostOp} (hop : ∀ a b, op ≠ .buf a b) :
    (s.hostAccess op).ReaderOk := by
  cases op with
  | cmd w => exact h
  | arg k v => exact (s.writeArg_sameReader k v).readerOk h
  | buf a b => exact absurd rfl (hop a b)
  | reset => exact s.powerOn_readerOk

theorem step_epbOk {s t : State} (h : step s = .next t) (hs : s.EpbOk) : t.EpbOk := by
  rcases step_cases h with ⟨-, rfl⟩ | ⟨w, rest, i, -, -, he⟩ | ⟨w, rest, e, -, -, rfl⟩ | ⟨op, rest, -, -, rfl⟩
  · exact hs
  · exact (endsAs_of_exec he).epbOk hs
  · exact hs
  · exact State.hostAccess_epbOk (s := s.popHost) hs op

theorem step_readerOk {s t : State} (h : step s = .next t) (hb : ∀ a b rest, s.host ≠ .buf a b :: rest)
    (hs : s.ReaderOk) : t.ReaderOk := by
  rcases step_cases h with ⟨-, rfl⟩ | ⟨w, rest, i, -, -, he⟩ | ⟨w, rest, e, -, -, rfl⟩ | ⟨op, rest, ho, -, rfl⟩
  · exact hs
  · exact (endsAs_of_exec he).readerOk hs
  · exact hs
  · exact State.hostAccess_readerOk (s := s.popHost) hs fun a b e => hb a b rest (e ▸ ho)

/-- Settles O17: each access of the host, and each way a command ends, keeps the count and, but for a buffer write, the
position within the stream. -/
theorem stepKeepsReader : Obligations.StepKeepsReader := fun _ _ h => ⟨step_epbOk h, step_readerOk h⟩

/-- Settles O13: of the ways a command ends only a parse leaves `WARN` set, and its body warns only where it may. -/
theorem warnOnlyFromVuiAndSei : Obligations.WarnOnlyFromVuiAndSei := by
  intro i s t h hw
  have hmay := (endsAs_of_exec h).mayWarn_of_warn hw
  cases i with
  | parseSps v => cases v <;> simp_all [mayWarn]
  | parseSubsetSps => exact .inr (.inl rfl)
  | parseSei => exact .inr (.inr rfl)
  | _ => simp [mayWarn] at hmay

end Sys2Proof.Machine
end

section
/-! The host's accesses, the registers as it reads them, and `STATUS` as a register that commands only write. -/

namespace Sys2Proof.Machine

/-! ## Accesses of the host -/

/-- Settles O5, by the equation of a step whose access writes `CMD`. -/
theorem stepRunsTheCommand : Obligations.StepRunsTheCommand := by
  intro s w i hd
  constructor
  · intro rest h
    rw [step_cmd h hd, State.popHost_eq h]
  · have hw : BitVec.ofNat 32 (w.toNat % 2 ^ 32) = w := by
      rw [Nat.mod_eq_of_lt w.isLt, BitVec.ofNat_toNat, BitVec.setWidth_eq]
    rw [step_cmd (w := w) (i := i) (rest := s.host) (by rw [State.withFetchWord, hw]) hd, State.popHost_withFetchWord]

/-- Settles O7, by the equation of a step for each access; a buffer write is R103's count by `writeByte_epbOk`. -/
theorem hostAccesses : Obligations.HostAccesses := by
  intro s rest
  refine ⟨fun k v h => ?_, fun v => ⟨rfl, rfl, rfl, rfl⟩, fun a b hm h => ?_, fun h => ?_, step_idle⟩
  · rw [step_access h (by simp), State.popHost_eq h, State.hostAccess]
  · rw [step_access h (by simp), State.popHost_eq h]
    exact ⟨_, rfl, rfl, Memory.byte_store_same hm a b, fun c hc => Memory.byte_store_other s.mem b hc,
      State.writeByte_epbOk _ a b⟩
  · rw [step_access h (by simp), State.popHost_eq h, State.hostAccess, State.powerOn]

/-! ## Registers as the host reads them -/

/-- The low bits of a zero-extended field are the field. -/
theorem extractLsb'_setWidth_low {n : Nat} (x : BitVec n) (h : n ≤ 32) : (x.setWidth 32).extractLsb' 0 n = x := by
  apply BitVec.eq_of_getLsbD_eq
  intro k hk
  simp [hk, show k < 32 by omega]

/-- The bits above a zero-extended field are 0. -/
theorem extractLsb'_setWidth_high {n m : Nat} (x : BitVec n) : (x.setWidth 32).extractLsb' n m = 0 := by
  apply BitVec.eq_of_getLsbD_eq
  intro k hk
  simp

theorem readReg_status_code (s : State) : (s.readReg .status).extractLsb' 0 4 = BitVec.ofNat 4 s.status.code.num := by
  rcases hs : s.status with ⟨code, warn⟩
  simp only [State.readReg, hs]
  cases code <;> cases warn <;> rfl

theorem readReg_status_warn (s : State) : (s.readReg .status).getLsbD 8 = s.status.warn := by
  rcases hs : s.status with ⟨code, warn⟩
  simp only [State.readReg, hs]
  cases code <;> cases warn <;> rfl

theorem readReg_status_zeros (s : State) :
    (s.readReg .status).extractLsb' 4 4 = 0 ∧ (s.readReg .status).extractLsb' 9 23 = 0 := by
  rcases hs : s.status with ⟨code, warn⟩
  simp only [State.readReg, hs]
  cases code <;> cases warn <;> exact ⟨rfl, rfl⟩

theorem readReg_brFail (s : State) :
    (s.readReg .brFail).getLsbD 0 = s.br_fail ∧ (s.readReg .brFail).extractLsb' 1 31 = 0 := by
  rw [State.readReg]
  cases s.br_fail <;> exact ⟨rfl, rfl⟩

/-- Settles O9, field by field. -/
theorem registersAsRead : Obligations.RegistersAsRead := by
  intro s
  have code {c : Code} {n : BitVec 4} (hn : BitVec.ofNat 4 c.num = n) (h : s.status.code = c) :
      (s.readReg .status).extractLsb' 0 4 = n := by
    rw [readReg_status_code, h, hn]
  obtain ⟨low, high⟩ := readReg_status_zeros s
  obtain ⟨fail, failHigh⟩ := readReg_brFail s
  exact ⟨rfl, code rfl, code rfl, code rfl, code rfl, code rfl, code rfl, code rfl, code rfl, low, readReg_status_warn s,
    high, fail, failHigh, extractLsb'_setWidth_low _ (by decide), extractLsb'_setWidth_high _,
    extractLsb'_setWidth_low _ (by decide), extractLsb'_setWidth_high _⟩

/-! ## `STATUS` is only written -/

section
variable (s : State) (x : Status)

theorem State.finish_withStatus (c : Code) (w : Bool) :
    State.finish { s with status := x } c w = s.finish c w := rfl

theorem State.advance_withStatus (n : Nat) :
    State.advance { s with status := x } n = { s.advance n with status := x } := by
  unfold State.advance; split <;> rfl

theorem State.readEnds_withStatus (n : Nat) (v : Word) :
    State.readEnds { s with status := x } n v = s.readEnds n v := by
  rw [State.readEnds, State.advance_withStatus, State.readEnds]; rfl

theorem State.withReader_withStatus (base size : Word) (st : Stream) (r : Reader) :
    State.withReader { s with status := x } base size st r = { s.withReader base size st r with status := x } := rfl

/-- A parse ends with a status of its own, where its writes leave the old one alone. -/
theorem State.parse_withStatus {R : Type} {zero : R} {body : Stream → Parse R Unit} {write store : State → R → State}
    (hw : ∀ t r, write { t with status := x } r = { write t r with status := x })
    (hs : ∀ t r, store { t with status := x } r = { store t r with status := x }) :
    State.parse { s with status := x } zero body write store = s.parse zero body write store := by
  simp only [State.parse, State.withReader_withStatus, hw, hs, State.finish_withStatus]
  rfl

end

/-- Settles O12: each way a command ends writes the whole of `STATUS`, and nothing a command reads is `STATUS`. -/
theorem statusIsWriteOnly : Obligations.StatusIsWriteOnly := by
  intro i s x
  cases i with
  | brRead n => simp only [exec, execBrRead, State.readEnds_withStatus]; rfl
  | brSkip n => simp only [exec, execBrSkip, State.skipBits, State.readEnds_withStatus]; rfl
  | brSkipLong => simp only [exec, execBrSkipLong, State.skipBits, State.readEnds_withStatus]; rfl
  | brReadUe => simp only [exec, execBrReadUe, State.readEnds_withStatus]; rfl
  | brReadSe => simp only [exec, execBrReadSe, State.readEnds_withStatus]; rfl
  | parseSps v => exact congrArg Host.Outcome.next (State.parse_withStatus s x (fun _ _ => rfl) fun _ _ => rfl)
  | parseSubsetSps => exact congrArg Host.Outcome.next (State.parse_withStatus s x (fun _ _ => rfl) fun _ _ => rfl)
  | parsePps => exact congrArg Host.Outcome.next (State.parse_withStatus s x (fun _ _ => rfl) fun _ _ => rfl)
  | parseSliceHdr => exact congrArg Host.Outcome.next (State.parse_withStatus s x (fun _ _ => rfl) fun _ _ => rfl)
  | parseSei => exact congrArg Host.Outcome.next (State.parse_withStatus s x (fun _ _ => rfl) fun _ _ => rfl)
  | _ => rfl

end Sys2Proof.Machine
end

section
/-! The command word (30_encoding.md): decoder and encoder are inverse, and the decoder accepts the opcode table. -/

namespace Sys2Proof

open Machine

/-! ## Decoder and encoder -/

theorem decode_encode (i : Instr) : decode (encode i) = .ok i := by
  rw [encode_eq_wordOf, decode_wordOf, if_pos rfl, decodeFields_encode]

theorem decode_eq_ok_iff_fields {w : Word} {i : Instr} :
    decode w = .ok i ↔ zeroField w = 0 ∧ decodeFields (opcodeField w) (imm8Field w) = .ok i := by
  unfold decode
  split
  case isTrue hz => exact ⟨fun h => ⟨hz, h⟩, And.right⟩
  case isFalse hz => exact ⟨nofun, fun h => absurd h.1 hz⟩

theorem encode_of_decode {w : Word} {i : Instr} (h : decode w = .ok i) : encode i = w := by
  obtain ⟨hz, hf⟩ := decode_eq_ok_iff_fields.1 h
  obtain ⟨ho, hm⟩ := decodeFields_ok hf
  rw [encode_eq_wordOf, ← hz, ← hm, ← ho, wordOf_fields]

/-- Settles O1, by the fields of the word of each command. -/
theorem decodeOfEncode : Obligations.DecodeOfEncode := decode_encode

/-- Settles O2: what the decoder accepts has the fields of the command it answers, and a word is made of its fields. -/
theorem encodeOfDecode : Obligations.EncodeOfDecode := fun _ _ => encode_of_decode

/-- Settles O4, by running the decoder. -/
theorem tableWordsDecode : Obligations.TableWordsDecode := by
  unfold Obligations.TableWordsDecode
  decide

/-! ## The opcode table -/

/-- The bits of `imm8` that a command's row fixes at 0 (R82). -/
def imm8Mask : Instr → BitVec 8
  | .brRead _ | .brPeek _ | .brSkip _ | .identifyAvc _ => 0
  | .parseSps _ => 0xFE
  | _ => 0xFF

/-- A command's row of the opcode table, by the fields of its mask and of its match. -/
def opcodeRow (i : Instr) : Word × Word := (wordOf 0xFFFF (imm8Mask i) 0xFF, wordOf 0 0 (opcodeOf i))

/-- A command of each row. -/
def rowCommands : List Instr :=
  [.brInit, .brRead 0, .brPeek 0, .brSkip 0, .brSkipLong, .brReadUe, .brReadSe, .brByteAligned, .brMoreRbspData,
   .scanStartCode, .identifyAnnexb, .identifyAvc 0, .parseSps false, .parseSubsetSps, .parsePps, .parseSliceHdr, .parseSei]

theorem opcodeRows_eq_map : opcodeRows = rowCommands.map opcodeRow := by decide

theorem opcodeRow_mem (i : Instr) : opcodeRow i ∈ opcodeRows := by
  rw [opcodeRows_eq_map]
  exact List.mem_of_getElem? (i := Laws.TableRow.row i) (by cases i <;> rfl)

theorem exists_opcodeRow_eq {r : Word × Word} (h : r ∈ opcodeRows) : ∃ i, opcodeRow i = r := by
  rw [opcodeRows_eq_map, List.mem_map] at h
  obtain ⟨i, -, hi⟩ := h
  exact ⟨i, hi⟩

/-- What matching a command's row says of the fields of a word. -/
theorem matches_opcodeRow_iff {w : Word} {i : Instr} : w &&& (opcodeRow i).1 = (opcodeRow i).2 ↔
    zeroField w = 0 ∧ imm8Field w &&& imm8Mask i = 0 ∧ opcodeField w = opcodeOf i := by
  rw [← wordOf_fields w, opcodeRow, and_wordOf, wordOf_inj]
  simp only [zeroField_wordOf, imm8Field_wordOf, opcodeField_wordOf]
  rw [show (0xFFFF : BitVec 16) = BitVec.allOnes 16 from rfl, show (0xFF : BitVec 8) = BitVec.allOnes 8 from rfl,
    BitVec.and_allOnes, BitVec.and_allOnes]

theorem imm8Of_and_imm8Mask (i : Instr) : imm8Of i &&& imm8Mask i = 0 := by
  cases i with
  | parseSps v => cases v <;> rfl
  | brRead n | brPeek n | brSkip n | identifyAvc n => exact BitVec.and_zero
  | _ => rfl

theorem withoutImm8_of_and_eq_zero {m : BitVec 8} (h : m &&& 0xFF = 0) (i : Instr) : withoutImm8 m i = .ok i :=
  if_pos ((BitVec.and_allOnes (x := m)).symm.trans h)

theorem toNat_le_one_of_and_eq_zero {m : BitVec 8} (h : m &&& 0xFE = 0) : m.toNat ≤ 1 := by
  revert m; decide

/-- With a command's opcode, an `imm8` whose fixed bits are 0 is decoded. -/
theorem decodeFields_of_and_eq_zero {i : Instr} {m : BitVec 8} (h : m &&& imm8Mask i = 0) :
    ∃ j, decodeFields (opcodeOf i) m = .ok j := by
  cases i with
  | brRead n | brPeek n | brSkip n | identifyAvc n => exact ⟨_, rfl⟩
  | parseSps v => exact ⟨_, if_pos (toNat_le_one_of_and_eq_zero h)⟩
  | _ => exact ⟨_, withoutImm8_of_and_eq_zero h _⟩

theorem decodes_iff_matches {w : Word} : (∃ i, decode w = .ok i) ↔ ∃ r ∈ opcodeRows, w &&& r.1 = r.2 := by
  constructor
  · rintro ⟨i, hi⟩
    refine ⟨opcodeRow i, opcodeRow_mem i, matches_opcodeRow_iff.2 ?_⟩
    rw [← encode_of_decode hi, encode_eq_wordOf, zeroField_wordOf, imm8Field_wordOf, opcodeField_wordOf]
    exact ⟨rfl, imm8Of_and_imm8Mask i, rfl⟩
  · rintro ⟨r, hr, hw⟩
    obtain ⟨i, rfl⟩ := exists_opcodeRow_eq hr
    obtain ⟨hz, hm, ho⟩ := matches_opcodeRow_iff.1 hw
    obtain ⟨j, hj⟩ := decodeFields_of_and_eq_zero hm
    exact ⟨j, decode_eq_ok_iff_fields.2 ⟨hz, ho ▸ hj⟩⟩

theorem forall_row_ne_of_decode_error {w : Word} {e : DecodeError} (h : decode w = .error e) :
    ∀ r ∈ opcodeRows, w &&& r.1 ≠ r.2 := fun r hr hw => by
  obtain ⟨i, hi⟩ := decodes_iff_matches.2 ⟨r, hr, hw⟩
  cases h.symm.trans hi

/-- Settles O3: a word matches a command's row exactly where its fields are ones the decoder accepts. -/
theorem decodesExactlyTheTable : Obligations.DecodesExactlyTheTable := fun _ => decodes_iff_matches

/-! ## Exp-Golomb codes -/

/-- Settles O23: codes are read back, and what `read_ue()` answers is the value of a code at the front of the bits. -/
theorem expGolombCodes : Obligations.ExpGolombCodes := by
  refine ⟨fun k rest hk => readUe_ueBits (by omega) rest, fun v rest lo hi => readSe_seBits (by omega) (by omega) rest,
    fun bits h => ?_⟩
  have hu : readUe bits = none := readUe_eq_none.2 h
  exact ⟨hu, by rw [readSe, hu]⟩

end Sys2Proof
end

section
/-! What a command does by its operands (30_encoding.md R85): an illegal operand ends it at once; with legal operands it
ends in the way of its family, with one of its other codes. -/

namespace Sys2Proof.Machine

theorem exec_unique {i : Instr} {s t u : State} (hu : exec i s = .next u) (h : exec i s = .next t) : u = t :=
  Host.Outcome.next.inj (hu.symm.trans h)

/-! ## Illegal operands -/

theorem bitCountOk_eq (n : BitVec 8) : bitCountOk n = !decide (n.toNat = 0 ∨ 32 < n.toNat) := by
  rw [Bool.eq_iff_iff]
  simp
  omega

theorem locatorIllegal_eq (s : State) : locatorIllegal s = operandsIllegal .identifyAnnexb s :=
  (Bool.decide_or _ _).symm

theorem identifyAvc_operandsOk (m : BitVec 8) (s : State) :
    (lengthSizeOk m && !locatorIllegal s) = !operandsIllegal (.identifyAvc m) s := by
  rw [Bool.eq_iff_iff]
  simp [operandsIllegal, locatorIllegal_eq]
  omega

theorem exec_illegal {i : Instr} {s : State} (h : operandsIllegal i s = true) : exec i s = .next s.illegal := by
  cases i with
  | brInit | scanStartCode => exact congrArg Host.Outcome.next (if_pos h)
  | identifyAnnexb => exact congrArg Host.Outcome.next (if_pos ((locatorIllegal_eq s).trans h))
  | brRead n | brPeek n | brSkip n =>
    have hn : bitCountOk n = false := (bitCountOk_eq n).trans (congrArg not h)
    exact congrArg Host.Outcome.next (if_neg (Bool.eq_false_iff.1 hn))
  | identifyAvc m => exact congrArg Host.Outcome.next (if_neg (by rw [identifyAvc_operandsOk, h]; simp))
  | _ => cases h

/-! ## A bit-reader command with legal operands -/

theorem exec_brInit {s : State} (h : operandsIllegal .brInit s = false) :
    exec .brInit s = .next ((s.brInit s.arg0 s.arg1).queryEnds 0) :=
  congrArg Host.Outcome.next (if_neg (Bool.eq_false_iff.1 h))

section
variable {i : Instr} {s t : State}

/-- The ways a command ends that works on the reader as it stands. -/
inductive State.ReaderEnds (s : State) : State → Prop where
  | fails : s.ReaderEnds (s.finish .insufficientData false)
  | readFails : s.ReaderEnds s.readFails
  | reads (n : Nat) (v : Word) : s.ReaderEnds (s.readEnds n v)
  | answers (v : Word) : s.ReaderEnds (s.queryEnds v)

theorem State.ReaderEnds.unlessFailed (h : s.ReaderEnds t) : s.ReaderEnds (s.unlessFailed t) := by
  unfold State.unlessFailed
  split
  · exact .fails
  · exact h

theorem State.skipBits_ends (s : State) (n : Nat) : s.ReaderEnds (s.skipBits n) := by
  unfold State.skipBits
  split
  · exact .readFails
  · exact .reads n 0

theorem exec_readsBits (hr : readsBits i = true) (hl : operandsIllegal i s = false) :
    ∃ t, exec i s = .next t ∧ s.ReaderEnds t := by
  have counted {n : BitVec 8} {a b : State} (hn : decide (n.toNat = 0 ∨ 32 < n.toNat) = false) :
      (if bitCountOk n then a else b) = a := if_pos ((bitCountOk_eq n).trans (congrArg not hn))
  cases i with
  | brRead n =>
    refine ⟨_, congrArg Host.Outcome.next (counted hl), .unlessFailed ?_⟩
    cases readU n.toNat s.unread with
    | none => exact .readFails
    | some v => exact .reads _ _
  | brPeek n =>
    refine ⟨_, congrArg Host.Outcome.next (counted hl), .unlessFailed ?_⟩
    cases readU n.toNat s.unread with
    | none => exact .fails
    | some v => exact .answers _
  | brSkip n => exact ⟨_, congrArg Host.Outcome.next (counted hl), .unlessFailed (s.skipBits_ends _)⟩
  | brSkipLong => exact ⟨_, rfl, .unlessFailed (s.skipBits_ends _)⟩
  | brReadUe =>
    refine ⟨_, rfl, .unlessFailed ?_⟩
    cases readUe s.unread with
    | none => exact .readFails
    | some x => exact .reads _ _
  | brReadSe =>
    refine ⟨_, rfl, .unlessFailed ?_⟩
    cases readSe s.unread with
    | none => exact .readFails
    | some x => exact .reads _ _
  | brByteAligned | brMoreRbspData => exact ⟨_, rfl, .unlessFailed (.answers _)⟩
  | _ => cases hr

theorem State.ReaderEnds.code (h : s.ReaderEnds t) : t.status.code = .ok ∨ t.status.code = .insufficientData := by
  cases h with
  | fails | readFails => exact .inr rfl
  | reads n v => exact .inl (by simp)
  | answers v => exact .inl rfl

theorem State.advance_frame (s : State) (n : Nat) :
    s.advance n = { s with br_pos := (s.advance n).br_pos, br_epb := (s.advance n).br_epb } := by
  unfold State.advance
  split <;> rfl

theorem State.readEnds_frame (s : State) (n : Nat) (v : Word) : s.readEnds n v = { s with
    br_pos := (s.readEnds n v).br_pos, br_epb := (s.readEnds n v).br_epb, result := (s.readEnds n v).result
    status := (s.readEnds n v).status } := by
  unfold State.readEnds
  rw [State.advance_frame]
  rfl

/-- A command on the reader as it stands leaves the window, and all that is not the reader's. -/
theorem State.ReaderEnds.frame (h : s.ReaderEnds t) : t = { s with
    br_pos := t.br_pos, br_epb := t.br_epb, br_fail := t.br_fail, result := t.result, status := t.status } := by
  cases h with
  | fails | readFails | answers => rfl
  | reads n v => exact (s.readEnds_frame n v).trans (by simp)

end

/-! ## A locator command with legal operands -/

theorem exec_scanStartCode {s : State} (h : operandsIllegal .scanStartCode s = false) : ∃ t,
    exec .scanStartCode s = .next t ∧
      (t = { s with result := 0xFFFFFFFF }.finish .noNal false ∨ ∃ v, t = s.queryEnds v) := by
  refine ⟨_, congrArg Host.Outcome.next (if_neg (Bool.eq_false_iff.1 h)), ?_⟩
  cases scanStartCode s.mem s.arg0 s.arg1.toNat with
  | none => exact .inl rfl
  | some k => exact .inr ⟨_, rfl⟩

theorem exec_identifyAnnexb {s : State} (h : operandsIllegal .identifyAnnexb s = false) :
    exec .identifyAnnexb s = .next (s.located (identifyAnnexb s.mem s.arg0 s.arg1 s.arg2)) :=
  congrArg Host.Outcome.next (if_neg (by rw [locatorIllegal_eq, h]; simp))

theorem exec_identifyAvc {s : State} {m : BitVec 8} (h : operandsIllegal (.identifyAvc m) s = false) :
    exec (.identifyAvc m) s = .next (s.located (identifyAvc s.mem m s.arg0 s.arg1 s.arg2)) :=
  congrArg Host.Outcome.next (if_pos (by rw [identifyAvc_operandsOk, h]; rfl))

/-- A locator command with legal operands writes its answer, which it works out without the NALU record. -/
theorem exec_identifies {i : Instr} {s : State} (hi : identifies i = true) (hl : operandsIllegal i s = false) :
    ∃ r, ∀ n, exec i { s with nalu := n } = .next (s.located r) := by
  cases i with
  | identifyAnnexb =>
    exact ⟨identifyAnnexb s.mem s.arg0 s.arg1 s.arg2, fun n => exec_identifyAnnexb (s := { s with nalu := n }) hl⟩
  | identifyAvc m =>
    exact ⟨identifyAvc s.mem m s.arg0 s.arg1 s.arg2, fun n => exec_identifyAvc (s := { s with nalu := n }) hl⟩
  | _ => cases hi

theorem annexbEnd_code (m : Memory) (size : Word) (n : Nalu) :
    (annexbEnd m size n).1 ∈ [Code.ok, .brokenData, .noNalEnd] := by
  unfold annexbEnd
  split
  · simp
  · split
    · simp
    · dsimp only
      split <;> simp

theorem identifyAnnexb_code (m : Memory) (base offset size : Word) :
    (identifyAnnexb m base offset size).1 ∈ [Code.ok, .brokenData, .noNal, .noNalEnd, .error] := by
  unfold identifyAnnexb
  split
  · simp
  · split
    · simp
    · dsimp only
      split
      · simp
      · exact (by decide : [Code.ok, .brokenData, .noNalEnd] ⊆ _) (annexbEnd_code _ _ _)

theorem identifyAvc_code (m : Memory) (lengthSize : BitVec 8) (base offset size : Word) :
    (identifyAvc m lengthSize base offset size).1 ∈ [Code.ok, .brokenData, .noNalEnd, .error] := by
  unfold identifyAvc
  split
  · simp
  · dsimp only
    split
    · simp
    · split <;> simp

/-! ## A parse command -/

section
variable {R : Type} {zero : R} {body : Stream → Parse R Unit} {write store : State → R → State} {s t : State}

/-- A parse command ends with `ERROR`, with a code of its body, or well. -/
theorem State.parse_code {cs : List Code} {w : Bool} (sound : Sound cs w (body s.payloadStream)) (ho : Code.ok ∈ cs)
    (he : Code.error ∈ cs) (hill : Code.illegal ∉ cs) : (s.parse zero body write store).status.code ∈ cs ∧
      (s.parse zero body write store).status.code ≠ .illegal := by
  have hr := sound.reader_at (zero := zero)
  have hmem : (s.parse zero body write store).status.code ∈ cs := by
    rcases State.parse_cases s zero body write store with ⟨-, e⟩ | ⟨-, p, hb, e⟩ | ⟨-, c, p, hb, e⟩
    · rw [e]; exact he
    · rw [e]; exact ho
    · simp only [hb] at hr
      obtain ⟨-, hc, -⟩ := hr
      rw [e]; exact hc
  exact ⟨hmem, ne_of_mem_of_not_mem hmem hill⟩

/-- The states a parse command can end in, whatever its body. -/
theorem State.parse_ends
    (h : (.next (s.parse zero body write store) : Host.Outcome State Fault Refusal) = .next t) :
    t = s.finish .error false ∨ ∃ rd out,
      let u := write (s.withReader (payloadBase s.nalu) (payloadSize s.nalu) s.payloadStream rd) out
      t = (store u out).finish .ok rd.warn ∨ ∃ c, t = u.finish c rd.warn := by
  obtain rfl := Host.Outcome.next.inj h
  rcases State.parse_cases s zero body write store with ⟨-, e⟩ | ⟨-, p, -, e⟩ | ⟨-, c, p, -, e⟩
  · exact .inl e
  · exact .inr ⟨p.rd, p.out, .inl e⟩
  · exact .inr ⟨p.rd, p.out, .inr ⟨c, e⟩⟩

end

/-! ## The codes of every command -/

/-- With legal operands a command ends with one of its codes, and not with `ILLEGAL` (60_exceptions.md R401). -/
theorem exec_legal_code {i : Instr} {s : State} (hl : operandsIllegal i s = false) :
    ∃ t, exec i s = .next t ∧ t.status.code ∈ codesOf i ∧ t.status.code ≠ .illegal := by
  cases i with
  | brInit => exact ⟨_, exec_brInit hl, by simp [codesOf]⟩
  | scanStartCode =>
    obtain ⟨t, ht, rfl | ⟨v, rfl⟩⟩ := exec_scanStartCode hl <;> exact ⟨_, ht, by simp [codesOf]⟩
  | identifyAnnexb =>
    have h := identifyAnnexb_code s.mem s.arg0 s.arg1 s.arg2
    exact ⟨_, exec_identifyAnnexb hl, List.mem_append_left [Code.illegal] h, ne_of_mem_of_not_mem h (by decide)⟩
  | identifyAvc m =>
    have h := identifyAvc_code s.mem m s.arg0 s.arg1 s.arg2
    exact ⟨_, exec_identifyAvc hl, List.mem_append_left [Code.illegal] h, ne_of_mem_of_not_mem h (by decide)⟩
  | parseSps v =>
    exact ⟨_, rfl, State.parse_code (spsSyntax_sound (by simp [codesOf]) v) (by simp [codesOf]) (by simp [codesOf])
      (by simp [codesOf])⟩
  | parseSubsetSps =>
    exact ⟨_, rfl, State.parse_code (subsetSpsSyntax_sound (by decide)) (by decide) (by decide) (by decide)⟩
  | parsePps =>
    exact ⟨_, rfl, State.parse_code (w := false) (ppsSyntax_sound (by decide) (by decide) _ _) (by decide) (by decide)
      (by decide)⟩
  | parseSliceHdr =>
    exact ⟨_, rfl, State.parse_code (w := false) (sliceSyntax_sound (by decide) (by decide) (by decide) _ _ _ _)
      (by decide) (by decide) (by decide)⟩
  | parseSei =>
    exact ⟨_, rfl, State.parse_code (seiLoop_sound (by decide) (by decide) _ _ _) (by decide) (by decide) (by decide)⟩
  | _ =>
    obtain ⟨t, ht, hends⟩ := exec_readsBits rfl hl
    refine ⟨t, ht, ?_⟩
    rcases hends.code with e | e <;> simp [e, codesOf]

/-! ## Illegal command words -/

/-- Settles O6: a word without a row is not decoded, an illegal operand ends a command at once, and with legal operands it
ends with another code. -/
theorem illegalCommandWord : Obligations.IllegalCommandWord := by
  intro s w rest hs
  have hp := State.popHost_eq hs
  cases hd : decode w with
  | error e =>
    exact ⟨fun _ => ⟨false, by rw [step_illegalWord hs hd, hp]; rfl⟩,
      fun hlegal => absurd (.inl (forall_row_ne_of_decode_error hd)) hlegal⟩
  | ok i =>
    cases hl : operandsIllegal i s with
    | true =>
      have he := exec_illegal (s := { s with host := rest }) hl
      exact ⟨fun _ => ⟨false, by rw [step_cmd hs hd, hp, he]; rfl⟩, fun hlegal => absurd (.inr ⟨i, rfl, hl⟩) hlegal⟩
    | false =>
      obtain ⟨t, ht, -, hc⟩ := exec_legal_code (s := { s with host := rest }) hl
      refine ⟨fun hill => ?_, fun _ => ⟨t, by rw [step_cmd hs hd, hp, ht], hc⟩⟩
      rcases hill with hrow | ⟨j, hj, hop⟩
      · obtain ⟨r, hr, hw⟩ := decodes_iff_matches.1 ⟨i, hd⟩
        exact absurd hw (hrow r hr)
      · cases hj
        exact absurd hop (Bool.eq_false_iff.1 hl)

/-! ## The frames of the three families -/

/-- Settles O34: an illegal operand changes `STATUS` alone, and with legal operands a command ends in one of the ways of
its family. -/
theorem bitReaderFrame : Obligations.BitReaderFrame := by
  intro i s t hi h
  cases hl : operandsIllegal i s with
  | true =>
    obtain rfl := exec_unique (exec_illegal hl) h
    exact ⟨rfl, fun _ => ⟨rfl, rfl⟩⟩
  | false =>
    rcases hi with hr | rfl
    · obtain ⟨u, hu, hends⟩ := exec_readsBits hr hl
      obtain rfl := exec_unique hu h
      rw [hends.frame]
      exact ⟨rfl, fun _ => ⟨rfl, rfl⟩⟩
    · obtain rfl := exec_unique (exec_brInit hl) h
      exact ⟨rfl, fun hne => absurd rfl hne⟩

theorem exec_scanStartCode_frame {s t : State} (h : exec .scanStartCode s = .next t) :
    t = { s with result := t.result, status := t.status } := by
  cases hl : operandsIllegal .scanStartCode s with
  | true => obtain rfl := exec_unique (exec_illegal hl) h; rfl
  | false =>
    obtain ⟨u, hu, hends⟩ := exec_scanStartCode hl
    obtain rfl := exec_unique hu h
    rcases hends with rfl | ⟨v, rfl⟩ <;> rfl

theorem exec_identifies_frame {i : Instr} {s t : State} (hi : identifies i = true) (h : exec i s = .next t) :
    t = { s with nalu := t.nalu, status := t.status } := by
  cases hl : operandsIllegal i s with
  | true => obtain rfl := exec_unique (exec_illegal hl) h; rfl
  | false =>
    obtain ⟨r, hr⟩ := exec_identifies hi hl
    obtain rfl := exec_unique (hr s.nalu) h
    rfl

/-- Settles O39: each way a locator command ends writes these alone, and its answer is worked out without the record. -/
theorem locatorFrame : Obligations.LocatorFrame := by
  intro i s t h
  refine ⟨fun hi => exec_scanStartCode_frame (hi ▸ h), fun hi => ⟨exec_identifies_frame hi h, fun n hl => ?_⟩⟩
  obtain ⟨r, hr⟩ := exec_identifies hi hl
  exact (hr n).trans ((hr s.nalu).symm.trans h)

/-- Settles O44: each way a parse command ends writes the reader's registers, `STATUS`, its record and its store alone. -/
theorem parseFrame : Obligations.ParseFrame := by
  intro i s t hi h
  cases i with
  | parseSps | parseSubsetSps | parsePps | parseSliceHdr | parseSei =>
    obtain rfl | ⟨rd, out, rfl | ⟨c, rfl⟩⟩ := State.parse_ends h <;> rfl
  | _ => cases hi

end Sys2Proof.Machine
end

section
/-! The logical stream of a raw window, its bits and its count of emulation-prevention bytes, by the formulas of
40_bitreader.md. -/

namespace Sys2Proof.Machine

/-! ## Emulation-prevention bytes (R101) -/

section
variable {w : List Byte} {i zeros : Nat}

theorem isEpb_iff : isEpb w i = true ↔
    2 ≤ i ∧ i < w.length ∧ w.getD (i - 2) 0 = 0 ∧ w.getD (i - 1) 0 = 0 ∧ w.getD i 0 = 3 := by
  simp only [isEpb, Bool.and_eq_true, decide_eq_true_eq, beq_iff_eq, and_assoc]

/-- `zeros` is what `destuffFrom` counts before position `i`: whether one, and whether two raw zero bytes stand there. -/
def ZerosBefore (w : List Byte) (i zeros : Nat) : Prop :=
  (1 ≤ zeros ↔ 1 ≤ i ∧ w.getD (i - 1) 0 = 0) ∧
  (2 ≤ zeros ↔ 2 ≤ i ∧ w.getD (i - 2) 0 = 0 ∧ w.getD (i - 1) 0 = 0)

theorem zerosBefore_start (w : List Byte) : ZerosBefore w 0 0 := by
  simp [ZerosBefore]

theorem ZerosBefore.of_zero (h : ZerosBefore w i zeros) (hb : w.getD i 0 = 0) : ZerosBefore w (i + 1) (zeros + 1) := by
  obtain ⟨one, -⟩ := h
  refine ⟨⟨fun _ => ⟨by omega, hb⟩, fun _ => by omega⟩, ?_⟩
  rw [show i + 1 - 2 = i - 1 by omega]
  constructor
  · intro hz
    obtain ⟨h1, h0⟩ := one.1 (by omega)
    exact ⟨by omega, h0, hb⟩
  · rintro ⟨h1, h0, -⟩
    have := one.2 ⟨by omega, h0⟩
    omega

theorem ZerosBefore.of_ne_zero (hb : w.getD i 0 ≠ 0) : ZerosBefore w (i + 1) 0 :=
  ⟨⟨by omega, fun h => absurd h.2 hb⟩, ⟨by omega, fun h => absurd h.2.2 hb⟩⟩

theorem ZerosBefore.isEpb_iff (h : ZerosBefore w i zeros) (hi : i < w.length) :
    isEpb w i = true ↔ 2 ≤ zeros ∧ w.getD i 0 = 3 := by
  rw [Machine.isEpb_iff, h.2]
  tauto

/-- The positions from `i` on that pass. -/
theorem destuffFrom_eq {l : List Byte} (h : ZerosBefore w i zeros) (hl : w.drop i = l) :
    destuffFrom i zeros l = ((List.range' i l.length).filter fun k => !isEpb w k).map fun k => (k, w.getD k 0) := by
  induction l generalizing i zeros with
  | nil => rfl
  | cons b bs ih =>
    have hi : i < w.length := by
      by_contra hn
      rw [List.drop_of_length_le (by omega)] at hl
      cases hl
    rw [List.drop_eq_getElem_cons hi, List.cons.injEq] at hl
    obtain ⟨rfl, htl⟩ := hl
    have hb : w[i] = w.getD i 0 := (List.getD_eq_getElem w 0 hi).symm
    rw [destuffFrom, hb, List.length_cons, List.range'_succ, List.filter_cons]
    cases he : isEpb w i with
    | true =>
      obtain ⟨hz, h3⟩ := (h.isEpb_iff hi).1 he
      rw [if_pos ⟨hz, h3⟩]
      exact ih (.of_ne_zero (by rw [h3]; decide)) htl
    | false =>
      rw [if_neg (mt (h.isEpb_iff hi).2 (Bool.eq_false_iff.1 he))]
      refine congrArg ((i, w.getD i 0) :: ·) ?_
      split
      next h0 => exact ih (h.of_zero h0) htl
      next h0 => exact ih (.of_ne_zero h0) htl

theorem destuff_eq (w : List Byte) :
    destuff w = ((List.range w.length).filter fun i => !isEpb w i).map fun i => (i, w.getD i 0) := by
  rw [List.range_eq_range']
  exact destuffFrom_eq (zerosBefore_start w) rfl

end

/-- Settles O19: the walk drops the positions of `E`, and a position of `E` holds a 3, not a 0. -/
theorem emulationPrevention : Obligations.EmulationPrevention := by
  intro w
  refine ⟨destuff_eq w, fun i j hi hj => ?_⟩
  obtain ⟨-, -, -, -, hi3⟩ := isEpb_iff.1 hi
  obtain ⟨-, -, hj2, hj1, -⟩ := isEpb_iff.1 hj
  constructor
  · rintro rfl
    rw [Nat.add_sub_cancel, hi3] at hj1
    exact absurd hj1 (by decide)
  · rintro rfl
    rw [Nat.add_sub_cancel, hi3] at hj2
    exact absurd hj2 (by decide)

/-! ## Raw positions and logical bits (R102) -/

/-- The raw positions of the logical bytes. -/
theorem map_fst_destuff (w : List Byte) : (destuff w).map (·.1) = (List.range w.length).filter fun i => !isEpb w i := by
  rw [destuff_eq, List.map_map]
  exact List.map_id _

theorem length_destuff (w : List Byte) :
    (destuff w).length = ((List.range w.length).filter fun i => !isEpb w i).length := by
  rw [← map_fst_destuff, List.length_map]

theorem getD_byteBits (b : Byte) {k : Nat} (hk : k < 8) : (byteBits b).getD k false = b.getLsbD (7 - k) := by
  match k, hk with
  | 0, _ | 1, _ | 2, _ | 3, _ | 4, _ | 5, _ | 6, _ | 7, _ => rfl

theorem getD_logicalBits {st : Stream} {b : Nat} (h : b < 8 * st.length) :
    (logicalBits st).getD b false = logicalBit st b := by
  induction st generalizing b with
  | nil => simp at h
  | cons e st ih =>
    rw [logicalBits, List.flatMap_cons]
    by_cases hb : b < 8
    · rw [List.getD_append _ _ _ _ (by simpa using hb), getD_byteBits e.2 hb, logicalBit, Nat.div_eq_of_lt hb,
        Nat.mod_eq_of_lt hb, List.getD_cons_zero]
    · obtain ⟨c, rfl⟩ := Nat.exists_eq_add_of_le (Nat.le_of_not_lt hb)
      rw [List.length_cons] at h
      rw [List.getD_append_right _ _ _ _ (by simp), length_byteBits, Nat.add_sub_cancel_left]
      refine (ih (by omega)).trans ?_
      rw [logicalBit, logicalBit, Nat.add_mod_left, show (8 + c) / 8 = c / 8 + 1 by omega, List.getD_cons_succ]

/-- Settles O20: the logical bytes are listed by `destuff_eq`, their bits by `getD_logicalBits`. -/
theorem Stream.logicalBits : Obligations.LogicalBits := by
  intro w
  refine ⟨map_fst_destuff w, fun e he => ?_, ?_, length_logicalBits _, fun b hb => getD_logicalBits hb⟩
  · rw [destuff_eq, List.mem_map] at he
    obtain ⟨i, -, rfl⟩ := he
    rfl
  · have h := List.length_eq_length_filter_add (l := List.range w.length) (isEpb w)
    rw [List.length_range] at h
    rw [length_destuff]
    omega

/-! ## The count of emulation-prevention bytes (R103) -/

/-- Below the `j`-th number that passes `q`, `j` numbers pass. -/
theorem length_filter_range_getElem (q : Nat → Bool) {n j : Nat} (hj : j < ((List.range n).filter q).length) :
    ((List.range ((List.range n).filter q)[j]).filter q).length = j := by
  induction n with
  | zero => simp at hj
  | succ n ih =>
    have hs : (List.range (n + 1)).filter q = (List.range n).filter q ++ [n].filter q := by
      rw [List.range_succ, List.filter_append]
    by_cases hlt : j < ((List.range n).filter q).length
    · simp only [hs, List.getElem_append_left hlt]
      exact ih hlt
    · have hq : q n = true := by
        by_contra hq
        simp [hs, hq] at hj
        exact hlt hj
      have he : j = ((List.range n).filter q).length := by
        simp [hs, hq] at hj
        omega
      subst he
      simp [hs, hq]

/-- Settles O21: of the positions below that of logical byte `k`, the `k` outside `E` are those of the logical bytes
before it. -/
theorem Stream.epbCount : Obligations.EpbCount := by
  intro w p hp
  rcases Nat.eq_zero_or_pos p with rfl | hpos
  · rfl
  rw [if_neg (by omega)]
  obtain ⟨k, hk⟩ : ∃ k, (p + 7) / 8 = k + 1 := ⟨(p + 7) / 8 - 1, by omega⟩
  have hlen : k < (destuff w).length := by omega
  have hfst : (destuff w)[k].1 = ((List.range w.length).filter fun i => !isEpb w i)[k]'(length_destuff w ▸ hlen) := by
    simp only [← map_fst_destuff, List.getElem_map]
  have hout := length_filter_range_getElem (fun i => !isEpb w i) (length_destuff w ▸ hlen)
  rw [← hfst] at hout
  have hall := List.length_eq_length_filter_add (l := List.range (destuff w)[k].1) (isEpb w)
  rw [List.length_range] at hall
  simp only [Machine.epbCount, hk, Nat.add_sub_cancel, List.getD_eq_getElem _ _ hlen]
  omega

end Sys2Proof.Machine
end

section
/-! Reads of the unread bits by the formulas of 40_bitreader.md R104, R111, R115 and R116. -/

namespace Sys2Proof.Machine

/-! ## Fixed-width reads (R104, R115) -/

/-- Reading `m + n` bits goes on with `n` from where reading `m` of them stops. -/
theorem takeBits_add (m n acc : Nat) (bits : List Bool) :
    takeBits (m + n) acc bits = (takeBits m acc bits).bind fun a => takeBits n a (bits.drop m) := by
  induction m generalizing acc bits with
  | zero => rw [Nat.zero_add]; rfl
  | succ m ih =>
    rw [Nat.succ_add]
    cases bits with
    | nil => rfl
    | cons b bs => exact ih (2 * acc + b.toNat) bs

theorem takeBits_of_readU {n v : Nat} {bits : List Bool} (h : readU n bits = some v) (acc : Nat) :
    takeBits n acc bits = some (acc * 2 ^ n + v) := by
  obtain ⟨hlt, rest, rfl⟩ := readU_spec h
  rw [takeBits_uBits, Nat.mod_eq_of_lt hlt]

/-- Two reads in a row answer the parts of one. -/
theorem readU_add {m n a b : Nat} {bits : List Bool} (ha : readU m bits = some a) (hb : readU n (bits.drop m) = some b) :
    readU (m + n) bits = some (a <<< n ||| b) := by
  have hab : takeBits (m + n) 0 bits = takeBits n a (bits.drop m) := by
    rw [takeBits_add, ← readU, ha, Option.bind_some]
  obtain ⟨hlt, -⟩ := readU_spec hb
  rw [readU, hab, takeBits_of_readU hb, ← Nat.shiftLeft_eq, Nat.shiftLeft_add_eq_or_of_lt hlt]

theorem exists_readU {n : Nat} {bits : List Bool} (h : n ≤ bits.length) : ∃ v, readU n bits = some v :=
  Option.isSome_iff_exists.1 (readU_isSome.2 h)

/-- Settles O22, by `readU_add`. -/
theorem splittingLaw : Obligations.SplittingLaw := by
  intro bits n _ hn hlen
  obtain ⟨a, ha⟩ := exists_readU (show n ≤ bits.length by omega)
  obtain ⟨b, hb⟩ := exists_readU (show 32 - n ≤ (bits.drop n).length by rw [List.length_drop]; omega)
  have hv := readU_add ha hb
  rw [Nat.add_sub_cancel' (by omega)] at hv
  exact ⟨a, b, _, ha, hb, hv, rfl⟩

theorem getD_uBits {n v j : Nat} (hj : j < n) (rest : List Bool) :
    (uBits n v ++ rest).getD j false = v.testBit (n - 1 - j) := by
  induction n generalizing j with
  | zero => omega
  | succ n ih =>
    cases j with
    | zero => rfl
    | succ j =>
      rw [uBits, List.cons_append, List.getD_cons_succ, ih (by omega), Nat.add_sub_cancel, Nat.sub_sub, Nat.add_comm 1]

section
variable {s : State}

/-- Unread bit `j` is the logical bit `j` places on. -/
theorem State.getD_unread {j : Nat} (h : s.br_pos + j < s.bitLength) :
    s.unread.getD j false = logicalBit s.stream (s.br_pos + j) := by
  rw [← getD_logicalBits h, State.unread, List.getD_eq_getElem?_getD, List.getElem?_drop, List.getD_eq_getElem?_getD]

/-- A read within the stream answers the value of the logical bits at `p` (R104). -/
theorem State.readU_unread {n : Nat} (hn : 1 ≤ n) (h : s.br_pos + n ≤ s.bitLength) :
    ∃ v, isValueAt s.stream s.br_pos n v ∧ readU n s.unread = some v := by
  obtain ⟨v, hv⟩ := exists_readU (show n ≤ s.unread.length by rw [State.length_unread]; omega)
  obtain ⟨hlt, rest, hbits⟩ := readU_spec hv
  refine ⟨v, ⟨hlt, fun j hj => ?_⟩, hv⟩
  rw [← State.getD_unread (by omega), hbits, getD_uBits hj]

theorem State.readU_unread_eq_none {n : Nat} (hn : 1 ≤ n) (h : s.bitLength < s.br_pos + n) :
    readU n s.unread = none := by
  rw [readU_eq_none, State.length_unread]
  omega

end

/-! ## Signed codes (R111) -/

theorem codeNumber_signedOf (k : Nat) : codeNumber (signedOf k) = k := by
  unfold codeNumber signedOf
  split <;> split <;> omega

theorem seBits_signedOf (k : Nat) : seBits (signedOf k) = ueBits k := by
  rw [seBits, codeNumber_signedOf]

theorem signedOf_bounds {k : Nat} (h : k ≤ 4294967294) : -2147483647 ≤ signedOf k ∧ signedOf k ≤ 2147483647 := by
  unfold signedOf
  split <;> omega

/-- Bits that begin with no `se(v)` code begin with no `ue(v)` code: a `ue(v)` code is that of its signed value. -/
theorem readSe_eq_none {bits : List Bool}
    (h : ∀ (v : Int) rest, -2147483647 ≤ v → v ≤ 2147483647 → bits ≠ seBits v ++ rest) : readSe bits = none := by
  have hu : readUe bits = none := readUe_eq_none.2 fun k rest hk => by
    obtain ⟨lo, hi⟩ := signedOf_bounds hk
    rw [← seBits_signedOf]
    exact h _ rest lo hi
  rw [readSe, hu]

/-! ## More data (R116) -/

theorem any_id_iff_getD {bits : List Bool} : bits.any id = true ↔ ∃ j < bits.length, bits.getD j false = true := by
  rw [List.any_eq_true]
  constructor
  · rintro ⟨b, hb, hid⟩
    obtain ⟨j, hj, rfl⟩ := List.mem_iff_getElem.1 hb
    exact ⟨j, hj, (List.getD_eq_getElem bits false hj).trans hid⟩
  · rintro ⟨j, hj, hb⟩
    exact ⟨bits[j], List.getElem_mem hj, (List.getD_eq_getElem bits false hj).symm.trans hb⟩

theorem moreRbspData_iff {bits : List Bool} : moreRbspData bits = true ↔
    0 < bits.length ∧ (bits.getD 0 false = false ∨ ∃ j, 0 < j ∧ j < bits.length ∧ bits.getD j false = true) := by
  match bits with
  | [] => simp [moreRbspData]
  | false :: bs => simp [moreRbspData]
  | true :: bs =>
    have shift : (∃ j, 0 < j ∧ j < (true :: bs).length ∧ (true :: bs).getD j false = true) ↔
        ∃ j < bs.length, bs.getD j false = true := by
      constructor
      · rintro ⟨_ | j, h0, hj, hb⟩
        · omega
        · exact ⟨j, Nat.lt_of_succ_lt_succ hj, hb⟩
      · rintro ⟨j, hj, hb⟩
        exact ⟨j + 1, by omega, Nat.succ_lt_succ hj, hb⟩
    rw [moreRbspData, any_id_iff_getD, shift]
    simp

/-- `more_rbsp_data()` of the reader, by the formula of R116. -/
theorem State.moreRbspData_unread_iff {s : State} : moreRbspData s.unread = true ↔
    s.br_pos < s.bitLength ∧ (logicalBit s.stream s.br_pos = false ∨
      ∃ b, s.br_pos < b ∧ b < s.bitLength ∧ logicalBit s.stream b = true) := by
  rw [moreRbspData_iff, State.length_unread, Nat.sub_pos_iff_lt]
  refine and_congr_right fun hp => or_congr (by rw [State.getD_unread hp, Nat.add_zero]) ?_
  constructor
  · rintro ⟨j, h0, hj, hb⟩
    rw [State.getD_unread (by omega)] at hb
    exact ⟨s.br_pos + j, by omega, by omega, hb⟩
  · rintro ⟨b, h0, hb, hbit⟩
    obtain ⟨j, rfl⟩ := Nat.exists_eq_add_of_lt h0
    exact ⟨j + 1, by omega, by omega, by rw [State.getD_unread (by omega)]; exact hbit⟩

end Sys2Proof.Machine
end

section
/-! The host bit-reader commands (40_bitreader.md section 2): how each fails while `BR_FAIL` is 1, what each does while it
is 0. -/

namespace Sys2Proof.Machine

section
variable {i : Instr} {s : State}

theorem exec_endsIllegal (h : operandsIllegal i s = true) : endsIllegal (exec i s) s := ⟨false, exec_illegal h⟩

/-- A bit count in range is a legal operand of `BR_READ`, `BR_PEEK` and `BR_SKIP`. -/
theorem bitCount_legal {n : BitVec 8} (h1 : 1 ≤ n.toNat) (h32 : n.toNat ≤ 32) :
    decide (n.toNat = 0 ∨ 32 < n.toNat) = false := decide_eq_false (by omega)

theorem bitCountOk_of_legal {n : BitVec 8} (h : decide (n.toNat = 0 ∨ 32 < n.toNat) = false) : bitCountOk n = true :=
  (bitCountOk_eq n).trans (congrArg not h)

/-! ## The sticky failure (R106) -/

theorem State.unlessFailed_failed {t : State} (hf : s.br_fail = true) : s.unlessFailed t = s.failsAtOnce := if_pos hf

theorem State.unlessFailed_ok {t : State} (hf : s.br_fail = false) : s.unlessFailed t = t :=
  if_neg (Bool.eq_false_iff.1 hf)

theorem exec_failed (hr : readsBits i = true) (hl : operandsIllegal i s = false) (hf : s.br_fail = true) :
    exec i s = .next s.failsAtOnce := by
  cases i with
  | brRead n | brPeek n | brSkip n =>
    exact congrArg Host.Outcome.next ((if_pos (bitCountOk_of_legal hl)).trans (State.unlessFailed_failed hf))
  | brSkipLong | brReadUe | brReadSe | brByteAligned | brMoreRbspData =>
    exact congrArg Host.Outcome.next (State.unlessFailed_failed hf)
  | _ => cases hr

/-- Settles O33: every command on the reader looks at `BR_FAIL` first. -/
theorem stickyFailure : Obligations.StickyFailure := fun _ _ => exec_failed

/-! ## How a read ends -/

/-- A read that succeeds, of at least one bit, so that the count is recomputed. -/
theorem State.readEnds_eq_readAs {n : Nat} (hn : n ≠ 0) (v : Word) : s.readEnds n v = s.readAs n v := by
  simp only [State.readEnds, State.advance, if_neg hn]
  rfl

theorem State.skipBits_within {n : Nat} (h : s.br_pos + n ≤ s.bitLength) : s.skipBits n = s.readEnds n 0 :=
  if_neg (Nat.not_lt.2 h)

theorem State.skipBits_past {n : Nat} (h : s.bitLength < s.br_pos + n) : s.skipBits n = s.insufficient := if_pos h

/-! ## The commands while `BR_FAIL` is 0 -/

section
variable {n : BitVec 8} (hf : s.br_fail = false)
include hf

theorem exec_brRead_some {v : Nat} (hl : operandsIllegal (.brRead n) s = false) (h : readU n.toNat s.unread = some v) :
    exec (.brRead n) s = .next (s.readEnds n.toNat (BitVec.ofNat 32 v)) := by
  rw [exec, execBrRead, if_pos (bitCountOk_of_legal hl), State.unlessFailed_ok hf, h]

theorem exec_brRead_none (hl : operandsIllegal (.brRead n) s = false) (h : readU n.toNat s.unread = none) :
    exec (.brRead n) s = .next s.insufficient := by
  rw [exec, execBrRead, if_pos (bitCountOk_of_legal hl), State.unlessFailed_ok hf, h]
  rfl

theorem exec_brPeek_some {v : Nat} (hl : operandsIllegal (.brPeek n) s = false) (h : readU n.toNat s.unread = some v) :
    exec (.brPeek n) s = .next (s.queryEnds (BitVec.ofNat 32 v)) := by
  rw [exec, execBrPeek, if_pos (bitCountOk_of_legal hl), State.unlessFailed_ok hf, h]

theorem exec_brPeek_none (hl : operandsIllegal (.brPeek n) s = false) (h : readU n.toNat s.unread = none) :
    exec (.brPeek n) s = .next s.failsAtOnce := by
  rw [exec, execBrPeek, if_pos (bitCountOk_of_legal hl), State.unlessFailed_ok hf, h]
  rfl

theorem exec_brSkip (hl : operandsIllegal (.brSkip n) s = false) : exec (.brSkip n) s = .next (s.skipBits n.toNat) := by
  rw [exec, execBrSkip, if_pos (bitCountOk_of_legal hl), State.unlessFailed_ok hf]

theorem exec_brSkipLong : exec .brSkipLong s = .next (s.skipBits s.arg0.toNat) := by
  rw [exec, execBrSkipLong, State.unlessFailed_ok hf]

theorem exec_brReadUe_some {k m : Nat} (h : readUe s.unread = some (k, m)) :
    exec .brReadUe s = .next (s.readAs m (BitVec.ofNat 32 k)) := by
  have hm : m ≠ 0 := Nat.ne_of_gt (readUe_pos h)
  rw [exec, execBrReadUe, State.unlessFailed_ok hf, h, ← State.readEnds_eq_readAs hm]

theorem exec_brReadUe_none (h : readUe s.unread = none) : exec .brReadUe s = .next s.insufficient := by
  rw [exec, execBrReadUe, State.unlessFailed_ok hf, h]
  rfl

theorem exec_brReadSe_some {v : Int} {m : Nat} (h : readSe s.unread = some (v, m)) :
    exec .brReadSe s = .next (s.readAs m (BitVec.ofInt 32 v)) := by
  have hm : m ≠ 0 := Nat.ne_of_gt (readSe_pos h)
  rw [exec, execBrReadSe, State.unlessFailed_ok hf, h, ← State.readEnds_eq_readAs hm]

theorem exec_brReadSe_none (h : readSe s.unread = none) : exec .brReadSe s = .next s.insufficient := by
  rw [exec, execBrReadSe, State.unlessFailed_ok hf, h]
  rfl

theorem exec_brByteAligned :
    exec .brByteAligned s = .next (s.queryEnds (if s.br_pos % 8 = 0 then 1 else 0)) := by
  rw [exec, execBrByteAligned, State.unlessFailed_ok hf]

theorem exec_brMoreRbspData :
    exec .brMoreRbspData s = .next (s.queryEnds (if moreRbspData s.unread then 1 else 0)) := by
  rw [exec, execBrMoreRbspData, State.unlessFailed_ok hf]

end
end

/-! ## The statements of the commands -/

/-- Settles O24: the window check is R85's, and a window of size 0 has no byte. -/
theorem brInit : Obligations.BrInit := by
  intro s
  have legal (h : s.arg0.toNat + s.arg1.toNat ≤ 2 ^ 32) : operandsIllegal .brInit s = false :=
    decide_eq_false (Nat.not_lt.2 h)
  refine ⟨fun h => exec_brInit (legal h), fun h => exec_endsIllegal (decide_eq_true h), fun h => ?_⟩
  have hfit : s.arg0.toNat + s.arg1.toNat ≤ 2 ^ 32 := by rw [h]; exact Nat.le_of_lt s.arg0.isLt
  refine ⟨_, exec_brInit (legal hfit), ?_⟩
  rw [h]
  rfl

/-- Settles O25: the bits are there exactly when `readU` answers. -/
theorem brRead : Obligations.BrRead := by
  intro s n
  refine ⟨fun h1 h32 hf hin => ?_, fun h1 h32 hf hout => ?_,
    fun h1 h32 => exec_failed rfl (bitCount_legal h1 h32), fun h => exec_endsIllegal (decide_eq_true h)⟩
  · obtain ⟨v, hv, hread⟩ := State.readU_unread h1 hin
    refine ⟨v, hv, ?_⟩
    rw [exec_brRead_some hf (bitCount_legal h1 h32) hread, State.readEnds_eq_readAs (by omega)]
  · exact exec_brRead_none hf (bitCount_legal h1 h32) (State.readU_unread_eq_none h1 hout)

/-- Settles O26: as O25, but neither a success nor a failure moves the reader. -/
theorem brPeek : Obligations.BrPeek := by
  intro s n
  refine ⟨fun h1 h32 hf hin => ?_, fun h1 h32 hf hout => ?_,
    fun h1 h32 => exec_failed rfl (bitCount_legal h1 h32), fun h => exec_endsIllegal (decide_eq_true h)⟩
  · obtain ⟨v, hv, hread⟩ := State.readU_unread h1 hin
    exact ⟨v, hv, exec_brPeek_some hf (bitCount_legal h1 h32) hread⟩
  · exact exec_brPeek_none hf (bitCount_legal h1 h32) (State.readU_unread_eq_none h1 hout)

/-- Settles O27, by the two cases of `skipBits`. -/
theorem brSkip : Obligations.BrSkip := by
  intro s n
  refine ⟨fun h1 h32 hf hin => ?_, fun h1 h32 hf hout => ?_,
    fun h1 h32 => exec_failed rfl (bitCount_legal h1 h32), fun h => exec_endsIllegal (decide_eq_true h)⟩
  · rw [exec_brSkip hf (bitCount_legal h1 h32), State.skipBits_within hin, State.readEnds_eq_readAs (by omega)]
  · rw [exec_brSkip hf (bitCount_legal h1 h32), State.skipBits_past hout]

/-- Settles O28: as O27; a skip of no bit leaves the count as it is. -/
theorem brSkipLong : Obligations.BrSkipLong := by
  intro s
  refine ⟨fun hf hin h0 => ?_, fun hf hin h0 => ?_, fun hf hout => ?_, exec_failed rfl rfl⟩
  · have hn : s.arg0.toNat ≠ 0 := fun e => h0 (BitVec.eq_of_toNat_eq e)
    rw [exec_brSkipLong hf, State.skipBits_within hin, State.readEnds_eq_readAs hn]
  · have hz : s.arg0.toNat = 0 := by rw [h0]; rfl
    rw [exec_brSkipLong hf, hz, State.skipBits_within (n := 0) hin]
    rfl
  · rw [exec_brSkipLong hf, State.skipBits_past hout]

/-- Settles O29: `read_ue()` reads a code back, and answers nothing where no code stands. -/
theorem brReadUe : Obligations.BrReadUe := by
  intro s
  refine ⟨fun k rest hf hk hbits => ?_, fun hf hno => exec_brReadUe_none hf (readUe_eq_none.2 hno), exec_failed rfl rfl⟩
  exact exec_brReadUe_some hf (hbits ▸ readUe_ueBits (by omega) rest)

/-- Settles O30: `read_se()` reads a code back, and answers nothing where no code stands. -/
theorem brReadSe : Obligations.BrReadSe := by
  intro s
  refine ⟨fun v rest hf lo hi hbits => ?_, fun hf hno => exec_brReadSe_none hf (readSe_eq_none hno), exec_failed rfl rfl⟩
  exact exec_brReadSe_some hf (hbits ▸ readSe_seBits (by omega) (by omega) rest)

/-- Settles O31: the answer depends on `p` alone, once `BR_FAIL` is 0. -/
theorem brByteAligned : Obligations.BrByteAligned := fun _ => ⟨exec_brByteAligned, exec_failed rfl rfl⟩

/-- Settles O32, by `moreRbspData_unread_iff`. -/
theorem brMoreRbspData : Obligations.BrMoreRbspData := by
  intro s
  refine ⟨fun hf more => ?_, fun hf more => ?_, exec_failed rfl rfl⟩
  · rw [exec_brMoreRbspData hf, if_pos (State.moreRbspData_unread_iff.2 more)]
    rfl
  · rw [exec_brMoreRbspData hf, if_neg (mt State.moreRbspData_unread_iff.1 more)]
    rfl

end Sys2Proof.Machine
end

section
/-! A command reads the buffer in its window only (40_bitreader.md R117, 20_memory.md R60): each operation of the locator
depends on the bytes it looks at, and a reader or a parse on its window. -/

namespace Sys2Proof.Machine

/-! ## Buffers that agree -/

/-- The two buffers have the same `n` bytes at `a`. -/
def Memory.AgreeOn (m m' : Memory) (a : Word) (n : Nat) : Prop :=
  ∀ k < n, m'.byte (a + BitVec.ofNat 32 k) = m.byte (a + BitVec.ofNat 32 k)

section
variable {m m' : Memory} {a : Word} {n : Nat}

/-- A part of the bytes, given by its offset. -/
theorem Memory.AgreeOn.part (h : m.AgreeOn m' a n) {k l : Nat} (hl : k + l ≤ n) :
    m.AgreeOn m' (a + BitVec.ofNat 32 k) l := fun j hj => by
  rw [BitVec.add_assoc, ← BitVec.ofNat_add]
  exact h (k + j) (by omega)

theorem Memory.AgreeOn.partWord (h : m.AgreeOn m' a n) {o : Word} {l : Nat} (hl : o.toNat + l ≤ n) :
    m.AgreeOn m' (a + o) l := by
  have ho : BitVec.ofNat 32 o.toNat = o := by rw [BitVec.ofNat_toNat, BitVec.setWidth_eq]
  rw [← ho]
  exact h.part hl

theorem Memory.AgreeOn.first (h : m.AgreeOn m' a n) (hn : 1 ≤ n) : m'.byte a = m.byte a := by
  simpa using h 0 hn

theorem Memory.AgreeOn.byte (h : m.AgreeOn m' a n) {o : Word} (ho : o.toNat < n) :
    m'.byte (a + o) = m.byte (a + o) :=
  (h.partWord (l := 1) ho).first (Nat.le_refl 1)

theorem Memory.AgreeOn.startCodeAt (h : m.AgreeOn m' a n) (hn : 3 ≤ n) : startCodeAt m' a = startCodeAt m a := by
  rw [Machine.startCodeAt, Machine.startCodeAt, h.first (by omega), h.byte (show (1 : Word).toNat < n by simp; omega),
    h.byte (show (2 : Word).toNat < n by simp; omega)]

theorem Memory.AgreeOn.scanFrom (h : m.AgreeOn m' a n) {k i : Nat} (hk : k = 0 ∨ i + k + 2 ≤ n) :
    scanFrom m' a k i = scanFrom m a k i := by
  induction k generalizing i with
  | zero => rfl
  | succ k ih =>
    rw [Machine.scanFrom, Machine.scanFrom, (h.part (k := i) (l := 3) (by omega)).startCodeAt (Nat.le_refl 3),
      ih (by omega)]

theorem Memory.AgreeOn.scanStartCode (h : m.AgreeOn m' a n) : scanStartCode m' a n = scanStartCode m a n :=
  h.scanFrom (by omega)

theorem Memory.AgreeOn.trimZeros (h : m.AgreeOn m' a n) {k : Nat} (hk : k ≤ n) : trimZeros m' a k = trimZeros m a k := by
  induction k with
  | zero => rfl
  | succ k ih => rw [Machine.trimZeros, Machine.trimZeros, h k (by omega), ih (by omega)]

theorem Memory.AgreeOn.bigEndian (h : m.AgreeOn m' a n) : m'.bigEndian a n = m.bigEndian a n := by
  rw [Memory.bigEndian, Memory.bigEndian, Memory.window_congr h]

theorem Memory.AgreeOn.extensionBits (h : m.AgreeOn m' a n) (hn : 4 ≤ n) : extensionBits m' a = extensionBits m a := by
  rw [Machine.extensionBits, Machine.extensionBits, h.byte (show (1 : Word).toNat < n by simp; omega),
    h.byte (show (2 : Word).toNat < n by simp; omega), h.byte (show (3 : Word).toNat < n by simp; omega)]

end

/-! ## The locator's functions (41_nal_locator.md R140 to R147) -/

/-- A start code found stands among the offsets looked at. -/
theorem scanFrom_lt {m : Memory} {a : Word} {k i j : Nat} (h : scanFrom m a k i = some j) : j < i + k := by
  induction k generalizing i with
  | zero => cases h
  | succ k ih =>
    rw [scanFrom] at h
    split at h
    · cases h; omega
    · have := ih h
      omega

theorem scanStartCode_within {m : Memory} {a : Word} {n j : Nat} (h : scanStartCode m a n = some j) : j + 4 ≤ n := by
  have := scanFrom_lt h
  omega

/-- The parts of the NALU record a header's parse leaves. -/
theorem parseHeader_frame (m : Memory) (n : Nalu) : (parseHeader m n).2.base = n.base ∧
    (parseHeader m n).2.sc_offset = n.sc_offset ∧ (parseHeader m n).2.offset = n.offset := by
  have ext (x : Nalu) (b : BitVec 24) : (x.withExtension b).base = x.base ∧
      (x.withExtension b).sc_offset = x.sc_offset ∧ (x.withExtension b).offset = x.offset := by
    unfold Nalu.withExtension
    split <;> exact ⟨rfl, rfl, rfl⟩
  unfold parseHeader
  split
  · exact ⟨rfl, rfl, rfl⟩
  · dsimp only
    split
    · split
      · exact ⟨rfl, rfl, rfl⟩
      · exact ext _ _
    · exact ⟨rfl, rfl, rfl⟩

theorem fourByteStart_frame (m : Memory) (n : Nalu) :
    (fourByteStart m n).base = n.base ∧ (fourByteStart m n).offset = n.offset := by
  unfold fourByteStart
  split <;> exact ⟨rfl, rfl⟩

section
variable {m m' : Memory}

theorem Memory.AgreeOn.parseHeader {n : Nalu} (h : m.AgreeOn m' (n.base + n.offset) n.size.toNat) :
    parseHeader m' n = parseHeader m n := by
  rw [Machine.parseHeader, Machine.parseHeader]
  by_cases h1 : n.size.toNat < 1
  · rw [if_pos h1, if_pos h1]
  · rw [if_neg h1, if_neg h1, h.first (by omega)]
    by_cases h4 : n.size.toNat < 4
    · simp only [if_pos h4]
    · rw [h.extensionBits (by omega)]

theorem Memory.AgreeOn.fourByteStart {n : Nalu} {k : Nat} (h : m.AgreeOn m' n.base k) (hk : n.sc_offset.toNat ≤ k) :
    fourByteStart m' n = fourByteStart m n := by
  rw [Machine.fourByteStart, Machine.fourByteStart]
  by_cases h0 : 0 < n.sc_offset.toNat
  · have hb : m'.byte (n.base + n.sc_offset - 1) = m.byte (n.base + n.sc_offset - 1) := by
      rw [show n.base + n.sc_offset - 1 = n.base + (n.sc_offset - 1) by ring]
      exact h.byte (by bv_omega)
    rw [hb]
  · rw [if_neg (mt And.left h0), if_neg (mt And.left h0)]

theorem Memory.AgreeOn.annexbEnd {n : Nalu} {size : Word}
    (h : m.AgreeOn m' (n.base + n.offset) (size.toNat - n.offset.toNat)) :
    annexbEnd m' size n = annexbEnd m size n := by
  rw [Machine.annexbEnd, Machine.annexbEnd, h.scanStartCode]
  cases hs : Machine.scanStartCode m (n.base + n.offset) (size.toNat - n.offset.toNat) with
  | none => rfl
  | some off2 =>
    have := scanStartCode_within hs
    simp only [h.trimZeros (k := off2) (by omega)]

/-- The end of a NAL unit whose header is parsed. -/
theorem Memory.AgreeOn.annexbEnd_parsed {n r : Nalu} {size : Word} (hp : Machine.parseHeader m n = (true, r))
    (h : m.AgreeOn m' n.base size.toNat) (hsc : n.sc_offset.toNat ≤ size.toNat) (hoff : n.offset.toNat ≤ size.toNat) :
    Machine.annexbEnd m' size (Machine.fourByteStart m' { r with valid := true }) =
      Machine.annexbEnd m size (Machine.fourByteStart m { r with valid := true }) := by
  obtain ⟨hbase, hscan, hoffset⟩ := parseHeader_frame m n
  rw [hp] at hbase hscan hoffset
  obtain ⟨fbase, foffset⟩ := fourByteStart_frame m { r with valid := true }
  rw [← hbase] at h
  rw [← hscan] at hsc
  rw [← hoffset] at hoff
  rw [Memory.AgreeOn.fourByteStart (n := { r with valid := true }) h hsc]
  refine Memory.AgreeOn.annexbEnd ?_
  rw [fbase, foffset]
  exact h.partWord (Nat.add_sub_cancel' hoff).le

theorem Memory.AgreeOn.identifyAnnexb {base offset size : Word} (h : m.AgreeOn m' base size.toNat) :
    identifyAnnexb m' base offset size = identifyAnnexb m base offset size := by
  rw [Machine.identifyAnnexb, Machine.identifyAnnexb]
  by_cases hsize : size.toNat < offset.toNat + 4
  · rw [if_pos hsize, if_pos hsize]
  rw [if_neg hsize, if_neg hsize, (h.partWord (o := offset) (by omega)).scanStartCode]
  cases hs : Machine.scanStartCode m (base + offset) (size.toNat - offset.toNat) with
  | none => rfl
  | some off1 =>
    have hin := scanStartCode_within hs
    have hsc : (offset + BitVec.ofNat 32 off1).toNat = offset.toNat + off1 := by bv_omega
    have hheader : (offset + BitVec.ofNat 32 off1 + 3).toNat = offset.toNat + off1 + 3 := by bv_omega
    have hrest : (size - (offset + BitVec.ofNat 32 off1 + 3)).toNat = size.toNat - (offset.toNat + off1 + 3) := by
      bv_omega
    dsimp only
    rw [Memory.AgreeOn.parseHeader]
    · rcases hp : Machine.parseHeader m _ with ⟨_ | _, r⟩
      · rfl
      · exact Memory.AgreeOn.annexbEnd_parsed hp h (by dsimp only; omega) (by dsimp only; omega)
    · exact h.partWord (by dsimp only; omega)

theorem Memory.AgreeOn.identifyAvc {base offset size : Word} {lengthSize : BitVec 8} (h : m.AgreeOn m' base size.toNat) :
    identifyAvc m' lengthSize base offset size = identifyAvc m lengthSize base offset size := by
  rw [Machine.identifyAvc, Machine.identifyAvc]
  by_cases hsize : size.toNat < offset.toNat + lengthSize.toNat
  · rw [if_pos hsize, if_pos hsize]
  rw [if_neg hsize, if_neg hsize, (h.partWord (o := offset) (by omega)).bigEndian]
  by_cases hlen : size.toNat - offset.toNat < m.bigEndian (base + offset) lengthSize.toNat + lengthSize.toNat
  · simp only [if_pos hlen]
  · simp only [if_neg hlen]
    rw [Memory.AgreeOn.parseHeader]
    exact h.partWord (by bv_omega)

end

/-! ## Commands -/

/-- With the buffer `m` the command ends in the same state, but for the buffer. -/
def EndsAlike (i : Instr) (s : State) (m : Memory) : Prop :=
  ∃ t, exec i s = .next t ∧ exec i { s with mem := m } = .next { t with mem := m }

theorem operandsIllegal_withMem (i : Instr) (s : State) (m : Memory) :
    operandsIllegal i { s with mem := m } = operandsIllegal i s := by
  cases i <;> rfl

section
variable {s : State} {m : Memory}

theorem exec_illegal_endsAlike {i : Instr} (h : operandsIllegal i s = true) : EndsAlike i s m :=
  ⟨_, exec_illegal h, exec_illegal (s := { s with mem := m }) ((operandsIllegal_withMem i s m).trans h)⟩

/-! ### A bit-reader command -/

theorem State.stream_withMem (h : s.mem.AgreeOn m s.br_base s.br_size.toNat) :
    State.stream { s with mem := m } = s.stream :=
  congrArg destuff (Memory.window_congr h)

theorem State.readEnds_withMem (h : State.stream { s with mem := m } = s.stream) (n : Nat) (v : Word) :
    State.readEnds { s with mem := m } n v = { s.readEnds n v with mem := m } := by
  unfold State.readEnds State.advance
  rw [h]
  split <;> rfl

theorem State.readAs_withMem (h : State.stream { s with mem := m } = s.stream) (n : Nat) (v : Word) :
    State.readAs { s with mem := m } n v = { s.readAs n v with mem := m } := by
  simp only [State.readAs, h]

theorem State.skipBits_withMem (h : State.stream { s with mem := m } = s.stream) (n : Nat) :
    State.skipBits { s with mem := m } n = { s.skipBits n with mem := m } := by
  have hl : State.bitLength { s with mem := m } = s.bitLength := by rw [State.bitLength, h, State.bitLength]
  unfold State.skipBits
  rw [hl, State.readEnds_withMem h]
  split <;> rfl

theorem exec_readsBits_endsAlike {i : Instr} (hr : readsBits i = true) (hl : operandsIllegal i s = false)
    (h : State.stream { s with mem := m } = s.stream) : EndsAlike i s m := by
  have hl' := (operandsIllegal_withMem i s m).trans hl
  cases hf : s.br_fail with
  | true => exact ⟨_, exec_failed hr hl hf, exec_failed (s := { s with mem := m }) hr hl' hf⟩
  | false =>
    have hf' : State.br_fail { s with mem := m } = false := hf
    have hu : State.unread { s with mem := m } = s.unread := by rw [State.unread, h, State.unread]
    cases i with
    | brRead n =>
      cases hv : readU n.toNat s.unread with
      | none => exact ⟨_, exec_brRead_none hf hl hv, exec_brRead_none hf' hl' (hu ▸ hv)⟩
      | some v =>
        refine ⟨_, exec_brRead_some hf hl hv, ?_⟩
        rw [← State.readEnds_withMem h]
        exact exec_brRead_some hf' hl' (hu ▸ hv)
    | brPeek n =>
      cases hv : readU n.toNat s.unread with
      | none => exact ⟨_, exec_brPeek_none hf hl hv, exec_brPeek_none hf' hl' (hu ▸ hv)⟩
      | some v => exact ⟨_, exec_brPeek_some hf hl hv, exec_brPeek_some hf' hl' (hu ▸ hv)⟩
    | brSkip n =>
      exact ⟨_, exec_brSkip hf hl, by rw [exec_brSkip hf' hl', State.skipBits_withMem h]⟩
    | brSkipLong => exact ⟨_, exec_brSkipLong hf, by rw [exec_brSkipLong hf', State.skipBits_withMem h]⟩
    | brReadUe =>
      cases hv : readUe s.unread with
      | none => exact ⟨_, exec_brReadUe_none hf hv, exec_brReadUe_none hf' (hu ▸ hv)⟩
      | some x =>
        refine ⟨_, exec_brReadUe_some hf (k := x.1) (m := x.2) hv, ?_⟩
        rw [← State.readAs_withMem h]
        exact exec_brReadUe_some hf' (hu ▸ hv)
    | brReadSe =>
      cases hv : readSe s.unread with
      | none => exact ⟨_, exec_brReadSe_none hf hv, exec_brReadSe_none hf' (hu ▸ hv)⟩
      | some x =>
        refine ⟨_, exec_brReadSe_some hf (v := x.1) (m := x.2) hv, ?_⟩
        rw [← State.readAs_withMem h]
        exact exec_brReadSe_some hf' (hu ▸ hv)
    | brByteAligned => exact ⟨_, exec_brByteAligned hf, exec_brByteAligned hf'⟩
    | brMoreRbspData => exact ⟨_, exec_brMoreRbspData hf, by rw [exec_brMoreRbspData hf', hu]; rfl⟩
    | _ => cases hr

/-! ### A locator command -/

theorem exec_scanStartCode_endsAlike (hl : operandsIllegal .scanStartCode s = false)
    (h : s.mem.AgreeOn m s.arg0 s.arg1.toNat) : EndsAlike .scanStartCode s m := by
  have legal : ¬windowPast s.arg0 s.arg1 = true := Bool.eq_false_iff.1 hl
  refine ⟨_, congrArg Host.Outcome.next (if_neg legal), ?_⟩
  rw [exec, execScanStartCode, if_neg legal, h.scanStartCode]
  cases scanStartCode s.mem s.arg0 s.arg1.toNat <;> rfl

/-! ### A parse command -/

theorem State.payloadStream_withMem (h : s.mem.AgreeOn m (payloadBase s.nalu) (payloadSize s.nalu).toNat) :
    State.payloadStream { s with mem := m } = s.payloadStream :=
  congrArg destuff (Memory.window_congr h)

theorem State.parse_withMem {R : Type} {zero : R} {body : Stream → Parse R Unit} {write store : State → R → State}
    (h : State.payloadStream { s with mem := m } = s.payloadStream)
    (hw : ∀ t r, write { t with mem := m } r = { write t r with mem := m })
    (hs : ∀ t r, store { t with mem := m } r = { store t r with mem := m }) :
    State.parse { s with mem := m } zero body write store = { s.parse zero body write store with mem := m } := by
  have hr (base size : Word) (st : Stream) (r : Reader) : State.withReader { s with mem := m } base size st r =
      { s.withReader base size st r with mem := m } := rfl
  simp only [State.parse, h, hr, hw, hs]
  split
  · split <;> rfl
  · rfl

end

/-! ### Every command -/

/-- Settles O14: with the same bytes in its window a command of each family ends alike. -/
theorem readsOnlyItsWindow : Obligations.ReadsOnlyItsWindow := by
  intro i s m h
  change s.mem.AgreeOn m (windowOf s i).1 (windowOf s i).2 at h
  cases hl : operandsIllegal i s with
  | true => exact exec_illegal_endsAlike hl
  | false =>
    have hl' := (operandsIllegal_withMem i s m).trans hl
    have located {r r' : Code × Nalu} (hr : r' = r) :
        (.next (State.located { s with mem := m } r') : Host.Outcome State Fault Refusal) =
          .next { s.located r with mem := m } := by rw [hr]; rfl
    cases i with
    | brInit => exact ⟨_, exec_brInit hl, exec_brInit hl'⟩
    | scanStartCode => exact exec_scanStartCode_endsAlike hl h
    | identifyAnnexb =>
      exact ⟨_, exec_identifyAnnexb hl, (exec_identifyAnnexb hl').trans (located h.identifyAnnexb)⟩
    | identifyAvc k => exact ⟨_, exec_identifyAvc hl, (exec_identifyAvc hl').trans (located h.identifyAvc)⟩
    | parseSps _ | parseSubsetSps | parsePps | parseSliceHdr | parseSei =>
      have hst := State.payloadStream_withMem h
      exact ⟨_, rfl, congrArg Host.Outcome.next (State.parse_withMem hst (fun _ _ => rfl) fun _ _ => rfl)⟩
    | _ => exact exec_readsBits_endsAlike rfl hl (State.stream_withMem h)

end Sys2Proof.Machine
end

section
/-! The locator's functions in the terms of 41_nal_locator.md: where a start code stands (R140), the NAL header by its bits
(R141), where a NAL unit ends (R145 to R147); and its commands (R160 to R162), each by the branch it takes. -/

namespace Sys2Proof.Machine

section
variable {m : Memory} {a : Word} {n i : Nat}

/-! ## Start codes (R140) -/

theorem scanFrom_eq_find? (m : Memory) (a : Word) (k i : Nat) :
    scanFrom m a k i = (List.range' i k).find? fun j => startCodeAt m (a + BitVec.ofNat 32 j) := by
  induction k generalizing i with
  | zero => rfl
  | succ k ih =>
    rw [scanFrom, ih, List.range'_succ, List.find?_cons]
    cases startCodeAt m (a + BitVec.ofNat 32 i) <;> rfl

theorem scanStartCode_eq_some_iff : scanStartCode m a n = some i ↔ isFirstStartCode m a n i := by
  have hlt : i < n - 3 ↔ i + 4 ≤ n := by omega
  rw [scanStartCode, scanFrom_eq_find?, ← List.range_eq_range', List.find?_range_eq_some, List.mem_range, hlt]
  simp only [isFirstStartCode, Bool.not_eq_true', ← and_assoc, and_comm]

theorem scanStartCode_eq_none_iff : scanStartCode m a n = none ↔ noStartCode m a n := by
  rw [scanStartCode, scanFrom_eq_find?, ← List.range_eq_range', List.find?_range_eq_none]
  simp only [noStartCode, Bool.not_eq_true']
  exact forall_congr' fun j => imp_congr (by omega) Iff.rfl

/-! ## Bytes -/

/-- R147: the zero bytes before offset `k` are those from `len` on, where the byte before them is not zero. -/
theorem trimZeros_eq {k len : Nat} (hle : len ≤ k) (hz : ∀ j, len ≤ j → j < k → m.byte (a + BitVec.ofNat 32 j) = 0)
    (hne : 0 < len → m.byte (a + BitVec.ofNat 32 (len - 1)) ≠ 0) : trimZeros m a k = len := by
  induction k with
  | zero => exact (Nat.le_zero.1 hle).symm
  | succ k ih =>
    rcases Nat.le_succ_iff.1 hle with h | rfl
    · rw [trimZeros, if_pos (hz k h (Nat.lt_succ_self k))]
      exact ih h fun j hj hk => hz j hj (Nat.lt_succ_of_lt hk)
    · exact if_neg (hne (Nat.succ_pos k))

theorem Memory.bigEndian_succ (m : Memory) (a : Word) (n : Nat) :
    m.bigEndian a (n + 1) = 256 * m.bigEndian a n + (m.byte (a + BitVec.ofNat 32 n)).toNat := by
  simp [Memory.bigEndian, Memory.window, List.range_succ]

/-- R63: a value below `256 ^ n` is the big-endian value of its `n` digits to the base 256. -/
theorem Memory.bigEndian_eq {len : Nat} (hlt : len < 256 ^ n)
    (hb : ∀ j < n, (m.byte (a + BitVec.ofNat 32 j)).toNat = len / 256 ^ (n - 1 - j) % 256) : m.bigEndian a n = len := by
  induction n generalizing len with
  | zero => exact (Nat.lt_one_iff.1 hlt).symm
  | succ n ih =>
    have high : m.bigEndian a n = len / 256 := by
      refine ih (Nat.div_lt_of_lt_mul (by rwa [← Nat.pow_succ'])) fun j hj => ?_
      rw [hb j (by omega), Nat.div_div_eq_div_mul, ← Nat.pow_succ']
      congr 3
      omega
    have low : (m.byte (a + BitVec.ofNat 32 n)).toNat = len % 256 := by simpa using hb n (Nat.lt_succ_self n)
    rw [Memory.bigEndian_succ, high, low, Nat.div_add_mod]

end

/-! ## The header (R141) -/

section
variable {m : Memory} {n : Nalu}

theorem extendedType_iff {t : BitVec 5} : extendedType t = true ↔ t = 14 ∨ t = 20 := by simp [extendedType]

theorem parseHeader_empty (h : n.size = 0) : parseHeader m n = (false, n) := if_pos (by rw [h]; decide)

section
variable (h0 : n.size ≠ 0) {n1 : Nalu} (h1 : n.withHeaderByte (m.byte (n.base + n.offset)) = n1)
include h0 h1

theorem parseHeader_nonempty : parseHeader m n =
    if extendedType n1.type then
      if n.size.toNat < 4 then (false, n1) else (true, n1.withExtension (extensionBits m (n.base + n.offset)))
    else (true, n1) := by
  subst h1
  exact if_neg fun hlt => h0 (BitVec.eq_of_toNat_eq (Nat.lt_one_iff.1 hlt))

theorem parseHeader_oneByte (hx : ¬(n1.type = 14 ∨ n1.type = 20)) : parseHeader m n = (true, n1) := by
  rw [parseHeader_nonempty h0 h1, if_neg (mt extendedType_iff.1 hx)]

theorem parseHeader_cut (hx : n1.type = 14 ∨ n1.type = 20) (h4 : n.size.toNat < 4) : parseHeader m n = (false, n1) := by
  rw [parseHeader_nonempty h0 h1, if_pos (extendedType_iff.2 hx), if_pos h4]

theorem parseHeader_fourBytes (hx : n1.type = 14 ∨ n1.type = 20) (h4 : ¬n.size.toNat < 4) :
    parseHeader m n = (true, n1.withExtension (extensionBits m (n.base + n.offset))) := by
  rw [parseHeader_nonempty h0 h1, if_pos (extendedType_iff.2 hx), if_neg h4]

end

theorem extensionBits_firstByte (m : Memory) (a : Word) (i : Nat) :
    (extensionBits m a).getLsbD (i + 8 + 8) = (m.byte (a + 1)).getLsbD i := by
  rw [extensionBits, BitVec.getLsbD_append, if_neg (by omega), BitVec.getLsbD_append, if_neg (by omega)]
  rfl

theorem extensionBits_lastByte (m : Memory) (a : Word) {i : Nat} (h : i < 8) :
    (extensionBits m a).getLsbD i = (m.byte (a + 3)).getLsbD i := by
  rw [extensionBits, BitVec.getLsbD_append, if_pos h]

/-- The SVC discriminator is the first of the 24 bits (30_encoding.md R90). -/
theorem extensionBits_svc (m : Memory) (a : Word) : (extensionBits m a).getLsbD 23 = (m.byte (a + 1)).getLsbD 7 :=
  extensionBits_firstByte m a 7

/-- The MVC fields of three bytes in a row (30_encoding.md R90). -/
def mvcOfBytes (b1 b2 b3 : Byte) : NaluMvc :=
  { non_idr_flag := b1.getLsbD 6, priority_id := b1.extractLsb' 0 6, view_id := b2 ++ b3.extractLsb' 6 2
    temporal_id := b3.extractLsb' 3 3, anchor_pic_flag := b3.getLsbD 2, inter_view_flag := b3.getLsbD 1 }

/-- `view_id` is the second byte and the first two bits of the third. -/
theorem viewId_threeBytes (b1 b2 b3 : Byte) : (b1 ++ b2 ++ b3).extractLsb' 6 10 = b2 ++ b3.extractLsb' 6 2 := by
  have hb2 : (b1 ++ b2).extractLsb' 0 8 = b2 := by
    rw [BitVec.extractLsb'_append_eq_of_add_le (by decide), BitVec.extractLsb'_eq_self]
  rw [BitVec.extractLsb'_append_eq_ite, dif_pos (by decide), dif_neg (by decide), BitVec.cast_eq]
  exact congrArg (· ++ b3.extractLsb' 6 2) hb2

theorem withExtension_svc {x : BitVec 24} (h : x.getLsbD 23 = true) : n.withExtension x =
    { n with svc_extension_flag := true, extension_type := .svc, header_bytes := 4 } := if_pos h

theorem withExtension_mvc {a : Word} (h : (extensionBits m a).getLsbD 23 = false) :
    let mvc := mvcOfBytes (m.byte (a + 1)) (m.byte (a + 2)) (m.byte (a + 3))
    n.withExtension (extensionBits m a) = { n with
      svc_extension_flag := false, extension_type := .mvc, header_bytes := 4, mvc := mvc
      idr_pic_flag := !mvc.non_idr_flag } := by
  have non_idr_flag : (extensionBits m a).getLsbD 22 = (m.byte (a + 1)).getLsbD 6 := extensionBits_firstByte m a 6
  have priority_id : (extensionBits m a).extractLsb' 16 6 = (m.byte (a + 1)).extractLsb' 0 6 := by
    rw [extensionBits, BitVec.extractLsb'_append_eq_of_le (by decide), BitVec.extractLsb'_append_eq_of_le (by decide)]
  have view_id : (extensionBits m a).extractLsb' 6 10 = m.byte (a + 2) ++ (m.byte (a + 3)).extractLsb' 6 2 :=
    viewId_threeBytes _ _ _
  have temporal_id : (extensionBits m a).extractLsb' 3 3 = (m.byte (a + 3)).extractLsb' 3 3 :=
    BitVec.extractLsb'_append_eq_of_add_le (by decide)
  rw [Nalu.withExtension, if_neg (Bool.eq_false_iff.1 h), non_idr_flag, priority_id, view_id, temporal_id,
    extensionBits_lastByte m a (i := 2) (by decide), extensionBits_lastByte m a (i := 1) (by decide)]
  rfl

end

/-! ## Where a NAL unit begins and ends (R145 to R147) -/

section
variable {m : Memory} {n : Nalu} {size : Word}

theorem fourByteStart_eq (m : Memory) (n : Nalu) : fourByteStart m n = { n with
    sc_offset :=
      if 0 < n.sc_offset.toNat ∧ m.byte (n.base + n.sc_offset - 1) = 0 ∧ (n.type = 7 ∨ n.type = 8 ∨ n.type = 9)
      then n.sc_offset - 1 else n.sc_offset } := by
  unfold fourByteStart
  split <;> rfl

/-- R145 on the record that a header's parse leaves, by the start code the unit was found at. -/
theorem fourByteStart_parsed (m : Memory) (n : Nalu) :
    let r := (parseHeader m n).2
    fourByteStart m { r with valid := true } = { r with
      valid := true
      sc_offset :=
        if 0 < n.sc_offset.toNat ∧ m.byte (n.base + n.sc_offset - 1) = 0 ∧ (r.type = 7 ∨ r.type = 8 ∨ r.type = 9)
        then n.sc_offset - 1 else n.sc_offset } := by
  obtain ⟨hbase, hsc, -⟩ := parseHeader_frame m n
  simp only [fourByteStart_eq, hbase, hsc]

theorem annexbEnd_delimiter (h : n.type = 10 ∨ n.type = 11) : annexbEnd m size n = (.ok, { n with size := 1 }) := if_pos h

section
variable {a o : Word} (h10 : n.type ≠ 10) (h11 : n.type ≠ 11) (ha : n.base + n.offset = a) (ho : n.offset = o)
include h10 h11 ha ho

theorem annexbEnd_open (h : noStartCode m a (size.toNat - o.toNat)) : annexbEnd m size n = (.noNalEnd, n) := by
  rw [annexbEnd, if_neg (not_or.2 ⟨h10, h11⟩), ha, ho, scanStartCode_eq_none_iff.2 h]

theorem annexbEnd_closed {off2 len : Nat} (h : isFirstStartCode m a (size.toNat - o.toNat) off2)
    (hlen : trimZeros m a off2 = len) :
    annexbEnd m size n = (if len < 2 then .brokenData else .ok, { n with size := BitVec.ofNat 32 len }) := by
  rw [annexbEnd, if_neg (not_or.2 ⟨h10, h11⟩), ha, ho, scanStartCode_eq_some_iff.2 h, ← hlen]

end
end

/-! ## The answers of the identifying commands -/

section
variable {m : Memory} {base offset size : Word}

/-! ### `IDENTIFY_ANNEXB` (R161) -/

theorem identifyAnnexb_short (h : size.toNat < offset.toNat + 4) :
    identifyAnnexb m base offset size = (.error, { base := base }) := if_pos h

theorem identifyAnnexb_none (h4 : offset.toNat + 4 ≤ size.toNat)
    (h : noStartCode m (base + offset) (size.toNat - offset.toNat)) :
    identifyAnnexb m base offset size = (.noNal, { base := base }) := by
  rw [identifyAnnexb, if_neg (Nat.not_lt.2 h4), scanStartCode_eq_none_iff.2 h]

/-- The record of a NAL unit whose start code is at `sc`, before its header is parsed. -/
def unitAt (base size sc : Word) : Nalu := { base := base, sc_offset := sc, offset := sc + 3, size := size - (sc + 3) }

theorem identifyAnnexb_found {off1 : Nat} (h4 : offset.toNat + 4 ≤ size.toNat)
    (h : isFirstStartCode m (base + offset) (size.toNat - offset.toNat) off1) :
    let r := parseHeader m (unitAt base size (offset + BitVec.ofNat 32 off1))
    identifyAnnexb m base offset size =
      if r.1 then annexbEnd m size (fourByteStart m { r.2 with valid := true }) else (.brokenData, r.2) := by
  rw [identifyAnnexb, if_neg (Nat.not_lt.2 h4), scanStartCode_eq_some_iff.2 h]
  dsimp only [unitAt]
  rcases parseHeader m _ with ⟨_ | _, r⟩ <;> rfl

/-! ### `IDENTIFY_AVC` (R162) -/

section
variable {k : BitVec 8}

/-- The record of a NAL unit of `len` bytes after a length prefix of `k` bytes at `offset`. -/
def unitAfterPrefix (base offset : Word) (k : BitVec 8) (len : Nat) : Nalu :=
  { base := base, sc_offset := offset, offset := offset + k.setWidth 32, size := BitVec.ofNat 32 len }

theorem identifyAvc_short (h : size.toNat < offset.toNat + k.toNat) :
    identifyAvc m k base offset size = (.error, { base := base }) := if_pos h

theorem identifyAvc_prefix {len : Nat} (hk : offset.toNat + k.toNat ≤ size.toNat)
    (hlen : m.bigEndian (base + offset) k.toNat = len) :
    let n := unitAfterPrefix base offset k len
    let r := parseHeader m n
    identifyAvc m k base offset size =
      if size.toNat - offset.toNat < len + k.toNat then (.noNalEnd, { n with size := 0 })
      else if r.1 then (.ok, { r.2 with valid := true }) else (.brokenData, r.2) := by
  subst hlen
  rw [identifyAvc, if_neg (Nat.not_lt.2 hk)]
  dsimp only [unitAfterPrefix]
  rcases parseHeader m _ with ⟨_ | _, r⟩ <;> rfl

end
end

/-! ## The commands with legal operands -/

section
variable {s : State} {c : Code} {n : Nalu}

theorem exec_identifyAnnexb_eq (hl : operandsIllegal .identifyAnnexb s = false)
    (h : identifyAnnexb s.mem s.arg0 s.arg1 s.arg2 = (c, n)) :
    exec .identifyAnnexb s = .next { s with nalu := n, status := { code := c, warn := false } } := by
  rw [exec_identifyAnnexb hl, h]
  rfl

theorem exec_identifyAvc_eq {k : BitVec 8} (hl : operandsIllegal (.identifyAvc k) s = false)
    (h : identifyAvc s.mem k s.arg0 s.arg1 s.arg2 = (c, n)) :
    exec (.identifyAvc k) s = .next { s with nalu := n, status := { code := c, warn := false } } := by
  rw [exec_identifyAvc hl, h]
  rfl

end

end Sys2Proof.Machine

/-! ## The statements -/

namespace Sys2Proof
open Machine

/-- Settles O36: the branches of `parse_header`. -/
theorem headerParse : Obligations.HeaderParse := by
  intro m n a h b1 b2 b3 r extended
  have size_ne (h4 : 4 ≤ n.size.toNat) : n.size ≠ 0 := fun e => by simp [e] at h4
  refine ⟨parseHeader_empty, fun h0 => parseHeader_oneByte h0 rfl, fun h0 => parseHeader_cut h0 rfl,
    fun hx h4 hsvc => ?_, fun hx h4 hmvc => ?_⟩
  · rw [parseHeader_fourBytes (size_ne h4) rfl hx (Nat.not_lt.2 h4),
      withExtension_svc ((extensionBits_svc m a).trans hsvc)]
    rfl
  · rw [parseHeader_fourBytes (size_ne h4) rfl hx (Nat.not_lt.2 h4),
      withExtension_mvc ((extensionBits_svc m a).trans hmvc)]
    rfl

/-- Settles O35: `scan_sc` answers the first start code. -/
theorem scanStartCode : Obligations.ScanStartCode := by
  intro s
  refine ⟨fun hfit => ?_, fun h => exec_endsIllegal (decide_eq_true h)⟩
  have legal : ¬windowPast s.arg0 s.arg1 = true := fun h => Nat.not_lt.2 hfit (of_decide_eq_true h)
  refine ⟨fun i h => ?_, fun h => ?_⟩
  · rw [exec, execScanStartCode, if_neg legal, scanStartCode_eq_some_iff.2 h]
    rfl
  · rw [exec, execScanStartCode, if_neg legal, scanStartCode_eq_none_iff.2 h]
    rfl

/-- Settles O37: the branches of `identify_nalu_annexb`, after R145 on the record the header's parse leaves. -/
theorem identifyAnnexb : Obligations.IdentifyAnnexb := by
  intro s
  refine ⟨fun hfit hoff => ?_, fun h => exec_endsIllegal (decide_eq_true h)⟩
  have legal : operandsIllegal .identifyAnnexb s = false := decide_eq_false (by omega)
  refine ⟨fun h => exec_identifyAnnexb_eq legal (identifyAnnexb_short h),
    fun h4 h => exec_identifyAnnexb_eq legal (identifyAnnexb_none h4 h), ?_⟩
  intro off1 h4 h sc r n1
  have found := identifyAnnexb_found h4 h
  have parsed (hr : r.1 = true) : Machine.identifyAnnexb s.mem s.arg0 s.arg1 s.arg2 = annexbEnd s.mem s.arg2 n1 :=
    found.trans ((if_pos hr).trans (congrArg _ (fourByteStart_parsed s.mem (unitAt s.arg0 s.arg2 sc))))
  obtain ⟨hbase, -, hoffset⟩ : n1.base = s.arg0 ∧ _ ∧ n1.offset = sc + 3 :=
    parseHeader_frame s.mem (unitAt s.arg0 s.arg2 sc)
  have ha : n1.base + n1.offset = s.arg0 + (sc + 3) := by rw [hbase, hoffset]
  refine ⟨fun hr => ?_, fun hr ht => ?_, fun hr h10 h11 => ⟨fun hno => ?_, fun off2 len hend hle hz hne => ?_⟩⟩ <;>
    refine exec_identifyAnnexb_eq legal ?_
  · exact found.trans (if_neg (Bool.eq_false_iff.1 hr))
  · exact (parsed hr).trans (annexbEnd_delimiter ht)
  · exact (parsed hr).trans (annexbEnd_open h10 h11 ha hoffset hno)
  · exact (parsed hr).trans (annexbEnd_closed (n := n1) h10 h11 ha hoffset hend (trimZeros_eq hle hz hne))

/-- Settles O38: the branches of `identify_nalu_avc`, the length by its bytes. -/
theorem identifyAvc : Obligations.IdentifyAvc := by
  intro s m
  refine ⟨fun h1 hm hfit hoff => ?_, fun h => exec_endsIllegal (decide_eq_true h)⟩
  have legal : operandsIllegal (.identifyAvc m) s = false := decide_eq_false (by omega)
  refine ⟨fun h => exec_identifyAvc_eq legal (identifyAvc_short h), ?_⟩
  intro len hk hlt hb n r
  have answer := identifyAvc_prefix hk (Memory.bigEndian_eq hlt hb)
  refine ⟨fun hpast => ?_, fun hin hr => ?_, fun hin hr => ?_⟩
  · exact exec_identifyAvc_eq legal (answer.trans (if_pos hpast))
  · exact exec_identifyAvc_eq legal (answer.trans ((if_neg (Nat.not_lt.2 hin)).trans (if_neg (Bool.eq_false_iff.1 hr))))
  · exact exec_identifyAvc_eq legal (answer.trans ((if_neg (Nat.not_lt.2 hin)).trans (if_pos hr)))

end Sys2Proof
end

section
/-! The parse of an SPS and of a subset SPS as a whole (42_sps.md R180, R230, R231): what each ends in over coded bits,
that none is run without a usable NALU record, and that what its destination held is gone. -/

namespace Sys2Proof.Machine

/-! ## Coded bits -/

/-- A parse over coded bits leaves their SPS as the working record and in the slot of its id. -/
theorem State.parse_storesSps {s : State} {body : Stream → Parse Sps Unit} {q : Sps} {bits rest : List Bool} {w : Bool}
    (ready : naluReady s.nalu = true) (hb : s.payloadBits = bits ++ rest)
    (codes : Codes (body s.payloadStream) bits () {} q w) :
    s.parse {} body (fun s w => { s with wsps := w }) State.storeSps = { s.parsed bits.length false .ok w with
      wsps := q
      sps := Table.write s.sps {} q.id.toNat q
      last_sps := q.id.setWidth 6 } :=
  State.parse_runs ready hb (codes.runs 0 rest)

theorem Sps.coded_id (q : Sps) (vui : Bool) (c : List ListCoding) : (q.coded vui c).id = q.id := rfl

theorem Sps.subsetCoded_id (q : Sps) (c : List ListCoding) : (q.subsetCoded c).id = q.id := rfl

/-- Settles O50: the parse reads the coded bits back. -/
theorem parseSps : Obligations.ParseSps := by
  intro s q vui reserved c rest ready codable size bits
  have codes := spsSyntax_codes (vuiRequested := vui) (reserved := reserved) codable size
  have stores := State.parse_storesSps (body := fun _ => spsSyntax vui) ready bits codes
  rw [Sps.coded_id] at stores
  exact congrArg Host.Outcome.next stores

/-- Settles O51: as O50, by the codes of the subset SPS. -/
theorem parseSubsetSps : Obligations.ParseSubsetSps := by
  intro s q reserved c rest ready codable size bits
  have codes := subsetSpsSyntax_codes (reserved := reserved) codable size
  have stores := State.parse_storesSps (body := fun _ => subsetSpsSyntax) ready bits codes
  rw [Sps.subsetCoded_id] at stores
  exact congrArg Host.Outcome.next stores

/-! ## The NALU record -/

theorem naluReady_eq_false {n : Nalu} (h : n.valid = false ∨ n.size.toNat < n.header_bytes.toNat) :
    naluReady n = false := by
  rcases h with h | h <;> simp [naluReady, h]

/-- Settles O40: every parse command looks at the record first. -/
theorem parseNeedsARecord : Obligations.ParseNeedsARecord := by
  intro i s hi h
  cases i with
  | parseSps | parseSubsetSps | parsePps | parseSliceHdr | parseSei =>
    exact congrArg Host.Outcome.next (State.parse_notReady (naluReady_eq_false h))
  | _ => cases hi

/-! ## The destination -/

/-- Two states of the same payload end a parse alike, where its record's write leaves nothing of their difference. -/
theorem State.parse_congr {R : Type} {zero : R} {body : Stream → Parse R Unit} {write store : State → R → State}
    {s u : State} (ready : naluReady s.nalu = true) (hn : u.nalu = s.nalu) (hm : u.mem = s.mem)
    (hw : ∀ base size st rd r, write (u.withReader base size st rd) r = write (s.withReader base size st rd) r) :
    u.parse zero body write store = s.parse zero body write store := by
  have stream : u.payloadStream = s.payloadStream := by rw [State.payloadStream, hn, hm, State.payloadStream]
  simp only [State.parse, hn, stream, ready, if_true, hw]

/-- Settles O41: the write of the parsed record replaces the whole destination. -/
theorem destinationIsZeroed : Obligations.DestinationIsZeroed := fun _ ready =>
  ⟨fun _ _ => congrArg Host.Outcome.next (State.parse_congr ready rfl rfl fun _ _ _ _ _ => rfl),
    fun _ => congrArg Host.Outcome.next (State.parse_congr ready rfl rfl fun _ _ _ _ _ => rfl),
    fun _ => congrArg Host.Outcome.next (State.parse_congr ready rfl rfl fun _ _ _ _ _ => rfl),
    fun _ => congrArg Host.Outcome.next (State.parse_congr ready rfl rfl fun _ _ _ _ _ => rfl),
    fun _ => congrArg Host.Outcome.next (State.parse_congr ready rfl rfl fun _ _ _ _ _ => rfl)⟩

end Sys2Proof.Machine
end

section
/-! How a property of the record a parse fills follows from the parts of the parse: what every part keeps, what the parse
leaves where it ends well, and what it leaves whatever way it ends. -/

namespace Sys2Proof.Machine

/-! ## What every part keeps -/

/-- A parse put together from parts each of which keeps `P` of the record. The constructors follow the primitives of
`Machine/Parser.lean`, so that one line of tactics goes through the rows of a
table: `constructor` takes a row apart, and `assumption` finds that its write leaves `P` as it was. -/
inductive Keeps {R : Type} (P : R → Prop) : {α : Type} → Parse R α → Prop
  | look {α : Type} {k : R → Parse R α} (h : ∀ r, P r → Keeps P (k r)) : Keeps P (look >>= k)
  | required {α : Type} {b : Bool} {c : Code} {k : Unit → Parse R α} (h : b = true → Keeps P (k ())) :
    Keeps P (require b c >>= k)
  | bind {α β : Type} {m : Parse R α} {k : α → Parse R β} (h1 : Keeps P m) (h2 : ∀ a, Keeps P (k a)) :
    Keeps P (m >>= k)
  | pure {α : Type} (a : α) : Keeps P (Pure.pure a : Parse R α)
  | put {f : R → R} (h : ∀ r, P r → P (f r)) : Keeps P (put f)
  | require (b : Bool) (c : Code) : Keeps P (require b c)
  | raise {α : Type} (c : Code) : Keeps P (raiseCode c : Parse R α)
  | reader : Keeps P reader
  | moreData : Keeps P moreData
  | warnIf (b : Bool) : Keeps P (warnIf b)
  | whenever {b : Bool} {m : Parse R Unit} (h : Keeps P m) : Keeps P (whenever b m)
  | ite {α : Type} {p : Prop} [Decidable p] {m k : Parse R α} (h1 : Keeps P m) (h2 : Keeps P k) :
    Keeps P (if p then m else k)
  | loop {f : Nat → Parse R Unit} (k i : Nat) (h : ∀ j, Keeps P (f j)) : Keeps P (loopFrom f k i)
  | within {A α : Type} {get : R → A} {set : R → A → R} {m : Parse A α} (h : ∀ r a, P r → P (set r a)) :
    Keeps P (within get set m)
  | getU (n : Nat) : Keeps P (getU n)
  | getUe : Keeps P getUe
  | getSe : Keeps P getSe
  | elemU {n : Nat} {w : R → Nat → R} (h : ∀ r v, P r → P (w r v)) : Keeps P (elemU n w)
  | elemFlag {w : R → Bool → R} (h : ∀ r v, P r → P (w r v)) : Keeps P (elemFlag w)
  | elemUe {w : R → Nat → R} (h : ∀ r v, P r → P (w r v)) : Keeps P (elemUe w)
  | elemUeMax {m : Int} {w : R → Nat → R} (h : ∀ r v, P r → P (w r v)) : Keeps P (elemUeMax m w)
  | elemSe {w : R → Int → R} (h : ∀ r v, P r → P (w r v)) : Keeps P (elemSe w)
  | elemSeRange {lo hi : Int} {w : R → Int → R} (h : ∀ r v, P r → P (w r v)) : Keeps P (elemSeRange lo hi w)
  | of {α : Type} {m : Parse R α} (h : Preserves P m) : Keeps P m

variable {R : Type} {P : R → Prop}

/-- What follows a check may use that it held. -/
theorem Preserves.required {α : Type} {b : Bool} {c : Code} {k : Unit → Parse R α} (h : b = true → Preserves P (k ())) :
    Preserves P (Machine.require b c >>= k) := by
  cases b
  · exact fun _ hp => hp
  · exact h rfl

theorem Keeps.preserves {α : Type} {m : Parse R α} (h : Keeps P m) : Preserves P m := by
  induction h with
  | look _ ih => exact .look ih
  | required _ ih => exact .required ih
  | bind _ _ ih1 ih2 => exact ih1.bind ih2
  | pure a => exact .pure a
  | put h => exact .put h
  | require b c => exact .require b c
  | raise c => exact .raise c
  | reader => exact .reader
  | moreData => exact .moreData
  | warnIf b => exact .warnIf b
  | whenever _ ih => exact ih.whenever
  | ite _ _ ih1 ih2 => exact ih1.ite ih2
  | loop k i _ ih => exact .loop k i fun j _ _ => ih j
  | within h => exact .withinAny h
  | getU n => exact .getU n
  | getUe => exact .getUe
  | getSe => exact .getSe
  | elemU h => exact .elemU h
  | elemFlag h => exact .elemFlag h
  | elemUe h => exact .elemUe h
  | elemUeMax h => exact .elemUeMax h
  | elemSe h => exact .elemSe h
  | elemSeRange h => exact .elemSeRange h
  | of h => exact h

/-! ## What a parse leaves where it ends well -/

/-- From a record that has `P`, the parse leaves one that has `Q` where it ends well. -/
def Ensures {R α : Type} (P : R → Prop) (m : Parse R α) (Q : R → Prop) : Prop :=
  ∀ st a e, P st.out → m st = .ok a e → Q e.out

section
variable {R α β : Type} {P Q S : R → Prop}

theorem Preserves.ensures {m : Parse R α} (h : Preserves P m) : Ensures P m P := by
  intro st a e hp hm
  have h := h st hp
  rwa [hm] at h

theorem Ensures.bind {m : Parse R α} {k : α → Parse R β} (h1 : Ensures P m Q) (h2 : ∀ a, Ensures Q (k a) S) :
    Ensures P (m >>= k) S := by
  intro st b e hp hb
  cases hm : m st with
  | ok a e1 => rw [Parse.bind_ok hm] at hb; exact h2 a e1 b e (h1 st a e1 hp hm) hb
  | error c e1 => rw [Parse.bind_error hm] at hb; cases hb

/-- What the first part leaves does not matter to the rest. -/
theorem Ensures.skip {m : Parse R α} {k : α → Parse R β} (h : ∀ a, Ensures (fun _ => True) (k a) Q) :
    Ensures P (m >>= k) Q :=
  Ensures.bind (Q := fun _ => True) (fun _ _ _ _ _ => trivial) h

theorem Ensures.put {f : R → R} (h : ∀ r, P r → Q (f r)) : Ensures P (put f) Q := by
  rintro st - - hp ⟨⟩
  exact h _ hp

/-- What follows a look at the record is told which record it is. -/
theorem Ensures.look {k : R → Parse R α} (h : ∀ r, P r → Ensures (· = r) (k r) Q) : Ensures P (look >>= k) Q :=
  fun st a e hp hk => h st.out hp st a e rfl hk

theorem Ensures.require {b : Bool} {c : Code} (h : ∀ r, P r → b = true → Q r) :
    Ensures P (require b c : Parse R Unit) Q := by
  intro st a e hp hm
  cases b
  · cases hm
  · cases hm; exact h _ hp rfl

theorem Ensures.whenever {b : Bool} {m : Parse R Unit} (h1 : b = true → Ensures P m Q)
    (h0 : ∀ r, b = false → P r → Q r) : Ensures P (Machine.whenever b m) Q := by
  cases b
  · intro st a e hp hm
    cases hm; exact h0 _ rfl hp
  · exact h1 rfl

theorem Ensures.ite {p : Prop} [Decidable p] {m k : Parse R α} (h1 : Ensures P m Q) (h2 : Ensures P k Q) :
    Ensures P (if p then m else k) Q := by
  split
  · exact h1
  · exact h2

theorem Ensures.within {A : Type} {get : R → A} {set : R → A → R} {m : Parse A α} (h : ∀ r a, P r → Q (set r a)) :
    Ensures P (Machine.within get set m) Q := by
  intro st a e hp hm
  unfold Machine.within at hm
  split at hm
  · cases hm; exact h _ _ hp
  · cases hm

end

theorem Keeps.ensures {α : Type} {m : Parse R α} (h : Keeps P m) : Ensures P m P := h.preserves.ensures

/-! ## What a parse leaves whatever way it ends -/

/-- Whatever way the parse ends from `st`, its record has `Q`. -/
def EndsWith {R α : Type} (Q : R → Prop) (m : Parse R α) (st : PState R) : Prop :=
  match m st with
  | .ok _ e => Q e.out
  | .error _ e => Q e.out

section
variable {R α β : Type} {P Q : R → Prop} {st : PState R}

theorem Preserves.endsWith {m : Parse R α} (h : Preserves P m) (hp : P st.out) : EndsWith P m st := h st hp

theorem EndsWith.bind {m : Parse R α} {k : α → Parse R β} (h : EndsWith P m st) (he : ∀ r, P r → Q r)
    (hk : ∀ a e, P e.out → EndsWith Q (k a) e) : EndsWith Q (m >>= k) st := by
  unfold EndsWith at h
  cases hm : m st with
  | ok a e =>
    rw [hm] at h
    have hk := hk a e h
    unfold EndsWith at hk ⊢
    rwa [Parse.bind_ok hm]
  | error c e =>
    rw [hm] at h
    unfold EndsWith
    rw [Parse.bind_error hm]
    exact he _ h

end

/-! ## A parse command -/

section
variable {R : Type} {Q : R → Prop} {zero : R} {body : Stream → Parse R Unit} {write store : State → R → State} {s : State}

/-- A parse command that ends with `OK` has stored a record with what its body ensures. -/
theorem State.parse_ensures {cs : List Code} {w : Bool} (sound : Sound cs w (body s.payloadStream)) (ho : Code.ok ∉ cs)
    (ensures : Ensures (· = zero) (body s.payloadStream) Q)
    (hc : (s.parse zero body write store).status.code = .ok) :
    ∃ rd out, Q out ∧
      let u := write (s.withReader (payloadBase s.nalu) (payloadSize s.nalu) s.payloadStream rd) out
      s.parse zero body write store = (store u out).finish .ok rd.warn := by
  have hr := sound.reader_at (zero := zero)
  rcases State.parse_cases s zero body write store with ⟨-, e⟩ | ⟨-, p, hb, e⟩ | ⟨-, c, p, hb, e⟩
  · rw [e] at hc; cases hc
  · exact ⟨p.rd, p.out, ensures _ _ _ rfl hb, e⟩
  · rw [hb] at hr
    obtain ⟨-, hmem, -⟩ := hr
    rw [e] at hc
    exact absurd (hc.subst (motive := (· ∈ cs)) hmem) ho

/-- A parse command is turned away, or leaves a record with what its body ends with. -/
theorem State.parse_endsWith (h : EndsWith Q (body s.payloadStream) (s.parseStart zero)) :
    s.parse zero body write store = s.finish .error false ∨ ∃ rd out, Q out ∧
      let u := write (s.withReader (payloadBase s.nalu) (payloadSize s.nalu) s.payloadStream rd) out
      s.parse zero body write store = (store u out).finish .ok rd.warn ∨
        ∃ c, s.parse zero body write store = u.finish c rd.warn := by
  unfold EndsWith at h
  rcases State.parse_cases s zero body write store with ⟨-, e⟩ | ⟨-, p, hb, e⟩ | ⟨-, c, p, hb, e⟩
  · exact .inl e
  · rw [hb] at h
    exact .inr ⟨p.rd, p.out, h, .inl e⟩
  · rw [hb] at h
    exact .inr ⟨p.rd, p.out, h, .inr ⟨c, e⟩⟩

end

/-- `WSPS` after a parse of an SPS that ends with `OK`. -/
theorem wsps_ensured {Q : Sps → Prop} {i : Instr} {s t : State} (hi : parsesSps i = true) (h : exec i s = .next t)
    (hc : t.status.code = .ok) (sps : ∀ v, Ensures (· = {}) (spsSyntax v) Q)
    (subset : Ensures (· = {}) subsetSpsSyntax Q) : Q t.wsps := by
  have he : Code.error ∈ [Code.error] := by decide
  cases i with
  | parseSps v =>
    obtain rfl := Host.Outcome.next.inj h
    obtain ⟨rd, out, hq, e⟩ := State.parse_ensures (spsSyntax_sound he v) (by decide) (sps v) hc
    rw [e]; exact hq
  | parseSubsetSps =>
    obtain rfl := Host.Outcome.next.inj h
    obtain ⟨rd, out, hq, e⟩ := State.parse_ensures (subsetSpsSyntax_sound he) (by decide) subset hc
    rw [e]; exact hq
  | _ => cases hi

end Sys2Proof.Machine
end

section
/-! The derived fields of an SPS whose parse ends well (42_sps.md R184 to R189). -/

namespace Sys2Proof.Machine

/-- The derived fields are those of the coded ones, and the size check holds (R190). -/
def Sps.IsDerived (w : Sps) : Prop := w = w.derived ∧ w.sizeOk = true

theorem Sps.derived_derived (w : Sps) : w.derived.derived = w.derived := rfl

/-- The fields written last take no part in the derivations. -/
theorem Sps.IsDerived.marked {w : Sps} (h : w.IsDerived) (e : SpsExt) :
    ({ w with extension_type := e, valid := true } : Sps).IsDerived :=
  ⟨congrArg (fun w : Sps => { w with extension_type := e, valid := true }) h.1, h.2⟩

theorem spsDerivations_ensures {P : Sps → Prop} : Ensures P spsDerivations Sps.IsDerived :=
  .bind (Q := fun r => r = r.derived) (.put fun r _ => r.derived_derived.symm) fun _ =>
    .look fun _ hr => .require fun _ hx size => hx ▸ ⟨hr, size⟩

theorem spsSyntax_isDerived (v : Bool) : Ensures (· = {}) (spsSyntax v) Sps.IsDerived :=
  .skip fun _ => spsDerivations_ensures.bind fun _ => .put fun _ h => h.marked .none

theorem subsetSpsSyntax_isDerived : Ensures (· = {}) subsetSpsSyntax Sps.IsDerived :=
  .skip fun _ => .skip fun _ => spsDerivations_ensures.bind fun _ => .put fun r h => h.marked r.extension_type

section
variable {w : Sps}

theorem Sps.maxFrameNum_lt (w : Sps) : 2 ^ (w.log2_max_frame_num_minus4.toNat + 4) < 2 ^ 32 :=
  Nat.pow_lt_pow_right (by omega) (by omega)

theorem Sps.cropUnitX_eq (w : Sps) : w.cropUnitX = [1, 2, 2, 1].getD w.chroma_format_idc.toNat 0 := by
  unfold Sps.cropUnitX
  generalize w.chroma_format_idc = c
  revert c; decide

theorem Sps.cropUnitY_eq (w : Sps) : w.cropUnitY = [1, 2, 1, 1].getD w.chroma_format_idc.toNat 0 * w.fieldFactor := by
  unfold Sps.cropUnitY
  congr 1
  generalize w.chroma_format_idc = c
  revert c; decide

theorem toNat_of_eq_ofNat {x : BitVec 32} {n : Nat} (h : x = BitVec.ofNat 32 n) (hn : n < 2 ^ 32) : x.toNat = n := by
  rw [h, BitVec.toNat_ofNat, Nat.mod_eq_of_lt hn]

theorem toNat_of_eq_ofInt {x : BitVec 32} {v : Int} (h : x = BitVec.ofInt 32 v) (h0 : 0 ≤ v) (hv : v < 2 ^ 32) :
    (x.toNat : Int) = v := by
  rw [h, BitVec.toNat_ofInt]; omega

theorem Sps.cropWidth_le (w : Sps) : w.cropWidth ≤ w.widthOf := by
  unfold Sps.cropWidth; split <;> omega

theorem Sps.cropHeight_le (w : Sps) : w.cropHeight ≤ w.heightOf := by
  unfold Sps.cropHeight; split <;> omega

/-- No derived field is cut off at its width. -/
theorem Sps.IsDerived.toNat (h : w.IsDerived) :
    w.max_frame_num.toNat = 2 ^ (w.log2_max_frame_num_minus4.toNat + 4) ∧
    w.width.toNat = w.widthOf ∧ w.height.toNat = w.heightOf ∧
    w.crop_rect_x.toNat = w.cropX ∧ w.crop_rect_y.toNat = w.cropY ∧
    (w.crop_rect_width.toNat : Int) = w.cropWidth ∧ (w.crop_rect_height.toNat : Int) = w.cropHeight := by
  obtain ⟨hw, size⟩ := h
  obtain ⟨hwidth, hheight, hcw, hch, hcx, hcy⟩ := of_decide_eq_true size
  have hcw' := w.cropWidth_le
  have hch' := w.cropHeight_le
  exact ⟨toNat_of_eq_ofNat (congrArg Sps.max_frame_num hw) w.maxFrameNum_lt,
    toNat_of_eq_ofNat (congrArg Sps.width hw) (by omega), toNat_of_eq_ofNat (congrArg Sps.height hw) (by omega),
    toNat_of_eq_ofNat (congrArg Sps.crop_rect_x hw) (by omega),
    toNat_of_eq_ofNat (congrArg Sps.crop_rect_y hw) (by omega),
    toNat_of_eq_ofInt (congrArg Sps.crop_rect_width hw) (by omega) (by omega),
    toNat_of_eq_ofInt (congrArg Sps.crop_rect_height hw) (by omega) (by omega)⟩

end

/-- Settles O52: the record is one of the derivations, whose values the size check keeps within their fields. -/
theorem derivedSpsFields : Obligations.DerivedSpsFields := by
  intro i s t hi h hc w field unitX unitY
  have hw : w.IsDerived := wsps_ensured hi h hc spsSyntax_isDerived subsetSpsSyntax_isDerived
  obtain ⟨hframe, hwidth, hheight, hcx, hcy, hcw, hch⟩ := hw.toNat
  obtain ⟨hw, size⟩ := hw
  obtain ⟨sw, sh, scw, sch, scx, scy⟩ := of_decide_eq_true size
  have hx : w.cropUnitX = unitX := w.cropUnitX_eq
  have hy : w.cropUnitY = unitY := w.cropUnitY_eq
  refine ⟨congrArg Sps.chroma_array_type hw, hframe, hwidth, by omega, hheight, by omega, fun crop => ?_,
    fun crop => ?_, by omega, by omega, by omega, by omega⟩
  · simp only [Sps.cropX, Sps.cropY, Sps.cropWidth, Sps.cropHeight, crop, if_true, hx, hy] at hcx hcy hcw hch
    exact ⟨hcx, hcy, by omega, by omega⟩
  · simp only [Sps.cropX, Sps.cropY, Sps.cropWidth, Sps.cropHeight, crop, Bool.false_eq_true, if_false]
      at hcx hcy hcw hch
    exact ⟨BitVec.eq_of_toNat_eq hcx, BitVec.eq_of_toNat_eq hcy, BitVec.eq_of_toNat_eq (by omega),
      BitVec.eq_of_toNat_eq (by omega)⟩

end Sys2Proof.Machine
end

section
/-! Scaling lists without a matrix (42_sps.md R183, R195, 43_pps.md R242, R245): those of an SPS are flat, those of a PPS
are the lists of its SPS. -/

namespace Sys2Proof.Machine

/-! ## Flat lists -/

theorem Lists.list_setList_other {x : Lists} {i k : Nat} {l : ScalingList} (h : k ≠ i) :
    (x.setList i l).list k = x.list k := by
  by_cases hi : i < 6 <;> by_cases hk : k < 6 <;> simp only [Lists.setList, Lists.list, hi, hk, if_true, if_false]
  · exact Table.read_write_other h
  · exact Table.read_write_other (by omega)

/-- Of the lists written in turn each reads as what was written. -/
theorem Lists.list_foldl_setList (f : Nat → ScalingList) (hf : ∀ i, f i ≠ []) (x : Lists) {k n : Nat} (hk : k < n) :
    ((List.range n).foldl (fun x i => x.setList i (f i)) x).list k = f k := by
  induction n with
  | zero => omega
  | succ n ih =>
    rw [List.range_succ, List.foldl_append, List.foldl_cons, List.foldl_nil]
    by_cases e : k = n
    · rw [e]; exact Lists.list_setList_same (hf n)
    · rw [Lists.list_setList_other e]; exact ih (by omega)

theorem read_flatList {k j : Nat} (hj : j < listSize k) : Table.read (flatList k) 0 j = 16 := by
  simp [flatList, listOf, Table.read_ofList, hj]

theorem flatList_ne_nil (k : Nat) : flatList k ≠ [] := by
  intro e
  have h := read_flatList (k := k) (j := 0) (by unfold listSize; split <;> omega)
  simp [e] at h

theorem read_flatLists {k j : Nat} (hk : k < 12) (hj : j < listSize k) : Table.read (flatLists.list k) 0 j = 16 := by
  rw [flatLists, Lists.list_foldl_setList flatList flatList_ne_nil _ hk, read_flatList hj]

/-! ## SPS -/

/-- Without a scaling matrix the lists are flat (R183). -/
def Sps.FlatWithoutMatrix (r : Sps) : Prop := r.scaling_matrix_present_flag = false → r.lists = flatLists

/-- Where the rows up to the presence flag are read, the flag decides; where they are not, the lists are flat (R183). -/
theorem spsChroma_flat : Ensures (fun _ => True) spsChroma Sps.FlatWithoutMatrix := by
  refine .look fun _ _ => .ite ?_ (.put fun _ _ _ => rfl)
  refine .skip fun _ => .skip fun _ => .skip fun _ => .skip fun _ => .skip fun _ => .skip fun _ => .skip fun _ =>
    .look fun r _ => ?_
  split
  · rename_i present
    exact .within fun _ _ hr absent => by simp [hr, present] at absent
  · exact .put fun _ _ _ => rfl

theorem spsFrame_keepsFlat : Keeps Sps.FlatWithoutMatrix spsFrame := by
  unfold spsFrame spsPicOrderCount offsetForRefFrame
  repeat' first | assumption | intro _ | with_reducible constructor

theorem spsData_flat (v : Bool) : Ensures (· = {}) (spsData v) Sps.FlatWithoutMatrix :=
  .skip fun _ => .bind spsChroma_flat fun _ => spsFrame_keepsFlat.ensures.bind fun _ =>
    Keeps.ensures (.look fun _ _ => .whenever (.within fun _ _ h => h))

theorem spsDerivations_keepsFlat : Keeps Sps.FlatWithoutMatrix spsDerivations := by
  unfold spsDerivations
  repeat' first | assumption | intro _ | with_reducible constructor

theorem subsetBody_keepsFlat : Keeps Sps.FlatWithoutMatrix subsetBody := by
  unfold subsetBody
  repeat' first | assumption | intro _ | with_reducible constructor

theorem spsSyntax_flat (v : Bool) : Ensures (· = {}) (spsSyntax v) Sps.FlatWithoutMatrix :=
  (spsData_flat v).bind fun _ => spsDerivations_keepsFlat.ensures.bind fun _ => .put fun _ h => h

theorem subsetSpsSyntax_flat : Ensures (· = {}) subsetSpsSyntax Sps.FlatWithoutMatrix :=
  (spsData_flat true).bind fun _ => subsetBody_keepsFlat.ensures.bind fun _ =>
    spsDerivations_keepsFlat.ensures.bind fun _ => .put fun _ h => h

/-! ## PPS -/

section
variable (sps : Table Sps)

/-- The lists are those of the SPS the PPS names (R242). -/
def Pps.Inherits (r : Pps) : Prop := r.lists = (spsSlot sps r.sps_id.toNat).lists

theorem ppsBody_keepsInherits (cap : Nat) (q : Sps) : Keeps (Pps.Inherits sps) (ppsBody cap q) := by
  unfold ppsBody ppsSliceGroups ppsRectangle ppsSliceGroupIds
  repeat' first | assumption | intro _ | with_reducible constructor

/-- The tail writes other lists only where it reads a matrix (R245). -/
theorem ppsTail_inherits (q : Sps) : Ensures (Pps.Inherits sps) (ppsTail q)
    fun r => r.pic_scaling_matrix_present_flag = false → r.Inherits sps := by
  refine Keeps.moreData.ensures.bind fun more => .ite ?_ (.put fun _ h _ => h)
  refine .bind (Keeps.ensures (.elemFlag fun _ _ h => h)) fun _ =>
    .bind (Keeps.ensures (.elemFlag fun _ _ h => h)) fun _ => .look fun r hr => .bind (.whenever ?_ ?_) fun _ =>
    Keeps.ensures (.elemSeRange fun _ _ h => h)
  · exact fun present => .within fun _ _ e absent => by simp [e, present] at absent
  · rintro _ - rfl -
    exact hr

theorem ppsSyntax_inherits (cap : Nat) : Ensures (· = {}) (ppsSyntax cap sps)
    fun r => r.pic_scaling_matrix_present_flag = false → r.Inherits sps := by
  refine .skip fun _ => .skip fun _ => .look fun r _ => .bind (Keeps.require _ _).ensures fun _ =>
    .bind (.put ?_) fun _ => (ppsBody_keepsInherits sps cap _).ensures.bind fun _ =>
    (ppsTail_inherits sps _).bind fun _ => .put fun _ h => h
  rintro _ rfl
  rfl

end

/-- Settles O55: the rows after the lists leave them alone. -/
theorem listsWithoutAMatrix : Obligations.ListsWithoutAMatrix := by
  intro i s t h hc
  refine ⟨fun hi absent k hk j hj => ?_, fun hi absent => ?_⟩
  · have flat : t.wsps.FlatWithoutMatrix := wsps_ensured hi h hc spsSyntax_flat subsetSpsSyntax_flat
    rw [flat absent, read_flatLists hk hj]
  · subst hi
    obtain rfl := Host.Outcome.next.inj h
    have sound : Sound [.brokenLink, .error] false (ppsSyntax s.params.sgidCap s.sps) :=
      ppsSyntax_sound (by decide) (by decide) _ _
    obtain ⟨rd, out, hq, e⟩ := State.parse_ensures sound (by decide) (ppsSyntax_inherits s.sps s.params.sgidCap) hc
    rw [e] at absent ⊢
    exact hq absent

end Sys2Proof.Machine
end

section
/-! The arrays a check guards hold no entry beyond their capacity (42_sps.md R186, 43_pps.md R243, 44_slice.md R280, R290,
45_sei.md R330): each parse keeps that of its record, and each step of the state. -/

namespace Sys2Proof.Machine

/-! ## Records within their capacities -/

/-- The offsets of the picture-order-count cycle fit (R186). -/
def Sps.Fits (r : Sps) : Prop := Table.below Config.pocCycleCap r.offset_for_ref_frame = true

/-- The slice-group ids fit (R243). -/
def Pps.Fits (cap : Nat) (r : Pps) : Prop := Table.below cap r.slice_group_id = true

/-- The entries of a modification list fit (R280). -/
def RplmList.Fits (r : RplmList) : Prop :=
  Table.below Config.rplmCap r.rplm = true ∧ r.n_ref_pic_list_modification.toNat ≤ Config.rplmCap

/-- The marking operations fit (R290). -/
def Drpm.Fits (r : Drpm) : Prop :=
  Table.below Config.mmcoCap r.mmco = true ∧ r.n_ref_pic_marking.toNat ≤ Config.mmcoCap

/-- The lists of a slice header fit. -/
def Slice.Fits (r : Slice) : Prop := r.mod_l0.Fits ∧ r.mod_l1.Fits ∧ r.drpm.Fits

/-- The messages fit (R330). -/
def SeiList.Fits (cap : Nat) (r : SeiList) : Prop := Table.below cap r.msgs = true ∧ r.count ≤ cap

/-- `State.CapacityOk`, record by record. -/
structure State.Fits (s : State) : Prop where
  slice : s.slice.Fits
  wsps : s.wsps.Fits
  sps : ∀ e ∈ s.sps, e.2.Fits
  wpps : s.wpps.Fits s.params.sgidCap
  pps : ∀ e ∈ s.pps, e.2.Fits s.params.sgidCap
  sei : s.sei.Fits s.params.seiCap

theorem State.capacityOk_iff_fits {s : State} : s.CapacityOk ↔ s.Fits := by
  constructor
  · rintro ⟨b0, b1, n0, n1, bm, nm, hw, hs, hwp, hp, bi, ni⟩
    exact ⟨⟨⟨b0, n0⟩, ⟨b1, n1⟩, bm, nm⟩, hw, hs, hwp, hp, bi, ni⟩
  · rintro ⟨⟨⟨b0, n0⟩, ⟨b1, n1⟩, bm, nm⟩, hw, hs, hwp, hp, bi, ni⟩
    exact ⟨b0, b1, n0, n1, bm, nm, hw, hs, hwp, hp, bi, ni⟩

/-- What holds of the entries of an array and of a value holds of the entries of the array with the value written. -/
theorem Table.forall_mem_write {α : Type} [DecidableEq α] {Q : α → Prop} {t : Table α} {d v : α} {i : Nat}
    (h : ∀ e ∈ t, Q e.2) (hv : Q v) : ∀ e ∈ Table.write t d i v, Q e.2 := by
  induction t with
  | nil => unfold Table.write; split <;> simp [hv]
  | cons f t ih =>
    obtain ⟨hf, ht⟩ := List.forall_mem_cons.1 h
    unfold Table.write
    split
    · split
      · exact h
      · exact List.forall_mem_cons.2 ⟨hv, h⟩
    · split
      · split
        · exact ht
        · exact List.forall_mem_cons.2 ⟨hv, ht⟩
      · exact List.forall_mem_cons.2 ⟨hf, ih ht⟩

/-! ## Each parse -/

theorem Sps.zero_fits : Sps.Fits {} := rfl

theorem offsetForRefFrame_fits (i : Nat) : Keeps Sps.Fits (offsetForRefFrame i) :=
  .required fun h => .elemSe fun _ _ hr => Table.below_write hr (of_decide_eq_true h)

theorem spsData_fits (v : Bool) : Keeps Sps.Fits (spsData v) := by
  have entry := offsetForRefFrame_fits
  unfold spsData spsIdentity spsChroma spsFrame spsPicOrderCount
  repeat' first | assumption | intro _ | with_reducible constructor

theorem spsDerivations_fits : Keeps Sps.Fits spsDerivations := by
  unfold spsDerivations
  repeat' first | assumption | intro _ | with_reducible constructor

theorem subsetBody_fits : Keeps Sps.Fits subsetBody := by
  unfold subsetBody
  repeat' first | assumption | intro _ | with_reducible constructor

theorem spsSyntax_fits (v : Bool) : Keeps Sps.Fits (spsSyntax v) :=
  (spsData_fits v).bind fun _ => spsDerivations_fits.bind fun _ => .put fun _ h => h

theorem subsetSpsSyntax_fits : Keeps Sps.Fits subsetSpsSyntax :=
  (spsData_fits true).bind fun _ => subsetBody_fits.bind fun _ => spsDerivations_fits.bind fun _ => .put fun _ h => h

theorem Pps.zero_fits (cap : Nat) : Pps.Fits cap {} := rfl

theorem ppsSliceGroupIds_fits (cap : Nat) : Preserves (Pps.Fits cap) (ppsSliceGroupIds cap) := by
  refine .bind (.elemUe fun _ _ h => h) fun _ => .look fun r _ => .required fun room => .loop _ _ fun u _ hu =>
    .elemU fun _ _ h => Table.below_write h ?_
  have := of_decide_eq_true room
  omega

theorem ppsSyntax_fits (cap : Nat) (sps : Table Sps) : Keeps (Pps.Fits cap) (ppsSyntax cap sps) := by
  have ids := Keeps.of (ppsSliceGroupIds_fits cap)
  unfold ppsSyntax ppsBody ppsSliceGroups ppsRectangle ppsTail
  repeat' first | assumption | intro _ | with_reducible constructor

theorem Slice.zero_fits : Slice.Fits {} := ⟨⟨rfl, by decide⟩, ⟨rfl, by decide⟩, rfl, by decide⟩

theorem toNat_ofNat_le {w n m : Nat} (h : n ≤ m) : (BitVec.ofNat w n).toNat ≤ m := by
  rw [BitVec.toNat_ofNat]; exact (Nat.mod_le _ _).trans h

theorem rplmLoop_fits (mvc : Bool) (m : Nat) {room n : Nat} (h : n + room ≤ Config.rplmCap) :
    Keeps RplmList.Fits (rplmLoop mvc m room n) := by
  induction room generalizing n with
  | zero =>
    exact .bind .getUe fun _ => .bind (.require _ _) fun _ =>
      .ite (.put fun _ ⟨hb, _⟩ => ⟨hb, toNat_ofNat_le h⟩) (.bind (.require _ _) fun _ => .raise _)
  | succ room ih =>
    exact .bind .getUe fun _ => .bind (.require _ _) fun _ =>
      .ite (.put fun _ ⟨hb, _⟩ => ⟨hb, toNat_ofNat_le (by omega)⟩) (.bind (.require _ _) fun _ => .bind .getUe fun _ =>
        .bind (.require _ _) fun _ => .bind (.put fun _ ⟨hb, hc⟩ => ⟨Table.below_write hb (by omega), hc⟩) fun _ =>
        ih (by omega))

theorem rplmList_fits (mvc : Bool) (m : Nat) : Keeps RplmList.Fits (rplmList mvc m) :=
  .bind (.elemFlag fun _ _ h => h) fun _ => .look fun _ _ => .whenever (rplmLoop_fits mvc m (by decide))

theorem sliceModification_fits (n : Nalu) : Keeps Slice.Fits (sliceModification n) :=
  .look fun _ _ => .bind
    (.whenever (.of (.within (rplmList_fits _ _).preserves (fun _ ⟨h, _⟩ => h) fun _ _ ⟨_, h⟩ hx => ⟨hx, h⟩)))
    fun _ =>
    .whenever (.of (.within (rplmList_fits _ _).preserves (fun _ ⟨_, h, _⟩ => h) fun _ _ ⟨h0, _, hd⟩ hx => ⟨h0, hx, hd⟩))

theorem ueWhere_keeps {R : Type} {P : R → Prop} (b : Bool) : Keeps P (ueWhere b) := .ite .getUe (.pure 0)

theorem mmcoLoop_fits {room n : Nat} (h : n + room ≤ Config.mmcoCap) : Keeps Drpm.Fits (mmcoLoop room n) := by
  induction room generalizing n with
  | zero =>
    exact .bind .getUe fun _ => .bind (.require _ _) fun _ =>
      .ite (.put fun _ ⟨hb, _⟩ => ⟨hb, toNat_ofNat_le h⟩) (.raise _)
  | succ room ih =>
    exact .bind .getUe fun _ => .bind (.require _ _) fun _ =>
      .ite (.put fun _ ⟨hb, _⟩ => ⟨hb, toNat_ofNat_le (by omega)⟩) (.bind (ueWhere_keeps _) fun _ =>
        .bind (ueWhere_keeps _) fun _ => .bind (ueWhere_keeps _) fun _ => .bind (ueWhere_keeps _) fun _ =>
        .bind (.put fun _ ⟨hb, hc⟩ => ⟨Table.below_write hb (by omega), hc⟩) fun _ => ih (by omega))

theorem refPicMarking_fits (idr : Bool) : Keeps Drpm.Fits (refPicMarking idr) := by
  have ops : Keeps Drpm.Fits (mmcoLoop Config.mmcoCap 0) := mmcoLoop_fits (by decide)
  unfold refPicMarking
  repeat' first | assumption | intro _ | with_reducible constructor

theorem sliceSyntax_fits (n : Nalu) (sps : Table Sps) (pps : Table Pps) (st : Stream) :
    Keeps Slice.Fits (sliceSyntax n sps pps st) := by
  have lists := sliceModification_fits n
  have marking : Keeps Slice.Fits
      (within (·.drpm) (fun r x => { r with drpm := x }) (refPicMarking n.idr_pic_flag)) :=
    .of (.within (refPicMarking_fits _).preserves (fun _ ⟨_, _, h⟩ => h) fun _ _ ⟨h0, h1, _⟩ hx => ⟨h0, h1, hx⟩)
  unfold sliceSyntax sliceHeader sliceFrameNum slicePicOrder sliceRefCounts sliceWeights sliceQuant sliceChangeCycle
    sliceEnd
  repeat' first | assumption | intro _ | with_reducible constructor

/-! ## The messages of an SEI -/

/-- `room` more messages fit than are counted. -/
def SeiList.HasRoom (cap room : Nat) (r : SeiList) : Prop := Table.below cap r.msgs = true ∧ r.count + room ≤ cap

theorem SeiList.HasRoom.fits {cap room : Nat} {r : SeiList} : r.HasRoom cap room → r.Fits cap :=
  fun ⟨hb, hn⟩ => ⟨hb, Nat.le_of_add_right_le hn⟩

theorem seiLoop_fits {cap : Nat} (sps : Table Sps) (last_sps : BitVec 6) {room : Nat} {st : PState SeiList}
    (h : st.out.HasRoom cap room) : EndsWith (SeiList.Fits cap) (seiLoop sps last_sps room) st := by
  induction room generalizing st with
  | zero => exact h.fits
  | succ room ih =>
    obtain ⟨hb, hn⟩ := h
    have message : EndsWith (fun r => Table.below cap r.msgs = true ∧ r.count = st.out.count)
        (within (fun _ => ({} : SeiMsg)) (fun r m => { r with msgs := Table.write r.msgs {} st.out.count m })
          (seiMessage sps last_sps)) st :=
      (Preserves.withinAny fun _ _ ⟨hb, hc⟩ => ⟨Table.below_write hb (by omega), hc⟩).endsWith ⟨hb, rfl⟩
    refine message.bind (fun _ ⟨hb, hc⟩ => ⟨hb, by omega⟩) fun _ e ⟨hb, hc⟩ => ?_
    have counted : EndsWith (SeiList.HasRoom cap room) (put fun r => { r with count := r.count + 1 }) e :=
      ⟨hb, by simp only; omega⟩
    refine counted.bind (fun _ => SeiList.HasRoom.fits) fun _ _ hroom =>
      (Preserves.moreData.endsWith hroom).bind (fun _ => SeiList.HasRoom.fits) fun more _ hroom => ?_
    cases more
    · exact hroom.fits
    · exact ih hroom

/-! ## A parse command -/

section
variable {s : State} (fits : s.Fits)
include fits

/-- A parse keeps the state within its capacities where the record it leaves can be written and stored. -/
theorem State.Fits.parse {R : Type} {P : R → Prop} {zero : R} {body : Stream → Parse R Unit}
    {write store : State → R → State} (h : EndsWith P (body s.payloadStream) (s.parseStart zero))
    (hw : ∀ u r, u.params = s.params → u.Fits → P r → (write u r).Fits ∧ (store (write u r) r).Fits) :
    (s.parse zero body write store).Fits := by
  rcases State.parse_endsWith h with e | ⟨rd, out, hout, e⟩
  · rw [e]; exact { fits with }
  · obtain ⟨written, stored⟩ := hw (s.withReader _ _ _ rd) out rfl { fits with } hout
    rcases e with e | ⟨c, e⟩
    · rw [e]; exact { stored with }
    · rw [e]; exact { written with }

theorem State.Fits.parseSps {body : Stream → Parse Sps Unit} (h : Keeps Sps.Fits (body s.payloadStream)) :
    (s.parse {} body (fun s w => { s with wsps := w }) State.storeSps).Fits :=
  fits.parse (h.preserves.endsWith Sps.zero_fits) fun _ _ _ hu hr =>
    ⟨{ hu with wsps := hr }, { hu with wsps := hr, sps := Table.forall_mem_write hu.sps hr }⟩

theorem State.Fits.parsePps {body : Stream → Parse Pps Unit}
    (h : Keeps (Pps.Fits s.params.sgidCap) (body s.payloadStream)) :
    (s.parse {} body (fun s w => { s with wpps := w }) State.storePps).Fits :=
  fits.parse (h.preserves.endsWith (Pps.zero_fits _)) fun _ _ hp hu hr => by
    rw [← hp] at hr
    exact ⟨{ hu with wpps := hr }, { hu with wpps := hr, pps := Table.forall_mem_write hu.pps hr }⟩

theorem State.Fits.parseSliceHdr {body : Stream → Parse Slice Unit} (h : Keeps Slice.Fits (body s.payloadStream)) :
    (s.parse {} body (fun s w => { s with slice := w }) fun s _ => s).Fits :=
  fits.parse (h.preserves.endsWith Slice.zero_fits) fun _ _ _ hu hr =>
    ⟨{ hu with slice := hr }, { hu with slice := hr }⟩

theorem State.Fits.parseSei {body : Stream → Parse SeiList Unit}
    (h : EndsWith (SeiList.Fits s.params.seiCap) (body s.payloadStream) (s.parseStart {})) :
    (s.parse {} body (fun s w => { s with sei := w }) fun s _ => s).Fits :=
  fits.parse h fun _ _ hp hu hr => by
    rw [← hp] at hr
    exact ⟨{ hu with sei := hr }, { hu with sei := hr }⟩

/-! ## Every step -/

theorem State.Fits.exec {i : Instr} {t : State} (h : exec i s = .next t) : t.Fits := by
  cases i with
  | parseSps v => obtain rfl := Host.Outcome.next.inj h; exact fits.parseSps (spsSyntax_fits v)
  | parseSubsetSps => obtain rfl := Host.Outcome.next.inj h; exact fits.parseSps subsetSpsSyntax_fits
  | parsePps => obtain rfl := Host.Outcome.next.inj h; exact fits.parsePps (ppsSyntax_fits _ _)
  | parseSliceHdr => obtain rfl := Host.Outcome.next.inj h; exact fits.parseSliceHdr (sliceSyntax_fits _ _ _ _)
  | parseSei =>
    obtain rfl := Host.Outcome.next.inj h
    exact fits.parseSei (seiLoop_fits _ _ ⟨rfl, Nat.le_of_eq (Nat.zero_add _)⟩)
  | scanStartCode => rw [exec_scanStartCode_frame h]; exact { fits with }
  | identifyAnnexb | identifyAvc => rw [exec_identifies_frame rfl h]; exact { fits with }
  | brInit => rw [(bitReaderFrame _ s t (.inr rfl) h).1]; exact { fits with }
  | _ => rw [(bitReaderFrame _ s t (.inl rfl) h).1]; exact { fits with }

theorem State.Fits.hostAccess (op : HostOp) : (s.hostAccess op).Fits := by
  cases op with
  | cmd w => exact fits
  | arg k v => fin_cases k <;> exact { fits with }
  | buf a b => exact { fits with }
  | reset =>
    exact { slice := Slice.zero_fits, wsps := rfl, sps := fun _ h => (List.not_mem_nil h).elim, wpps := rfl
            pps := fun _ h => (List.not_mem_nil h).elim, sei := ⟨rfl, Nat.zero_le _⟩ }

end

/-- Settles O18: each parse keeps its record within its capacity, and a stored record is one it has filled. -/
theorem stepKeepsCapacity : Obligations.StepKeepsCapacity := by
  intro s t hs h
  rw [State.capacityOk_iff_fits] at hs ⊢
  have hp : s.popHost.Fits := { hs with }
  rcases step_cases h with ⟨-, rfl⟩ | ⟨w, rest, i, -, -, he⟩ | ⟨w, rest, e, -, -, rfl⟩ | ⟨op, rest, -, -, rfl⟩
  · exact hs
  · exact hp.exec he
  · exact { hp with }
  · exact hp.hostAccess op

end Sys2Proof.Machine
end

section
/-! The parse of a PPS as a whole (43_pps.md R260): what it ends in over the coded bits of a PPS, and where it stops when
the SPS its second row names is not stored (R241). -/

namespace Sys2Proof.Machine

/-! ## Coded bits -/

/-- A parse over coded bits leaves their PPS as the working record and in the slot of its id. -/
theorem State.parse_storesPps {s : State} {body : Stream → Parse Pps Unit} {p : Pps} {bits rest : List Bool} {w : Bool}
    (ready : naluReady s.nalu = true) (hb : s.payloadBits = bits ++ rest)
    (runs : Runs (body s.payloadStream) 0 bits rest () {} p w) :
    s.parse {} body (fun s w => { s with wpps := w }) State.storePps = { s.parsed bits.length false .ok w with
      wpps := p
      pps := Table.write s.pps {} p.id.toNat p
      last_pps := p.id.setWidth 9 } :=
  State.parse_runs ready hb runs

/-- Settles O53: the parse reads the coded bits back before what follows them. -/
theorem parsePps : Obligations.ParsePps := by
  intro s p c tail rest q bits ready valid codable more hb
  have runs : Runs (ppsSyntax s.params.sgidCap s.sps) 0 bits rest () {} (p.coded q tail c) false :=
    ppsSyntax_runs valid codable more
  have stores := State.parse_storesPps (body := fun _ => ppsSyntax s.params.sgidCap s.sps) ready hb runs
  rw [Pps.coded_id] at stores
  exact congrArg Host.Outcome.next stores

/-! ## A parse that stops with a code -/

section
variable {R α : Type} {r r' : R} {c : Code}

theorem Leads.look {k : R → Parse R α} {m' : Parse R α} {bits : List Bool} (h : Leads (k r) bits r m' r') :
    Leads (Machine.look >>= k) bits r m' r' := fun rest p f w => h rest p f w

/-- A check that does not hold: what follows is not run. -/
theorem Leads.refused {b : Bool} {k : Unit → Parse R α} (h : b = false) :
    Leads (Machine.require b c >>= k) [] r (raiseCode c) r := by
  subst h; exact fun _ _ _ _ => rfl

/-- The syntax over coded bits, stopped at their end with the code `c`, ends the command with `c`: its record is
written and not stored. -/
theorem State.parse_raises {zero : R} {body : Stream → Parse R Unit} {write store : State → R → State} {s : State}
    {bits rest : List Bool} (ready : naluReady s.nalu = true) (hb : s.payloadBits = bits ++ rest)
    (raises : Leads (body s.payloadStream) bits zero (raiseCode c) r) :
    s.parse zero body write store = (write (s.withReader (payloadBase s.nalu) (payloadSize s.nalu) s.payloadStream
      { rest := rest, p := bits.length }) r).finish c false := by
  have e := raises rest 0 false false
  rw [← hb, Nat.zero_add] at e
  exact State.parse_error ready e

end

/-! ## A link to no SPS (R241) -/

theorem ppsSyntax_brokenLink {cap : Nat} {sps : Table Sps} {id : BitVec 8} {sps_id : BitVec 5}
    (absent : (spsSlot sps sps_id.toNat).valid = false) :
    Leads (ppsSyntax cap sps) (ueField id ++ ueField sps_id) {} (raiseCode .brokenLink) { id := id, sps_id := sps_id } := by
  unfold ppsSyntax
  refine ((ueField_code (x := id) (by omega) (by omega)).leads <|
    (ueField_code (x := sps_id) (by omega) (by omega)).leads (b2 := []) <| Leads.look ?_).congr (by simp) rfl
  simp only [BitVec.ofNat_toNat, BitVec.setWidth_eq]
  exact Leads.refused absent

/-- Settles O54: the check of the link is the first after the two ids. -/
theorem ppsBrokenLink : Obligations.PpsBrokenLink := fun s _ _ _ ready absent hb =>
  congrArg Host.Outcome.next <| State.parse_raises (body := fun _ => ppsSyntax s.params.sgidCap s.sps) ready hb
    (ppsSyntax_brokenLink absent)

end Sys2Proof.Machine
end

section
/-! The parse of a slice header as a whole (44_slice.md R320): what it ends in over the coded bits of a header, where it
stops when its parameter sets are missing or unsupported (R270, R271), and what the record holds where it ends well. -/

namespace Sys2Proof.Machine

/-! ## Coded bits -/

/-- Settles O56: the parse reads the coded bits back and measures the reader where they end. -/
theorem parseSliceHdr : Obligations.ParseSliceHdr := by
  intro s r f rest x ready vp vq ext codable hb
  have runs : Runs (sliceSyntax s.nalu s.sps s.pps s.payloadStream) 0 (r.bits x f) rest () {}
      (r.coded x f s.payloadStream) false :=
    sliceSyntax_runs (x := x) rfl rfl vp vq ext codable
  exact congrArg Host.Outcome.next (State.parse_runs (body := sliceSyntax s.nalu s.sps s.pps) ready hb runs)

/-! ## Links that fail (R270, R271) -/

section
variable {x : SliceContext} {m : Parse Slice Unit}

/-- The checks of the links, then `m`. -/
def SliceContext.checked (x : SliceContext) (m : Parse Slice Unit) : Parse Slice Unit := do
  require x.pps.valid .brokenLink
  require x.sps.valid .brokenLink
  require (x.sps.extension_type != .other) .brokenData
  m

theorem SliceContext.checked_noPps (hp : x.pps.valid = false) : x.checked m = raiseCode .brokenLink := by
  rw [checked, hp]; rfl

theorem SliceContext.checked_noSps (hp : x.pps.valid = true) (hq : x.sps.valid = false) :
    x.checked m = raiseCode .brokenLink := by
  rw [checked, hp, hq]; rfl

theorem SliceContext.checked_other (hp : x.pps.valid = true) (hq : x.sps.valid = true)
    (ext : x.sps.extension_type = .other) : x.checked m = raiseCode .brokenData := by
  rw [checked, hp, hq, ext]; rfl

/-- After the three first fields come the checks of what they name. -/
theorem sliceSyntax_checks {sps : Table Sps} {pps : Table Pps} {st : Stream} {first : BitVec 32} {type : BitVec 4}
    {pps_id : BitVec 8} (hp : ppsSlot pps pps_id.toNat = x.pps) (hq : spsSlot sps x.pps.sps_id.toNat = x.sps)
    (hf : ueOk first = true) (ht : type.toNat ≤ 9) :
    Leads (sliceSyntax x.nalu sps pps st) (ueField first ++ ueField type ++ ueField pps_id) {}
      (x.checked do sliceHeader x.nalu x.pps x.sps; sliceEnd st)
      { first_mb_in_slice := first, slice_type := type, pps_id := pps_id } := by
  unfold sliceSyntax
  refine ((ueOk_code hf).leads <| (ueField_code (x := type) (by omega) (by omega)).leads <|
    (ueField_code (x := pps_id) (by omega) (by omega)).leads (b2 := []) <| Leads.look ?_).congr (by simp) rfl
  simp only [BitVec.ofNat_toNat, BitVec.setWidth_eq, hp, hq]
  exact Leads.refl _

end

/-- A header whose links do not hold ends the command after its three first fields. -/
theorem exec_parseSliceHdr_refused {s : State} {first : BitVec 32} {type : BitVec 4} {pps_id : BitVec 8} {c : Code}
    {rest : List Bool} (ready : naluReady s.nalu = true) (hf : ueOk first = true) (ht : type.toNat ≤ 9)
    (hb : s.payloadBits = ueField first ++ ueField type ++ ueField pps_id ++ rest)
    (refused : ∀ m, (s.sliceContext pps_id).checked m = raiseCode c) :
    exec .parseSliceHdr s = .next
      { s.parsed (ueField first ++ ueField type ++ ueField pps_id).length false c false with
        slice := { first_mb_in_slice := first, slice_type := type, pps_id := pps_id } } := by
  have checks := sliceSyntax_checks (x := s.sliceContext pps_id) (st := s.payloadStream) rfl rfl hf ht
  rw [refused] at checks
  exact congrArg Host.Outcome.next (State.parse_raises (body := sliceSyntax s.nalu s.sps s.pps) ready hb checks)

/-- Settles O57: the first check that does not hold gives the code. -/
theorem sliceBroken : Obligations.SliceBroken := fun _ _ _ _ _ ready hf ht hb =>
  ⟨fun hp => exec_parseSliceHdr_refused ready hf ht hb fun _ => SliceContext.checked_noPps hp,
    fun hp hq => exec_parseSliceHdr_refused ready hf ht hb fun _ => SliceContext.checked_noSps hp hq,
    fun hp hq ext => exec_parseSliceHdr_refused ready hf ht hb fun _ => SliceContext.checked_other hp hq ext⟩

/-! ## A parse that ends well -/

section
variable {R α β : Type} {P Q : R → Prop}

/-- What follows a check may use that it held. -/
theorem Ensures.required {b : Bool} {c : Code} {k : Unit → Parse R α} (h : b = true → Ensures P (k ()) Q) :
    Ensures P (Machine.require b c >>= k) Q := by
  cases b
  · rintro _ _ _ - ⟨⟩
  · exact h rfl

theorem Ensures.imp {P' Q' : R → Prop} {m : Parse R α} (h : Ensures P' m Q') (hp : ∀ r, P r → P' r)
    (hq : ∀ r, Q' r → Q r) : Ensures P m Q :=
  fun st a e h0 hm => hq _ (h st a e (hp _ h0) hm)

/-- Where the parse ends well, the reader and the record it leaves have `Q`. -/
def Leaves {R α : Type} (m : Parse R α) (Q : PState R → Prop) : Prop := ∀ st a e, m st = .ok a e → Q e

/-- What the last part leaves. -/
theorem Leaves.last {m : Parse R α} {k : α → Parse R β} {Q : PState R → Prop} (h : ∀ a, Leaves (k a) Q) :
    Leaves (m >>= k) Q := by
  intro st b e hb
  cases hm : m st with
  | ok a e1 => rw [Parse.bind_ok hm] at hb; exact h a e1 b e hb
  | error c e1 => rw [Parse.bind_error hm] at hb; cases hb

/-- A parse command that ends with `OK` has run its body to the end. -/
theorem State.parse_succeeds {s : State} {zero : R} {body : Stream → Parse R Unit} {write store : State → R → State}
    {cs : List Code} {w : Bool} (sound : Sound cs w (body s.payloadStream)) (ho : Code.ok ∉ cs)
    (hc : (s.parse zero body write store).status.code = .ok) :
    ∃ e, body s.payloadStream (s.parseStart zero) = .ok () e ∧
      s.parse zero body write store = (store (write (s.withReader (payloadBase s.nalu) (payloadSize s.nalu)
        s.payloadStream e.rd) e.out) e.out).finish .ok e.rd.warn := by
  have hr := sound.reader_at (zero := zero)
  rcases State.parse_cases s zero body write store with ⟨-, h⟩ | ⟨-, e, hb, h⟩ | ⟨-, c, e, hb, h⟩
  · rw [h] at hc; cases hc
  · exact ⟨e, hb, h⟩
  · rw [hb] at hr
    obtain ⟨-, hmem, -⟩ := hr
    rw [h] at hc
    exact absurd (hc.subst (motive := (· ∈ cs)) hmem) ho

end

/-! ## The derived fields (R272, R318) -/

/-- The parameter sets the header names are stored, and their extension is supported (R270, R271). -/
def SliceContext.Supported (x : SliceContext) : Prop :=
  x.pps.valid = true ∧ x.sps.valid = true ∧ x.sps.extension_type ≠ .other

/-- The header names the PPS `id`, and its `max_pic_num` is derived from the SPS `q` (R272). -/
def Slice.Counts (id : BitVec 8) (q : Sps) (r : Slice) : Prop :=
  r.pps_id = id ∧ r.max_pic_num =
    BitVec.ofNat 32 (if r.field_pic_flag then 2 * q.max_frame_num.toNat else q.max_frame_num.toNat)

theorem sliceFrameNum_counts (id : BitVec 8) (q : Sps) :
    Ensures (·.pps_id = id) (sliceFrameNum q) (Slice.Counts id q) :=
  .bind (Keeps.ensures (.whenever (.bind (.elemU fun _ _ h => h) fun _ => .look fun _ _ => .require _ _)))
    fun _ => .bind (Keeps.ensures (.elemU fun _ _ h => h)) fun _ =>
    .bind (Keeps.ensures (.whenever (.elemFlag fun _ _ h => h))) fun _ => .bind (.put fun _ h => ⟨h, rfl⟩) fun _ =>
    Keeps.ensures (.look fun _ _ => .whenever (.elemFlag fun _ _ h => h))

/-- Rows 5 to 22 and the end of the header leave the id, `field_pic_flag` and `max_pic_num` alone. -/
theorem sliceRows_counts (x : SliceContext) (id : BitVec 8) (st : Stream) :
    Ensures (·.pps_id = id) (do sliceHeader x.nalu x.pps x.sps; sliceEnd st) (Slice.Counts id x.sps) := by
  refine ((sliceFrameNum_counts id x.sps).bind fun _ => Keeps.ensures ?_).bind fun _ =>
    Keeps.ensures (.bind .reader fun _ => .put fun _ h => h)
  unfold slicePicOrder sliceRefCounts sliceModification sliceWeights sliceQuant sliceChangeCycle
  repeat' first | assumption | intro _ | with_reducible constructor

/-- The checks are of the parameter sets that the rows after them use (R270, R271). -/
theorem sliceSyntax_resolves (s : State) (st : Stream) :
    Ensures (· = {}) (sliceSyntax s.nalu s.sps s.pps st) fun r =>
      ∃ id, r.Counts id (s.sliceContext id).sps ∧ (s.sliceContext id).Supported :=
  .skip fun _ => .skip fun _ => .skip fun _ => .look fun r _ => .required fun vp => .required fun vq =>
    .required fun ext => (sliceRows_counts (s.sliceContext r.pps_id) r.pps_id st).imp (fun _ h => h ▸ rfl)
      fun _ h => ⟨r.pps_id, h, vp, vq, bne_iff_ne.1 ext⟩

/-- The measures of the header are the reader's (R318). -/
def SliceMeasured (st : Stream) (e : PState Slice) : Prop :=
  e.out.header_size = BitVec.ofNat 32 (rawPos st e.rd.p) ∧
  e.out.n_emulation_prevention_bytes = BitVec.ofNat 32 (epbCount st e.rd.p)

theorem sliceEnd_measures (st : Stream) : Leaves (sliceEnd st) (SliceMeasured st) := by
  rintro _ _ _ ⟨⟩
  exact ⟨rfl, rfl⟩

theorem sliceSyntax_measures (n : Nalu) (sps : Table Sps) (pps : Table Pps) (st : Stream) :
    Leaves (sliceSyntax n sps pps st) (SliceMeasured st) :=
  .last fun _ => .last fun _ => .last fun _ => .last fun _ => .last fun _ => .last fun _ => .last fun _ =>
    .last fun _ => sliceEnd_measures st

/-- The reader's place in the raw payload, as the word a register holds. -/
theorem ofNat_rawPos (st : Stream) (p : Nat) :
    BitVec.ofNat 32 (rawPos st p) = BitVec.ofNat 32 p + 8 * BitVec.ofNat 32 (epbCount st p) := by
  rw [rawPos, BitVec.ofNat_add, BitVec.ofNat_mul]; rfl

/-- Settles O58: the rows after `field_pic_flag` leave what it derives alone, and the end of the header measures the
reader the command leaves. -/
theorem derivedSliceFields : Obligations.DerivedSliceFields := by
  intro s t h hc x
  obtain rfl := Host.Outcome.next.inj h
  have sound : Sound [.brokenLink, .brokenData, .error] false (sliceSyntax s.nalu s.sps s.pps s.payloadStream) :=
    sliceSyntax_sound (by decide) (by decide) (by decide) _ _ _ _
  obtain ⟨e, hb, he⟩ := State.parse_succeeds (body := sliceSyntax s.nalu s.sps s.pps) sound (by decide) hc
  obtain ⟨id, ⟨rfl, hn⟩, vp, vq, ext⟩ := sliceSyntax_resolves s _ _ _ _ rfl hb
  obtain ⟨hsize, hepb⟩ := sliceSyntax_measures _ _ _ _ _ _ _ hb
  subst x
  rw [he]
  exact ⟨vp, vq, ext, hn, hsize.trans (ofNat_rawPos _ _), hepb⟩

end Sys2Proof.Machine
end

section
/-! The parse of SEI messages as a whole (45_sei.md R360): what it ends in over the coded bits of a list of messages, and
where a first message stops that wants an SPS which is not stored (R351, R352, R353). -/

namespace Sys2Proof.Machine

/-! ## Coded bits -/

/-- Settles O59: the loop reads the coded messages back, from none of them done. -/
theorem parseSei : Obligations.ParseSei := by
  intro s cs rest x ready nonempty room codable hb
  have runs : Runs (seiLoop s.sps s.last_sps s.params.seiCap) 0 (seiBits x cs) rest () {} (seiCoded x cs)
      (cs.any fun c => padWarns c.pad) :=
    seiLoop_runs (x := x) cs nonempty [] rfl rfl room codable
  exact congrArg Host.Outcome.next
    (State.parse_runs (body := fun _ => seiLoop s.sps s.last_sps s.params.seiCap) ready hb runs)

/-! ## A part that stops with a code -/

section
variable {R A α β : Type} {r r' : R} {c : Code} {bits : List Bool}

/-- What follows the part is not run. -/
theorem Leads.stops {m : Parse R α} {k : α → Parse R β} (h : Leads m bits r (raiseCode c) r') :
    Leads (m >>= k) bits r (raiseCode c) r' := fun rest p f w => Parse.bind_error (h rest p f w)

/-- The sub-record is kept as far as the part has filled it (60_exceptions.md R405). -/
theorem Leads.within {get : R → A} {set : R → A → R} {m : Parse A α} {a : A}
    (h : Leads m bits (get r) (raiseCode c) a) : Leads (Machine.within get set m) bits r (raiseCode c) (set r a) :=
  fun rest p f w => by simp only [Machine.within, h rest p f w, raiseCode]

theorem Leads.reader {k : Reader → Parse R α} {m' : Parse R α} (h : ∀ rd, Leads (k rd) bits r m' r') :
    Leads (Machine.reader >>= k) bits r m' r' := fun rest p f w => h _ rest p f w

end

/-! ## A first message without its SPS (R351, R352, R353) -/

section
variable {sps : Table Sps} {last_sps : BitVec 6} {c : Code} {type size : BitVec 32} {m : SeiMsg} {bits : List Bool}

theorem seiCode_codes (v : Nat) {r : SeiMsg} : Codes seiCode (seiCodeBits v) v r r false :=
  fun rest p => seiCode_runs v p rest

/-- The payload stops, wherever it begins and whatever the bits left are. -/
theorem seiMessage_stops (payload : ∀ start left, Leads (seiPayload sps last_sps start left type.toNat) bits
      { payload_type := type, payload_size := size } (raiseCode c) m) :
    Leads (seiMessage sps last_sps) (seiCodeBits type.toNat ++ seiCodeBits size.toNat ++ bits) {} (raiseCode c) m := by
  unfold seiMessage
  rw [List.append_assoc]
  refine (seiCode_codes _).leads <| Leads.required (decide_eq_true type.isLt) <| (seiCode_codes _).leads <|
    Leads.required (decide_eq_true size.isLt) <| Leads.putThen <| Leads.reader fun rd => Leads.stops ?_
  simpa only [BitVec.ofNat_toNat, BitVec.setWidth_eq] using payload _ _

/-- A first message that stops stands in the list and is not counted. -/
theorem seiLoop_stops {room : Nat} (h : 1 ≤ room) (message : Leads (seiMessage sps last_sps) bits {} (raiseCode c) m) :
    Leads (seiLoop sps last_sps room) bits {} (raiseCode c) (firstMessageFailed m) := by
  obtain ⟨room, rfl⟩ := Nat.exists_eq_add_of_le' h
  exact Leads.look <| Leads.stops <| Leads.within message

theorem bufferingPeriod_brokenLink {sps_id : BitVec 5} (absent : (spsSlot sps sps_id.toNat).valid = false) :
    Leads (bufferingPeriod sps) (ueField sps_id) {} (raiseCode .brokenLink) { sps_id := sps_id } := by
  refine ((ueField_code (x := sps_id) (by omega) (by omega)).leads (b2 := []) <| Leads.look ?_).congr
    (List.append_nil _) rfl
  simp only [BitVec.ofNat_toNat, BitVec.setWidth_eq]
  exact Leads.refused absent

/-- The kinds of payload that want the last stored SPS read no bit without one. -/
theorem seiPayload_noLastSps (htype : type = 1 ∨ type = 6) (noSps : noLastSps last_sps = true) (start left : Nat) :
    Leads (seiPayload sps last_sps start left type.toNat) [] { payload_type := type, payload_size := size }
      (raiseCode .brokenLink) { payload_type := type, payload_size := size, kind := kindOf type.toNat } := by
  have absent : (!noLastSps last_sps) = false := by rw [noSps]; rfl
  rcases htype with rfl | rfl
  · exact Leads.putThen <| Leads.within (m := picTiming sps last_sps) (Leads.refused absent)
  · exact Leads.putThen <| Leads.within (m := recoveryPoint sps last_sps) (Leads.refused absent)

end

/-- A first message whose payload stops with a code ends the command with it. -/
theorem exec_parseSei_stops {s : State} {c : Code} {type size : BitVec 32} {m : SeiMsg} {bits rest : List Bool}
    (ready : naluReady s.nalu = true) (room : 1 ≤ s.params.seiCap)
    (hb : s.payloadBits = seiCodeBits type.toNat ++ seiCodeBits size.toNat ++ bits ++ rest)
    (payload : ∀ start left, Leads (seiPayload s.sps s.last_sps start left type.toNat) bits
      { payload_type := type, payload_size := size } (raiseCode c) m) :
    exec .parseSei s = .next { s.parsed (seiCodeBits type.toNat ++ seiCodeBits size.toNat ++ bits).length false c false with
      sei := firstMessageFailed m } :=
  congrArg Host.Outcome.next <| State.parse_raises (body := fun _ => seiLoop s.sps s.last_sps s.params.seiCap) ready hb
    (seiLoop_stops room (seiMessage_stops payload))

/-- Settles O60: each of the three payloads checks its SPS before it reads what depends on it. -/
theorem seiBrokenLink : Obligations.SeiBrokenLink := by
  intro s size rest ready room
  constructor
  · intro sps_id absent hb
    exact exec_parseSei_stops (type := 0) ready room hb fun _ _ =>
      Leads.putThen <| Leads.within (bufferingPeriod_brokenLink absent)
  · intro type htype noSps hb
    have stops := exec_parseSei_stops (bits := []) (rest := rest) ready room (by rwa [List.append_nil])
      (seiPayload_noLastSps (size := size) htype noSps)
    rwa [List.append_nil] at stops

end Sys2Proof.Machine
end

section
/-! The parameter-set store (46_store.md R370 to R376): what a command leaves of the slots and the pointers, and that every
one it writes holds a valid record under its own id. -/

namespace Sys2Proof.Machine

/-! ## What every command leaves alone -/

/-- A command of each family writes the registers and records of its family alone. -/
theorem exec_frame {i : Instr} {s t : State} (h : exec i s = .next t) : t = { s with
    status := t.status, result := t.result
    br_base := if parses i ∨ i = .brInit then t.br_base else s.br_base
    br_size := if parses i ∨ i = .brInit then t.br_size else s.br_size
    br_pos := t.br_pos, br_epb := t.br_epb, br_fail := t.br_fail
    nalu := if identifies i then t.nalu else s.nalu
    sps := if parsesSps i then t.sps else s.sps
    last_sps := if parsesSps i then t.last_sps else s.last_sps
    pps := if i = .parsePps then t.pps else s.pps
    last_pps := if i = .parsePps then t.last_pps else s.last_pps
    wsps := t.wsps, wpps := t.wpps, slice := t.slice, sei := t.sei } := by
  cases i with
  | parseSps | parseSubsetSps | parsePps | parseSliceHdr | parseSei => rw [parseFrame _ s t rfl h]; rfl
  | scanStartCode => rw [exec_scanStartCode_frame h]; rfl
  | identifyAnnexb | identifyAvc => rw [exec_identifies_frame rfl h]; rfl
  | brInit => rw [(bitReaderFrame _ s t (.inr rfl) h).1]; rfl
  | _ =>
    obtain ⟨frame, window⟩ := bitReaderFrame _ s t (.inl rfl) h
    obtain ⟨base, size⟩ := window (by simp)
    rw [frame, base, size]; rfl

section
variable {i : Instr} {s t : State} (h : exec i s = .next t)
include h

theorem exec_keepsMem : t.mem = s.mem := by rw [exec_frame h]

theorem exec_keepsNalu (hi : identifies i = false) : t.nalu = s.nalu := by
  simpa [hi] using congrArg State.nalu (exec_frame h)

theorem exec_keepsWindow (hi : parses i = false) (hne : i ≠ .brInit) : t.br_base = s.br_base ∧ t.br_size = s.br_size := by
  have base := congrArg State.br_base (exec_frame h)
  have size := congrArg State.br_size (exec_frame h)
  simp only [hi, hne] at base size
  exact ⟨base, size⟩

theorem exec_keepsSps (hi : parsesSps i = false) : t.sps = s.sps ∧ t.last_sps = s.last_sps := by
  have slots := congrArg State.sps (exec_frame h)
  have last := congrArg State.last_sps (exec_frame h)
  simp only [hi] at slots last
  exact ⟨slots, last⟩

theorem exec_keepsPps (hi : i ≠ .parsePps) : t.pps = s.pps ∧ t.last_pps = s.last_pps := by
  have slots := congrArg State.pps (exec_frame h)
  have last := congrArg State.last_pps (exec_frame h)
  simp only [hi] at slots last
  exact ⟨slots, last⟩

end

/-! ## A parse that stores -/

theorem spsSyntax_valid (v : Bool) : Ensures (· = {}) (spsSyntax v) fun r => r.valid = true :=
  .skip fun _ => .skip fun _ => .put fun _ _ => rfl

theorem subsetSpsSyntax_valid : Ensures (· = {}) subsetSpsSyntax fun r => r.valid = true :=
  .skip fun _ => .skip fun _ => .skip fun _ => .put fun _ _ => rfl

theorem ppsSyntax_valid (cap : Nat) (sps : Table Sps) : Ensures (· = {}) (ppsSyntax cap sps) fun r => r.valid = true :=
  .skip fun _ => .skip fun _ => .skip fun _ => .skip fun _ => .skip fun _ => .skip fun _ => .skip fun _ =>
    .put fun _ _ => rfl

/-- `WSPS` is valid and stored, and nothing else (R370). -/
def State.StoresWsps (s t : State) : Prop :=
  t.wsps.valid = true ∧ t.sps = Table.write s.sps {} t.wsps.id.toNat t.wsps ∧ t.last_sps = t.wsps.id.setWidth 6

/-- `WPPS` is valid and stored, and nothing else (R371). -/
def State.StoresWpps (s t : State) : Prop :=
  t.wpps.valid = true ∧ t.pps = Table.write s.pps {} t.wpps.id.toNat t.wpps ∧ t.last_pps = t.wpps.id.setWidth 9

section
variable {i : Instr} {s t : State} (h : exec i s = .next t)
include h

theorem exec_storesWsps (hi : parsesSps i = true) (hc : t.status.code = .ok) : s.StoresWsps t := by
  have he : Code.error ∈ [Code.error] := by decide
  cases i with
  | parseSps v =>
    obtain rfl := Host.Outcome.next.inj h
    obtain ⟨rd, out, hv, e⟩ := State.parse_ensures (spsSyntax_sound he v) (by decide) (spsSyntax_valid v) hc
    rw [e]; exact ⟨hv, rfl, rfl⟩
  | parseSubsetSps =>
    obtain rfl := Host.Outcome.next.inj h
    obtain ⟨rd, out, hv, e⟩ := State.parse_ensures (subsetSpsSyntax_sound he) (by decide) subsetSpsSyntax_valid hc
    rw [e]; exact ⟨hv, rfl, rfl⟩
  | _ => cases hi

theorem exec_storesWpps (hi : i = .parsePps) (hc : t.status.code = .ok) : s.StoresWpps t := by
  subst hi
  obtain rfl := Host.Outcome.next.inj h
  obtain ⟨rd, out, hv, e⟩ := State.parse_ensures (w := false)
    (ppsSyntax_sound (cs := [.brokenLink, .error]) (by decide) (by decide) _ _) (by decide) (ppsSyntax_valid _ _) hc
  rw [e]; exact ⟨hv, rfl, rfl⟩

/-- A parse that fails stores nothing (R376). -/
theorem exec_failed_keepsSps (hi : parsesSps i = true) (hc : t.status.code ≠ .ok) :
    t.sps = s.sps ∧ t.last_sps = s.last_sps := by
  cases i with
  | parseSps | parseSubsetSps =>
    obtain rfl | ⟨rd, out, rfl | ⟨c, rfl⟩⟩ := State.parse_ends h
    · exact ⟨rfl, rfl⟩
    · exact absurd rfl hc
    · exact ⟨rfl, rfl⟩
  | _ => cases hi

theorem exec_failed_keepsPps (hi : i = .parsePps) (hc : t.status.code ≠ .ok) :
    t.pps = s.pps ∧ t.last_pps = s.last_pps := by
  subst hi
  obtain rfl | ⟨rd, out, rfl | ⟨c, rfl⟩⟩ := State.parse_ends h
  · exact ⟨rfl, rfl⟩
  · exact absurd rfl hc
  · exact ⟨rfl, rfl⟩

end

theorem Sps.ne_zero {w : Sps} (h : w.valid = true) : w ≠ {} := fun e => by rw [e] at h; cases h

theorem Pps.ne_zero {w : Pps} (h : w.valid = true) : w ≠ {} := fun e => by rw [e] at h; cases h

/-- Settles O48: a parse that ends with `OK` writes its valid record into the slot of its id. -/
theorem successStores : Obligations.SuccessStores := by
  refine fun i s t h hc => ⟨fun hi => ?_, fun hi => ?_⟩
  · obtain ⟨valid, slots, last⟩ := exec_storesWsps h hi hc
    exact ⟨valid, slots ▸ Table.read_write_of_ne (Sps.ne_zero valid), last ▸ BitVec.toNat_setWidth_of_le (by decide),
      fun id hid => slots ▸ Table.read_write_other hid⟩
  · obtain ⟨valid, slots, last⟩ := exec_storesWpps h hi hc
    exact ⟨valid, slots ▸ Table.read_write_of_ne (Pps.ne_zero valid), last ▸ BitVec.toNat_setWidth_of_le (by decide),
      fun id hid => slots ▸ Table.read_write_other hid⟩

/-! ## The ways a command leaves a store -/

/-- A command leaves the slots of a store and its pointer alone, or it stores a valid record under its own id and points to
it. -/
inductive StoreEnds {α : Type} [DecidableEq α] {n m : Nat} (zero : α) (valid : α → Bool) (key : α → BitVec n)
    (t : Table α) (last : BitVec m) : Table α → BitVec m → Prop where
  | kept : StoreEnds zero valid key t last t last
  | stored (w : α) (hv : valid w = true) :
    StoreEnds zero valid key t last (Table.write t zero (key w).toNat w) ((key w).setWidth m)

theorem exec_spsEnds {i : Instr} {s t : State} (h : exec i s = .next t) :
    StoreEnds {} Sps.valid Sps.id s.sps s.last_sps t.sps t.last_sps := by
  cases hi : parsesSps i with
  | false =>
    obtain ⟨slots, last⟩ := exec_keepsSps h hi
    rw [slots, last]; exact .kept
  | true =>
    by_cases hc : t.status.code = .ok
    · obtain ⟨valid, slots, last⟩ := exec_storesWsps h hi hc
      rw [slots, last]; exact .stored _ valid
    · obtain ⟨slots, last⟩ := exec_failed_keepsSps h hi hc
      rw [slots, last]; exact .kept

theorem exec_ppsEnds {i : Instr} {s t : State} (h : exec i s = .next t) :
    StoreEnds {} Pps.valid Pps.id s.pps s.last_pps t.pps t.last_pps := by
  by_cases hi : i = .parsePps
  · by_cases hc : t.status.code = .ok
    · obtain ⟨valid, slots, last⟩ := exec_storesWpps h hi hc
      rw [slots, last]; exact .stored _ valid
    · obtain ⟨slots, last⟩ := exec_failed_keepsPps h hi hc
      rw [slots, last]; exact .kept
  · obtain ⟨slots, last⟩ := exec_keepsPps h hi
    rw [slots, last]; exact .kept

section
variable {α : Type} [DecidableEq α] {n m : Nat} {zero : α} {valid : α → Bool} {key : α → BitVec n} {t t' : Table α}
  {last last' : BitVec m}

/-- A valid slot stays valid: what is stored over it is valid too. -/
theorem StoreEnds.valid_read (h : StoreEnds zero valid key t last t' last') (hz : valid zero = false) {id : Nat}
    (hid : valid (Table.read t zero id) = true) : valid (Table.read t' zero id) = true := by
  cases h with
  | kept => exact hid
  | stored w hv =>
    have hne : w ≠ zero := fun e => by rw [e, hz] at hv; cases hv
    by_cases e : id = (key w).toNat
    · subst e; rwa [Table.read_write_of_ne hne]
    · rwa [Table.read_write_other e]

end

/-- Settles O49: by the ways a command leaves each store. -/
theorem noCommandClearsASlot : Obligations.NoCommandClearsASlot := fun _ _ _ h _ =>
  ⟨(exec_spsEnds h).valid_read rfl, (exec_ppsEnds h).valid_read rfl⟩

end Sys2Proof.Machine
end

section
/-! A parse command run again on the state it left leaves that state (46_store.md R375). -/

namespace Sys2Proof.Machine

section
variable {R : Type} {P : R → Prop} {zero : R} {body : State → Stream → Parse R Unit} {write store : State → R → State}
  {s t : State} {e : PState R}

/-- A parse in the state `t` reads what it reads in `s`. -/
def State.SameSource (body : State → Stream → Parse R Unit) (s t : State) : Prop :=
  t.nalu = s.nalu ∧ t.mem = s.mem ∧ body t = body s

/-- `t` with the reader over the payload of `s` and the parsed record written. -/
def State.writeParsed (s : State) (write : State → R → State) (t : State) (e : PState R) : State :=
  write (t.withReader (payloadBase s.nalu) (payloadSize s.nalu) s.payloadStream e.rd) e.out

theorem State.SameSource.payloadStream (h : s.SameSource body t) : t.payloadStream = s.payloadStream := by
  obtain ⟨hn, hm, -⟩ := h
  rw [State.payloadStream, hn, hm, State.payloadStream]

theorem State.SameSource.parseStart (h : s.SameSource body t) : t.parseStart zero = s.parseStart zero := by
  rw [State.parseStart, h.payloadStream, State.parseStart]

theorem State.SameSource.parse_ok (h : s.SameSource body t) (ready : naluReady s.nalu = true)
    (hb : body s s.payloadStream (s.parseStart zero) = .ok () e) :
    t.parse zero (body t) write store = (store (s.writeParsed write t e) e.out).finish .ok e.rd.warn := by
  have stream := h.payloadStream
  have start := h.parseStart (zero := zero)
  obtain ⟨hn, -, hbody⟩ := h
  rw [← hbody, ← stream, ← start] at hb
  rw [State.parse_ok (hn ▸ ready) hb, hn, stream, State.writeParsed]

theorem State.SameSource.parse_error {c : Code} (h : s.SameSource body t) (ready : naluReady s.nalu = true)
    (hb : body s s.payloadStream (s.parseStart zero) = .error c e) :
    t.parse zero (body t) write store = (s.writeParsed write t e).finish c e.rd.warn := by
  have stream := h.payloadStream
  have start := h.parseStart (zero := zero)
  obtain ⟨hn, -, hbody⟩ := h
  rw [← hbody, ← stream, ← start] at hb
  rw [State.parse_error (hn ▸ ready) hb, hn, stream, State.writeParsed]

/-- A parse is idempotent where the state it leaves is one it reads the same in, and where to write the record once more,
and to store it, changes nothing. -/
theorem State.parse_parse (ensures : Ensures (· = zero) (body s s.payloadStream) P)
    (failed : ∀ e c, let t := (s.writeParsed write s e).finish c e.rd.warn
      s.SameSource body t ∧ (s.writeParsed write t e).finish c e.rd.warn = t)
    (stored : ∀ e, P e.out → let t := (store (s.writeParsed write s e) e.out).finish .ok e.rd.warn
      s.SameSource body t ∧ (store (s.writeParsed write t e) e.out).finish .ok e.rd.warn = t)
    (ht : s.parse zero (body s) write store = t) : t.parse zero (body t) write store = t := by
  subst ht
  rcases State.parse_cases s zero (body s) write store with ⟨unready, h⟩ | ⟨ready, e, hb, h⟩ | ⟨ready, c, e, hb, h⟩
  · rw [h]
    exact State.parse_notReady unready
  · obtain ⟨same, again⟩ := stored e (ensures _ _ _ rfl hb)
    rw [h]
    exact (same.parse_ok ready hb).trans again
  · obtain ⟨same, again⟩ := failed e c
    rw [h]
    exact (same.parse_error ready hb).trans again

end

/-- What the parses that store nothing want of their record. -/
theorem ensures_true {R α : Type} {P : R → Prop} (m : Parse R α) : Ensures P m fun _ => True := fun _ _ _ _ _ => trivial

/-- A second store of a valid record writes what is there. -/
theorem State.parseSps_parseSps {s t : State} {body : Stream → Parse Sps Unit}
    (valid : Ensures (· = {}) (body s.payloadStream) fun r => r.valid = true)
    (h : s.parse {} body (fun s w => { s with wsps := w }) State.storeSps = t) :
    t.parse {} body (fun s w => { s with wsps := w }) State.storeSps = t := by
  refine State.parse_parse (body := fun _ => body) valid (fun _ _ => ⟨⟨rfl, rfl, rfl⟩, rfl⟩)
    (fun e hv => ⟨⟨rfl, rfl, rfl⟩, ?_⟩) h
  simp only [State.writeParsed, State.storeSps, State.withReader, State.finish,
    Table.write_write_of_ne (Sps.ne_zero hv)]

/-- Settles O45: each parse command reads the same in the state it leaves, and a second store writes what is there. -/
theorem parseIsIdempotent : Obligations.ParseIsIdempotent := by
  intro i s t hi h
  cases i with
  | parseSps v => exact congrArg Host.Outcome.next (State.parseSps_parseSps (spsSyntax_valid v) (Host.Outcome.next.inj h))
  | parseSubsetSps =>
    exact congrArg Host.Outcome.next (State.parseSps_parseSps subsetSpsSyntax_valid (Host.Outcome.next.inj h))
  | parsePps =>
    refine congrArg Host.Outcome.next <| State.parse_parse (body := fun u _ => ppsSyntax u.params.sgidCap u.sps)
      (ppsSyntax_valid _ _) (fun _ _ => ⟨⟨rfl, rfl, rfl⟩, rfl⟩) (fun e hv => ⟨⟨rfl, rfl, rfl⟩, ?_⟩)
      (Host.Outcome.next.inj h)
    simp only [State.writeParsed, State.storePps, State.withReader, State.finish,
      Table.write_write_of_ne (Pps.ne_zero hv)]
  | parseSliceHdr =>
    exact congrArg Host.Outcome.next <| State.parse_parse (body := fun u => sliceSyntax u.nalu u.sps u.pps)
      (ensures_true _) (fun _ _ => ⟨⟨rfl, rfl, rfl⟩, rfl⟩) (fun _ _ => ⟨⟨rfl, rfl, rfl⟩, rfl⟩)
      (Host.Outcome.next.inj h)
  | parseSei =>
    exact congrArg Host.Outcome.next <| State.parse_parse (body := fun u _ => seiLoop u.sps u.last_sps u.params.seiCap)
      (ensures_true _) (fun _ _ => ⟨⟨rfl, rfl, rfl⟩, rfl⟩) (fun _ _ => ⟨⟨rfl, rfl, rfl⟩, rfl⟩)
      (Host.Outcome.next.inj h)
  | _ => cases hi

end Sys2Proof.Machine
end

section
/-! Every step keeps the invariants of the machine: the buffer in canonical form, the stores of parameter sets, the reader's
window within the buffer, the NALU record within it too and with the header of its type. -/

namespace Sys2Proof.Machine

/-! ## A store (46_store.md R370 to R376) -/

section
variable {α : Type} [DecidableEq α] {zero : α} {valid : α → Bool} {id : α → Nat} {cap : Nat} {t : Table α}

/-- An entry of an array after a write is the one written, or it was there before. -/
theorem Table.mem_write {d v : α} {i : Nat} {e : Nat × α} (h : e ∈ Table.write t d i v) : e = (i, v) ∨ e ∈ t := by
  induction t with
  | nil =>
    unfold Table.write at h
    split at h
    · exact .inr h
    · exact .inl (List.mem_singleton.1 h)
  | cons f t ih =>
    unfold Table.write at h
    split at h
    · split at h
      · exact .inr h
      · exact List.mem_cons.1 h
    · split at h
      · split at h
        · exact .inr (List.mem_cons_of_mem _ h)
        · exact (List.mem_cons.1 h).imp_right (List.mem_cons_of_mem _)
      · rcases List.mem_cons.1 h with rfl | h
        · exact .inr List.mem_cons_self
        · exact (ih h).imp_right (List.mem_cons_of_mem _)

theorem slotsOk_iff : slotsOk zero cap valid id t = true ↔
    Table.wf zero t = true ∧ Table.below cap t = true ∧ ∀ e ∈ t, valid e.2 = true ∧ id e.2 = e.1 := by
  simp [slotsOk, and_assoc]

/-- A valid record stored under its own id keeps the slots in order. -/
theorem slotsOk_write {w : α} (h : slotsOk zero cap valid id t = true) (hv : valid w = true) (hid : id w < cap) :
    slotsOk zero cap valid id (Table.write t zero (id w) w) = true := by
  obtain ⟨wf, below, own⟩ := slotsOk_iff.1 h
  refine slotsOk_iff.2 ⟨Table.wf_write wf, Table.below_write below hid, fun e he => ?_⟩
  rcases Table.mem_write he with rfl | he
  · exact ⟨hv, rfl⟩
  · exact own e he

/-- The pointer `last` is `none` exactly while nothing is stored, and else names a valid slot (R373). -/
def lastOk {m : Nat} (none : BitVec m) (zero : α) (valid : α → Bool) (t : Table α) (last : BitVec m) : Bool :=
  ((last == none) == t.isEmpty) && (last == none || valid (Table.read t zero last.toNat))

theorem lastSpsOk_eq (s : State) : lastSpsOk s = lastOk 0x3F {} Sps.valid s.sps s.last_sps := rfl

theorem lastPpsOk_eq (s : State) : lastPpsOk s = lastOk 0x1FF {} Pps.valid s.pps s.last_pps := rfl

/-- The pointer to a valid record just stored. -/
theorem lastOk_write {m i : Nat} {none last : BitVec m} {w : α} (hw : w ≠ zero) (hv : valid w = true)
    (hlast : last.toNat = i) (hne : last ≠ none) : lastOk none zero valid (Table.write t zero i w) last = true := by
  have stored : (Table.write t zero i w).isEmpty = false := List.isEmpty_eq_false_iff.2 (Table.write_ne_nil hw)
  simp [lastOk, stored, hne, hlast, Table.read_write_of_ne hw, hv]

section
variable {n m : Nat} {key : α → BitVec n} {t' : Table α} {last last' : BitVec m}
  (h : StoreEnds zero valid key t last t' last')
include h

theorem StoreEnds.slotsOk (hcap : 2 ^ n ≤ cap) (ok : slotsOk zero cap valid (fun a => (key a).toNat) t = true) :
    slotsOk zero cap valid (fun a => (key a).toNat) t' = true := by
  cases h with
  | kept => exact ok
  | stored w hv => exact slotsOk_write ok hv ((key w).isLt.trans_le hcap)

theorem StoreEnds.lastOk {none : BitVec m} (hz : valid zero = false) (hnm : n ≤ m) (hnone : 2 ^ n ≤ none.toNat)
    (ok : lastOk none zero valid t last = true) : lastOk none zero valid t' last' = true := by
  cases h with
  | kept => exact ok
  | stored w hv =>
    have hlast : ((key w).setWidth m).toNat = (key w).toNat := BitVec.toNat_setWidth_of_le hnm
    refine lastOk_write (fun e => ?_) hv hlast fun e => ?_
    · rw [e, hz] at hv; cases hv
    · have := (key w).isLt
      rw [e] at hlast
      omega

end
end

theorem storeOk_iff {s : State} : storeOk s = true ↔
    slotsOk {} Config.spsSlots Sps.valid (fun w => w.id.toNat) s.sps = true ∧
    slotsOk {} Config.ppsSlots Pps.valid (fun w => w.id.toNat) s.pps = true ∧
    lastOk 0x3F {} Sps.valid s.sps s.last_sps = true ∧ lastOk 0x1FF {} Pps.valid s.pps s.last_pps = true := by
  simp only [storeOk, Bool.and_eq_true, and_assoc, lastSpsOk_eq, lastPpsOk_eq]

theorem exec_storeOk {i : Instr} {s t : State} (h : exec i s = .next t) (ok : storeOk s = true) : storeOk t = true := by
  obtain ⟨sps, pps, lastSps, lastPps⟩ := storeOk_iff.1 ok
  exact storeOk_iff.2 ⟨(exec_spsEnds h).slotsOk (by decide) sps, (exec_ppsEnds h).slotsOk (by decide) pps,
    (exec_spsEnds h).lastOk rfl (by decide) (by decide) lastSps, (exec_ppsEnds h).lastOk rfl (by decide) (by decide) lastPps⟩

/-! ## The NALU record (41_nal_locator.md R141 to R147) -/

/-- The header of a NAL unit is that of its type (R141). -/
def Nalu.HeaderOk (n : Nalu) : Prop :=
  n.header_bytes = (if extendedType n.type then 4 else 1) ∧ (n.extension_type = .none ↔ extendedType n.type = false)

theorem naluOk_iff {n : Nalu} : naluOk n = true ↔
    (n.valid = true → n.base.toNat + n.offset.toNat + n.size.toNat ≤ Config.bufferBytes ∧ n.HeaderOk) := by
  have header : ((n.extension_type == .none) == !extendedType n.type) = true ↔
      (n.extension_type = .none ↔ extendedType n.type = false) := by
    rw [beq_iff_eq, Bool.eq_iff_iff, beq_iff_eq, Bool.not_eq_true']
  cases hv : n.valid with
  | false => simp [naluOk, hv]
  | true => simp only [naluOk, Nalu.HeaderOk, hv, ← header, Bool.not_true, Bool.false_or, Bool.and_eq_true,
      decide_eq_true_eq, beq_iff_eq, and_assoc, forall_const]

theorem naluOk_of_invalid {n : Nalu} (h : n.valid = false) : naluOk n = true := by
  simp [naluOk, h]

theorem withHeaderByte_headerOk {n : Nalu} {b : Byte} (h : extendedType (n.withHeaderByte b).type = false) :
    (n.withHeaderByte b).HeaderOk :=
  ⟨(if_neg (Bool.eq_false_iff.1 h)).symm, iff_of_true rfl h⟩

theorem withExtension_headerOk {n : Nalu} (h : extendedType n.type = true) (x : BitVec 24) :
    (n.withExtension x).HeaderOk := by
  unfold Nalu.withExtension
  split <;> simp [Nalu.HeaderOk, h]

theorem withExtension_valid_size (n : Nalu) (x : BitVec 24) :
    (n.withExtension x).valid = n.valid ∧ (n.withExtension x).size = n.size := by
  unfold Nalu.withExtension
  split <;> exact ⟨rfl, rfl⟩

section
variable {m : Memory} {n : Nalu}

/-- The ways the parse of a header ends: a unit that is too short fails; else the header has the length of its type. -/
theorem parseHeader_cases (m : Memory) (n : Nalu) : let n1 := n.withHeaderByte (m.byte (n.base + n.offset))
    parseHeader m n = (false, n) ∨ parseHeader m n = (false, n1) ∨ 1 ≤ n.size.toNat ∧
      (extendedType n1.type = false ∧ parseHeader m n = (true, n1) ∨
        extendedType n1.type = true ∧ ∃ x, parseHeader m n = (true, n1.withExtension x)) := by
  intro n1
  by_cases h0 : n.size = 0
  · exact .inl (parseHeader_empty h0)
  have nonempty : 1 ≤ n.size.toNat := Nat.pos_of_ne_zero fun e => h0 (BitVec.eq_of_toNat_eq e)
  cases hx : extendedType n1.type with
  | false =>
    have short : ¬(n1.type = 14 ∨ n1.type = 20) := fun e => by rw [extendedType_iff.2 e] at hx; cases hx
    exact .inr (.inr ⟨nonempty, .inl ⟨rfl, parseHeader_oneByte h0 rfl short⟩⟩)
  | true =>
    have long := extendedType_iff.1 hx
    by_cases h4 : n.size.toNat < 4
    · exact .inr (.inl (parseHeader_cut h0 rfl long h4))
    · exact .inr (.inr ⟨nonempty, .inr ⟨rfl, _, parseHeader_fourBytes h0 rfl long h4⟩⟩)

theorem parseHeader_valid_size (m : Memory) (n : Nalu) :
    (parseHeader m n).2.valid = n.valid ∧ (parseHeader m n).2.size = n.size := by
  rcases parseHeader_cases m n with e | e | ⟨-, ⟨-, e⟩ | ⟨-, x, e⟩⟩ <;> rw [e]
  · exact ⟨rfl, rfl⟩
  · exact ⟨rfl, rfl⟩
  · exact ⟨rfl, rfl⟩
  · exact withExtension_valid_size _ x

/-- A header that is parsed has a byte at least, and is that of its type. -/
theorem parseHeader_headerOk (h : (parseHeader m n).1 = true) :
    (parseHeader m n).2.HeaderOk ∧ 1 ≤ n.size.toNat := by
  rcases parseHeader_cases m n with e | e | ⟨nonempty, ⟨hx, e⟩ | ⟨hx, x, e⟩⟩ <;> rw [e] at h ⊢
  · cases h
  · cases h
  · exact ⟨withHeaderByte_headerOk hx, nonempty⟩
  · exact ⟨withExtension_headerOk hx x, nonempty⟩

end

theorem trimZeros_le (m : Memory) (a : Word) (k : Nat) : trimZeros m a k ≤ k := by
  induction k with
  | zero => exact Nat.le_refl 0
  | succ k ih =>
    rw [trimZeros]
    split
    · exact Nat.le_succ_of_le ih
    · exact Nat.le_refl _

/-- A NAL unit whose header is parsed, inside the first `size` bytes at its base. -/
structure Nalu.Inside (n : Nalu) (size : Word) : Prop where
  buffer : n.base.toNat + size.toNat ≤ Config.bufferBytes
  unit : n.offset.toNat + n.size.toNat ≤ size.toNat
  nonempty : 1 ≤ n.size.toNat
  header : n.HeaderOk

section
variable {n : Nalu} {size : Word} (h : n.Inside size)
include h

theorem Nalu.Inside.resized {k : Word} (hk : n.offset.toNat + k.toNat ≤ size.toNat) :
    naluOk { n with size := k } = true := by
  obtain ⟨buffer, -, -, header⟩ := h
  exact naluOk_iff.2 fun _ => ⟨by dsimp only; omega, header⟩

theorem Nalu.Inside.naluOk : naluOk n = true := h.resized h.unit

/-- The size of a unit is set to one that is not past the end (R146, R147). -/
theorem Nalu.Inside.annexbEnd (m : Memory) : Machine.naluOk (annexbEnd m size n).2 = true := by
  unfold Machine.annexbEnd
  split
  · exact h.resized ((Nat.add_le_add_left h.nonempty _).trans h.unit)
  · cases hs : Machine.scanStartCode m (n.base + n.offset) (size.toNat - n.offset.toNat) with
    | none => exact h.naluOk
    | some off2 =>
      have := scanStartCode_within hs
      have := toNat_ofNat_le (w := 32) (trimZeros_le m (n.base + n.offset) off2)
      exact h.resized (by omega)

theorem Nalu.Inside.fourByteStart (m : Memory) : (fourByteStart m n).Inside size := by
  rw [fourByteStart_eq]; exact { h with }

end

section
variable {m : Memory} {base offset size : Word}

/-- A unit of the first `size` bytes whose header is parsed. -/
theorem inside_of_parseHeader {n : Nalu} (buffer : n.base.toNat + size.toNat ≤ Config.bufferBytes)
    (unit : n.offset.toNat + n.size.toNat ≤ size.toNat) (h : (parseHeader m n).1 = true) :
    Nalu.Inside { (parseHeader m n).2 with valid := true } size := by
  obtain ⟨header, nonempty⟩ := parseHeader_headerOk h
  obtain ⟨-, hsize⟩ := parseHeader_valid_size m n
  obtain ⟨hbase, -, hoffset⟩ := parseHeader_frame m n
  exact ⟨by simpa only [hbase], by simpa only [hoffset, hsize], by simpa only [hsize], header⟩

theorem identifyAnnexb_naluOk (hfit : base.toNat + size.toNat ≤ Config.bufferBytes) :
    naluOk (identifyAnnexb m base offset size).2 = true := by
  by_cases h4 : size.toNat < offset.toNat + 4
  · rw [identifyAnnexb_short h4]; rfl
  cases hs : scanStartCode m (base + offset) (size.toNat - offset.toNat) with
  | none => rw [identifyAnnexb_none (by omega) (scanStartCode_eq_none_iff.1 hs)]; rfl
  | some off1 =>
    have := scanStartCode_within hs
    rw [identifyAnnexb_found (by omega) (scanStartCode_eq_some_iff.1 hs)]
    split
    · rename_i hp
      exact ((inside_of_parseHeader hfit (by simp only [unitAt]; bv_omega) hp).fourByteStart m).annexbEnd m
    · exact naluOk_of_invalid (parseHeader_valid_size _ _).1

theorem identifyAvc_naluOk {k : BitVec 8} (hfit : base.toNat + size.toNat ≤ Config.bufferBytes) :
    naluOk (identifyAvc m k base offset size).2 = true := by
  by_cases hk : size.toNat < offset.toNat + k.toNat
  · rw [identifyAvc_short hk]; rfl
  rw [identifyAvc_prefix (Nat.not_lt.1 hk) rfl]
  split
  · rfl
  split
  · rename_i hin hp
    exact (inside_of_parseHeader (size := size) hfit (by simp only [unitAfterPrefix]; bv_omega) hp).naluOk
  · exact naluOk_of_invalid (parseHeader_valid_size _ _).1

end

theorem exec_naluOk {i : Instr} {s t : State} (h : exec i s = .next t) (ok : naluOk s.nalu = true) :
    naluOk t.nalu = true := by
  cases hl : operandsIllegal i s with
  | true => rwa [← exec_unique (exec_illegal hl) h]
  | false =>
    cases i with
    | identifyAnnexb =>
      rw [← exec_unique (exec_identifyAnnexb hl) h]
      obtain ⟨hfit, -⟩ := not_or.1 (of_decide_eq_false hl)
      exact identifyAnnexb_naluOk (Nat.not_lt.1 hfit)
    | identifyAvc m =>
      rw [← exec_unique (exec_identifyAvc hl) h]
      have legal := of_decide_eq_false hl
      exact identifyAvc_naluOk (Nat.not_lt.1 fun past => legal (.inr (.inr (.inl past))))
    | _ => rwa [exec_keepsNalu h rfl]

/-! ## The reader's window (20_memory.md R60) -/

theorem windowPast_eq_false {base size : Word} :
    windowPast base size = false ↔ base.toNat + size.toNat ≤ Config.bufferBytes := by
  simp [windowPast]

/-- The payload of a NAL unit of the buffer is in the buffer; an empty one at its end has base 0 (log 10). -/
theorem payload_window {n : Nalu} (ok : naluOk n = true) (ready : naluReady n = true) :
    windowPast (payloadBase n) (payloadSize n) = false := by
  simp only [naluReady, Bool.and_eq_true, decide_eq_true_eq] at ready
  obtain ⟨valid, hle⟩ := ready
  obtain ⟨fits, -⟩ := naluOk_iff.1 ok valid
  rw [windowPast_eq_false, payloadBase, payloadSize]
  bv_omega

/-- A parse command is turned away, or its reader is over the payload. -/
theorem exec_parses_window {i : Instr} {s t : State} (hi : parses i = true) (h : exec i s = .next t) :
    t.br_base = s.br_base ∧ t.br_size = s.br_size ∨
      naluReady s.nalu = true ∧ t.br_base = payloadBase s.nalu ∧ t.br_size = payloadSize s.nalu := by
  have ends {R : Type} {zero : R} {body : Stream → Parse R Unit} {write store : State → R → State}
      (hw : ∀ u r, State.SameReader u (write u r)) (hs : ∀ u r, State.SameReader u (store u r)) :
      let t := s.parse zero body write store
      t.br_base = s.br_base ∧ t.br_size = s.br_size ∨
        naluReady s.nalu = true ∧ t.br_base = payloadBase s.nalu ∧ t.br_size = payloadSize s.nalu := by
    rcases State.parse_cases s zero body write store with ⟨-, e⟩ | ⟨ready, p, -, e⟩ | ⟨ready, c, p, -, e⟩
    · rw [e]; exact .inl ⟨rfl, rfl⟩
    · obtain ⟨-, base, size, -⟩ := (hw _ _).trans (hs _ _)
      rw [e]; exact .inr ⟨ready, base, size⟩
    · obtain ⟨-, base, size, -⟩ := hw _ _
      rw [e]; exact .inr ⟨ready, base, size⟩
  cases i with
  | parseSps | parseSubsetSps | parsePps | parseSliceHdr | parseSei =>
    obtain rfl := Host.Outcome.next.inj h
    exact ends (fun u _ => .refl u) fun u _ => .refl u
  | _ => cases hi

theorem exec_window {i : Instr} {s t : State} (h : exec i s = .next t) (ok : naluOk s.nalu = true)
    (window : windowPast s.br_base s.br_size = false) : windowPast t.br_base t.br_size = false := by
  cases hi : parses i with
  | true =>
    rcases exec_parses_window hi h with ⟨base, size⟩ | ⟨ready, base, size⟩
    · rwa [base, size]
    · rw [base, size]; exact payload_window ok ready
  | false =>
    by_cases hb : i = .brInit
    · subst hb
      cases hl : operandsIllegal .brInit s with
      | true => rwa [← exec_unique (exec_illegal hl) h]
      | false => rw [← exec_unique (exec_brInit hl) h]; exact hl
    · obtain ⟨base, size⟩ := exec_keepsWindow h hi hb
      rwa [base, size]

/-! ## Every step -/

theorem State.Inv.exec {i : Instr} {s t : State} (inv : s.Inv) (h : exec i s = .next t) : t.Inv := by
  obtain ⟨mem, store, window, nalu⟩ := inv
  exact ⟨exec_keepsMem h ▸ mem, exec_storeOk h store, exec_window h nalu window, exec_naluOk h nalu⟩

theorem State.reset_inv : State.reset.Inv := ⟨rfl, by decide⟩

theorem State.Inv.hostAccess {s : State} (inv : s.Inv) (op : HostOp) : (s.hostAccess op).Inv := by
  obtain ⟨mem, rest⟩ := inv
  cases op with
  | cmd w => exact ⟨mem, rest⟩
  | arg k v => fin_cases k <;> exact ⟨mem, rest⟩
  | buf a b => exact ⟨Memory.wf_store mem a b, rest⟩
  | reset => exact ⟨mem, State.reset_inv.2⟩

/-- Settles O16: a command keeps each of the four, and so does an access of the host. -/
theorem stepKeepsInv : Obligations.StepKeepsInv := by
  intro s t inv h
  have popped : s.popHost.Inv := inv
  rcases step_cases h with ⟨-, rfl⟩ | ⟨w, rest, i, -, -, he⟩ | ⟨w, rest, e, -, -, rfl⟩ | ⟨op, rest, -, -, rfl⟩
  · exact inv
  · exact popped.exec he
  · exact popped
  · exact popped.hostAccess op

end Sys2Proof.Machine
end

section
/-! How every command ends (60_exceptions.md R400 to R404): in a next state, with a status code of its row of the table
of causes, and without a write of the store where the code is not `OK`. -/

namespace Sys2Proof.Machine

/-- Settles O10: a command writes the registers and records of its family alone, and these are of none. -/
theorem everyCommandEnds : Obligations.EveryCommandEnds := by
  intro i s
  obtain ⟨t, h, -⟩ := exec_ends i s
  refine ⟨t, h, ?_⟩
  rw [exec_frame h]
  exact ⟨fun _ => rfl, rfl, rfl, rfl, rfl, rfl, rfl, rfl⟩

/-- A command whose operands can be illegal has `ILLEGAL` in its row (R401). -/
theorem illegal_mem_codesOf {i : Instr} {s : State} (h : operandsIllegal i s = true) : Code.illegal ∈ codesOf i := by
  cases i with
  | brInit | brRead | brPeek | brSkip | scanStartCode | identifyAnnexb | identifyAvc => simp [codesOf]
  | _ => cases h

/-- Settles O11: with illegal operands a command ends with `ILLEGAL`, with legal ones with another code of its row. -/
theorem statusCodes : Obligations.StatusCodes := by
  intro i s t h
  cases hl : operandsIllegal i s with
  | true =>
    obtain rfl := exec_unique (exec_illegal hl) h
    exact illegal_mem_codesOf hl
  | false =>
    obtain ⟨u, hu, hcode, -⟩ := exec_legal_code hl
    rwa [exec_unique hu h] at hcode

/-- Settles O47: a command of another kind does not write the store, and a parse of its kind only on success. -/
theorem onlySuccessStores : Obligations.OnlySuccessStores := by
  refine fun i s t h => ⟨fun hsps => ?_, fun hpps => ?_⟩
  · cases hi : parsesSps i with
    | false => exact exec_keepsSps h hi
    | true => exact exec_failed_keepsSps h hi (hsps.resolve_right (by simp [hi]))
  · by_cases hi : i = .parsePps
    · exact exec_failed_keepsPps h hi (hpps.resolve_right (not_not.2 hi))
    · exact exec_keepsPps h hi

end Sys2Proof.Machine
end

section
/-! The valid flags (60_exceptions.md R405): a parse marks its record with its last write, and a locator command marks
the NALU record once its header is parsed. -/

namespace Sys2Proof.Machine

/-! ## A parse that marks its record last -/

/-- From a record that has `P`, a parse that fails leaves one that has `P`. -/
def FailsKeeping {R α : Type} (P : R → Prop) (m : Parse R α) : Prop :=
  ∀ st c e, P st.out → m st = .error c e → P e.out

section
variable {R α β : Type} {P : R → Prop}

/-- Only the last part may write a record without `P`. -/
theorem FailsKeeping.bind {m : Parse R α} {k : α → Parse R β} (h1 : Keeps P m) (h2 : ∀ a, FailsKeeping P (k a)) :
    FailsKeeping P (m >>= k) := by
  intro st c e hp hk
  have h1 := h1.preserves st hp
  cases hm : m st with
  | ok a e1 =>
    rw [hm] at h1
    rw [Parse.bind_ok hm] at hk
    exact h2 a e1 c e h1 hk
  | error c1 e1 =>
    rw [hm] at h1
    rw [Parse.bind_error hm] at hk
    cases hk
    exact h1

theorem FailsKeeping.look {k : R → Parse R α} (h : ∀ r, FailsKeeping P (k r)) : FailsKeeping P (look >>= k) :=
  .bind (.of fun _ hp => hp) h

/-- A write does not fail. -/
theorem FailsKeeping.put (f : R → R) : FailsKeeping P (put f) := nofun

/-- A parse command that does not end with `OK` leaves a record that its body has failed with. -/
theorem State.parse_failsKeeping {zero : R} {body : Stream → Parse R Unit} {write store : State → R → State}
    {s : State} (ready : naluReady s.nalu = true) (keeps : FailsKeeping P (body s.payloadStream))
    (hc : (s.parse zero body write store).status.code ≠ .ok) (hz : P zero) :
    ∃ rd out c, P out ∧ s.parse zero body write store =
      (write (s.withReader (payloadBase s.nalu) (payloadSize s.nalu) s.payloadStream rd) out).finish c rd.warn := by
  rcases State.parse_cases s zero body write store with ⟨unready, -⟩ | ⟨-, p, -, e⟩ | ⟨-, c, p, hb, e⟩
  · rw [ready] at unready; cases unready
  · rw [e] at hc; exact absurd rfl hc
  · exact ⟨p.rd, p.out, c, keeps _ _ _ hz hb, e⟩

end

/-- The record is not marked valid. -/
def Sps.Unmarked (r : Sps) : Prop := r.valid = false

/-- The record is not marked valid. -/
def Pps.Unmarked (r : Pps) : Prop := r.valid = false

theorem spsData_keepsUnmarked (v : Bool) : Keeps Sps.Unmarked (spsData v) := by
  unfold spsData spsIdentity spsChroma spsFrame spsPicOrderCount offsetForRefFrame
  repeat' first | assumption | intro _ | with_reducible constructor

theorem subsetBody_keepsUnmarked : Keeps Sps.Unmarked subsetBody := by
  unfold subsetBody
  repeat' first | assumption | intro _ | with_reducible constructor

theorem spsDerivations_keepsUnmarked : Keeps Sps.Unmarked spsDerivations := by
  unfold spsDerivations
  repeat' first | assumption | intro _ | with_reducible constructor

theorem ppsBody_keepsUnmarked (cap : Nat) (q : Sps) : Keeps Pps.Unmarked (ppsBody cap q) := by
  unfold ppsBody ppsSliceGroups ppsRectangle ppsSliceGroupIds
  repeat' first | assumption | intro _ | with_reducible constructor

theorem ppsTail_keepsUnmarked (q : Sps) : Keeps Pps.Unmarked (ppsTail q) := by
  unfold ppsTail
  repeat' first | assumption | intro _ | with_reducible constructor

theorem spsSyntax_failsUnmarked (v : Bool) : FailsKeeping Sps.Unmarked (spsSyntax v) :=
  .bind (spsData_keepsUnmarked v) fun _ => .bind spsDerivations_keepsUnmarked fun _ => .put _

theorem subsetSpsSyntax_failsUnmarked : FailsKeeping Sps.Unmarked subsetSpsSyntax :=
  .bind (spsData_keepsUnmarked true) fun _ => .bind subsetBody_keepsUnmarked fun _ =>
    .bind spsDerivations_keepsUnmarked fun _ => .put _

theorem ppsSyntax_failsUnmarked (cap : Nat) (sps : Table Sps) : FailsKeeping Pps.Unmarked (ppsSyntax cap sps) :=
  .bind (.elemUeMax fun _ _ h => h) fun _ => .bind (.elemUeMax fun _ _ h => h) fun _ => .look fun _ =>
    .bind (.require _ _) fun _ => .bind (.put fun _ h => h) fun _ => .bind (ppsBody_keepsUnmarked _ _) fun _ =>
    .bind (ppsTail_keepsUnmarked _) fun _ => .put _

section
variable {i : Instr} {s t : State} (h : exec i s = .next t) (ready : naluReady s.nalu = true)
include h ready

theorem exec_failed_wsps (hi : parsesSps i = true) (hc : t.status.code ≠ .ok) : t.wsps.valid = false := by
  cases i with
  | parseSps v =>
    obtain rfl := Host.Outcome.next.inj h
    obtain ⟨rd, out, c, unmarked, e⟩ :=
      State.parse_failsKeeping (P := Sps.Unmarked) ready (spsSyntax_failsUnmarked v) hc rfl
    rw [e]; exact unmarked
  | parseSubsetSps =>
    obtain rfl := Host.Outcome.next.inj h
    obtain ⟨rd, out, c, unmarked, e⟩ :=
      State.parse_failsKeeping (P := Sps.Unmarked) ready subsetSpsSyntax_failsUnmarked hc rfl
    rw [e]; exact unmarked
  | _ => cases hi

theorem exec_failed_wpps (hi : i = .parsePps) (hc : t.status.code ≠ .ok) : t.wpps.valid = false := by
  subst hi
  obtain rfl := Host.Outcome.next.inj h
  obtain ⟨rd, out, c, unmarked, e⟩ :=
    State.parse_failsKeeping (P := Pps.Unmarked) ready (ppsSyntax_failsUnmarked _ _) hc rfl
  rw [e]; exact unmarked

theorem exec_wsps_valid_iff (hi : parsesSps i = true) : t.wsps.valid = true ↔ t.status.code = .ok := by
  by_cases hc : t.status.code = .ok
  · obtain ⟨valid, -⟩ := exec_storesWsps h hi hc
    exact iff_of_true valid hc
  · exact iff_of_false (Bool.eq_false_iff.1 (exec_failed_wsps h ready hi hc)) hc

theorem exec_wpps_valid_iff (hi : i = .parsePps) : t.wpps.valid = true ↔ t.status.code = .ok := by
  by_cases hc : t.status.code = .ok
  · obtain ⟨valid, -⟩ := exec_storesWpps h hi hc
    exact iff_of_true valid hc
  · exact iff_of_false (Bool.eq_false_iff.1 (exec_failed_wpps h ready hi hc)) hc

end

/-! ## The NALU record (41_nal_locator.md R161, R162) -/

section
variable (m : Memory) (base offset size : Word)

theorem annexbEnd_valid (n : Nalu) : (annexbEnd m size n).2.valid = n.valid := by
  unfold annexbEnd
  split
  · rfl
  · split <;> rfl

theorem fourByteStart_valid (n : Nalu) : (fourByteStart m n).valid = n.valid := by
  rw [fourByteStart_eq]

/-- The record is marked once its header is parsed, before the unit's end is searched for (R161). -/
theorem identifyAnnexb_valid : let r := identifyAnnexb m base offset size
    (r.1 = .ok ∨ r.1 = .noNalEnd → r.2.valid = true) ∧ (r.1 = .error ∨ r.1 = .noNal → r.2.valid = false) := by
  by_cases h4 : size.toNat < offset.toNat + 4
  · rw [identifyAnnexb_short h4]; simp
  cases hs : scanStartCode m (base + offset) (size.toNat - offset.toNat) with
  | none => rw [identifyAnnexb_none (Nat.not_lt.1 h4) (scanStartCode_eq_none_iff.1 hs)]; simp
  | some off1 =>
    rw [identifyAnnexb_found (Nat.not_lt.1 h4) (scanStartCode_eq_some_iff.1 hs)]
    split
    · refine ⟨fun _ => by rw [annexbEnd_valid, fourByteStart_valid], fun hc => ?_⟩
      have code := annexbEnd_code m size
        (fourByteStart m { (parseHeader m (unitAt base size (offset + BitVec.ofNat 32 off1))).2 with valid := true })
      rcases hc with hc | hc <;> simp [hc] at code
    · simp

/-- The record is marked where its header is parsed, and that ends the command (R162). -/
theorem identifyAvc_valid_iff (k : BitVec 8) : let r := identifyAvc m k base offset size
    r.2.valid = true ↔ r.1 = .ok := by
  by_cases hk : size.toNat < offset.toNat + k.toNat
  · rw [identifyAvc_short hk]; simp
  rw [identifyAvc_prefix (Nat.not_lt.1 hk) rfl]
  split
  · simp [unitAfterPrefix]
  split
  · simp
  · simp [(parseHeader_valid_size _ _).1, unitAfterPrefix]

end

/-- Settles O46: a parse marks its record with its last write, and a locator command one whose header is parsed. -/
theorem validIsTheGate : Obligations.ValidIsTheGate := by
  intro i s t h
  refine ⟨fun hi ready => exec_wsps_valid_iff h ready hi, fun hi ready => exec_wpps_valid_iff h ready hi, ?_, ?_⟩
  · rintro m rfl legal
    rw [← exec_unique (exec_identifyAvc legal) h]
    exact identifyAvc_valid_iff _ _ _ _ _
  · rintro rfl legal
    rw [← exec_unique (exec_identifyAnnexb legal) h]
    exact identifyAnnexb_valid _ _ _ _

end Sys2Proof.Machine
end

section
/-! A failed read and a failed check inside a parse command (60_exceptions.md R406, R407): the status, `BR_FAIL`, and
where the reader stands. -/

namespace Sys2Proof.Machine

/-! ## `BR_FAIL` after a parse -/

section
variable {R : Type} {zero : R} {body : Stream → Parse R Unit} {write store : State → R → State} {s : State}

/-- A write that leaves the reader's position and failure alone. -/
def KeepsFailure (write : State → R → State) : Prop :=
  ∀ s r, (write s r).br_pos = s.br_pos ∧ (write s r).br_fail = s.br_fail

/-- A parse that leaves `BR_FAIL` set has failed where an element cannot be read. -/
theorem State.parse_brFail {cs : List Code} {w : Bool} (ready : naluReady s.nalu = true)
    (sound : Sound cs w (body s.payloadStream)) (hw : KeepsFailure write) (hs : KeepsFailure store) :
    let t := s.parse zero body write store
    t.br_fail = true → t.status.code = .error ∧ unreadable (s.payloadBits.drop t.br_pos) := by
  intro t fail
  have hr := sound.reader_at (zero := zero)
  rcases State.parse_cases s zero body write store with ⟨unready, -⟩ | ⟨-, p, hb, e⟩ | ⟨-, c, p, hb, e⟩
  · rw [ready] at unready; cases unready
  · rw [hb] at hr
    obtain ⟨-, unfailed, -⟩ := hr
    rw [show t = _ from e, State.finish_br_fail, (hs _ _).2, (hw _ _).2] at fail
    exact absurd (unfailed.symm.trans fail) Bool.false_ne_true
  · rw [hb] at hr
    obtain ⟨-, -, failed, -⟩ := hr
    obtain ⟨hpos, hfail⟩ := hw (s.withReader (payloadBase s.nalu) (payloadSize s.nalu) s.payloadStream p.rd) p.out
    rw [show t = _ from e] at fail ⊢
    obtain ⟨hc, stuck⟩ := failed (hfail.symm.trans fail)
    exact ⟨hc, by rw [State.finish_br_pos, hpos]; exact stuck.unreadable⟩

end

theorem exec_brFail {i : Instr} {s t : State} (hi : parses i = true) (ready : naluReady s.nalu = true)
    (h : exec i s = .next t) (fail : t.br_fail = true) :
    t.status.code = .error ∧ unreadable (s.payloadBits.drop t.br_pos) := by
  cases i with
  | parseSps v =>
    obtain rfl := Host.Outcome.next.inj h
    exact State.parse_brFail ready (spsSyntax_sound (cs := [.error]) (by decide) v) (fun _ _ => ⟨rfl, rfl⟩)
      (fun _ _ => ⟨rfl, rfl⟩) fail
  | parseSubsetSps =>
    obtain rfl := Host.Outcome.next.inj h
    exact State.parse_brFail ready (subsetSpsSyntax_sound (cs := [.error]) (by decide)) (fun _ _ => ⟨rfl, rfl⟩)
      (fun _ _ => ⟨rfl, rfl⟩) fail
  | parsePps =>
    obtain rfl := Host.Outcome.next.inj h
    exact State.parse_brFail (w := false) ready
      (ppsSyntax_sound (cs := [.brokenLink, .error]) (by decide) (by decide) _ _) (fun _ _ => ⟨rfl, rfl⟩)
      (fun _ _ => ⟨rfl, rfl⟩) fail
  | parseSliceHdr =>
    obtain rfl := Host.Outcome.next.inj h
    exact State.parse_brFail (w := false) ready
      (sliceSyntax_sound (cs := [.brokenLink, .brokenData, .error]) (by decide) (by decide) (by decide) _ _ _ _)
      (fun _ _ => ⟨rfl, rfl⟩) (fun _ _ => ⟨rfl, rfl⟩) fail
  | parseSei =>
    obtain rfl := Host.Outcome.next.inj h
    exact State.parse_brFail ready (seiLoop_sound (cs := [.brokenLink, .error]) (by decide) (by decide) _ _ _)
      (fun _ _ => ⟨rfl, rfl⟩) (fun _ _ => ⟨rfl, rfl⟩) fail
  | _ => cases hi

/-! ## The failures of each command -/

section
variable {s : State} (ready : naluReady s.nalu = true) {bits rest : List Bool} {fail : Bool}
include ready

theorem exec_parseSps_fails {v : Bool} (hb : s.payloadBits = bits ++ rest)
    (h : Fails (spsSyntax v) 0 bits rest {} fail) : endsInError (exec (.parseSps v) s) bits.length fail :=
  Fails.command ready hb h fun _ _ => ⟨rfl, rfl⟩

theorem exec_parsePps_fails (hb : s.payloadBits = bits ++ rest)
    (h : Fails (ppsSyntax s.params.sgidCap s.sps) 0 bits rest {} fail) :
    endsInError (exec .parsePps s) bits.length fail :=
  Fails.command ready hb h fun _ _ => ⟨rfl, rfl⟩

theorem exec_parseSliceHdr_fails (hb : s.payloadBits = bits ++ rest)
    (h : Fails (sliceSyntax s.nalu s.sps s.pps s.payloadStream) 0 bits rest {} fail) :
    endsInError (exec .parseSliceHdr s) bits.length fail :=
  Fails.command ready hb h fun _ _ => ⟨rfl, rfl⟩

theorem exec_parseSei_fails (hb : s.payloadBits = bits ++ rest)
    (h : Fails (seiLoop s.sps s.last_sps s.params.seiCap) 0 bits rest {} fail) :
    endsInError (exec .parseSei s) bits.length fail :=
  Fails.command ready hb h fun _ _ => ⟨rfl, rfl⟩

/-- A failure in the first rows of an SPS ends both commands that parse one. -/
theorem exec_spsIdentity_fails {i : Instr} (hi : parsesSps i = true) (hb : s.payloadBits = bits ++ rest)
    (h : Fails spsIdentity 0 bits rest {} fail) : endsInError (exec i s) bits.length fail := by
  cases i with
  | parseSps v => exact exec_parseSps_fails ready hb h.first.first
  | parseSubsetSps => exact Fails.command ready hb h.first.first fun _ _ => ⟨rfl, rfl⟩
  | _ => cases hi

theorem exec_spsErrors {i : Instr} (hi : parsesSps i = true) : spsErrors s i := by
  refine ⟨fun short => ?_, fun head rest hl none hb => ?_, fun head k rest hl big hk hb => ?_, ?_⟩
  · exact exec_spsIdentity_fails ready hi (List.nil_append _).symm (Fails.getU short).first.first
  · have := exec_spsIdentity_fails ready hi hb
      (Fails.congr (spsIdentity_fails hl fun _ _ => Fails.elemUeMax_read none) (List.append_nil _))
    rwa [hl] at this
  · have := exec_spsIdentity_fails ready hi hb (spsIdentity_fails hl fun _ _ => Fails.elemUeMax hk (by omega))
    rwa [List.length_append, hl] at this
  · rintro q vui reserved c rest rfl codable size hb
    exact exec_parseSps_fails ready hb (spsSyntax_tooBig codable size)

theorem exec_ppsErrors : ppsErrors s :=
  ⟨fun none => exec_parsePps_fails ready (List.nil_append _).symm (Fails.elemUeMax_read none).first,
    fun _ _ big hk hb => exec_parsePps_fails ready hb (Fails.elemUeMax hk (by omega)).first,
    fun _ _ valid six ok full hb => exec_parsePps_fails ready hb (ppsSyntax_tooManyUnits valid six ok full)⟩

theorem exec_sliceErrors : sliceErrors s := by
  refine ⟨fun first rest ok none hb => ?_, fun first k rest ok big hk hb => ?_, ?_⟩
  · exact exec_parseSliceHdr_fails ready hb
      (Fails.congr ((ueOk_code ok).fails (Fails.elemUeMax_read none).first) (List.append_nil _))
  · exact exec_parseSliceHdr_fails ready hb ((ueOk_code ok).fails (Fails.elemUeMax hk (by omega)).first)
  · intro r f code rest x list0 list1 marking vp vq ext ok
    refine ⟨fun hI hSI full hc hb => ?_, fun hB full hc hb => ?_, fun href hidr full h1 h6 hb => ?_⟩
    · exact exec_parseSliceHdr_fails ready hb
        (Fails.congr (sliceSyntax_overflows0 (x := x) rfl rfl vp vq ext ok hI hSI full hc) (by simp [list0]))
    · exact exec_parseSliceHdr_fails ready hb
        (Fails.congr (sliceSyntax_overflows1 (x := x) rfl rfl vp vq ext ok hB full hc) (by simp [list1]))
    · exact exec_parseSliceHdr_fails ready hb (Fails.congr
        (sliceSyntax_overflowsMarking (x := x) (f := f) rfl rfl vp vq ext ok href hidr full h1 h6) (by simp [marking]))

theorem exec_seiErrors : seiErrors s := by
  refine ⟨fun room => ⟨fun n rest short hb => ?_, fun type rest big hb => ?_, fun type size rest ht big hb => ?_⟩, ?_⟩
  · have := exec_parseSei_fails ready hb (seiLoop_first (x := s.seiContext) room (seiCode_fails n short).first)
    rwa [List.length_replicate] at this
  · exact exec_parseSei_fails ready hb (seiLoop_first (x := s.seiContext) room (seiMessage_typeTooBig big))
  · exact exec_parseSei_fails ready hb (seiLoop_first (x := s.seiContext) room (seiMessage_sizeTooBig ht big))
  · intro cs c rest x full codable hb
    refine exec_parseSei_fails (rest := c.bits x ++ rest) ready (by simp [hb, seiBits]) ?_
    rw [← full]
    exact seiLoop_overflows cs rfl codable

end

/-- Settles O43: a sound parse sets `BR_FAIL` only where it cannot read, and each failure of a part is its command's. -/
theorem brFailOnlyWithError : Obligations.BrFailOnlyWithError := fun _ _ hi ready =>
  ⟨fun _ h fail => exec_brFail hi ready h fail, fun hsps => exec_spsErrors ready hsps, fun _ => exec_ppsErrors ready,
    fun _ => exec_sliceErrors ready, fun _ => exec_seiErrors ready⟩

end Sys2Proof.Machine
end

section
/-! Reset (70_reset_and_hazards.md R430), and the one bit reader, which every parse command re-initialises (R441). -/

namespace Sys2Proof.Machine

/-! ## Reset -/

/-- Settles O8: every field of the reset state is at its default, and a slot nothing is stored in is the zero record. -/
theorem resetState : Obligations.ResetState := by
  have sps (id : Nat) : spsSlot State.reset.sps id = {} := rfl
  have pps (id : Nat) : ppsSlot State.reset.pps id = {} := rfl
  exact ⟨rfl, rfl, rfl, rfl, rfl, rfl, rfl, rfl, rfl, rfl, rfl, rfl, rfl, rfl, rfl, rfl, rfl, rfl, rfl,
    fun id => ⟨sps id, rfl⟩, fun id => ⟨pps id, rfl⟩, rfl, rfl, rfl, rfl, fun _ => rfl⟩

/-- Zero records, and stores without a slot, are within every capacity. -/
theorem State.reset_fits : State.reset.Fits :=
  { slice := Slice.zero_fits, wsps := Sps.zero_fits, sps := fun _ h => (List.not_mem_nil h).elim
    wpps := Pps.zero_fits _, pps := fun _ h => (List.not_mem_nil h).elim, sei := ⟨rfl, Nat.zero_le _⟩ }

/-- Settles O15: the reset state's reader is at the start of an empty window, and its arrays are empty. -/
theorem invAtReset : Obligations.InvAtReset :=
  ⟨State.reset_inv, State.reset.powerOn_readerOk, State.capacityOk_iff_fits.2 State.reset_fits⟩

/-! ## The reader after a parse command -/

section
variable {i : Instr} {s t : State} (hi : parses i = true) (ready : naluReady s.nalu = true)
include hi ready

/-- A parse command re-initialises the reader (R441): whatever window it was over, the command ends alike. -/
theorem exec_parses_brInit (base size : Word) : exec i (s.brInit base size) = exec i s := by
  cases i with
  | parseSps | parseSubsetSps | parsePps | parseSliceHdr | parseSei =>
    exact congrArg Host.Outcome.next (State.parse_congr ready rfl rfl fun _ _ _ _ _ => rfl)
  | _ => cases hi

theorem exec_parses_payload (h : exec i s = .next t) :
    t.br_base = payloadBase s.nalu ∧ t.br_size = payloadSize s.nalu ∧ t.ReaderOk := by
  rw [← exec_parses_brInit hi ready (payloadBase s.nalu) (payloadSize s.nalu)] at h
  have ok : t.ReaderOk := (endsAs_of_exec h).readerOk (s.brInit_readerOk _ _)
  obtain ⟨base, size⟩ | ⟨-, base, size⟩ := exec_parses_window hi h <;> exact ⟨base, size, ok⟩

end

/-- Settles O42: the parse begins over its payload, and what keeps the reader's invariant keeps it to the end. -/
theorem readerAfterParse : Obligations.ReaderAfterParse := by
  intro i s t hi ready h
  obtain ⟨base, size, within, epb⟩ := exec_parses_payload hi ready h
  have stream : t.stream = s.payloadStream := by
    rw [State.stream, exec_keepsMem h, base, size, State.payloadStream]
  refine ⟨base, size, ?_, stream ▸ epb within⟩
  rw [State.payloadBits, length_logicalBits, ← stream]
  exact within

end Sys2Proof.Machine
end
